-- ==== Sys2Proof/Word.lean ====
section
/-! DEFINITION. The bit-vector types of the commP engine (spec 00_scope.md rules R8, R9; 30_encoding.md rules R71, R84). -/

namespace Sys2Proof

/-- A stream byte, bits 7 (most significant) to 0 (rule R9). -/
abbrev Byte := BitVec 8

/-- A node: 32 bytes, node bit `k` being bit `k mod 8` of byte `k div 8` (rule R9), so node byte `j` is bits `8j+7 .. 8j`. -/
abbrev Node := BitVec 256

/-- A layer token `T`: `T[256]` is `TAG`, `T[255:0]` the node (rule R84). -/
abbrev Token := BitVec 257

/-- A command word `CW` (rule R71). -/
abbrev CmdWord := BitVec 64

/-- The 56-bit operand field `ARG` of a command word (rule R71). -/
abbrev Arg := BitVec 56

/-- A 64-bit count or size (rule R8). -/
abbrev Size := BitVec 64

end Sys2Proof
end

