-- ==== Sys2Proof/Machine/Flags.lean ====
section
/-! DEFINITION. The status codes of a response (rule R210) and the opcodes (rule R78). The block has no condition flags: an
error is reported in the status byte only (rule R31). -/

namespace Sys2Proof.Machine

/-- The status of a response (rule R210). -/
inductive Status where
  | ok
  | overflowExceeded
  | insufficientInput
  | invalidCommpLength
  | notPowerOfTwo
  | targetTooSmall
  | sourceBelowMinimum
  | targetAboveMaximum
  | illegalCommand
  | fatal
deriving DecidableEq, Repr

/-- The code of a status (rule R210). -/
def Status.code : Status → Byte
  | .ok => 0x00#8
  | .overflowExceeded => 0x01#8
  | .insufficientInput => 0x02#8
  | .invalidCommpLength => 0x03#8
  | .notPowerOfTwo => 0x04#8
  | .targetTooSmall => 0x05#8
  | .sourceBelowMinimum => 0x06#8
  | .targetAboveMaximum => 0x07#8
  | .illegalCommand => 0x08#8
  | .fatal => 0x09#8

/-- InternalFault: a `FATAL_CAUSE`, never a status (rule R210). -/
def internalFaultCode : Byte := 0x0A#8

def opcWrite : Byte := 0x01#8
def opcExtend : Byte := 0x05#8

end Sys2Proof.Machine
end

