-- ==== Sys2Proof/Machine/Bytes.lean ====
section
/-! DEFINITION. Byte order: little-endian integers on the streams and byte `j` of a node (rules R9, R10, R54, R84). -/

namespace Sys2Proof.Machine

/-- `Σ b[i] << 8i`: the number a little-endian byte string stands for (rule R10, `from_le64`, for any length). -/
def leNat : List Byte → Nat
  | [] => 0
  | b :: bs => b.toNat + 256 * leNat bs

/-- The `n` low bytes of `v`, least significant first (rule R10, `le64`, for any length). -/
def leBytes : Nat → Nat → List Byte
  | 0, _ => []
  | n + 1, v => BitVec.ofNat 8 v :: leBytes n (v / 256)

/-- `le64(v)` (rule R10). -/
def le64 (v : Size) : List Byte := leBytes 8 v.toNat

/-- `from_le64(b[0..7])` (rule R10). -/
def fromLe64 (bs : List Byte) : Size := BitVec.ofNat 64 (leNat bs)

/-- The bytes of a node, byte 0 first (rules R54, R84). -/
def nodeBytes (n : Node) : List Byte := leBytes 32 n.toNat

/-- The node whose bytes, byte 0 first, are the given 32 (rules R9, R84). -/
def nodeOfBytes (bs : List Byte) : Node := BitVec.ofNat 256 (leNat bs)

/-- Clear node bits 254 and 255, that is `n[31] <- n[31] & 0x3F` (rules R9, R107). -/
def maskTop (n : Node) : Node := (n.setWidth 254).setWidth 256

/-- The Fr32 invariant `n[31] & 0xC0 = 0` (rules R14, R26). -/
def isFr32 (n : Node) : Bool := n.extractLsb' 254 2 == 0#2

end Sys2Proof.Machine
end

