-- ==== Sys2Proof/Machine/Sha256.lean ====
section
/-! DEFINITION. `SHA256(m)`, the FIPS 180-4 hash of a byte string (rule R106; 93 G1, G2). PRESUMED: FIPS 180-4 is not among
the spec's sources, which name it and give check values (log entry 1). -/

namespace Sys2Proof.Machine

/-- A SHA-256 word. -/
abbrev Word32 := BitVec 32

/-- The eight working variables, or the eight hash words `H0 .. H7`. -/
structure ShaWords where
  a : Word32
  b : Word32
  c : Word32
  d : Word32
  e : Word32
  f : Word32
  g : Word32
  h : Word32
deriving DecidableEq, Repr

/-- The round constants, eight to a 256-bit number, the first of them in its top bits: the first 32 bits of the fractional parts of
the cube roots of the first 64 primes (Laws/Sha256.lean). -/
def shaConstantRows : List Nat :=
  [0x428a2f9871374491b5c0fbcfe9b5dba53956c25b59f111f1923f82a4ab1c5ed5,
   0xd807aa9812835b01243185be550c7dc372be5d7480deb1fe9bdc06a7c19bf174,
   0xe49b69c1efbe47860fc19dc6240ca1cc2de92c6f4a7484aa5cb0a9dc76f988da,
   0x983e5152a831c66db00327c8bf597fc7c6e00bf3d5a7914706ca635114292967,
   0x27b70a852e1b21384d2c6dfc53380d13650a7354766a0abb81c2c92e92722c85,
   0xa2bfe8a1a81a664bc24b8b70c76c51a3d192e819d6990624f40e3585106aa070,
   0x19a4c1161e376c082748774c34b0bcb5391c0cb34ed8aa4a5b9cca4f682e6ff3,
   0x748f82ee78a5636f84c878148cc7020890befffaa4506cebbef9a3f7c67178f2]

/-- The `i`-th of the eight words of a row. -/
def shaRowWord (row i : Nat) : Word32 := BitVec.ofNat 32 (row >>> (224 - 32 * i))

/-- The round constant of each of the 64 rounds. -/
def shaRoundConstants : List Word32 := shaConstantRows.flatMap fun row => (List.range 8).map (shaRowWord row)

/-- The initial hash words. -/
def shaInit : ShaWords :=
  { a := 0x6a09e667, b := 0xbb67ae85, c := 0x3c6ef372, d := 0xa54ff53a,
    e := 0x510e527f, f := 0x9b05688c, g := 0x1f83d9ab, h := 0x5be0cd19 }

/-- One round, with its constant and its schedule word. -/
def shaRound (s : ShaWords) (kw : Word32 × Word32) : ShaWords :=
  let sum1 := s.e.rotateRight 6 ^^^ s.e.rotateRight 11 ^^^ s.e.rotateRight 25
  let choice := (s.e &&& s.f) ^^^ (~~~ s.e &&& s.g)
  let t1 := s.h + sum1 + choice + kw.1 + kw.2
  let sum0 := s.a.rotateRight 2 ^^^ s.a.rotateRight 13 ^^^ s.a.rotateRight 22
  let majority := (s.a &&& s.b) ^^^ (s.a &&& s.c) ^^^ (s.b &&& s.c)
  { a := t1 + (sum0 + majority), b := s.a, c := s.b, d := s.c, e := s.d + t1, f := s.e, g := s.f, h := s.g }

/-- The message schedule, newest word first: `n` more words are put before the ones given. -/
def shaSchedule : Nat → List Word32 → List Word32
  | 0, w => w
  | n + 1, w =>
    let w15 := w.getD 14 0
    let w2 := w.getD 1 0
    let sigma0 := w15.rotateRight 7 ^^^ w15.rotateRight 18 ^^^ (w15 >>> 3)
    let sigma1 := w2.rotateRight 17 ^^^ w2.rotateRight 19 ^^^ (w2 >>> 10)
    shaSchedule n ((sigma1 + w.getD 6 0 + sigma0 + w.getD 15 0) :: w)

/-- The number a big-endian byte string stands for, after the digits `acc`. -/
def beNat : List Byte → Nat → Nat
  | [], acc => acc
  | b :: bs, acc => beNat bs (acc * 256 + b.toNat)

/-- The first `n` big-endian 32-bit words of a byte string. -/
def shaBlockWords : Nat → List Byte → List Word32
  | 0, _ => []
  | n + 1, bs => BitVec.ofNat 32 (beNat (bs.take 4) 0) :: shaBlockWords n (bs.drop 4)

/-- Compress one 64-byte block into the hash words. -/
def shaCompress (h : ShaWords) (block : List Byte) : ShaWords :=
  let w := (shaSchedule 48 (shaBlockWords 16 block).reverse).reverse
  let r := (shaRoundConstants.zip w).foldl shaRound h
  { a := h.a + r.a, b := h.b + r.b, c := h.c + r.c, d := h.d + r.d,
    e := h.e + r.e, f := h.f + r.f, g := h.g + r.g, h := h.h + r.h }

/-- Compress `n` blocks of 64 bytes, in order. -/
def shaBlocks : Nat → List Byte → ShaWords → ShaWords
  | 0, _, h => h
  | n + 1, bs, h => shaBlocks n (bs.drop 64) (shaCompress h (bs.take 64))

/-- The padded message: a byte `0x80`, zero bytes, and the bit length as 8 big-endian bytes, to a whole block. -/
def shaPad (m : List Byte) : List Byte :=
  m ++ [0x80#8] ++ List.replicate ((119 - m.length % 64) % 64) 0#8 ++ (leBytes 8 (8 * m.length)).reverse

/-- The four big-endian bytes of a word. -/
def shaWordBytes (w : Word32) : List Byte := (leBytes 4 w.toNat).reverse

/-- `SHA256(m)`, 32 bytes, the first byte being the most significant byte of `H0` (93 G2). -/
def sha256 (m : List Byte) : List Byte :=
  let h := shaBlocks ((shaPad m).length / 64) (shaPad m) shaInit
  [h.a, h.b, h.c, h.d, h.e, h.f, h.g, h.h].flatMap shaWordBytes

end Sys2Proof.Machine
end

