-- ==== Sys2Proof/Machine/Fr32.lean ====
section
/-! DEFINITION. The Fr32 expander (rules R100 to R105), the node hash (rule R107) and the nul-padding tower's contents (rule
R190). -/

namespace Sys2Proof.Machine

/-- Output byte `j` of EXPAND from the window (rule R101). All shifts are on bytes (rule R10). -/
def expandByte (win : List Byte) (j : Nat) : Byte :=
  let at_ (i : Nat) : Byte := win.getD i 0#8
  if j = 31 then at_ 31 &&& 0x3F#8
  else if j < 31 then at_ j
  else if j = 63 then ((at_ 63 <<< 2) ||| (at_ 62 >>> 6)) &&& 0x3F#8
  else if j < 63 then (at_ j <<< 2) ||| (at_ (j - 1) >>> 6)
  else if j = 95 then ((at_ 95 <<< 4) ||| (at_ 94 >>> 4)) &&& 0x3F#8
  else if j < 95 then (at_ j <<< 4) ||| (at_ (j - 1) >>> 4)
  else if j = 127 then at_ 126 >>> 2
  else (at_ j <<< 6) ||| (at_ (j - 1) >>> 2)

/-- EXPAND: the 128 output bytes for a 127-byte window (rule R101). -/
def expand (win : List Byte) : List Byte := (List.range 128).map (expandByte win)

/-- The four leaves `out[32k .. 32k+31]`, `k` = 0 to 3, in the order they are pushed (rule R105). -/
def expandLeaves (win : List Byte) : List Node :=
  (List.range 4).map fun k => nodeOfBytes (((expand win).drop (32 * k)).take 32)

/-- `x_j = (in[j div 8] >> (j mod 8)) & 1` (rule R102). -/
def inputBit (win : List Byte) (j : Nat) : Bool := (win.getD (j / 8) 0#8).getLsbD (j % 8)

/-- Output bit `m` of the bit-stream reading of EXPAND (rule R102): two zero bits after every 254 input bits. -/
def expandedBit (win : List Byte) (m : Nat) : Bool :=
  if m % 256 < 254 then inputBit win (254 * (m / 256) + m % 256) else false

/-- `NodeHash(l, r)`: SHA-256 of `l ‖ r`, `l[0]` first, with bits 7 and 6 of byte 31 cleared (rules R53, R107). -/
def nodeHash (l r : Node) : Node := maskTop (nodeOfBytes (sha256 (nodeBytes l ++ nodeBytes r)))

/-- The contents of `TOWER` (rule R190): `P[0]` is 32 zero bytes, `P[i] = NodeHash(P[i-1], P[i-1])`. -/
def tower : Nat → Node
  | 0 => 0#256
  | i + 1 => nodeHash (tower i) (tower i)

end Sys2Proof.Machine
end

