-- ==== Sys2Proof/Config.lean ====
section
/-! DEFINITION. The architectural constants of rule R6 and the implementation parameters of rule R7 (00_scope.md). -/

namespace Sys2Proof.Config

/-- `BlockSize`: payload bytes of a quad (rule R6). -/
def blockSize : Nat := 127

/-- `DigestSize`: bytes of a node (rule R6). -/
def digestSize : Nat := 32

/-- `MaxLayers`: the highest layer index (rule R6). -/
def maxLayers : Nat := 31

/-- The number of layer stages, 0 to `MaxLayers` (rule R25). -/
def layerCount : Nat := 32

/-- `MaxPieceSize` = 2^36 (rule R6). -/
def maxPieceSize : Nat := 68719476736

/-- `MaxPiecePayload` = 2^29 * 127 (rule R6). -/
def maxPiecePayload : Nat := 68182605824

/-- `MinPiecePayload` (rule R6). -/
def minPiecePayload : Nat := 65

/-- `MinExtendSource` (rule R6). -/
def minExtendSource : Nat := 128

/-- The number of tower entries, `P[0]` to `P[30]` (rule R6). -/
def towerEntries : Nat := 31

/-- The implementation parameters of rule R7, fixed for the life of the block (rule R34). They stand in `State` so that a
claim about every state is a claim about every choice of them (log entry 2). -/
structure Params where
  /-- `FIFO_DEPTH`: tokens in each inter-layer queue. -/
  fifoDepth : Nat
  /-- `RSPQ_DEPTH`: responses in the response queue. -/
  rspqDepth : Nat
  /-- `SHA_ENGINES`: SHA-256 engines shared by the layers. A layer step is one atomic step, so at most one engine is in use
  in it and the number changes no step (log entry 12). -/
  shaEngines : Nat
  /-- `FUSED`: all layers run as one sequential agent. -/
  fused : Bool
deriving DecidableEq, Repr

/-- Rule R7: each of the three sizes is at least 1. -/
def Params.wf (p : Params) : Bool :=
  decide (1 ≤ p.fifoDepth) && decide (1 ≤ p.rspqDepth) && decide (1 ≤ p.shaEngines)

/-- The parameters `State.reset` takes. DESIGN CHOICE (log entry 2): rule R7 leaves all four open. -/
def defaultParams : Params :=
  { fifoDepth := 32, rspqDepth := 1, shaEngines := 1, fused := true }

end Sys2Proof.Config
end

