-- ==== Sys2Proof/Machine/State.lean ====
section
/-! DEFINITION. The machine's state (spec 10_state.md), its reset, and the reasons a step can stop.

A cell the spec gives "no value" (rules R22, R25, R29, R35; D15) has no place in `State` while it has none: the carry buffer
is a sparse memory, a slot and the root register are `Option`s whose `none` is the spec's `SLOT_V = 0` and `ROOT_V = 0`, and
the staging fields of the parser are lists of the bytes received (log entry 5). -/

namespace Sys2Proof.Machine

open Sys2Proof.Config

/-- Why a step stops. Rule R31 and 60_exceptions.md report every error of the block as a response, so no fault below is
reached from `State.reset`; each is the spec's "fault if read" (93 U5) or an access outside a storage space (rule R50). -/
inductive Fault where
  /-- Raised by a read of a `CARRY` cell at or above `CLEN`, of `XC` beyond the bytes received, or of `OPC`/`ARG` while
  `PHASE = CMD`: the cell has no value (rules R22, R29; D15). Safe: the spec gives no value to go on with. -/
  | noValue
  /-- Raised by a write of `CARRY` at an index above 126 (rule R50). Safe: the cell does not exist. -/
  | noCell (index : Nat)
  /-- Raised by a read of `TOWER` at an entry above 30 (rule R50: such a read "is never issued"). Safe. -/
  | noTowerEntry (i : Nat)
  /-- Raised when a token is delivered to, or a leaf pushed into, a layer record the state does not hold: only in a state whose layer list is
  not the 32 layers of rule R25. Safe. -/
  | noLayer (l : Nat)
deriving DecidableEq, Repr

/-- Why a step refuses. -/
inductive Refusal where
  /-- Raised by an arm of `exec` that has no meaning; no arm of this model does. Safe. -/
  | notModelled (mnemonic : String)
deriving DecidableEq, Repr

/-- A sparse storage space: (byte index, byte) pairs, indexes strictly rising. An index that is not listed has no value. -/
abbrev Memory := List Host.Cell

/-- The registers and the input queue of one layer stage (rules R25, R33). -/
structure Layer where
  /-- `ACTIVE[L]`. -/
  active : Bool
  /-- `SLOT[L]`, with `SLOT_V[L]` = "is not `none`". -/
  slot : Option Node
  /-- `Q[L]`, head first. -/
  q : List Token
deriving DecidableEq, Repr

/-- A layer that was never started (rule R35). -/
def Layer.empty : Layer := { active := false, slot := none, q := [] }

/-- `ROOT` and `ROOT_L` while `ROOT_V = 1` (rules R33, R86). -/
structure Root where
  node : Node
  /-- `ROOT_L`, 5 bits. -/
  layer : BitVec 5
deriving DecidableEq, Repr

/-- The accumulator, layer and pipeline state: parts (1) to (3) of rule R20. -/
structure Core where
  /-- `CARRY`, indexes 0 to 126. -/
  carry : Memory
  /-- `CLEN`, 0 to 126. -/
  clen : Nat
  /-- `TOTAL`. -/
  total : Size
  /-- The layers 0 to 31, in order. -/
  layers : List Layer
  /-- `ROOT_V`, `ROOT`, `ROOT_L`. -/
  root : Option Root
deriving DecidableEq, Repr

/-- The empty accumulator (rules R35, R170). -/
def Core.empty : Core :=
  { carry := [], clen := 0, total := 0#64, layers := List.replicate layerCount Layer.empty, root := none }

/-- `PHASE` (rule R29). -/
inductive Phase where
  | cmd
  | payload
  | extC
  | extS
  | extT
deriving DecidableEq, Repr

/-- `OPC` and `ARG` of a command that takes operand bytes (rules R29, R73). -/
structure Command where
  opc : Byte
  arg : Arg
deriving DecidableEq, Repr

/-- `PSTATE`, the command parser (rule R29). -/
structure Parser where
  /-- `PHASE`. -/
  phase : Phase
  /-- The bytes of `CWBUF` received so far; `CWCNT` is their number. -/
  cwbuf : List Byte
  /-- `OPC` and `ARG`; `none` while `PHASE = CMD`, where the spec gives them no value (rule R29). -/
  cmd : Option Command
  /-- The model's own: the accumulator state the command in progress began with, to which an internal fault goes back (rule R12;
  log entry 6); `none` while no command is in progress. -/
  saved : Option Core
  /-- `REM`. -/
  rem : Arg
  /-- The bytes of `XC` received so far, at most 32. -/
  xc : List Byte
  /-- `XCLEN`. -/
  xclen : Arg
  /-- The bytes of `XS` received so far. -/
  xs : List Byte
  /-- The bytes of `XT` received so far. -/
  xt : List Byte
  /-- `DROP`. -/
  drop : Bool
deriving DecidableEq, Repr

/-- The idle parser (rule R35). -/
def Parser.idle : Parser :=
  { phase := .cmd, cwbuf := [], cmd := none, saved := none, rem := 0#56, xc := [], xclen := 0#56, xs := [],
    xt := [], drop := false }

/-- A pending action of the sequencer: what is left of a command that holds for the pipeline (rules R142, R158, R250). -/
inductive SeqOp where
  /-- Put a leaf into layer 0 (rule R152). -/
  | push (leaf : Node)
  /-- Close layer 0 (rule R158). -/
  | close
  /-- Wait for the root, then answer DIGEST, with the padded size, or SUM, without it (rules R155, R158, R162). -/
  | await (sized : Bool)
  /-- Wait for the pipeline to be empty, then add the count to `TOTAL` and answer WRITE (rules R33, R150; log entry 22). -/
  | writeDone
deriving DecidableEq, Repr

/-- What moves next: an agent of rule R221, or the world at the ports of rule R70. -/
inductive Turn where
  /-- The sequencer. -/
  | seq
  /-- The agent of layer `l`. -/
  | layer (l : Fin 32)
  /-- The host offers more bytes on the input stream. -/
  | offer (bytes : List Byte)
  /-- The host accepts one response byte. -/
  | take
  /-- `rst` is high for one clock. -/
  | rst
  /-- The SHA-256 engine fails (rule R214). -/
  | shaFail
deriving DecidableEq, Repr

/-- The state: the spec's parts (1) to (6) of rule R20 less the ROM `TOWER` (a constant, rule R28), then the model's own
fields, which INVENTORY.md names as such. -/
structure State where
  /-- Accumulator, layers, queues, root register. -/
  core : Core
  /-- `PSTATE`. -/
  parser : Parser
  /-- What is left of the command in progress; `BUSY` is "not empty" (rule R32). -/
  job : List SeqOp
  /-- `RSPQ`, the oldest response first, without the bytes the host has taken of it (log entry 23). -/
  rspq : List (List Byte)
  /-- `FATAL`. -/
  fatal : Bool
  /-- `FATAL_CAUSE`. -/
  fatalCause : Byte
  /-- The layer whose agent executes a token (rule R85: a token is "delivered to layer L"). -/
  sel : Fin 32
  /-- The SHA-256 engine works (rule R214, third condition). -/
  shaOk : Bool
  /-- `FIFO_DEPTH`, `RSPQ_DEPTH`, `SHA_ENGINES`, `FUSED` (rule R7). -/
  params : Params
  /-- The bytes the host offers on the input stream, not yet accepted. -/
  input : List Byte
  /-- The response bytes the host has taken. -/
  out : List Byte
  /-- The turns still scheduled. -/
  sched : List Turn
deriving DecidableEq, Repr

/-- The block after a hardware reset (rules R35, R240), with given implementation parameters. -/
def State.resetWith (p : Params) : State :=
  { core := Core.empty, parser := Parser.idle, job := [], rspq := [], fatal := false, fatalCause := 0x00#8,
    sel := 0, shaOk := true, params := p, input := [], out := [], sched := [] }

/-- The machine right after reset (rule R35). -/
def State.reset : State := State.resetWith defaultParams

end Sys2Proof.Machine
end

