-- ==== Sys2Proof/Machine/Ops.lean ====
section
/-! DEFINITION. The named operations over the storage spaces and registers, the responses, and the errors: raising a status,
entering FATAL, the internal fault (rules R11, R12, R50, R80, R164, R211, R214, R215), and the one way back, a hardware reset
(rule R240). -/

namespace Sys2Proof.Machine

open Sys2Proof.Config

/-- The outcome of one step of this machine. -/
abbrev Result := Host.Outcome State Fault Refusal

/-- What ends an operation early: the internal fault of rule R214, which the machine answers by entering FATAL, or a fault of
the model. -/
inductive Stop where
  | internal
  | fault (f : Fault)
deriving DecidableEq, Repr

/-- An operation that may end early. -/
abbrev Res (α : Type) := Except Stop α

/-! ## Storage spaces -/

/-- The byte at an index, if the cell has a value (rule R11). -/
def Memory.read : Memory → Nat → Option Byte
  | [], _ => none
  | (a, b) :: m, i => if a = i then some b else Memory.read m i

/-- Store a byte, keeping the indexes strictly rising (rule R11). -/
def Memory.write : Memory → Nat → Byte → Memory
  | [], i, v => [(i, v)]
  | (a, b) :: m, i, v =>
    if i < a then (i, v) :: (a, b) :: m
    else if a = i then (i, v) :: m
    else (a, b) :: Memory.write m i v

/-- The canonical form: indexes strictly rising. No entry can equal what an unlisted index reads as, which is no value. -/
def Memory.wf : Memory → Bool
  | [] => true
  | [_] => true
  | (a, _) :: (a', b') :: m => decide (a < a') && Memory.wf ((a', b') :: m)

/-- `MemRead(space, addr, n)` (rule R11): all `n` cells must have a value (D15). -/
def Memory.readRange (m : Memory) (addr : Nat) : Nat → Res (List Byte)
  | 0 => .ok []
  | n + 1 =>
    match m.read addr with
    | none => .error (.fault .noValue)
    | some b =>
      match Memory.readRange m (addr + 1) n with
      | .ok bs => .ok (b :: bs)
      | .error e => .error e

/-- `CARRY[i] <- b`, for an index of the 127 (rules R22, R50). -/
def Core.writeCarry (i : Nat) (b : Byte) (c : Core) : Res Core :=
  if i < blockSize then .ok { c with carry := c.carry.write i b } else .error (.fault (.noCell i))

/-- `CARRY[0..126]`, read as a whole quad (rule R56). -/
def Core.readWindow (c : Core) : Res (List Byte) := c.carry.readRange 0 blockSize

/-- `CLEN <- 0`: no cell of `CARRY` has a value any more (rule R22). -/
def Core.clearCarry (c : Core) : Core := { c with carry := [], clen := 0 }

/-- `P[i]`, read as a whole entry (rules R50, R56, R190). -/
def readTower (i : Nat) : Res Node :=
  if i < towerEntries then .ok (tower i) else .error (.fault (.noTowerEntry i))

/-- `ACTIVE[0] <- 1` (rule R150). -/
def Core.startLayer0 (c : Core) : Core :=
  match c.layers with
  | [] => c
  | l :: ls => { c with layers := { l with active := true } :: ls }

/-- NodeHash on the SHA-256 engine, whose failure is an internal fault (rules R107, R214). -/
def hash (shaOk : Bool) (l r : Node) : Res Node :=
  if shaOk then .ok (nodeHash l r) else .error .internal

/-! ## Views (rules R29, R32) -/

/-- `BUSY` (rule R32): a command is executing or the pipeline is draining. -/
def State.busy (s : State) : Bool := !s.job.isEmpty

/-- `CWCNT` (rule R29). -/
def State.cwcnt (s : State) : Nat := s.parser.cwbuf.length

/-- `SLOT_V[L]` (rule R25). -/
def Layer.slotV (l : Layer) : Bool := l.slot.isSome

/-- `ROOT_V` (rule R33). -/
def Core.rootV (c : Core) : Bool := c.root.isSome

/-- No token is in any queue. -/
def Core.drained (c : Core) : Bool := c.layers.all fun l => l.q.isEmpty

/-- The pipeline is empty, as it is between commands (rule R33); a fused block has none (rule R221). -/
def State.pipelineEmpty (s : State) : Bool := s.params.fused || s.core.drained

/-- `OPC`, which has no value while `PHASE = CMD` (rule R29, 93 U5). -/
def State.opc (s : State) : Res Byte :=
  match s.parser.cmd with
  | none => .error (.fault .noValue)
  | some c => .ok c.opc

/-- `ARG`, which has no value while `PHASE = CMD`, as `OPC` has none (rules R29, R73, 93 U5). -/
def State.arg (s : State) : Res Arg :=
  match s.parser.cmd with
  | none => .error (.fault .noValue)
  | some c => .ok c.arg

/-- `RSPQ` has room for the next response (rules R30, R250). DESIGN CHOICE (log entry 23): a response of which the host has taken some
bytes, but not the last, still counts as one. -/
def State.hasRoom (s : State) : Bool := decide (s.rspq.length < s.params.rspqDepth)

/-! ## Responses and the parser -/

/-- `respond(st, payload)` (rules R12, R80). -/
def respond (st : Status) (payload : List Byte) (s : State) : State :=
  { s with rspq := s.rspq ++ [st.code :: payload] }

/-- The parser at the first byte of a command word: `PHASE <- CMD`, `CWCNT <- 0`, `DROP <- 0` (rule R29). `OPC`, `XC`, `XS` and
`XT` have no value outside a command (D15); `REM` and `XCLEN` stay as they are. -/
def Parser.next (p : Parser) : Parser :=
  { p with phase := .cmd, cwbuf := [], cmd := none, saved := none, xc := [], xs := [], xt := [], drop := false }

/-- `pc <- next` (rules R12, R29). -/
def pcNext (s : State) : State := { s with parser := s.parser.next }

/-- End a command with its one response (rules R57, R80). -/
def reply (st : Status) (payload : List Byte) (s : State) : State := pcNext (respond st payload s)

/-- `OPC <- CW[7:0]; ARG <- CW[63:8]` for a command with operand bytes (rule R73), and the accumulator state to go back to (rule
R12; log entry 6). `DROP` is set for every command while `FATAL = 1` (rule R77). -/
def beginCommand (cmd : Option Command) (s : State) : State :=
  { s with
    job := []
    parser := { s.parser with
      phase := .cmd, cwbuf := [], cmd := cmd, saved := some s.core, xc := [], xs := [], xt := [], drop := s.fatal } }

/-! ## Errors -/

/-- The response of a command while `FATAL = 1`: `09` and `FATAL_CAUSE` (rule R215). -/
def fatalReply (s : State) : State := reply .fatal [s.fatalCause] s

/-- `FATAL <- 1; FATAL_CAUSE <- c` (rules R31, R164, R214). -/
def enterFatal (cause : Byte) (s : State) : State := { s with fatal := true, fatalCause := cause }

/-- `FATAL_ABORT(c)` (rule R164): nothing but `FATAL` and `FATAL_CAUSE` changes, and the answer is `09 c`. -/
def fatalAbort (cause : Byte) (s : State) : State := fatalReply (enterFatal cause s)

/-- Operand bytes of the command in progress are still to come (rules R74, R75). -/
def State.operandsDue (s : State) : Bool := s.parser.phase != .cmd && s.parser.rem != 0#56

/-- The internal fault (rule R214): FATAL with cause 0x0A. The effects of the command in progress are discarded (rule R12;
log entry 6) and it answers `09 0A`, after its last operand byte if some are still due (rules R77, R215; log entry 7). Restoring the
queues discards only this command's tokens, since they were empty when it began (rule R33; log entry 22). -/
def internalFault (s : State) : State :=
  let s1 := { enterFatal internalFaultCode s with job := [] }
  match s.parser.saved with
  | none => s1
  | some c =>
    let s2 := { s1 with core := c }
    if s.operandsDue then { s2 with parser := { s2.parser with drop := true } } else fatalReply s2

/-- Take the internal fault of an operation, if it has one, in the state `s` the operation began in. -/
def trap (s : State) : Res State → Except Fault State
  | .ok t => .ok t
  | .error .internal => .ok (internalFault s)
  | .error (.fault f) => .error f

/-- The outcome of a step from an operation's end. -/
def conclude : Except Fault State → Result
  | .ok t => .next t
  | .error f => .fault f

/-- The end of a command whose operand bytes were discarded: FATAL, or else the WRITE that would overflow (rules R77, R151,
R215). -/
def endDropped (s : State) : State := if s.fatal then fatalReply s else reply .overflowExceeded [] s

/-- An illegal command word (rules R79, R172); FATAL comes first (rule R216). -/
def illegal (s : State) : State := if s.fatal then fatalReply s else reply .illegalCommand [] s

/-- Hardware reset (rules R35, R240, R242): every field of the block at its reset value. The streams and the schedule belong to the world outside
and stay; so do the implementation parameters (rule R34). -/
def hardReset (s : State) : State :=
  { State.resetWith s.params with input := s.input, out := s.out, sched := s.sched }

end Sys2Proof.Machine
end

