-- ==== Sys2Proof/Machine/Carry.lean ====
section
/-! DEFINITION. The carry buffer: ABSORB (rule R152) and the zero-padding of FINALIZE (rule R158). -/

namespace Sys2Proof.Machine

open Sys2Proof.Config

/-- A full window: EXPAND it, `CLEN <- 0`, and hand over its four leaves (rule R152). -/
def Core.takeQuad (c : Core) : Res (Core × List Node) :=
  match c.readWindow with
  | .ok win => .ok (c.clearCarry, expandLeaves win)
  | .error e => .error e

/-- ABSORB(b) up to its pushes (rule R152): the new core and the leaves to push, four when the quad is complete. -/
def Core.absorb (b : Byte) (c : Core) : Res (Core × List Node) :=
  match c.writeCarry c.clen b with
  | .error e => .error e
  | .ok c1 =>
    let c2 := { c1 with clen := c.clen + 1 }
    if c2.clen = blockSize then c2.takeQuad else .ok (c2, [])

/-- `for j in i .. i+n-1: CARRY[j] <- 0x00` (rule R158). -/
def Core.zeroFill (i : Nat) : Nat → Core → Res Core
  | 0, c => .ok c
  | n + 1, c =>
    match c.writeCarry i 0x00#8 with
    | .error e => .error e
    | .ok c1 => Core.zeroFill (i + 1) n c1

/-- The first part of FINALIZE (rule R158): a residue is zero-padded to a whole quad, and `TOTAL` is not changed. -/
def Core.padQuad (c : Core) : Res (Core × List Node) :=
  if c.clen = 0 then .ok (c, [])
  else
    match c.zeroFill c.clen (blockSize - c.clen) with
    | .error e => .error e
    | .ok c1 => c1.takeQuad

end Sys2Proof.Machine
end

