-- ==== Sys2Proof/Machine/Operands.lean ====
section
/-! DEFINITION. The operands of the commands and the integer functions on them (rules R10, R83, R157, R194). -/

namespace Sys2Proof.Machine

open Sys2Proof.Config

/-- `ceil_div(a, b)` (rule R10). -/
def ceilDiv (a b : Nat) : Nat := (a + b - 1) / b

/-- `next_pow2(v)`: the smallest power of two that is at least `v`, for `v ≥ 1` (rule R10). -/
def nextPow2 (v : Nat) : Nat := if 2 ^ v.log2 = v then v else 2 ^ (v.log2 + 1)

/-- `PADDED_SIZE(n)`, a 64-bit value (rule R157). -/
def paddedSize (n : Size) : Size := BitVec.ofNat 64 (nextPow2 (ceilDiv n.toNat 127 * 128))

/-- `popcount(v)` (rule R10). -/
def popcount (v : Size) : Nat := ((List.range 64).filter fun i => v.getLsbD i).length

/-- `log2(v)`, for a `v` with one set bit: the index of that bit (rule R10). -/
def log2 (v : Size) : Nat := v.toNat.log2

/-- `LEN = zext_64(ARG)` and `CLEN = zext_64(ARG)` (rule R83). -/
def zext64 (a : Arg) : Size := a.setWidth 64

/-- `TOTAL + LEN > MaxPiecePayload`, in 64 bits (rule R150). -/
def overflows (total : Size) (len : Arg) : Bool :=
  decide (BitVec.ofNat 64 maxPiecePayload < total + zext64 len)

/-- The source commitment `C = XC[0..31]` (rule R83). -/
def State.xcNode (s : State) : Res Node :=
  if s.parser.xc.length = digestSize then .ok (nodeOfBytes s.parser.xc) else .error (.fault .noValue)

/-- `s = from_le64` of the 8 bytes of `XS` (rule R83). -/
def State.xsSize (s : State) : Res Size :=
  if s.parser.xs.length = 8 then .ok (fromLe64 s.parser.xs) else .error (.fault .noValue)

/-- `t = from_le64` of the 8 bytes of `XT` (rule R83). -/
def State.xtSize (s : State) : Res Size :=
  if s.parser.xt.length = 8 then .ok (fromLe64 s.parser.xt) else .error (.fault .noValue)

/-- VALIDATE(CLEN, s, t): the first check that fails, in the order of rule R194. -/
def validate (clen : Arg) (s t : Size) : Option Status :=
  if zext64 clen ≠ 32#64 then some .invalidCommpLength
  else if popcount s ≠ 1 ∨ popcount t ≠ 1 then some .notPowerOfTwo
  else if t < s then some .targetTooSmall
  else if s < BitVec.ofNat 64 minExtendSource then some .sourceBelowMinimum
  else if BitVec.ofNat 64 maxPieceSize < t then some .targetAboveMaximum
  else none

end Sys2Proof.Machine
end

