-- ==== Sys2Proof/Machine/Extend.lean ====
section
/-! DEFINITION. EXTEND once its operands are in (rules R193 to R196). -/

namespace Sys2Proof.Machine

/-- The steps `k`, `k+1`, ... of the extension loop, `n` of them (rule R195): the node so far is the left operand, `P[k-5]`
the right. -/
def extendLoop (shaOk : Bool) : Nat → Nat → Node → Res Node
  | 0, _, c => .ok c
  | n + 1, k, c =>
    match readTower (k - 5) with
    | .error e => .error e
    | .ok pad =>
      match hash shaOk c pad with
      | .error e => .error e
      | .ok c' => extendLoop shaOk n (k + 1) c'

/-- EXTEND(CLEN, C, s, t) after VALIDATE (rule R193). -/
def extendValue (shaOk : Bool) (c : Node) (src tgt : Size) : Res Node :=
  extendLoop shaOk (log2 tgt - log2 src) (log2 src) c

/-- EXTEND after the last byte of `XT` (rules R75, R193). -/
def extendRun (s : State) : Res State :=
  match s.xsSize with
  | .error e => .error e
  | .ok src =>
    match s.xtSize with
    | .error e => .error e
    | .ok tgt =>
      match validate s.parser.xclen src tgt with
      | some st => .ok (reply st [] s)
      | none =>
        match s.xcNode with
        | .error e => .error e
        | .ok c =>
          match extendValue s.shaOk c src tgt with
          | .error e => .error e
          | .ok c' => .ok (reply .ok (nodeBytes c') s)

end Sys2Proof.Machine
end

