-- ==== Sys2Proof/Syntax.lean ====
section
/-! DEFINITION. The instructions: one constructor per row of spec/opcode_table.json, and the assembler's lines (rules R87, R88). -/

namespace Sys2Proof

/-- One constructor per opcode-table row. The seven host commands carry the operand of their command word (rule R78); their
operand bytes are stream data that follow it (rules R74, R75). The two layer tokens carry what the token holds (rule R84). -/
inductive Instr where
  /-- WRITE, opcode 0x01: `LEN` payload bytes follow. -/
  | write (len : Arg)
  /-- DIGEST, opcode 0x02. -/
  | digest
  /-- SUM, opcode 0x03. -/
  | sum
  /-- RESET, opcode 0x04. -/
  | reset
  /-- EXTEND, opcode 0x05: `CLEN` bytes of C, 8 bytes s and 8 bytes t follow. -/
  | extend (clen : Arg)
  /-- BLOCK_SIZE, opcode 0x06. -/
  | blockSize
  /-- DIGEST_SIZE, opcode 0x07. -/
  | digestSize
  /-- LAYER_NODE, token tag 0. -/
  | layerNode (node : Node)
  /-- LAYER_CLOSE, token tag 1. -/
  | layerClose
deriving DecidableEq, Repr

/-- A line of the assembler syntax of rule R87, and the pseudo-instructions of rule R88 that are one block command each. -/
inductive AsmLine where
  | write (len : Arg) (payload : List Byte)
  | digest
  | sum
  | reset
  | extend (clen : Arg) (c : List Byte) (s t : Size)
  | blockSize
  | digestSize
  /-- `.cw`: a raw command word. -/
  | cw (w : CmdWord)
  /-- `ZWRITE n` is `WRITE n, n x 00`. -/
  | zwrite (n : Arg)
  /-- `FILL n, b` is `WRITE n, n x b`. -/
  | fill (n : Arg) (b : Byte)
  /-- `EXTEND32 C, s, t` is `EXTEND 32, C, s, t`. -/
  | extend32 (c : List Byte) (s t : Size)
deriving DecidableEq, Repr

end Sys2Proof
end

