-- ==== Sys2Proof/WellFormed.lean ====
section
/-! DEFINITION. Which instructions the block can meet. Every operand of a host command is legal at every value its field
admits (rules R71, R83); a NODE token in a queue holds an Fr32 node (rule R26). -/

namespace Sys2Proof

/-- Rule R26 for the node of a LAYER_NODE token; the other instructions have no operand a rule restricts. -/
def Instr.wellFormed : Instr → Bool
  | .write _ => true
  | .digest => true
  | .sum => true
  | .reset => true
  | .extend _ => true
  | .blockSize => true
  | .digestSize => true
  | .layerNode node => Machine.isFr32 node
  | .layerClose => true

/-- Rules R74, R75 and R82: an assembler line carries exactly the operand bytes its command word announces. -/
def AsmLine.wellFormed : AsmLine → Bool
  | .write len payload => payload.length == len.toNat
  | .extend clen c _ _ => c.length == clen.toNat
  | .extend32 c _ _ => c.length == 32
  | .digest => true
  | .sum => true
  | .reset => true
  | .blockSize => true
  | .digestSize => true
  | .cw _ => true
  | .zwrite _ => true
  | .fill _ _ => true

end Sys2Proof
end

