-- ==== Sys2Proof/Decode.lean ====
section
/-! DEFINITION. Decoding of command words (rules R71, R73, R78, R79) and layer tokens (rules R84, R85), the encoder, and the
assembler (rules R87, R88). -/

namespace Sys2Proof

open Sys2Proof.Machine (leNat leBytes le64 fromLe64 nodeBytes)

/-- Why a command word is illegal (rule R79), or why bytes are no command word (rule R71). -/
inductive DecodeError where
  /-- `OPC` in {0x00} ∪ {0x08 .. 0xFF}. -/
  | reservedOpcode (opc : Byte)
  /-- `ARG ≠ 0` with an opcode that takes no operand. -/
  | nonzeroArg (opc : Byte) (arg : Arg)
  /-- Not 8 bytes: a command word is exactly 8 (rule R71). -/
  | wrongLength (bytes : Nat)
deriving DecidableEq, Repr

/-- `CW[7:0]` (rule R71). -/
def cwOpc (w : CmdWord) : Byte := w.extractLsb' 0 8

/-- `CW[63:8]` (rule R71). -/
def cwArg (w : CmdWord) : Arg := w.extractLsb' 8 56

/-- A command whose `ARG` must be 0 (rules R73, R79). -/
def noOperand (opc : Byte) (arg : Arg) (i : Instr) : Except DecodeError Instr :=
  if arg = 0#56 then .ok i else .error (.nonzeroArg opc arg)

/-- Rule R73, the decoding of a command word by the opcode map of rule R78. -/
def decodeCmdWord (w : CmdWord) : Except DecodeError Instr :=
  let opc := cwOpc w
  let arg := cwArg w
  if opc = 0x01#8 then .ok (.write arg)
  else if opc = 0x02#8 then noOperand opc arg .digest
  else if opc = 0x03#8 then noOperand opc arg .sum
  else if opc = 0x04#8 then noOperand opc arg .reset
  else if opc = 0x05#8 then .ok (.extend arg)
  else if opc = 0x06#8 then noOperand opc arg .blockSize
  else if opc = 0x07#8 then noOperand opc arg .digestSize
  else .error (.reservedOpcode opc)

/-- The decoder on any bytes: 8 of them are a command word, `CW = from_le64(b0..b7)` (rules R71, R72). -/
def decodeBytes (bs : List Byte) : Except DecodeError Instr :=
  if bs.length = 8 then decodeCmdWord (fromLe64 bs) else .error (.wrongLength bs.length)

/-- `T[256]`, the tag of a layer token (rule R84). -/
def tokenTag (t : Token) : Bool := t.extractLsb' 256 1 == 1#1

/-- `T[255:0]`, the node of a layer token (rule R84). -/
def tokenNode (t : Token) : Node := t.extractLsb' 0 256

/-- Rules R84, R85: tag 0 is a NODE, tag 1 a CLOSE, whose other bits are ignored. Every token decodes. -/
def decodeToken (t : Token) : Instr :=
  if tokenTag t then .layerClose else .layerNode (tokenNode t)

/-- One encoded instruction: a word of the command stream or a token of an inter-layer queue. -/
inductive CodeWord where
  | cmd (w : CmdWord)
  | token (t : Token)
deriving DecidableEq, Repr

/-- The decoder over both instruction spaces. -/
def decode : CodeWord → Except DecodeError Instr
  | .cmd w => decodeCmdWord w
  | .token t => .ok (decodeToken t)

/-- `(ARG << 8) | OPC` (rule R87). -/
def cmdWord (opc : Byte) (arg : Arg) : CmdWord := (arg.setWidth 64 <<< 8) ||| opc.setWidth 64

/-- The NODE token of a node (rule R84). -/
def nodeToken (n : Node) : Token := n.setWidth 257

/-- The CLOSE token, its node bits 0 (rule R84). -/
def closeToken : Token := BitVec.setWidth 257 1#1 <<< 256

/-- The encoder, written from rules R71, R78 and R84. -/
def encode : Instr → CodeWord
  | .write len => .cmd (cmdWord 0x01#8 len)
  | .digest => .cmd (cmdWord 0x02#8 0#56)
  | .sum => .cmd (cmdWord 0x03#8 0#56)
  | .reset => .cmd (cmdWord 0x04#8 0#56)
  | .extend clen => .cmd (cmdWord 0x05#8 clen)
  | .blockSize => .cmd (cmdWord 0x06#8 0#56)
  | .digestSize => .cmd (cmdWord 0x07#8 0#56)
  | .layerNode node => .token (nodeToken node)
  | .layerClose => .token closeToken

/-- Rule R82: the operand bytes that follow an instruction's word on the command stream. -/
def operandBytes : Instr → Nat
  | .write len => len.toNat
  | .extend clen => clen.toNat + 16
  | .digest => 0
  | .sum => 0
  | .reset => 0
  | .blockSize => 0
  | .digestSize => 0
  | .layerNode _ => 0
  | .layerClose => 0

/-- The 8 stream bytes of a command word (rules R54, R71). -/
def cmdBytes (w : CmdWord) : List Byte := le64 w

/-- Rules R87 and R88: the byte string the assembler emits for a line. -/
def assemble : AsmLine → List Byte
  | .write len payload => cmdBytes (cmdWord 0x01#8 len) ++ payload
  | .digest => cmdBytes (cmdWord 0x02#8 0#56)
  | .sum => cmdBytes (cmdWord 0x03#8 0#56)
  | .reset => cmdBytes (cmdWord 0x04#8 0#56)
  | .extend clen c s t => cmdBytes (cmdWord 0x05#8 clen) ++ c ++ le64 s ++ le64 t
  | .blockSize => cmdBytes (cmdWord 0x06#8 0#56)
  | .digestSize => cmdBytes (cmdWord 0x07#8 0#56)
  | .cw w => cmdBytes w
  | .zwrite n => cmdBytes (cmdWord 0x01#8 n) ++ List.replicate n.toNat 0#8
  | .fill n b => cmdBytes (cmdWord 0x01#8 n) ++ List.replicate n.toNat b
  | .extend32 c s t => cmdBytes (cmdWord 0x05#8 32#56) ++ c ++ le64 s ++ le64 t

/-- The second half of the pseudo-instruction `DIGEST_TO t` (rule R88): from the bytes of an OK response to DIGEST the host
takes `(C, s)` and issues `EXTEND 32, C, s, t`. `none` when the bytes are no such response (rule R80). -/
def digestToExtend (t : Size) (response : List Byte) : Option (List Byte) :=
  match response with
  | [] => none
  | st :: payload =>
    if st = 0x00#8 ∧ payload.length = 40 then
      some (assemble (.extend32 (payload.take 32) (fromLe64 (payload.drop 32)) t))
    else none

/-- `2^257`: every layer token is below it (rule R84). -/
def tokenLimit : Nat := 0x20000000000000000000000000000000000000000000000000000000000000000

theorem tokenLimit_eq : tokenLimit = 2 ^ 257 := by decide +kernel

set_option exponentiation.threshold 300 in
/-- The layer token of 257 bits read as a number. -/
def tokenOfNat (w : Nat) : Option Token :=
  if h : w < tokenLimit then some (BitVec.ofNatLT w (tokenLimit_eq ▸ h)) else none

/-- The instruction the decoder reads from an opcode-table word of `nbits` bits: up to 64 bits a command word, laid out as 8
stream bytes, least significant first (rule R54); more bits a layer token, held as its 257 bits (rule R84). -/
def decodeTableWord (nbits w : Nat) : Option Instr :=
  if nbits ≤ 64 then (decodeBytes (leBytes 8 w)).toOption
  else (tokenOfNat w).map decodeToken

end Sys2Proof
end

