-- ==== Sys2Proof/Machine/Reducer.lean ====
section
/-! DEFINITION. The layer reducer: the reference PUSH, EMIT and CLOSE (rules R120 to R130), in which a layer is followed by
the layers above it in a list, and the step of a pipelined layer agent (rule R140). -/

namespace Sys2Proof.Machine

open Sys2Proof.Config

/-! ## Reference semantics -/

/-- EMIT into the first of the given layers (rule R123): start it and PUSH. With no layer left this is the EMIT from layer 31,
an internal fault (rule R124). -/
def emit (shaOk : Bool) : List Layer → Node → Res (List Layer)
  | [], _ => .error .internal
  | l :: above, p =>
    match l.slot with
    | none => .ok ({ l with active := true, slot := some p } :: above)
    | some left =>
      match hash shaOk left p with
      | .error e => .error e
      | .ok parent =>
        match emit shaOk above parent with
        | .error e => .error e
        | .ok above' => .ok ({ l with active := true, slot := none } :: above')

/-- PUSH(L, n) at the first of the given layers (rules R121, R122): store in an empty slot, or pair with the stored left twin
and EMIT. `lidx` is `L`, for the fault of a state that lacks the layer. -/
def push (shaOk : Bool) (lidx : Nat) : List Layer → Node → Res (List Layer)
  | [], _ => .error (.fault (.noLayer lidx))
  | l :: above, n =>
    match l.slot with
    | none => .ok ({ l with slot := some n } :: above)
    | some left =>
      match hash shaOk left n with
      | .error e => .error e
      | .ok parent =>
        match emit shaOk above parent with
        | .error e => .error e
        | .ok above' => .ok ({ l with slot := none } :: above')

/-- The layer below the given ones is the highest reached layer (rule R127): there is no layer above, or it was not started. -/
def highestBelow : List Layer → Bool
  | [] => true
  | l :: _ => !l.active

/-- CLOSE(L) at the first of the given layers (rules R125 to R129). The first argument counts the layers left. -/
def close (shaOk : Bool) : Nat → Nat → List Layer → Res (List Layer × Root)
  | 0, lidx, _ => .error (.fault (.noLayer lidx))
  | _ + 1, lidx, [] => .error (.fault (.noLayer lidx))
  | k + 1, lidx, l :: above =>
    if highestBelow above then
      match l.slot with
      | none => .error .internal
      | some n => .ok ({ l with slot := none } :: above, { node := n, layer := BitVec.ofNat 5 lidx })
    else
      match l.slot with
      | none =>
        match close shaOk k (lidx + 1) above with
        | .error e => .error e
        | .ok (above', r) => .ok (l :: above', r)
      | some left =>
        match readTower lidx with
        | .error e => .error e
        | .ok pad =>
          match hash shaOk left pad with
          | .error e => .error e
          | .ok parent =>
            match emit shaOk above parent with
            | .error e => .error e
            | .ok above1 =>
              match close shaOk k (lidx + 1) above1 with
              | .error e => .error e
              | .ok (above', r) => .ok ({ l with slot := none } :: above', r)

/-- PUSH(L, n) on the core (rule R130). -/
def Core.pushAt (shaOk : Bool) (lidx : Nat) (n : Node) (c : Core) : Res Core :=
  match push shaOk lidx (c.layers.drop lidx) n with
  | .error e => .error e
  | .ok ls => .ok { c with layers := c.layers.take lidx ++ ls }

/-- CLOSE(L) on the core, publishing the root (rules R125, R130). -/
def Core.closeAt (shaOk : Bool) (lidx : Nat) (c : Core) : Res Core :=
  match close shaOk (c.layers.drop lidx).length lidx (c.layers.drop lidx) with
  | .error e => .error e
  | .ok (ls, r) => .ok { c with layers := c.layers.take lidx ++ ls, root := some r }

/-! ## Pipelined implementation -/

/-- Replace the record of layer `l`. -/
def Core.setLayer (i : Nat) (l : Layer) (c : Core) : Core := { c with layers := c.layers.set i l }

/-- `pop(Q[L])` (rule R140). -/
def Core.popToken (i : Nat) (c : Core) : Core :=
  { c with layers := c.layers.modify i fun l => { l with q := l.q.tail } }

/-- `enqueue(Q[L], T)` when there is room for it (rules R33, R140); `none` holds the producer (rule R145). -/
def Core.enqueue (depth i : Nat) (t : Token) (c : Core) : Res (Option Core) :=
  match c.layers[i]? with
  | none => .error (.fault (.noLayer i))
  | some l => .ok (if l.q.length < depth then some (c.setLayer i { l with q := l.q ++ [t] }) else none)

/-- One step of `LAYER_L` on a NODE token (rule R140); `none` is "no step: the agent holds". -/
def Core.agentNode (depth : Nat) (shaOk : Bool) (lidx : Nat) (n : Node) (c : Core) : Res (Option Core) :=
  match c.layers[lidx]? with
  | none => .error (.fault (.noLayer lidx))
  | some l =>
    match l.slot with
    | none => .ok (some (c.setLayer lidx { l with slot := some n, q := l.q.tail }))
    | some left =>
      match c.layers[lidx + 1]? with
      | none => .error .internal
      | some m =>
        if m.q.length < depth then
          match hash shaOk left n with
          | .error e => .error e
          | .ok parent =>
            .ok (some ((c.setLayer lidx { l with slot := none, q := l.q.tail }).setLayer (lidx + 1)
              { m with active := true, q := m.q ++ [nodeToken parent] }))
        else .ok none

/-- The room the padding step needs in the next queue: two tokens, or with `FIFO_DEPTH = 1` one, since it is then split (rules
R140, R141). -/
def padRoom (depth : Nat) : Nat := if depth = 1 then 1 else 2

/-- One step of `LAYER_L` on a CLOSE token (rule R140); `none` is a hold. With `FIFO_DEPTH = 1` the padding step is split as
the rule allows (rule R141): first the NODE, and the CLOSE token, which stays, then finds the slot empty. -/
def Core.agentClose (depth : Nat) (shaOk : Bool) (lidx : Nat) (c : Core) : Res (Option Core) :=
  match c.layers[lidx]? with
  | none => .error (.fault (.noLayer lidx))
  | some l =>
    if highestBelow (c.layers.drop (lidx + 1)) then
      match l.slot with
      | none => .error .internal
      | some n =>
        .ok (some { c.setLayer lidx { l with slot := none, q := l.q.tail } with
          root := some { node := n, layer := BitVec.ofNat 5 lidx } })
    else
      match c.layers[lidx + 1]? with
      | none => .error .internal
      | some m =>
        match l.slot with
        | none =>
          .ok (if m.q.length < depth then
            some ((c.setLayer lidx { l with q := l.q.tail }).setLayer (lidx + 1) { m with q := m.q ++ [closeToken] })
          else none)
        | some left =>
          if m.q.length + padRoom depth ≤ depth then
            match readTower lidx with
            | .error e => .error e
            | .ok pad =>
              match hash shaOk left pad with
              | .error e => .error e
              | .ok parent =>
                if depth = 1 then
                  .ok (some ((c.setLayer lidx { l with slot := none }).setLayer (lidx + 1)
                    { m with q := m.q ++ [nodeToken parent] }))
                else
                  .ok (some ((c.setLayer lidx { l with slot := none, q := l.q.tail }).setLayer (lidx + 1)
                    { m with q := m.q ++ [nodeToken parent, closeToken] }))
          else .ok none

/-! ## The two tokens -/

/-- The state after a layer operation; a hold changes nothing (rule R145). -/
def withCore (s : State) : Res (Option Core) → Res State
  | .error e => .error e
  | .ok none => .ok s
  | .ok (some c) => .ok { s with core := c }

/-- A reference operation never holds. -/
def always : Res Core → Res (Option Core)
  | .error e => .error e
  | .ok c => .ok (some c)

/-- LAYER_NODE, delivered to layer `sel` (rules R85, R130, R140): PUSH. With `FUSED = 1` it runs to its end at once; with
`FUSED = 0` it is one agent step. In FATAL no agent steps (log entry 8). -/
def execLayerNode (n : Node) (s : State) : Result :=
  if s.fatal then .next s
  else if s.params.fused then
    conclude (trap s (withCore s (always ((s.core.popToken s.sel).pushAt s.shaOk s.sel n))))
  else
    conclude (trap s (withCore s (s.core.agentNode s.params.fifoDepth s.shaOk s.sel n)))

/-- LAYER_CLOSE, delivered to layer `sel` (rules R85, R130, R140): CLOSE. -/
def execLayerClose (s : State) : Result :=
  if s.fatal then .next s
  else if s.params.fused then
    conclude (trap s (withCore s (always ((s.core.popToken s.sel).closeAt s.shaOk s.sel))))
  else
    conclude (trap s (withCore s (s.core.agentClose s.params.fifoDepth s.shaOk s.sel)))

end Sys2Proof.Machine
end

