-- ==== Sys2Proof/Machine/Sequencer.lean ====
section
/-! DEFINITION. The sequencer's actions on the pipeline: pushing leaves, closing layer 0, waiting for the root, and the ends
of WRITE, DIGEST and SUM (rules R150, R152, R155, R158, R162). An action that cannot run yet holds (rules R142, R250). -/

namespace Sys2Proof.Machine

open Sys2Proof.Config

/-- The end of DIGEST or SUM once the root is published (rules R155, R158, R162): the accumulator goes back to its reset value
and the answer is the root, for DIGEST (`sized`) with the padded size of `TOTAL`. -/
def answerRoot (sized : Bool) (r : Root) (s : State) : State :=
  let size := if sized then le64 (paddedSize s.core.total) else []
  reply .ok (nodeBytes r.node ++ size) { s with core := Core.empty }

/-- The end of WRITE (rule R150): `TOTAL <- TOTAL + LEN` and the answer `le64(LEN)`. -/
def answerWrite (s : State) : Res State :=
  match s.arg with
  | .error e => .error e
  | .ok len =>
    .ok (reply .ok (le64 (zext64 len)) { s with core := { s.core with total := s.core.total + zext64 len } })

/-- The new core as a next state. -/
def stepped (s : State) : Res Core → Res (Option State)
  | .error e => .error e
  | .ok c => .ok (some { s with core := c })

/-- The new core as a next state, or a hold. -/
def steppedOrHeld (s : State) : Res (Option Core) → Res (Option State)
  | .error e => .error e
  | .ok none => .ok none
  | .ok (some c) => .ok (some { s with core := c })

/-- One action. `none` is a hold. `FUSED = 1` runs the layers at once (rule R130), `FUSED = 0` enqueues a token (rules R152,
R158). DEDUCED (log entry 22): a WRITE is answered only when the pipeline is empty, as rule R33 says it is between commands. -/
def runOp (op : SeqOp) (s : State) : Res (Option State) :=
  match op with
  | .push leaf =>
    if s.params.fused then stepped s (s.core.pushAt s.shaOk 0 leaf)
    else steppedOrHeld s (s.core.enqueue s.params.fifoDepth 0 (nodeToken leaf))
  | .close =>
    if s.params.fused then stepped s (s.core.closeAt s.shaOk 0)
    else steppedOrHeld s (s.core.enqueue s.params.fifoDepth 0 closeToken)
  | .await sized =>
    match s.core.root with
    | none => .ok none
    | some r => .ok (some (answerRoot sized r s))
  | .writeDone =>
    if s.pipelineEmpty then
      match answerWrite s with
      | .error e => .error e
      | .ok t => .ok (some t)
    else .ok none

/-- Run actions until one holds; what is left is the job (rule R250). -/
def runOps : List SeqOp → State → Res State
  | [], s => .ok { s with job := [] }
  | op :: ops, s =>
    match runOp op s with
    | .error e => .error e
    | .ok none => .ok { s with job := op :: ops }
    | .ok (some t) => runOps ops t

/-- The sequencer goes on with the command that holds. -/
def resume (s : State) : Except Fault State := trap s (runOps s.job s)

end Sys2Proof.Machine
end

