-- ==== Sys2Proof/Machine/Stream.lean ====
section
/-! DEFINITION. The input stream: command-word assembly (rule R72), the framing of WRITE and EXTEND and the discard mode
(rules R74, R75, R77), and the ports (rules R70, R250, R251). -/

namespace Sys2Proof.Machine

open Sys2Proof.Config

/-! ## Command words -/

/-- What `fetch` has after the bytes on offer. -/
inductive Fetched where
  /-- `CWCNT` is still below 8. -/
  | more (s : State)
  /-- `CWCNT` reached 8: the command word's bytes, and the state with `CWCNT <- 0`. -/
  | word (bytes : List Byte) (s : State)

/-- Command-word assembly (rule R72), from as many of the offered bytes as it needs. -/
def fetch (s : State) : Fetched :=
  let need := 8 - s.parser.cwbuf.length
  if s.input.length < need then
    .more { s with parser := { s.parser with cwbuf := s.parser.cwbuf ++ s.input }, input := [] }
  else
    .word (s.parser.cwbuf ++ s.input.take need)
      { s with parser := { s.parser with cwbuf := [] }, input := s.input.drop need }

/-! ## Operand bytes -/

/-- `REM <- REM - 1` (rule R74). -/
def countDown (s : State) : State := { s with parser := { s.parser with rem := s.parser.rem - 1#56 } }

/-- `PHASE` and `REM` of the next operand. -/
def enterPhase (p : Phase) (rem : Arg) (s : State) : State := { s with parser := { s.parser with phase := p, rem := rem } }

/-- The pushes of a completed quad, then the end of the WRITE if this was its last byte (rules R74, R152). -/
def payloadJob (leaves : List Node) (last : Bool) : List SeqOp :=
  leaves.map SeqOp.push ++ (if last then [SeqOp.writeDone] else [])

/-- One payload byte of WRITE: absorbed, or discarded if `DROP = 1` (rules R74, R77, R152). -/
def payloadByte (b : Byte) (s : State) : Except Fault State :=
  let s1 := countDown s
  let last := s1.parser.rem == 0#56
  if s.parser.drop then .ok (if last then endDropped s1 else s1)
  else
    trap s1 <|
      match s1.core.absorb b with
      | .error e => .error e
      | .ok (c, leaves) => runOps (payloadJob leaves last) { s1 with core := c }

/-- One byte of EXTEND's commitment: byte `j < 32` goes to `XC[j]`, later ones are counted and discarded (rule R75). -/
def extCByte (b : Byte) (s : State) : State :=
  let s1 := countDown s
  let s2 := if s.parser.drop || !decide (s.parser.xc.length < digestSize) then s1
    else { s1 with parser := { s1.parser with xc := s1.parser.xc ++ [b] } }
  if s2.parser.rem = 0#56 then enterPhase .extS 8#56 s2 else s2

/-- One byte of `XS` (rule R75). -/
def extSByte (b : Byte) (s : State) : State :=
  let s1 := countDown s
  let s2 := if s.parser.drop then s1 else { s1 with parser := { s1.parser with xs := s1.parser.xs ++ [b] } }
  if s2.parser.rem = 0#56 then enterPhase .extT 8#56 s2 else s2

/-- One byte of `XT`; after the last, EXTEND executes (rule R75). -/
def extTByte (b : Byte) (s : State) : Except Fault State :=
  let s1 := countDown s
  let s2 := if s.parser.drop then s1 else { s1 with parser := { s1.parser with xt := s1.parser.xt ++ [b] } }
  if s2.parser.rem = 0#56 then
    if s.parser.drop then .ok (endDropped s2) else trap s2 (extendRun s2)
  else .ok s2

/-- One operand byte, by the phase (rules R74, R75). -/
def operandByte (b : Byte) (s : State) : Except Fault State :=
  match s.parser.phase with
  | .cmd => .ok s
  | .payload => payloadByte b s
  | .extC => .ok (extCByte b s)
  | .extS => .ok (extSByte b s)
  | .extT => extTByte b s

/-- The parser takes an operand byte now: a command has some to come, and nothing holds the sequencer (rule R250). -/
def State.wantsOperand (s : State) : Bool := s.parser.phase != .cmd && !s.busy

/-- Take operand bytes from those on offer, in order, until the command ends or holds. What is left stays on offer. -/
def feed : List Byte → State → Except Fault State
  | [], s => .ok { s with input := [] }
  | b :: bs, s =>
    if s.wantsOperand then
      match operandByte b s with
      | .error f => .error f
      | .ok t => feed bs t
    else .ok { s with input := b :: bs }

/-! ## Ports -/

/-- `in_ready` (rules R70, R240, R250): low while `rst` is high, while the sequencer holds, and while `RSPQ` is full. -/
def State.inReady (s : State) : Bool := s.sched.head? != some .rst && !s.busy && s.hasRoom

/-- `out_valid` (rules R70, R240). -/
def State.outValid (s : State) : Bool := s.sched.head? != some .rst && !s.rspq.isEmpty

/-- `out_data`: the next byte of the oldest response (rules R61, R70). -/
def State.outData (s : State) : Option Byte :=
  match s.rspq with
  | [] => none
  | r :: _ => r.head?

/-- The host takes a byte (rules R61, R70): the oldest response's, byte 0 first. DESIGN CHOICE (log entry 23): the response leaves `RSPQ`
with its last byte, and until then holds its place in the queue; rule R251 says only that the host takes a byte. -/
def hostTake (s : State) : State :=
  match s.rspq with
  | [] => s
  | [] :: rs => { s with rspq := rs }
  | (b :: []) :: rs => { s with rspq := rs, out := s.out ++ [b] }
  | (b :: b' :: bs) :: rs => { s with rspq := (b' :: bs) :: rs, out := s.out ++ [b] }

/-- The host offers bytes after those already on offer. -/
def hostOffer (bytes : List Byte) (s : State) : State := { s with input := s.input ++ bytes }

/-- The SHA-256 engine stops working until a hardware reset (rule R214; log entry 9). -/
def shaFailure (s : State) : State := { s with shaOk := false }

/-! ## Turns -/

/-- The deepest layer, from index `i` on, whose queue is not empty. -/
def deepestReady : Nat → List Layer → Option Nat
  | _, [] => none
  | i, l :: ls =>
    match deepestReady (i + 1) ls with
    | some j => some j
    | none => if l.q.isEmpty then none else some i

/-- The turn when none is scheduled (log entry 3): a layer agent while a token is queued, the deepest first; otherwise the
sequencer. -/
def defaultTurn (s : State) : Turn :=
  if s.fatal then .seq
  else
    match deepestReady 0 s.core.layers with
    | none => .seq
    | some i => if h : i < 32 then .layer ⟨i, h⟩ else .seq

/-- The next turn, and the state with it taken off the schedule. -/
def nextTurn (s : State) : Turn × State :=
  match s.sched with
  | [] => (defaultTurn s, s)
  | t :: ts => (t, { s with sched := ts })

/-- The head of `Q[L]`, for the agent that has the turn. -/
def headToken (l : Fin 32) (s : State) : Option Token :=
  match s.core.layers[l.val]? with
  | none => none
  | some r => r.q.head?

end Sys2Proof.Machine
end

