-- ==== Sys2Proof/Machine/Commands.lean ====
section
/-! DEFINITION. The seven host commands, from their decoded command word on (rules R73 to R76, R150 to R172, R193). -/

namespace Sys2Proof.Machine

open Sys2Proof.Config

/-- The state in which WRITE takes its payload (rules R74, R150): `PHASE <- PAYLOAD`, `REM <- LEN`, and `DROP` if `FATAL = 1` or
the WRITE would overflow, which is decided before any byte (rule R151). The first byte that is not discarded starts layer 0. -/
def startWrite (len : Arg) (s : State) : State :=
  let s1 := enterPhase .payload len (beginCommand (some { opc := opcWrite, arg := len }) s)
  if s.fatal || overflows s.core.total len then { s1 with parser := { s1.parser with drop := true } }
  else if len = 0#56 then s1
  else { s1 with core := s1.core.startLayer0 }

/-- WRITE (rules R74, R150, R151, R154), with as much of its payload as is on offer. -/
def execWrite (len : Arg) (s : State) : Result :=
  let s1 := startWrite len s
  if len = 0#56 then
    conclude (if s1.parser.drop then .ok (endDropped s1) else trap s1 (runOps (payloadJob [] true) s1))
  else conclude (feed s1.input s1)

/-- FINALIZE up to the root (rule R158): pad, push the last leaves, close layer 0 and wait for the root, for DIGEST (`sized`) or
SUM. -/
def finalize (sized : Bool) (s : State) : Except Fault State :=
  trap s <|
    match s.core.padQuad with
    | .error e => .error e
    | .ok (c, leaves) => runOps (leaves.map SeqOp.push ++ [SeqOp.close, SeqOp.await sized]) { s with core := c }

/-- `TOTAL < MinPiecePayload` (rule R156). -/
def insufficient (s : State) : Bool := decide (s.core.total.toNat < minPiecePayload)

/-- DIGEST (rules R155 to R159). -/
def execDigest (s : State) : Result :=
  if s.fatal then .next (fatalReply s)
  else if insufficient s then .next (reply .insufficientInput [] s)
  else conclude (finalize true (beginCommand none s))

/-- SUM (rules R162, R164). -/
def execSum (s : State) : Result :=
  if s.fatal then .next (fatalReply s)
  else if insufficient s then .next (fatalAbort Status.insufficientInput.code s)
  else conclude (finalize false (beginCommand none s))

/-- RESET, the command (rules R170, R241): accumulator, layers, queues and root go back to their reset values. -/
def execReset (s : State) : Result :=
  if s.fatal then .next (fatalReply s) else .next (reply .ok [] { s with core := Core.empty })

/-- The state in which EXTEND takes its operands (rule R75): `XCLEN <- CLEN`, and `EXT_C` unless `CLEN = 0`. -/
def startExtend (clen : Arg) (s : State) : State :=
  let s1 := beginCommand (some { opc := opcExtend, arg := clen }) s
  let s2 := { s1 with parser := { s1.parser with xclen := clen } }
  if clen = 0#56 then enterPhase .extS 8#56 s2 else enterPhase .extC clen s2

/-- EXTEND (rules R75, R193), with as much of its operands as is on offer. -/
def execExtend (clen : Arg) (s : State) : Result :=
  let s1 := startExtend clen s
  conclude (feed s1.input s1)

/-- BLOCK_SIZE (rule R166). -/
def execBlockSize (s : State) : Result :=
  if s.fatal then .next (fatalReply s) else .next (reply .ok (le64 (BitVec.ofNat 64 blockSize)) s)

/-- DIGEST_SIZE (rule R167). -/
def execDigestSize (s : State) : Result :=
  if s.fatal then .next (fatalReply s) else .next (reply .ok (le64 (BitVec.ofNat 64 digestSize)) s)

end Sys2Proof.Machine
end

