-- ==== Sys2Proof/Machine/Dispatch.lean ====
section
/-! DEFINITION. One arm per instruction. -/

namespace Sys2Proof.Machine

def exec (i : Instr) (s : State) : Host.Outcome State Fault Refusal :=
  match i with
  | .write len => Sys2Proof.Machine.execWrite len s
  | .digest => Sys2Proof.Machine.execDigest s
  | .sum => Sys2Proof.Machine.execSum s
  | .reset => Sys2Proof.Machine.execReset s
  | .extend clen => Sys2Proof.Machine.execExtend clen s
  | .blockSize => Sys2Proof.Machine.execBlockSize s
  | .digestSize => Sys2Proof.Machine.execDigestSize s
  | .layerNode node => Sys2Proof.Machine.execLayerNode node s
  | .layerClose => Sys2Proof.Machine.execLayerClose s

end Sys2Proof.Machine
end

