-- ==== Sys2Proof/Machine/Step.lean ====
section
/-! DEFINITION. One step of the machine: whoever has the turn moves. A turn that can do nothing leaves the state as it is,
which is the spec's absence of a step (rules R145, R251). -/

namespace Sys2Proof.Machine

/-- The sequencer's turn: go on with the command that holds, or take bytes from the input stream if `in_ready` allows
(rules R72 to R77, R250). An undecodable command word is answered, not refused (rule R172). -/
def seqStep (s : State) : Host.Outcome State Fault Refusal :=
  if s.busy then conclude (resume s)
  else if !s.hasRoom then .next s
  else if s.parser.phase = .cmd then
    match fetch s with
    | .more t => .next t
    | .word bytes t =>
      match decodeBytes bytes with
      | .ok i => exec i t
      | .error _ => .next (illegal t)
  else conclude (feed s.input s)

/-- The turn of layer agent `l`: run the token at the head of its queue (rules R85, R140). -/
def layerStep (l : Fin 32) (s : State) : Host.Outcome State Fault Refusal :=
  match headToken l s with
  | none => .next s
  | some tok => exec (decodeToken tok) { s with sel := l }

/-- One turn. -/
def runTurn (t : Turn) (s : State) : Host.Outcome State Fault Refusal :=
  match t with
  | .seq => seqStep s
  | .layer l => layerStep l s
  | .offer bytes => .next (hostOffer bytes s)
  | .take => .next (hostTake s)
  | .rst => .next (hardReset s)
  | .shaFail => .next (shaFailure s)

/-- One step: the next turn of the schedule. -/
def step (s : State) : Host.Outcome State Fault Refusal :=
  let (t, s1) := nextTurn s
  runTurn t s1

/-- How many operand bytes `withFetchWord` lays out at most (log entry 13). -/
def fetchOperandCap : Nat := 64

/-- `s` with an opcode-table word placed where the next step fetches: a command word's 8 bytes at the head of the input
stream, followed by its operand bytes, all zero, and the sequencer's turn; a layer token (more than 64 bits) at the head of
`Q[0]`, and the turn of layer 0. -/
def State.withFetchWord (s : State) (nbits w : Nat) : State :=
  if nbits ≤ 64 then
    let bytes := leBytes 8 w
    let operands := match decodeBytes bytes with
      | .ok i => List.replicate (min (operandBytes i) fetchOperandCap) 0#8
      | .error _ => []
    { s with
      parser := { s.parser with phase := .cmd, cwbuf := [] }
      job := []
      rspq := []
      input := bytes ++ operands
      sched := [.seq] }
  else
    { s with
      core := { s.core with layers := s.core.layers.modify 0 fun l => { l with q := (tokenOfNat w).toList } }
      sched := [.layer 0] }

end Sys2Proof.Machine
end

