-- ==== Sys2Proof/Safety.lean ====
section
/-! DEFINITION. What claims about the machine are stated in: the invariant of every run, the commitment of a payload in closed
form (rules R27, R131, R135, R160), and what a pipeline in flight amounts to (rule R141). -/

namespace Sys2Proof.Machine

open Sys2Proof.Config

/-! ## The invariant of every run -/

/-- The node of a token is Fr32 (rule R26); a CLOSE token's node bits are 0 (rule R84). -/
def tokenOk (t : Token) : Bool := isFr32 (tokenNode t)

/-- Rule R26 for one layer and its queue. -/
def Layer.ok (l : Layer) : Bool := l.slot.all isFr32 && l.q.all tokenOk

/-- Exactly the cells `CARRY[0 .. CLEN-1]` have a value, and the quad is not full (rule R22). -/
abbrev Core.CarryOk (c : Core) : Prop := c.carry.map Prod.fst = List.range c.clen ∧ c.clen < blockSize

/-- Rules R22, R23, R25 and R26 for the accumulator and the layers. -/
abbrev Core.Ok (c : Core) : Prop :=
  c.CarryOk ∧ c.total.toNat ≤ maxPiecePayload ∧ c.layers.length = layerCount ∧
    c.layers.all Layer.ok = true ∧ c.root.all (fun r => isFr32 r.node) = true

/-- The shapes a job can have: Fr32 leaves to push, then the end of a WRITE, or the close and the wait of FINALIZE. -/
def jobShape : List SeqOp → Bool
  | [] => true
  | .push n :: ops => isFr32 n && jobShape ops
  | [.writeDone] => true
  | [.close, .await _] => true
  | [.await _] => true
  | _ => false

/-- The wait of DIGEST or SUM. -/
def SeqOp.isAwait : SeqOp → Bool
  | .await _ => true
  | .push _ => false
  | .close => false
  | .writeDone => false

/-- What a phase says of the fields of the parser while a command is in progress (rules R29, R74, R75): `OPC` and `ARG` have a value
exactly if `PHASE` is not CMD. -/
def Parser.phaseOk (p : Parser) (job : List SeqOp) (total : Size) : Prop :=
  match p.phase, p.cmd with
  | .cmd, none => job.any SeqOp.isAwait = true
  | .payload, some c =>
    job.any SeqOp.isAwait = false ∧ (p.rem = 0#56 ↔ SeqOp.writeDone ∈ job) ∧ (p.drop = true → job = []) ∧
      (p.drop = false → total.toNat + c.arg.toNat ≤ maxPiecePayload)
  | .extC, some _ =>
    job = [] ∧ p.rem ≠ 0#56 ∧ (p.drop = false → p.xs = [] ∧ p.xt = [] ∧ p.xc.length = min digestSize (p.xclen.toNat - p.rem.toNat) ∧
      p.rem.toNat ≤ p.xclen.toNat)
  | .extS, some _ =>
    job = [] ∧ p.rem ≠ 0#56 ∧ p.rem.toNat ≤ 8 ∧ (p.drop = false → p.xs.length = 8 - p.rem.toNat ∧ p.xt = [] ∧
      p.xc.length = min digestSize p.xclen.toNat)
  | .extT, some _ =>
    job = [] ∧ p.rem ≠ 0#56 ∧ p.rem.toNat ≤ 8 ∧ (p.drop = false → p.xs.length = 8 ∧ p.xt.length = 8 - p.rem.toNat ∧
      p.xc.length = min digestSize p.xclen.toNat)
  | _, _ => False

/-- The parser and the job agree (rules R29, R57, R77): with no command in progress nothing is pending, and with one in
progress `RSPQ` keeps room for its response (rule R30), and it began with empty queues (rule R33). -/
def State.parserOk (s : State) : Prop :=
  match s.parser.saved with
  | none => s.parser.phase = .cmd ∧ s.parser.cmd = none ∧ s.job = []
  | some c => c.Ok ∧ c.drained = true ∧ s.rspq.length < s.params.rspqDepth ∧ s.parser.phaseOk s.job s.core.total

/-- A token is queued only in the pipelined implementation and while a WRITE, a DIGEST or a SUM that is not being discarded is in
progress: the pipeline is empty between commands (rule R33). -/
def State.queuesOk (s : State) : Prop :=
  s.core.drained = true ∨
    s.params.fused = false ∧ s.parser.saved ≠ none ∧ s.parser.drop = false ∧ (s.parser.phase = .cmd ∨ s.parser.phase = .payload)

/-- The invariant of every run. -/
structure State.Inv (s : State) : Prop where
  params : s.params.wf = true
  core : s.core.Ok
  parser : s.parserOk
  queues : s.queuesOk
  cwcnt : s.parser.cwbuf.length < 8
  job : jobShape s.job = true
  rspq : s.rspq.length ≤ s.params.rspqDepth
  fatalJob : s.fatal = true → s.job = []
  fatalDrop : s.fatal = true → s.parser.saved ≠ none → s.parser.drop = true

/-- The internal fault as rules R12, R214 and R215 describe it (log entries 6 and 7), as the outcome of an instruction in `s`: FATAL
with cause 0x0A; with no command in progress nothing else changes; with one in progress its effects are discarded and it answers
`09 0A`, or, with operand bytes still due, discards them first. -/
def RaisesInternalFault (s : State) (o : Result) : Prop :=
  (s.parser.saved = none → o = .next { s with fatal := true, fatalCause := 0x0A#8, job := [] }) ∧
  (∀ c, s.parser.saved = some c → s.parser.phase = .cmd ∨ s.parser.rem = 0#56 →
    o = .next { s with
      core := c, fatal := true, fatalCause := 0x0A#8, job := [], parser := s.parser.next,
      rspq := s.rspq ++ [[0x09#8, 0x0A#8]] }) ∧
  (∀ c, s.parser.saved = some c → s.parser.phase ≠ .cmd → s.parser.rem ≠ 0#56 →
    o = .next { s with
      core := c, fatal := true, fatalCause := 0x0A#8, job := [], parser := { s.parser with drop := true } })

/-! ## The commitment in closed form -/

/-- `MR(xs)` for a list of `2^h` nodes (rule R135). -/
def merkleRoot : Nat → List Node → Node
  | 0, xs => xs.headD 0#256
  | h + 1, xs => nodeHash (merkleRoot h (xs.take (2 ^ h))) (merkleRoot h (xs.drop (2 ^ h)))

/-- The leaves of the first `n` quads of a byte string, in order (rules R102, R105). -/
def quadLeaves (n : Nat) (p : List Byte) : List Node :=
  (List.range n).flatMap fun i => expandLeaves ((p.drop (127 * i)).take 127)

/-- The leaves of a payload zero-padded to a whole quad (rule R160 (a)). -/
def paddedLeaves (p : List Byte) : List Node :=
  quadLeaves (ceilDiv p.length 127) (p ++ List.replicate (127 * ceilDiv p.length 127 - p.length) 0#8)

/-- The height of the tree over `n` leaves: `log2(next_pow2(n))` (rule R131). -/
def treeHeight (n : Nat) : Nat := (nextPow2 n).log2

/-- The root of `n` leaves followed by zero leaves up to a power of two (rule R131). -/
def paddedRoot (xs : List Node) : Node :=
  merkleRoot (treeHeight xs.length) (xs ++ List.replicate (2 ^ treeHeight xs.length - xs.length) 0#256)

/-- commP of a payload (rule R160 (a)). -/
def commP (p : List Byte) : Node := paddedRoot (paddedLeaves p)

/-- Layer `L` after `n` leaves (rule R27): the slot holds the root of the last whole subtree of `2^L` leaves exactly if bit `L`
of `n` is set. -/
def streamLayer (nonempty : Bool) (xs : List Node) (lidx : Nat) : Layer :=
  { active := if lidx = 0 then nonempty else decide (2 ^ lidx ≤ xs.length)
    slot := if xs.length.testBit lidx then
        some (merkleRoot lidx ((xs.drop ((xs.length / 2 ^ lidx - 1) * 2 ^ lidx)).take (2 ^ lidx)))
      else none
    q := [] }

/-- The accumulator between commands when it has accepted the payload `p` (rules R22, R24, R27). -/
def streamCore (p : List Byte) : Core :=
  { carry := (List.range (p.length % 127)).zip (p.drop (127 * (p.length / 127)))
    clen := p.length % 127
    total := BitVec.ofNat 64 p.length
    layers := (List.range layerCount).map (streamLayer (!p.isEmpty) (quadLeaves (p.length / 127) p))
    root := none }

/-- The accumulator inside a WRITE that follows the payload `p`, with the bytes `d` of it absorbed: `TOTAL` is not yet
changed, and layer 0 is started (rule R150). -/
def writingCore (p d : List Byte) : Core :=
  { (streamCore (p ++ d)).startLayer0 with total := BitVec.ofNat 64 p.length }

/-- With `FUSED = 1` the accumulator is always that of some payload: between commands of the bytes accepted, and inside a WRITE
of those and the bytes absorbed so far (rules R24, R27). -/
def State.Streaming (s : State) : Prop :=
  s.params.fused = true ∧ s.job = [] ∧
    ∃ p : List Byte, p.length ≤ maxPiecePayload ∧
      match s.parser.saved with
      | none => s.parser.phase = .cmd ∧ s.core = streamCore p
      | some c =>
        c = streamCore p ∧ s.parser.phase ≠ .cmd ∧ s.parser.rem ≠ 0#56 ∧
          if s.parser.phase = .payload ∧ s.parser.drop = false then
            ∃ (k : Command) (d : List Byte), s.parser.cmd = some k ∧ d.length + s.parser.rem.toNat = k.arg.toNat ∧
              p.length + k.arg.toNat ≤ maxPiecePayload ∧ s.core = writingCore p d
          else s.core = streamCore p

/-! ## EXTEND in closed form -/

/-- The extension from a subtree of `2^a` padded bytes to one of `2^b` (rules R193, R195). -/
def extension (c : Node) (a b : Nat) : Node :=
  (List.range' a (b - a)).foldl (fun x k => nodeHash x (tower (k - 5))) c

/-- A size that is a power of two. -/
def isPow2 (v : Size) : Prop := ∃ k, v.toNat = 2 ^ k

/-! ## What a pipeline in flight amounts to -/

/-- Deliver one token to the first of the given layers by the reference semantics (rule R130). -/
def deliver (lidx : Nat) (t : Token) (ls : List Layer) (r : Option Root) : Res (List Layer × Option Root) :=
  if tokenTag t then
    match close true ls.length lidx ls with
    | .error e => .error e
    | .ok (ls', r') => .ok (ls', some r')
  else
    match push true lidx ls (tokenNode t) with
    | .error e => .error e
    | .ok ls' => .ok (ls', r)

/-- Deliver a queue of tokens, in order. -/
def deliverAll (lidx : Nat) : List Token → List Layer → Option Root → Res (List Layer × Option Root)
  | [], ls, r => .ok (ls, r)
  | t :: ts, ls, r =>
    match deliver lidx t ls r with
    | .error e => .error e
    | .ok (ls', r') => deliverAll lidx ts ls' r'

/-- Run every queued token to its end, the deepest layer's first: the layers and the root the pipeline is on the way to. -/
def settleLayers : Nat → List Layer → Option Root → Res (List Layer × Option Root)
  | _, [], r => .ok ([], r)
  | lidx, l :: above, r =>
    match settleLayers (lidx + 1) above r with
    | .error e => .error e
    | .ok (above', r') => deliverAll lidx l.q ({ l with q := [] } :: above') r'

/-- The settled layers and root of a core (rule R141). -/
def Core.settled (c : Core) : Res (List Layer × Option Root) := settleLayers 0 c.layers c.root

/-- A layer that was not started has no token queued, and neither has any layer above it, none of which was started (rules
R123, R140). -/
def startedInOrder : List Layer → Bool
  | [] => true
  | l :: above => (l.active || (l.q.isEmpty && above.all fun m => !m.active && m.q.isEmpty)) && startedInOrder above

/-- `startedInOrder` for the layers above layer 0, which receives its tokens from the accumulator. -/
def Core.StartedInOrder (c : Core) : Prop := startedInOrder (c.layers.drop 1) = true

/-- The token an action of the sequencer queues for layer 0, if it queues one (rules R84, R152, R158). -/
def SeqOp.token? : SeqOp → Option Token
  | .push leaf => some (nodeToken leaf)
  | .close => some closeToken
  | .await _ => none
  | .writeDone => none

/-- The tokens the command in progress has still to queue for layer 0, in order. -/
def State.pendingTokens (s : State) : List Token := s.job.filterMap SeqOp.token?

/-- Every token on its way, the one furthest on first: the deepest queue's, down to layer 0's, and those still to be queued. -/
def State.inFlight (s : State) : List Token := s.core.layers.reverse.flatMap Layer.q ++ s.pendingTokens

/-- The CLOSE is the last token on its way, and once it has published the root no token is left (rules R140, R142). -/
def State.CloseIsLast (s : State) : Prop :=
  s.inFlight.dropLast.all (fun t => !tokenTag t) = true ∧ (s.core.root ≠ none → s.inFlight = [])

/-- The layers and the root that the queued tokens and those still to be queued amount to by the reference semantics (rule
R141). -/
def State.outlook (s : State) : Res (List Layer × Option Root) :=
  match s.core.settled with
  | .error e => .error e
  | .ok (ls, r) => deliverAll 0 s.pendingTokens ls r

/-- With `FUSED = 0` the accumulator with what is on its way is always that of some payload (rules R24, R27, R141): between commands
of the bytes accepted; inside a WRITE, what the tokens amount to is the accumulator of those and the bytes absorbed so far; inside a
DIGEST or SUM they amount to the commitment. -/
def State.PipelineStreaming (s : State) : Prop :=
  s.params.fused = false ∧ s.core.StartedInOrder ∧ s.CloseIsLast ∧
    ∃ p : List Byte, p.length ≤ maxPiecePayload ∧
      match s.parser.saved with
      | none => s.core = streamCore p
      | some c =>
        c = streamCore p ∧
          match s.parser.phase, s.parser.drop with
          | .cmd, _ =>
            minPiecePayload ≤ p.length ∧ s.core.total = BitVec.ofNat 64 p.length ∧
              ∃ ls, s.outlook = .ok (ls, some {
                node := commP p, layer := BitVec.ofNat 5 (treeHeight (4 * ceilDiv p.length 127)) })
          | .payload, false =>
            ∃ (k : Command) (d : List Byte),
              s.parser.cmd = some k ∧ k.arg ≠ 0#56 ∧ d.length + s.parser.rem.toNat = k.arg.toNat ∧
                p.length + k.arg.toNat ≤ maxPiecePayload ∧
                s.core = { writingCore p d with layers := s.core.layers, root := s.core.root } ∧
                s.outlook = .ok ((writingCore p d).layers, none)
          | _, _ => s.core = streamCore p

end Sys2Proof.Machine
end

