-- ==== Sys2Proof/Certificates/Slice0/Obligations.lean ====
section
/-! DEFINITION. The statements for the provers. Each is about every state that meets its hypotheses; the next states are
written out as record updates, so that what a statement does not name is unchanged (its frame). -/

open Sys2Proof Sys2Proof.Machine Sys2Proof.Config

/-! ## Encoding, decoding and the step -/

/-- Every instruction's encoding decodes to it, and a command's 8 stream bytes do (rules R71, R78, R84). -/
def Obligations.DecodeOfEncodeIsTheInstruction : Prop :=
  ∀ i : Instr, decode (encode i) = .ok i ∧ ∀ w, encode i = .cmd w → decodeBytes (cmdBytes w) = .ok i

/-- No bit of a command word or of a NODE token is dropped by the decoder: what it decodes to encodes to that very word
(rules R79, R84). -/
def Obligations.DecodedWordIsItsEncoding : Prop :=
  (∀ (w : CmdWord) (i : Instr), decodeCmdWord w = .ok i → encode i = .cmd w) ∧
    ∀ (t : Token) (n : Node), decodeToken t = .layerNode n → encode (.layerNode n) = .token t

/-- The illegal command words are exactly those of rule R79. -/
def Obligations.IllegalWordsAreExactlyTheReserved : Prop :=
  ∀ w : CmdWord, (∃ e, decodeCmdWord w = .error e) ↔
    (cwOpc w = 0x00#8 ∨ 0x08#8 ≤ cwOpc w) ∨
      (cwOpc w ∈ [0x02#8, 0x03#8, 0x04#8, 0x06#8, 0x07#8] ∧ cwArg w ≠ 0#56)

/-- Command words and tokens written out from the opcode map and the token layout (rules R78, R84, R87) decode as they should. -/
def Obligations.SampleWordsDecode : Prop :=
  decodeBytes [0x01#8, 0x41#8, 0#8, 0#8, 0#8, 0#8, 0#8, 0#8] = .ok (.write 65#56) ∧
  decodeBytes [0x02#8, 0#8, 0#8, 0#8, 0#8, 0#8, 0#8, 0#8] = .ok .digest ∧
  decodeBytes [0x05#8, 0x20#8, 0#8, 0#8, 0#8, 0#8, 0#8, 0#8] = .ok (.extend 32#56) ∧
  decodeBytes [0x02#8, 0x01#8, 0#8, 0#8, 0#8, 0#8, 0#8, 0#8] = .error (.nonzeroArg 0x02#8 1#56) ∧
  decodeToken (5#256).toNat = .layerNode 5#256 ∧
  decodeToken closeToken = .layerClose

/-- The sequencer's turn, with the 8 bytes of a command word received or on offer (rules R72, R73): a legal word runs `exec` of
its instruction with the word consumed, and fewer than 8 bytes are only collected. -/
def Obligations.StepRunsTheDecodedCommand : Prop :=
  ∀ (s s1 : State), nextTurn s = (.seq, s1) → s1.job = [] → s1.rspq.length < s1.params.rspqDepth → s1.parser.phase = .cmd →
    s1.parser.cwbuf.length ≤ 8 →
    (∀ i, 8 ≤ (s1.parser.cwbuf ++ s1.input).length → decodeBytes ((s1.parser.cwbuf ++ s1.input).take 8) = .ok i →
      step s = exec i { s1 with
        parser := { s1.parser with cwbuf := [] }, input := (s1.parser.cwbuf ++ s1.input).drop 8 }) ∧
    ((s1.parser.cwbuf ++ s1.input).length < 8 →
      step s = .next { s1 with parser := { s1.parser with cwbuf := s1.parser.cwbuf ++ s1.input }, input := [] })

/-- A layer agent's turn runs `exec` of the token at the head of its queue (rules R85, R140); with an empty queue it does
nothing. -/
def Obligations.StepRunsTheQueuedToken : Prop :=
  ∀ (s s1 : State) (l : Fin 32) (r : Layer), nextTurn s = (.layer l, s1) → s1.core.layers[l.val]? = some r →
    (∀ tok toks, r.q = tok :: toks → step s = exec (decodeToken tok) { s1 with sel := l }) ∧
    (r.q = [] → step s = .next s1)

/-- An illegal command word takes its 8 bytes, changes nothing but the parser, and is answered `08`; under FATAL the answer is
`09` and the cause (rules R79, R172, R215). -/
def Obligations.StepAnswersAnIllegalWord : Prop :=
  ∀ (s s1 : State) (e : DecodeError), nextTurn s = (.seq, s1) → s1.job = [] →
    s1.rspq.length < s1.params.rspqDepth → s1.parser.phase = .cmd → s1.parser.cwbuf.length ≤ 8 →
    8 ≤ (s1.parser.cwbuf ++ s1.input).length → decodeBytes ((s1.parser.cwbuf ++ s1.input).take 8) = .error e →
    step s = .next { s1 with
      parser := s1.parser.next, rspq := s1.rspq ++ [if s1.fatal then [0x09#8, s1.fatalCause] else [0x08#8]],
      input := (s1.parser.cwbuf ++ s1.input).drop 8 }

/-- While `RSPQ` is full the block takes no byte: the sequencer's turn leaves everything as it is (rules R30, R250, R251). That a response
read in part still counts is the model's choice (log entry 23). -/
def Obligations.FullResponseQueueHoldsTheParser : Prop :=
  ∀ (s s1 : State), nextTurn s = (.seq, s1) → s1.job = [] → s1.params.rspqDepth ≤ s1.rspq.length → step s = .next s1

/-- Operand bytes may be offered in pieces (rules R55, R74, R75): feeding `a ++ b` is feeding `a` and then, after what `a` left
on offer, `b`. -/
def Obligations.OperandBytesMayComeInPieces : Prop :=
  ∀ (a b : List Byte) (s t : State), feed a s = .ok t → feed (a ++ b) s = feed (t.input ++ b) t

/-! ## WRITE -/

/-- WRITE with `FUSED = 1` (rules R150, R152, R24, R27): after payload `p`, a WRITE of `d` leaves the accumulator of `p ++ d`, takes
exactly its payload bytes and answers `00` with the count. -/
def Obligations.WriteExtendsTheStream : Prop :=
  ∀ (s : State) (p d rest : List Byte) (len : Arg),
    s.fatal = false → s.params.fused = true → s.shaOk = true → s.core = streamCore p → s.input = d ++ rest →
    d.length = len.toNat → p.length + d.length ≤ maxPiecePayload →
    exec (.write len) s = .next { s with
      core := streamCore (p ++ d), parser := { s.parser.next with rem := 0#56 }, job := [],
      rspq := s.rspq ++ [0x00#8 :: le64 (zext64 len)], input := rest }

/-- WRITE that completes no quad, whatever the parameters (rules R150, R152), where the pipeline is empty as it is between commands
(rule R33): its bytes go to `CARRY[CLEN ..]`, no leaf is pushed, layer 0 is started, and `TOTAL` counts them. -/
def Obligations.WriteBuffersTheResidue : Prop :=
  ∀ (s : State) (d rest : List Byte) (len : Arg),
    s.fatal = false → s.pipelineEmpty = true → s.core.CarryOk → s.core.total.toNat + len.toNat ≤ maxPiecePayload →
    s.input = d ++ rest → d.length = len.toNat → 0 < d.length → s.core.clen + d.length < 127 →
    exec (.write len) s = .next { s with
      core := { s.core with
        carry := s.core.carry ++ (List.range' s.core.clen d.length).zip d,
        clen := s.core.clen + d.length,
        total := s.core.total + zext64 len,
        layers := s.core.layers.modify 0 fun l => { l with active := true } },
      parser := { s.parser.next with rem := 0#56 }, job := [],
      rspq := s.rspq ++ [0x00#8 :: le64 (zext64 len)], input := rest }

/-- WRITE with only a part of its payload on offer (rules R74, R150): the part is absorbed, `REM` counts what is missing, `TOTAL`
is not changed yet, and there is no response. Whatever the parameters for a part that completes no quad; with `FUSED = 1` for any
part, from the accumulator of any payload. -/
def Obligations.WriteWaitsForItsPayload : Prop :=
  ∀ (s : State) (len : Arg),
    s.fatal = false → s.core.total.toNat + len.toNat ≤ maxPiecePayload → s.input.length < len.toNat →
    (s.core.CarryOk → s.core.clen + s.input.length < 127 → exec (.write len) s = .next { s with
      core := { s.core with
        carry := s.core.carry ++ (List.range' s.core.clen s.input.length).zip s.input,
        clen := s.core.clen + s.input.length,
        layers := s.core.layers.modify 0 fun l => { l with active := true } },
      parser := { s.parser.next with
        phase := .payload, rem := len - BitVec.ofNat 56 s.input.length, cmd := some { opc := 0x01#8, arg := len },
        saved := some s.core },
      job := [], input := [] }) ∧
    (∀ p : List Byte, s.params.fused = true → s.shaOk = true → p.length ≤ maxPiecePayload → s.core = streamCore p →
      exec (.write len) s = .next { s with
        core := writingCore p s.input,
        parser := { s.parser.next with
          phase := .payload, rem := len - BitVec.ofNat 56 s.input.length, cmd := some { opc := 0x01#8, arg := len },
          saved := some s.core },
        job := [], input := [] })

/-- A WRITE that would pass `MaxPiecePayload` changes no state, consumes its payload and is answered `01` (rule R151). -/
def Obligations.OverflowingWriteChangesNothing : Prop :=
  ∀ (s : State) (d rest : List Byte) (len : Arg),
    s.fatal = false → s.core.total.toNat ≤ maxPiecePayload → maxPiecePayload < s.core.total.toNat + len.toNat →
    s.input = d ++ rest → d.length = len.toNat →
    exec (.write len) s = .next { s with
      parser := { s.parser.next with rem := 0#56 }, job := [], rspq := s.rspq ++ [[0x01#8]], input := rest }

/-- A zero-length WRITE changes no state and is answered `00` with count 0, also at `TOTAL = MaxPiecePayload` (rule R154). The
pipeline is empty, as it is between commands (rule R33; `StepKeepsTheInvariant`). -/
def Obligations.ZeroLengthWriteIsANoOp : Prop :=
  ∀ s : State, s.fatal = false → s.pipelineEmpty = true → s.core.total.toNat ≤ maxPiecePayload →
    exec (.write 0#56) s = .next { s with
      parser := { s.parser.next with rem := 0#56 }, job := [],
      rspq := s.rspq ++ [[0x00#8, 0#8, 0#8, 0#8, 0#8, 0#8, 0#8, 0#8, 0#8]] }

/-- Chunk independence (rule R153) for `FUSED = 1`, from any accumulator state: where one WRITE of the whole payload ends
without an internal fault, two WRITEs of its parts end in the same accumulator state. -/
def Obligations.ChunkedWritesEqualOneWrite : Prop :=
  ∀ (s t : State) (d1 d2 : List Byte) (len1 len2 len : Arg),
    s.fatal = false → s.params.fused = true → s.shaOk = true → s.core.total.toNat + d1.length + d2.length ≤ maxPiecePayload →
    s.input = d1 ++ d2 → d1.length = len1.toNat → d2.length = len2.toNat → d1.length + d2.length = len.toNat →
    exec (.write len) s = .next t → t.fatal = false →
    ∃ t1 t2, exec (.write len1) s = .next t1 ∧ exec (.write len2) t1 = .next t2 ∧ t2.core = t.core ∧ t2.fatal = false

/-- WRITE with `FUSED = 0` and room in `Q[0]` for the leaves of the quads it completes, one or more (rules R84, R105, R150, R152), with
the whole payload or a part of it on offer: the leaves are queued for layer 0 in order, and the bytes after the last quad are in
the carry buffer. With its payload in, the WRITE's end is pending until the pipeline is empty, which is the model's reading of
rule R33 (log entry 22); with a part of it, `REM` counts what is missing. -/
def Obligations.PipelinedWriteEnqueuesTheLeaves : Prop :=
  ∀ (s : State) (d rest w : List Byte) (len : Arg) (n : Nat) (l : Layer) (ls : List Layer),
    s.fatal = false → s.params.fused = false → s.core.CarryOk → s.core.total.toNat + len.toNat ≤ maxPiecePayload →
    s.core.layers = l :: ls → s.input = d ++ rest → (d.length = len.toNat ∨ d.length < len.toNat ∧ rest = []) →
    w = s.core.carry.map Prod.snd ++ d → n = w.length / 127 → 0 < n → l.q.length + 4 * n ≤ s.params.fifoDepth →
    exec (.write len) s = .next { s with
      core := { s.core with
        carry := (List.range (w.length % 127)).zip (w.drop (127 * n)), clen := w.length % 127,
        layers := { l with active := true, q := l.q ++ (quadLeaves n w).map nodeToken } :: ls },
      parser := { s.parser.next with
        phase := .payload, rem := len - BitVec.ofNat 56 d.length, cmd := some { opc := 0x01#8, arg := len },
        saved := some s.core },
      job := if d.length = len.toNat then [SeqOp.writeDone] else [], input := rest }

/-- WRITE with `FUSED = 0` whose quad `n` (from 0) finds no room in `Q[0]` for all its leaves (rules R142, R152, R250), on an empty
queue with a small `FIFO_DEPTH` too: it holds with the bytes `d` up to that quad taken. As many leaves as there is room for are
queued, the others and, if `d` is the whole payload, the end of the WRITE are pending, `BUSY` is set, and there is no response. -/
def Obligations.PipelinedWriteHoldsAtAFullQueue : Prop :=
  ∀ (s : State) (d rest w : List Byte) (len : Arg) (n room : Nat) (l : Layer) (ls : List Layer),
    s.fatal = false → s.params.fused = false → s.core.CarryOk → s.core.total.toNat + len.toNat ≤ maxPiecePayload →
    s.core.layers = l :: ls → s.input = d ++ rest → d.length ≤ len.toNat →
    w = s.core.carry.map Prod.snd ++ d → w.length = 127 * (n + 1) →
    room = s.params.fifoDepth - l.q.length → 4 * n ≤ room → room < 4 * n + 4 →
    ∃ t, exec (.write len) s = .next t ∧ t.busy = true ∧ t = { s with
      core := { s.core with
        carry := [], clen := 0,
        layers := { l with active := true, q := l.q ++ ((quadLeaves (n + 1) w).take room).map nodeToken } :: ls },
      parser := { s.parser.next with
        phase := .payload, rem := len - BitVec.ofNat 56 d.length, cmd := some { opc := 0x01#8, arg := len },
        saved := some s.core },
      job := ((quadLeaves (n + 1) w).drop room).map SeqOp.push ++
        (if d.length = len.toNat then [SeqOp.writeDone] else []),
      input := rest }

/-! ## A command that holds -/

/-- The sequencer's turn while a command is held with actions pending. With `FUSED = 0` a pending leaf or CLOSE is queued for layer 0
if `Q[0]` has room, and the actions after it go on, as the sequencer's next turn would; with `Q[0]` full the turn changes nothing
(rules R142, R152, R158, R250). A pending wait of DIGEST or SUM does nothing without a root, and answers it when it is published,
DIGEST (`sized`) with the padded size, and the accumulator is empty (rules R155, R158, R162). A pending end of a WRITE (rules R33,
R150) does nothing while a token is queued, and once the pipeline is empty `TOTAL` counts the payload and the WRITE is answered;
that it waits is the model's reading of rule R33 (log entry 22). -/
def Obligations.HeldCommandGoesOn : Prop :=
  ∀ s s1 : State, nextTurn s = (.seq, s1) →
    (∀ (op : SeqOp) (tok : Token) (ops : List SeqOp) (l : Layer) (ls : List Layer),
      s1.params.fused = false → s1.job = op :: ops → s1.core.layers = l :: ls →
      ((∃ leaf, op = .push leaf ∧ tok = nodeToken leaf) ∨ (op = .close ∧ tok = closeToken)) →
      let t : State := { s1 with core := { s1.core with layers := { l with q := l.q ++ [tok] } :: ls }, job := ops }
      (s1.params.fifoDepth ≤ l.q.length → step s = .next s1) ∧
      (l.q.length < s1.params.fifoDepth → ops = [] → step s = .next t) ∧
      (l.q.length < s1.params.fifoDepth → ops ≠ [] → step s = step { t with sched := Turn.seq :: t.sched })) ∧
    (∀ sized : Bool, s1.job = [SeqOp.await sized] →
      (s1.core.root = none → step s = .next s1) ∧
      (∀ r, s1.core.root = some r → step s = .next { s1 with
        core := Core.empty, parser := s1.parser.next, job := [],
        rspq := s1.rspq ++ [0x00#8 :: (nodeBytes r.node ++ if sized then le64 (paddedSize s1.core.total) else [])] })) ∧
    (∀ c : Command, s1.job = [SeqOp.writeDone] → s1.parser.cmd = some c →
      (s1.pipelineEmpty = false → step s = .next s1) ∧
      (s1.pipelineEmpty = true → step s = .next { s1 with
        core := { s1.core with total := s1.core.total + zext64 c.arg }, parser := s1.parser.next, job := [],
        rspq := s1.rspq ++ [0x00#8 :: le64 (zext64 c.arg)] }))

/-! ## DIGEST, SUM, RESET and the constant queries -/

/-- DIGEST with `FUSED = 1` (rules R155, R158, R160): from the accumulator of a payload of at least 65 bytes it answers `00`, commP
of the payload in closed form and the padded size, and the accumulator is empty afterwards. -/
def Obligations.DigestAnswersCommP : Prop :=
  ∀ (s : State) (p : List Byte),
    s.fatal = false → s.params.fused = true → s.shaOk = true → s.core = streamCore p → minPiecePayload ≤ p.length →
    p.length ≤ maxPiecePayload →
    exec .digest s = .next { s with
      core := Core.empty, parser := s.parser.next, job := [],
      rspq := s.rspq ++ [0x00#8 :: (nodeBytes (commP p) ++ le64 (paddedSize (BitVec.ofNat 64 p.length)))] }

/-- SUM with `FUSED = 1` (rules R158, R162): as DIGEST, and the answer is commP without the size. -/
def Obligations.SumAnswersCommP : Prop :=
  ∀ (s : State) (p : List Byte),
    s.fatal = false → s.params.fused = true → s.shaOk = true → s.core = streamCore p → minPiecePayload ≤ p.length →
    p.length ≤ maxPiecePayload →
    exec .sum s = .next { s with
      core := Core.empty, parser := s.parser.next, job := [],
      rspq := s.rspq ++ [0x00#8 :: nodeBytes (commP p)] }

/-- DIGEST below 65 payload bytes is answered `02` and changes nothing (rule R156). -/
def Obligations.DigestOfTooLittleInputKeepsTheState : Prop :=
  ∀ s : State, s.fatal = false → s.core.total.toNat < 65 →
    exec .digest s = .next { s with parser := s.parser.next, rspq := s.rspq ++ [[0x02#8]] }

/-- SUM below 65 payload bytes enters FATAL with cause 0x02, is answered `09 02`, and changes nothing else (rule R164). -/
def Obligations.SumOfTooLittleInputIsFatal : Prop :=
  ∀ s : State, s.fatal = false → s.core.total.toNat < 65 →
    exec .sum s = .next { s with
      fatal := true, fatalCause := 0x02#8, parser := s.parser.next, rspq := s.rspq ++ [[0x09#8, 0x02#8]] }

/-- DIGEST and SUM with `FUSED = 0` (rules R142, R152, R158), whatever the room in `Q[0]`: of the zero-padded residue's leaves, if there
is a residue, and the CLOSE token after them, as many as there is room for are queued for layer 0; the others, and the wait for
the root, are pending. -/
def Obligations.PipelinedFinalizeClosesLayerZero : Prop :=
  ∀ (s : State) (l : Layer) (ls : List Layer) (leaves : List Node) (room : Nat),
    s.fatal = false → s.params.fused = false → s.core.CarryOk → 65 ≤ s.core.total.toNat → s.core.layers = l :: ls →
    s.core.root = none → room = s.params.fifoDepth - l.q.length →
    leaves = (if s.core.clen = 0 then []
      else expandLeaves (s.core.carry.map Prod.snd ++ List.replicate (127 - s.core.clen) 0#8)) →
    ∀ (i : Instr) (sized : Bool), (i = .digest ∧ sized = true) ∨ (i = .sum ∧ sized = false) →
    exec i s = .next { s with
      core := { s.core with
        carry := [], clen := 0,
        layers := { l with q := l.q ++ (leaves.map nodeToken ++ [closeToken]).take room } :: ls },
      parser := { s.parser.next with saved := some s.core },
      job := (leaves.map SeqOp.push ++ [SeqOp.close]).drop room ++ [SeqOp.await sized] }

/-- `PADDED_SIZE` (rule R157): the smallest power of two that is at least `ceil(n / 127) * 128`, from 128 to 2^36. -/
def Obligations.PaddedSizeIsTheLeastPowerOfTwo : Prop :=
  ∀ n : Size, minPiecePayload ≤ n.toNat → n.toNat ≤ maxPiecePayload →
    let raw := (n.toNat + 126) / 127 * 128
    (∃ k, (paddedSize n).toNat = 2 ^ k) ∧ raw ≤ (paddedSize n).toNat ∧ (∀ k, raw ≤ 2 ^ k → (paddedSize n).toNat ≤ 2 ^ k) ∧
      128 ≤ (paddedSize n).toNat ∧ (paddedSize n).toNat ≤ 2 ^ 36

/-- RESET, the command (rules R170, R241): the accumulator, the layers, their queues and the root register are at their reset
values, the parser's position apart nothing else changes, and the answer is `00`. Under FATAL the answer is `09` and the cause, and
nothing is cleared. -/
def Obligations.ResetEmptiesTheAccumulator : Prop :=
  ∀ s : State,
    (s.fatal = false → exec .reset s = .next { s with
      core := {
        carry := [], clen := 0, total := 0#64,
        layers := List.replicate 32 { active := false, slot := none, q := [] }, root := none },
      parser := s.parser.next, rspq := s.rspq ++ [[0x00#8]] }) ∧
    (s.fatal = true → exec .reset s = .next { s with
      parser := s.parser.next, rspq := s.rspq ++ [[0x09#8, s.fatalCause]] })

/-- BLOCK_SIZE answers 127 and DIGEST_SIZE 32, and no state changes (rules R166, R167). -/
def Obligations.SizeQueriesAnswerTheConstants : Prop :=
  ∀ s : State, s.fatal = false →
    exec .blockSize s = .next { s with
      parser := s.parser.next, rspq := s.rspq ++ [[0x00#8, 0x7f#8, 0#8, 0#8, 0#8, 0#8, 0#8, 0#8, 0#8]] } ∧
    exec .digestSize s = .next { s with
      parser := s.parser.next, rspq := s.rspq ++ [[0x00#8, 0x20#8, 0#8, 0#8, 0#8, 0#8, 0#8, 0#8, 0#8]] }

/-! ## EXTEND -/

/-- EXTEND of a 32-byte commitment from size `2^a` to `2^b`, both legal, with its operands on offer (rules R75, R193, R195): the
answer is `00` and the extension in closed form, and the accumulator is not touched. -/
def Obligations.ExtendAnswersTheExtension : Prop :=
  ∀ (s : State) (c rest : List Byte) (a b : Nat),
    s.fatal = false → s.shaOk = true → c.length = 32 → 7 ≤ a → a ≤ b → b ≤ 36 →
    s.input = c ++ le64 (BitVec.ofNat 64 (2 ^ a)) ++ le64 (BitVec.ofNat 64 (2 ^ b)) ++ rest →
    exec (.extend 32#56) s = .next { s with
      parser := { s.parser.next with rem := 0#56, xclen := 32#56 }, job := [],
      rspq := s.rspq ++ [0x00#8 :: nodeBytes (extension (nodeOfBytes c) a b)], input := rest }

/-- EXTEND with `s = t` returns the 32 bytes of `C` as given, Fr32 or not, and with no use of the SHA-256 engine (rule R196). -/
def Obligations.ExtendToTheSameSizeReturnsC : Prop :=
  ∀ (s : State) (c rest : List Byte) (a : Nat),
    s.fatal = false → c.length = 32 → 7 ≤ a → a ≤ 36 →
    s.input = c ++ le64 (BitVec.ofNat 64 (2 ^ a)) ++ le64 (BitVec.ofNat 64 (2 ^ a)) ++ rest →
    exec (.extend 32#56) s = .next { s with
      parser := { s.parser.next with rem := 0#56, xclen := 32#56 }, job := [], rspq := s.rspq ++ [0x00#8 :: c], input := rest }

/-- EXTEND's checks (rule R194): the first that fails decides the status, in the order length, power of two, target below
source, source below 128, target above 2^36; all operand bytes are consumed, and no other state changes. -/
def Obligations.ExtendRejectsInTheOrderOfTheChecks : Prop :=
  ∀ (s : State) (c rest : List Byte) (clen : Arg) (src tgt : Size) (code : Byte),
    s.fatal = false → c.length = clen.toNat → s.input = c ++ le64 src ++ le64 tgt ++ rest →
    (clen.toNat ≠ 32 ∧ code = 0x03#8) ∨
      (clen.toNat = 32 ∧ ¬(isPow2 src ∧ isPow2 tgt) ∧ code = 0x04#8) ∨
      (clen.toNat = 32 ∧ isPow2 src ∧ isPow2 tgt ∧ tgt.toNat < src.toNat ∧ code = 0x05#8) ∨
      (clen.toNat = 32 ∧ isPow2 src ∧ isPow2 tgt ∧ src.toNat ≤ tgt.toNat ∧ src.toNat < 128 ∧ code = 0x06#8) ∨
      (clen.toNat = 32 ∧ isPow2 src ∧ isPow2 tgt ∧ src.toNat ≤ tgt.toNat ∧ 128 ≤ src.toNat ∧ 2 ^ 36 < tgt.toNat ∧
        code = 0x07#8) →
    exec (.extend clen) s = .next { s with
      parser := { s.parser.next with rem := 0#56, xclen := clen }, job := [], rspq := s.rspq ++ [[code]], input := rest }

/-- EXTEND does not touch the accumulator, the layers or the queues, with whatever part of its operands on offer, and even if
it meets an internal fault; FATAL can only come from a failed SHA-256 engine (rules R198, R214). -/
def Obligations.ExtendLeavesTheAccumulatorAlone : Prop :=
  ∀ (s t : State) (clen : Arg), exec (.extend clen) s = .next t →
    t.core = s.core ∧ t.sel = s.sel ∧ t.shaOk = s.shaOk ∧ t.params = s.params ∧ t.out = s.out ∧ t.sched = s.sched ∧
      (s.shaOk = true → t.fatal = s.fatal ∧ t.fatalCause = s.fatalCause)

/-- A command that needs NodeHash on a failed SHA-256 engine (rule R214): FATAL with cause 0x0A, the answer is `09 0A` after the last
operand byte, no result is returned, and its effects are discarded (rule R12; log entries 6 and 7). EXTEND to a larger size; with
`FUSED = 1`, WRITE that completes a quad, and DIGEST and SUM with a residue to push or a padding parent to make. -/
def Obligations.CommandOnAFailedEngineIsFatal : Prop :=
  ∀ s : State, s.fatal = false → s.shaOk = false →
    (∀ (c rest : List Byte) (a b : Nat), c.length = 32 → 7 ≤ a → a < b → b ≤ 36 →
      s.input = c ++ le64 (BitVec.ofNat 64 (2 ^ a)) ++ le64 (BitVec.ofNat 64 (2 ^ b)) ++ rest →
      exec (.extend 32#56) s = .next { s with
        fatal := true, fatalCause := 0x0A#8, parser := { s.parser.next with rem := 0#56, xclen := 32#56 }, job := [],
        rspq := s.rspq ++ [[0x09#8, 0x0A#8]], input := rest }) ∧
    (∀ (p d rest : List Byte) (len : Arg), s.params.fused = true → s.core = streamCore p → s.input = d ++ rest →
      d.length = len.toNat → p.length + d.length ≤ maxPiecePayload → p.length / 127 < (p.length + d.length) / 127 →
      exec (.write len) s = .next { s with
        fatal := true, fatalCause := 0x0A#8, parser := { s.parser.next with rem := 0#56 }, job := [],
        rspq := s.rspq ++ [[0x09#8, 0x0A#8]], input := rest }) ∧
    (∀ (p : List Byte) (i : Instr), s.params.fused = true → s.core = streamCore p → minPiecePayload ≤ p.length →
      p.length ≤ maxPiecePayload → (p.length % 127 ≠ 0 ∨ ¬∃ k, p.length = 127 * 2 ^ k) → (i = .digest ∨ i = .sum) →
      exec i s = .next { s with
        fatal := true, fatalCause := 0x0A#8, parser := s.parser.next, job := [],
        rspq := s.rspq ++ [[0x09#8, 0x0A#8]] })

/-- A layer that needs NodeHash on a failed SHA-256 engine (rule R214), in both implementations: LAYER_NODE at a full slot, and
LAYER_CLOSE that pads, raise the internal fault where they do not hold for room; what becomes of the command in progress is the
model's reading (log entries 6 and 7). -/
def Obligations.LayerHashOnAFailedEngineIsFatal : Prop :=
  ∀ (s : State) (l m : Layer) (n x : Node),
    s.fatal = false → s.shaOk = false → s.core.layers.length = 32 → s.core.layers[s.sel.val]? = some l →
    s.core.layers[s.sel.val + 1]? = some m → l.slot = some x →
    (s.params.fused = true ∨ m.q.length < s.params.fifoDepth → RaisesInternalFault s (exec (.layerNode n) s)) ∧
    (m.active = true → s.params.fused = true ∨ m.q.length + padRoom s.params.fifoDepth ≤ s.params.fifoDepth →
      RaisesInternalFault s (exec .layerClose s))

/-- Extension agreement (rule R199): extending commP from its natural padded size to `2^b` is commP of the payload followed by
zero bytes up to `2^b * 127 / 128` payload bytes. -/
def Obligations.ExtensionAgreesWithThePaddedPayload : Prop :=
  ∀ (p : List Byte) (a b : Nat),
    minPiecePayload ≤ p.length → (paddedSize (BitVec.ofNat 64 p.length)).toNat = 2 ^ a → p.length ≤ maxPiecePayload →
    a ≤ b → b ≤ 36 →
    extension (commP p) a b = commP (p ++ List.replicate (2 ^ b / 128 * 127 - p.length) 0#8)

/-! ## Expander, node hash and tower -/

/-- EXPAND computes the bit stream of rule R102: two zero bits after every 254 input bits. -/
def Obligations.ExpandInsertsTwoZeroBits : Prop :=
  ∀ win : List Byte, win.length = 127 →
    (expand win).length = 128 ∧ ∀ m < 1024, ((expand win).getD (m / 8) 0#8).getLsbD (m % 8) = expandedBit win m

/-- The four leaves, as nodes, are input bits `254k .. 254k+253` with the top two bits clear (rules R103, R104, R105). -/
def Obligations.LeavesHoldTheInputBits : Prop :=
  ∀ win : List Byte, win.length = 127 →
    (expandLeaves win).length = 4 ∧
      ∀ (k : Nat) (n : Node), (expandLeaves win)[k]? = some n →
        isFr32 n = true ∧ ∀ r < 254, n.getLsbD r = inputBit win (254 * k + r)

/-- NodeHash (rule R107): bytes 0 to 30 are those of `SHA256(l ‖ r)`, byte 31 is its byte 31 with the two top bits cleared. -/
def Obligations.NodeHashMasksByteThirtyOne : Prop :=
  ∀ l r : Node,
    (sha256 (nodeBytes l ++ nodeBytes r)).length = 32 ∧
    (nodeBytes (nodeHash l r)).take 31 = (sha256 (nodeBytes l ++ nodeBytes r)).take 31 ∧
    (nodeBytes (nodeHash l r)).getD 31 0#8 = (sha256 (nodeBytes l ++ nodeBytes r)).getD 31 0#8 &&& 0x3F#8 ∧
    isFr32 (nodeHash l r) = true

/-- `P[i]` is the root of `2^i` zero leaves (rule R192). -/
def Obligations.TowerEntryIsTheZeroSubtreeRoot : Prop :=
  ∀ i : Nat, tower i = merkleRoot i (List.replicate (2 ^ i) 0#256)

/-- The first entries of the tower have the values of the table of rule R191, read as big-endian numbers. -/
def Obligations.TowerStartsWithTheTabledValues : Prop :=
  (List.range 6).map (fun i => beNat (nodeBytes (tower i)) 0) =
    [0,
     0xf5a5fd42d16a20302798ef6ed309979b43003d2320d9f0e8ea9831a92759fb0b,
     0x3731bb99ac689f66eef5973e4a94da188f4ddcae580724fc6f3fd60dfd488333,
     0x642a607ef886b004bf2c1978463ae1d4693ac0f410eb2d1b7a47fe205e5e750f,
     0x57a2381a28652bf47f6bef7aca679be4aede5871ab5cf3eb2c08114488cb8526,
     0x1f7ac9595510e09ea41c460b176430bb322cd6fb412ec57cb17d989a4310372f]

/-- commP of an all-zero payload of `n` bytes is `P[log2(PADDED_SIZE(n) / 32)]` (rule R160 (b)). -/
def Obligations.ZeroPayloadCommitsToATowerEntry : Prop :=
  ∀ n : Nat, minPiecePayload ≤ n → n ≤ maxPiecePayload →
    commP (List.replicate n 0#8) = tower ((paddedSize (BitVec.ofNat 64 n)).toNat / 32).log2

/-! ## The layer reducer -/

/-- LAYER_NODE at a layer with an empty slot stores the node, in both implementations, and emits nothing (rules R121, R140). -/
def Obligations.NodeIsStoredInAnEmptySlot : Prop :=
  ∀ (s : State) (l : Layer) (n : Node), s.fatal = false → s.core.layers[s.sel.val]? = some l → l.slot = none →
    exec (.layerNode n) s = .next { s with
      core := { s.core with layers := s.core.layers.set s.sel.val { l with slot := some n, q := l.q.tail } } }

/-- LAYER_NODE with `FUSED = 1` at a run of `j ≥ 1` layers with full slots (rules R122, R123, R130): each pairs its left twin with what comes from
below and clears its slot, each layer above the first is started, and the layer after the run stores the last parent. -/
def Obligations.NodePairsUpTheFullSlots : Prop :=
  ∀ (s : State) (n : Node) (j : Nat) (x : Nat → Node),
    s.fatal = false → s.params.fused = true → s.shaOk = true → s.core.layers.length = 32 → 0 < j → s.sel.val + j ≤ 31 →
    (∀ i < j, (s.core.layers[s.sel.val + i]?).map Layer.slot = some (some (x i))) →
    (s.core.layers[s.sel.val + j]?).map Layer.slot = some none →
    ∃ ls : List Layer, exec (.layerNode n) s = .next { s with core := { s.core with layers := ls } } ∧ ls.length = 32 ∧
      ∀ (i : Nat) (l : Layer), s.core.layers[i]? = some l → ls[i]? = some (
        if i < s.sel.val ∨ s.sel.val + j < i then l
        else if i = s.sel.val then { l with slot := none, q := l.q.tail }
        else if i < s.sel.val + j then { l with active := true, slot := none }
        else { l with active := true, slot := some ((List.range j).foldl (fun acc k => nodeHash (x k) acc) n) })

/-- LAYER_NODE at layer 31 with its slot full would need a layer 32 (rules R124, R140, R214): the internal fault, FATAL with cause
0x0A, in both implementations. What becomes of the command in progress, if there is one, is the model's reading (rule R12; log
entries 6 and 7). -/
def Obligations.PairAtLayerThirtyOneIsFatal : Prop :=
  ∀ (s : State) (l : Layer) (n x : Node),
    s.fatal = false → s.core.layers.length = 32 → s.sel.val = 31 → s.core.layers[31]? = some l → l.slot = some x →
    RaisesInternalFault s (exec (.layerNode n) s)

/-- The agent of a layer with a full slot (rule R140): with room in the next queue it pairs, starts the next layer and enqueues the parent;
without room it holds, which is no step and no fault (rule R145). -/
def Obligations.AgentPairsWhenTheNextQueueHasRoom : Prop :=
  ∀ (s : State) (l m : Layer) (n x : Node),
    s.fatal = false → s.params.fused = false → s.shaOk = true → s.core.layers[s.sel.val]? = some l →
    s.core.layers[s.sel.val + 1]? = some m → l.slot = some x →
    (m.q.length < s.params.fifoDepth →
      exec (.layerNode n) s = .next { s with
        core := { s.core with
          layers := (s.core.layers.set s.sel.val { l with slot := none, q := l.q.tail }).set (s.sel.val + 1)
            { m with active := true, q := m.q ++ [nodeToken (nodeHash x n)] } } }) ∧
    (s.params.fifoDepth ≤ m.q.length → exec (.layerNode n) s = .next s)

/-- LAYER_CLOSE at the highest reached layer with a full slot publishes it with the layer's index and clears the slot, in both
implementations (rules R125, R127, R140). -/
def Obligations.CloseOfTheHighestLayerPublishes : Prop :=
  ∀ (s : State) (l : Layer) (n : Node),
    s.fatal = false → s.core.layers[s.sel.val]? = some l → l.slot = some n →
    (∀ m, s.core.layers[s.sel.val + 1]? = some m → m.active = false) →
    exec .layerClose s = .next { s with
      core := { s.core with
        layers := s.core.layers.set s.sel.val { l with slot := none, q := l.q.tail }
        root := some { node := n, layer := BitVec.ofNat 5 s.sel.val } } }

/-- LAYER_CLOSE at the highest reached layer with an empty slot publishes nothing and is the internal fault, in both
implementations (rules R129, R214). What becomes of the command in progress, if there is one, is the model's reading (rule R12; log
entries 6 and 7). -/
def Obligations.CloseOfAnEmptyHighestLayerIsFatal : Prop :=
  ∀ (s : State) (l : Layer),
    s.fatal = false → s.core.layers[s.sel.val]? = some l → l.slot = none →
    (∀ m, s.core.layers[s.sel.val + 1]? = some m → m.active = false) →
    RaisesInternalFault s (exec .layerClose s)

/-- LAYER_CLOSE of layer 0 with `FUSED = 1` after whole quads (rules R126, R128, R131): the root is the Merkle root of the leaves followed by
zero leaves up to a power of two, published by layer `log2` of their number, and every slot is empty afterwards. -/
def Obligations.CloseOfAStreamPublishesItsRoot : Prop :=
  ∀ (s : State) (p : List Byte),
    s.fatal = false → s.params.fused = true → s.shaOk = true → s.sel = 0 → s.core = streamCore p → p ≠ [] →
    p.length % 127 = 0 → p.length ≤ maxPiecePayload →
    ∃ ls : List Layer,
      exec .layerClose s = .next { s with
        core := { s.core with
          layers := ls, root := some { node := commP p, layer := BitVec.ofNat 5 (treeHeight (4 * (p.length / 127))) } } } ∧
      ls.length = 32 ∧ ∀ l ∈ ls, l.slot = none

/-- LAYER_CLOSE with `FUSED = 1` at a layer that is not the highest (rules R126, R128): with an empty slot it is the CLOSE of
the next layer; with a full slot it is a LAYER_NODE of the padding parent `NodeHash(SLOT[L], P[L])` at the next layer and then
that layer's CLOSE. -/
def Obligations.CloseBelowTheHighestLayerPadsAndGoesOn : Prop :=
  ∀ (s : State) (l m : Layer) (k : Fin 32),
    s.fatal = false → s.params.fused = true → s.shaOk = true → s.core.layers.length = 32 → k.val = s.sel.val + 1 →
    s.core.layers[s.sel.val]? = some l → s.core.layers[k.val]? = some m → m.active = true → l.q = [] → m.q = [] →
    (l.slot = none → ∀ t, exec .layerClose { s with sel := k } = .next t → t.fatal = false →
      exec .layerClose s = .next { t with sel := s.sel }) ∧
    (∀ x, l.slot = some x → ∀ t1 t,
      exec (.layerNode (nodeHash x (tower s.sel.val))) { s with
        sel := k, core := { s.core with layers := s.core.layers.set s.sel.val { l with slot := none } } } = .next t1 →
      t1.fatal = false → exec .layerClose t1 = .next t → t.fatal = false →
      exec .layerClose s = .next { t with sel := s.sel })

/-- The agent of a layer that is not the highest on a CLOSE (rules R140, R141): with an empty slot it passes the CLOSE on; with
a full slot it enqueues the padding parent and the CLOSE, which with `FIFO_DEPTH = 1` are two steps; without room for them it holds. -/
def Obligations.AgentPassesTheCloseOn : Prop :=
  ∀ (s : State) (l m : Layer),
    s.fatal = false → s.params.fused = false → s.shaOk = true → s.core.layers.length = 32 →
    s.core.layers[s.sel.val]? = some l → s.core.layers[s.sel.val + 1]? = some m → m.active = true →
    (l.slot = none → m.q.length < s.params.fifoDepth → exec .layerClose s = .next { s with
      core := { s.core with
        layers := (s.core.layers.set s.sel.val { l with q := l.q.tail }).set (s.sel.val + 1)
          { m with q := m.q ++ [closeToken] } } }) ∧
    (∀ x, l.slot = some x → s.params.fifoDepth ≠ 1 → m.q.length + 2 ≤ s.params.fifoDepth → exec .layerClose s = .next { s with
      core := { s.core with
        layers := (s.core.layers.set s.sel.val { l with slot := none, q := l.q.tail }).set (s.sel.val + 1)
          { m with q := m.q ++ [nodeToken (nodeHash x (tower s.sel.val)), closeToken] } } }) ∧
    (∀ x, l.slot = some x → s.params.fifoDepth = 1 → m.q = [] → exec .layerClose s = .next { s with
      core := { s.core with
        layers := (s.core.layers.set s.sel.val { l with slot := none }).set (s.sel.val + 1)
          { m with q := [nodeToken (nodeHash x (tower s.sel.val))] } } }) ∧
    (l.slot = none → s.params.fifoDepth ≤ m.q.length → exec .layerClose s = .next s) ∧
    (∀ x, l.slot = some x → s.params.fifoDepth < m.q.length + padRoom s.params.fifoDepth → exec .layerClose s = .next s)

/-! ## FATAL, hardware reset and responses -/

/-- While `FATAL = 1` every host command is answered `09` and `FATAL_CAUSE` after its last operand byte, and nothing but the parser
changes (rules R73, R77, R215). -/
def Obligations.FatalAnswersEveryCommand : Prop :=
  ∀ (s : State) (i : Instr) (w : CmdWord) (ops rest : List Byte),
    s.fatal = true → s.job = [] → encode i = .cmd w → s.input = ops ++ rest → ops.length = operandBytes i →
    ∃ q : Parser, q.phase = .cmd ∧ q.cwbuf = [] ∧ q.cmd = none ∧ q.saved = none ∧ q.drop = false ∧
      exec i s = .next { s with parser := q, rspq := s.rspq ++ [[0x09#8, s.fatalCause]], input := rest }

/-- FATAL is sticky (rules R31, R215): in a run's states every step but a hardware reset keeps FATAL, its cause and the whole
accumulator and layer state. That a layer agent takes no step under FATAL is the model's reading (log entry 8). -/
def Obligations.FatalStaysUntilAHardwareReset : Prop :=
  ∀ s t : State, s.Inv → s.fatal = true → (nextTurn s).1 ≠ .rst → step s = .next t →
    t.fatal = true ∧ t.fatalCause = s.fatalCause ∧ t.core = s.core ∧ t.job = []

/-- A hardware reset in any state (rules R35, R240, R242): every field of the block takes its reset value, FATAL included, and the
command in progress and the unread responses are gone. The model's own choices: the parameters and the streams outside the block
stay (log entry 16), the SHA-256 engine works again (log entry 9), and `sel` is 0 (log entry 20). -/
def Obligations.HardwareResetRestoresTheResetState : Prop :=
  ∀ s s1 : State, nextTurn s = (.rst, s1) →
    step s = .next { State.resetWith s.params with input := s.input, out := s.out, sched := s1.sched }

/-- The reset values the spec gives (rules R29, R35), for every choice of the parameters. -/
def Obligations.ResetStateHasTheResetValues : Prop :=
  ∀ p : Params, let s := State.resetWith p
    s.core.clen = 0 ∧ s.core.total = 0#64 ∧ s.core.layers.length = 32 ∧
    (∀ l ∈ s.core.layers, l.active = false ∧ l.slotV = false ∧ l.q = []) ∧ s.core.rootV = false ∧
    s.parser.phase = .cmd ∧ s.cwcnt = 0 ∧ s.parser.rem = 0#56 ∧ s.parser.xclen = 0#56 ∧ s.parser.drop = false ∧
    s.rspq = [] ∧ s.fatal = false ∧ s.fatalCause = 0x00#8 ∧ s.busy = false

/-- The response stream keeps its order and loses nothing (rules R30, R61): what the host has taken, followed by what is queued,
only grows at its end, by every step but a hardware reset; and the host takes the oldest byte. That a response keeps its
place in the queue until its last byte is taken is the model's choice (log entry 23). -/
def Obligations.ResponsesKeepTheirOrder : Prop :=
  (∀ s t : State, (nextTurn s).1 ≠ .rst → step s = .next t →
    ∃ r : List Byte, t.out ++ t.rspq.flatten = s.out ++ s.rspq.flatten ++ r) ∧
  ∀ (s s1 : State) (b : Byte) (bs : List Byte) (rs : List (List Byte)),
    nextTurn s = (.take, s1) → s1.rspq = (b :: bs) :: rs →
    step s = .next { s1 with rspq := if bs = [] then rs else bs :: rs, out := s1.out ++ [b] }

/-! ## Invariants and the pipeline -/

/-- The invariant holds right after reset, for every legal choice of the parameters. -/
def Obligations.InvariantHoldsAtReset : Prop :=
  State.reset.Inv ∧ ∀ p : Params, p.wf = true → (State.resetWith p).Inv

/-- Every step keeps the invariant: the carry buffer holds exactly `CLEN` bytes, `TOTAL` stays within `MaxPiecePayload`, every node in a
slot, a queue or the root register is Fr32, `RSPQ` keeps within its depth, the queues are empty between commands, and the parser's fields
agree (rules R22, R23, R26, R29, R30, R33). -/
def Obligations.StepKeepsTheInvariant : Prop :=
  ∀ s t : State, s.Inv → step s = .next t → t.Inv

/-- From a state with the invariant every step answers a next state: the machine never faults and never refuses (93 U5: no
rule reads a cell that has no value). -/
def Obligations.InvariantStepsNeverStop : Prop :=
  ∀ s : State, s.Inv → ∃ t, step s = .next t

/-- With `FUSED = 1` every step keeps the accumulator that of some payload (rules R24, R27): between commands of the bytes accepted,
and inside a WRITE of those and the bytes absorbed. -/
def Obligations.StepKeepsTheStream : Prop :=
  ∀ s t : State, s.Streaming → step s = .next t → t.Streaming

/-- The pipeline computes what the reference computes (rules R85, R130, R141). A layer agent's step, taken in any order, does not change
the layers and the root that the queued tokens amount to by the reference semantics; a NODE queued for layer 0 changes them by
one reference PUSH, and a CLOSE by one reference CLOSE. -/
def Obligations.AgentStepKeepsTheSettledResult : Prop :=
  (∀ (s s1 t : State) (l : Fin 32),
    nextTurn s = (.layer l, s1) → s1.params.fused = false → s1.shaOk = true → s1.core.layers.length = 32 →
    s1.core.StartedInOrder → step s = .next t → t.fatal = false →
    t.core.settled = s1.core.settled ∧ t.core.StartedInOrder) ∧
  ∀ (c : Core) (l : Layer) (ls xs : List Layer) (r : Option Root), c.layers = l :: ls → c.settled = .ok (xs, r) →
    (∀ n : Node, ({ c with layers := { l with q := l.q ++ [nodeToken n] } :: ls } : Core).settled =
      match push true 0 xs n with
      | .ok ys => .ok (ys, r)
      | .error e => .error e) ∧
    ({ c with layers := { l with q := l.q ++ [closeToken] } :: ls } : Core).settled =
      match close true xs.length 0 xs with
      | .ok (ys, r') => .ok (ys, some r')
      | .error e => .error e

/-- With `FUSED = 0` every step keeps the accumulator, with the tokens on their way, that of some payload (rules R24, R27, R141): between
commands of the bytes accepted, inside a WRITE of those and the bytes absorbed, and inside a DIGEST or SUM the tokens amount to
the commitment of the payload. So the root that DIGEST or SUM finds published is that commitment (rules R131, R160). -/
def Obligations.PipelinedStepKeepsTheStream : Prop :=
  (∀ s t : State, s.Inv → s.PipelineStreaming → step s = .next t → t.PipelineStreaming) ∧
  ∀ (s : State) (c : Core) (r : Root), s.PipelineStreaming → s.parser.saved = some c → s.parser.phase = .cmd →
    s.core.root = some r → ∃ p : List Byte, c = streamCore p ∧ r.node = commP p

/-- No deadlock (rule R142), under the model's own order of agents (log entry 3): while a token is queued in a run's state, the next
unscheduled step is a layer agent's and it does not hold: it changes the core or raises the internal fault. -/
def Obligations.QueuedTokensMakeProgress : Prop :=
  ∀ s : State, s.Inv → s.params.fused = false → s.fatal = false → s.sched = [] →
    (∃ l ∈ s.core.layers, l.q ≠ []) →
    (∃ l, defaultTurn s = .layer l) ∧ ∀ t, step s = .next t → t.core ≠ s.core ∨ t.fatal = true
end

