-- ==== Sys2Proof/Laws/Memory.lean ====
section
/-! SUPPORT. The carry memory: read after write, and that every operation keeps the canonical form. -/

namespace Sys2Proof.Machine

open Sys2Proof.Config

/-- What `Memory.wf` says of a memory with a first entry. -/
theorem wf_cons (a : Nat) (b : Byte) (m : Memory) :
    Memory.wf ((a, b) :: m) = true ↔ (∀ e ∈ m.head?, a < e.1) ∧ Memory.wf m = true := by
  cases m with
  | nil => simp [Memory.wf]
  | cons e m => simp [Memory.wf]

/-- In a canonical memory every entry after the first lies above it. -/
theorem wf_above {a : Nat} {b : Byte} {m : Memory} (h : Memory.wf ((a, b) :: m) = true) : ∀ e ∈ m, a < e.1 := by
  induction m generalizing a b with
  | nil => simp
  | cons e m ih =>
    obtain ⟨h1, h2⟩ := (wf_cons a b _).1 h
    have hae : a < e.1 := by simpa using h1
    intro x hx
    rcases List.mem_cons.1 hx with rfl | hx
    · exact hae
    · exact lt_trans hae (ih h2 x hx)

/-- The first index of a memory after a write. -/
theorem write_head (m : Memory) (i : Nat) (v : Byte) {k : Nat} (hk : ∀ e ∈ m.head?, k < e.1) (hi : k < i) :
    ∀ e ∈ (m.write i v).head?, k < e.1 := by
  cases m with
  | nil => simpa [Memory.write] using hi
  | cons e m =>
    obtain ⟨a, b⟩ := e
    have ha : k < a := by simpa using hk
    simp only [Memory.write]
    split
    · simpa using hi
    · split <;> simp [hi, ha]

/-- A write keeps the canonical form. -/
theorem write_wf (m : Memory) (i : Nat) (v : Byte) (h : m.wf = true) : (m.write i v).wf = true := by
  induction m with
  | nil => rfl
  | cons e m ih =>
    obtain ⟨a, b⟩ := e
    obtain ⟨h1, h2⟩ := (wf_cons a b m).1 h
    simp only [Memory.write]
    split
    · next hlt => exact (wf_cons _ _ _).2 ⟨by simpa using hlt, h⟩
    · split
      · next heq => subst heq; exact (wf_cons _ _ _).2 ⟨h1, h2⟩
      · next hlt hne => exact (wf_cons _ _ _).2 ⟨write_head m i v h1 (by omega), ih h2⟩

/-- Reading the index just written gives the byte written. -/
@[simp] theorem read_write_same (m : Memory) (i : Nat) (v : Byte) : (m.write i v).read i = some v := by
  induction m with
  | nil => simp [Memory.write, Memory.read]
  | cons e m ih =>
    obtain ⟨a, b⟩ := e
    simp only [Memory.write]
    split
    · simp [Memory.read]
    · split
      · simp [Memory.read]
      · next h => simp [Memory.read, h, ih]

/-- A write leaves every other index alone. -/
theorem read_write_other (m : Memory) {i j : Nat} (v : Byte) (hij : i ≠ j) : (m.write i v).read j = m.read j := by
  induction m with
  | nil => simp [Memory.write, Memory.read, hij]
  | cons e m ih =>
    obtain ⟨a, b⟩ := e
    simp only [Memory.write]
    split
    · simp [Memory.read, hij]
    · split
      · next h => subst h; simp [Memory.read, hij]
      · simp [Memory.read, ih]

/-- An index below every entry, or above them all, has no value. -/
theorem read_none_of_not_mem (m : Memory) (i : Nat) (h : i ∉ m.map Prod.fst) : m.read i = none := by
  induction m with
  | nil => rfl
  | cons e m ih =>
    obtain ⟨a, b⟩ := e
    simp only [List.map_cons, List.mem_cons, not_or] at h
    simp [Memory.read, Ne.symm h.1, ih h.2]

/-- A write above every entry appends. -/
theorem write_append (m : Memory) (i : Nat) (v : Byte) (h : ∀ e ∈ m, e.1 < i) : m.write i v = m ++ [(i, v)] := by
  induction m with
  | nil => rfl
  | cons e m ih =>
    obtain ⟨a, b⟩ := e
    have ha : a < i := h (a, b) (by simp)
    simp only [Memory.write, List.cons_append]
    rw [if_neg (by omega), if_neg (by omega), ih fun e he => h e (by simp [he])]

/-- What `readRange` does: it answers the bytes of `n` cells exactly if all of them have a value. -/
theorem readRange_eq (m : Memory) (a n : Nat) (bs : List Byte) :
    m.readRange a n = .ok bs ↔ bs.length = n ∧ ∀ i < n, m.read (a + i) = bs[i]? := by
  induction n generalizing a bs with
  | zero =>
    simp only [Memory.readRange, Except.ok.injEq, Nat.not_lt_zero, false_implies, implies_true, and_true]
    rw [eq_comm, List.length_eq_zero_iff]
  | succ n ih =>
    simp only [Memory.readRange]
    cases hb : m.read a with
    | none =>
      simp only [reduceCtorEq, false_iff, not_and]
      intro hl hall
      have := hall 0 (by omega)
      rw [Nat.add_zero, hb] at this
      cases bs <;> simp_all
    | some b =>
      cases hr : m.readRange (a + 1) n with
      | error e =>
        simp only [reduceCtorEq, false_iff, not_and]
        intro hl hall
        cases bs with
        | nil => simp at hl
        | cons c cs =>
          have h2 := (ih (a + 1) cs).2 ⟨by simpa using hl, fun i hi => by
            have := hall (i + 1) (by omega)
            rw [show a + 1 + i = a + (i + 1) by omega, this]; simp⟩
          rw [hr] at h2; cases h2
      | ok cs =>
        obtain ⟨hcl, hci⟩ := (ih (a + 1) cs).1 hr
        constructor
        · intro h
          obtain rfl : b :: cs = bs := by simpa using h
          refine ⟨by simp [hcl], fun i hi => ?_⟩
          cases i with
          | zero => simpa using hb
          | succ i => simpa [show a + (i + 1) = a + 1 + i by omega] using hci i (by omega)
        · rintro ⟨hl, hall⟩
          have : b :: cs = bs := by
            apply List.ext_getElem?
            intro i
            by_cases hi : i < n + 1
            · rw [← hall i hi]
              cases i with
              | zero => simpa using hb.symm
              | succ i => simpa [show a + (i + 1) = a + 1 + i by omega] using (hci i (by omega)).symm
            · rw [List.getElem?_eq_none (by simp; omega), List.getElem?_eq_none (by omega)]
          simp [this]

/-- What `writeCarry` can do. -/
theorem writeCarry_ok {i : Nat} {b : Byte} {c c' : Core} (h : c.writeCarry i b = .ok c') :
    i < blockSize ∧ c' = { c with carry := c.carry.write i b } := by
  unfold Core.writeCarry at h
  split at h
  · exact ⟨‹_›, by simpa using h.symm⟩
  · cases h

/-- `CARRY` writes keep the canonical form. -/
theorem writeCarry_wf {i : Nat} {b : Byte} {c c' : Core} (h : c.writeCarry i b = .ok c') (hw : c.carry.wf = true) :
    c'.carry.wf = true := by
  obtain ⟨_, rfl⟩ := writeCarry_ok h
  exact write_wf _ _ _ hw

/-- What `takeQuad` can do: the window is read whole, and the carry buffer is empty afterwards. -/
theorem takeQuad_ok {c c' : Core} {ls : List Node} (h : c.takeQuad = .ok (c', ls)) :
    ∃ win, c.readWindow = .ok win ∧ c' = c.clearCarry ∧ ls = expandLeaves win := by
  unfold Core.takeQuad at h
  split at h
  · next win hw => simp only [Except.ok.injEq, Prod.mk.injEq] at h; exact ⟨win, hw, h.1.symm, h.2.symm⟩
  · cases h

/-- What ABSORB can do (rule R152). -/
theorem absorb_ok {b : Byte} {c c' : Core} {ls : List Node} (h : c.absorb b = .ok (c', ls)) :
    c.clen < blockSize ∧
      ((c.clen + 1 ≠ blockSize ∧ ls = [] ∧ c' = { c with carry := c.carry.write c.clen b, clen := c.clen + 1 }) ∨
        (c.clen + 1 = blockSize ∧ c' = c.clearCarry ∧
          ∃ win, (c.carry.write c.clen b).readRange 0 blockSize = .ok win ∧ ls = expandLeaves win)) := by
  unfold Core.absorb at h
  split at h
  · cases h
  · next c1 h1 =>
    obtain ⟨hlt, rfl⟩ := writeCarry_ok h1
    refine ⟨hlt, ?_⟩
    simp only at h
    split at h
    · next hq =>
      obtain ⟨win, hw, rfl, rfl⟩ := takeQuad_ok h
      exact .inr ⟨hq, rfl, win, hw, rfl⟩
    · next hq => cases h; exact .inl ⟨hq, rfl, rfl⟩

/-- ABSORB keeps the canonical form. -/
theorem absorb_wf {b : Byte} {c c' : Core} {ls : List Node} (h : c.absorb b = .ok (c', ls)) (hw : c.carry.wf = true) :
    c'.carry.wf = true := by
  obtain ⟨_, ⟨_, _, rfl⟩ | ⟨_, rfl, _⟩⟩ := absorb_ok h
  · exact write_wf _ _ _ hw
  · rfl

/-- The zero fill writes `CARRY` only, and keeps the canonical form. -/
theorem zeroFill_ok {n i : Nat} {c c' : Core} (h : c.zeroFill i n = .ok c') (hw : c.carry.wf = true) :
    c'.carry.wf = true ∧ c' = { c with carry := c'.carry } := by
  induction n generalizing i c with
  | zero => cases h; exact ⟨hw, rfl⟩
  | succ n ih =>
    simp only [Core.zeroFill] at h
    split at h
    · cases h
    · next c1 h1 =>
      obtain ⟨_, rfl⟩ := writeCarry_ok h1
      obtain ⟨h2, h3⟩ := ih h (write_wf _ _ _ hw)
      exact ⟨h2, by rw [h3]⟩

/-- What the padding of FINALIZE can do (rule R158): nothing, or a fill and a quad. -/
theorem padQuad_ok {c c' : Core} {ls : List Node} (h : c.padQuad = .ok (c', ls)) :
    (c.clen = 0 ∧ c' = c ∧ ls = []) ∨
      (c.clen ≠ 0 ∧ ∃ c1, c.zeroFill c.clen (blockSize - c.clen) = .ok c1 ∧ c1.takeQuad = .ok (c', ls)) := by
  unfold Core.padQuad at h
  split at h
  · next h0 => cases h; exact .inl ⟨h0, rfl, rfl⟩
  · next h0 =>
    split at h
    · cases h
    · next c1 h1 => exact .inr ⟨h0, c1, h1, h⟩

/-- The padding keeps the canonical form. -/
theorem padQuad_wf {c c' : Core} {ls : List Node} (h : c.padQuad = .ok (c', ls)) (hw : c.carry.wf = true) :
    c'.carry.wf = true := by
  obtain ⟨_, rfl, _⟩ | ⟨_, c1, h1, h2⟩ := padQuad_ok h
  · exact hw
  · obtain ⟨win, _, rfl, _⟩ := takeQuad_ok h2; rfl

/-- Indexes `0, 1, ..., n-1` in order are a canonical form. -/
theorem wf_of_range {m : Memory} {k n : Nat} (h : m.map Prod.fst = List.range' k n) : m.wf = true := by
  induction m generalizing k n with
  | nil => rfl
  | cons e m ih =>
    obtain ⟨a, b⟩ := e
    cases n with
    | zero => simp at h
    | succ n =>
      simp only [List.map_cons, List.range'_succ, List.cons.injEq] at h
      refine (wf_cons a b m).2 ⟨?_, ih h.2⟩
      cases m with
      | nil => simp
      | cons e m =>
        cases n with
        | zero => simp at h
        | succ n => simp only [List.map_cons, List.range'_succ, List.cons.injEq] at h; simp [h.1, h.2.1]

/-- The invariant of every run implies the canonical form. -/
theorem carryOk_wf {c : Core} (h : c.CarryOk) : c.carry.wf = true :=
  wf_of_range (by rw [h.1, List.range_eq_range'])

/-- The memory right after reset is canonical, whatever the parameters. -/
theorem reset_wf (p : Params) : (State.resetWith p).core.carry.wf = true := rfl

end Sys2Proof.Machine
end

