-- ==== Sys2Proof/Laws/State.lean ====
section
/-! SUPPORT. One lemma per field for each named update of the state, so that no proof unfolds a record update. -/

namespace Sys2Proof.Machine

@[simp] theorem respond_core (st : Status) (p : List Byte) (s : State) : (respond st p s).core = s.core := rfl
@[simp] theorem respond_parser (st : Status) (p : List Byte) (s : State) : (respond st p s).parser = s.parser := rfl
@[simp] theorem respond_job (st : Status) (p : List Byte) (s : State) : (respond st p s).job = s.job := rfl
@[simp] theorem respond_rspq (st : Status) (p : List Byte) (s : State) : (respond st p s).rspq = s.rspq ++ [st.code :: p] := rfl
@[simp] theorem respond_fatal (st : Status) (p : List Byte) (s : State) : (respond st p s).fatal = s.fatal := rfl
@[simp] theorem respond_fatalCause (st : Status) (p : List Byte) (s : State) : (respond st p s).fatalCause = s.fatalCause := rfl
@[simp] theorem respond_sel (st : Status) (p : List Byte) (s : State) : (respond st p s).sel = s.sel := rfl
@[simp] theorem respond_shaOk (st : Status) (p : List Byte) (s : State) : (respond st p s).shaOk = s.shaOk := rfl
@[simp] theorem respond_params (st : Status) (p : List Byte) (s : State) : (respond st p s).params = s.params := rfl
@[simp] theorem respond_input (st : Status) (p : List Byte) (s : State) : (respond st p s).input = s.input := rfl
@[simp] theorem respond_out (st : Status) (p : List Byte) (s : State) : (respond st p s).out = s.out := rfl
@[simp] theorem respond_sched (st : Status) (p : List Byte) (s : State) : (respond st p s).sched = s.sched := rfl

@[simp] theorem pcNext_core (s : State) : (pcNext s).core = s.core := rfl
@[simp] theorem pcNext_parser (s : State) : (pcNext s).parser = s.parser.next := rfl
@[simp] theorem pcNext_job (s : State) : (pcNext s).job = s.job := rfl
@[simp] theorem pcNext_rspq (s : State) : (pcNext s).rspq = s.rspq := rfl
@[simp] theorem pcNext_fatal (s : State) : (pcNext s).fatal = s.fatal := rfl
@[simp] theorem pcNext_fatalCause (s : State) : (pcNext s).fatalCause = s.fatalCause := rfl
@[simp] theorem pcNext_sel (s : State) : (pcNext s).sel = s.sel := rfl
@[simp] theorem pcNext_shaOk (s : State) : (pcNext s).shaOk = s.shaOk := rfl
@[simp] theorem pcNext_params (s : State) : (pcNext s).params = s.params := rfl
@[simp] theorem pcNext_input (s : State) : (pcNext s).input = s.input := rfl
@[simp] theorem pcNext_out (s : State) : (pcNext s).out = s.out := rfl
@[simp] theorem pcNext_sched (s : State) : (pcNext s).sched = s.sched := rfl

@[simp] theorem reply_core (st : Status) (p : List Byte) (s : State) : (reply st p s).core = s.core := rfl
@[simp] theorem reply_parser (st : Status) (p : List Byte) (s : State) : (reply st p s).parser = s.parser.next := rfl
@[simp] theorem reply_job (st : Status) (p : List Byte) (s : State) : (reply st p s).job = s.job := rfl
@[simp] theorem reply_rspq (st : Status) (p : List Byte) (s : State) : (reply st p s).rspq = s.rspq ++ [st.code :: p] := rfl
@[simp] theorem reply_fatal (st : Status) (p : List Byte) (s : State) : (reply st p s).fatal = s.fatal := rfl
@[simp] theorem reply_fatalCause (st : Status) (p : List Byte) (s : State) : (reply st p s).fatalCause = s.fatalCause := rfl
@[simp] theorem reply_sel (st : Status) (p : List Byte) (s : State) : (reply st p s).sel = s.sel := rfl
@[simp] theorem reply_shaOk (st : Status) (p : List Byte) (s : State) : (reply st p s).shaOk = s.shaOk := rfl
@[simp] theorem reply_params (st : Status) (p : List Byte) (s : State) : (reply st p s).params = s.params := rfl
@[simp] theorem reply_input (st : Status) (p : List Byte) (s : State) : (reply st p s).input = s.input := rfl
@[simp] theorem reply_out (st : Status) (p : List Byte) (s : State) : (reply st p s).out = s.out := rfl
@[simp] theorem reply_sched (st : Status) (p : List Byte) (s : State) : (reply st p s).sched = s.sched := rfl

@[simp] theorem enterFatal_core (c : Byte) (s : State) : (enterFatal c s).core = s.core := rfl
@[simp] theorem enterFatal_parser (c : Byte) (s : State) : (enterFatal c s).parser = s.parser := rfl
@[simp] theorem enterFatal_job (c : Byte) (s : State) : (enterFatal c s).job = s.job := rfl
@[simp] theorem enterFatal_rspq (c : Byte) (s : State) : (enterFatal c s).rspq = s.rspq := rfl
@[simp] theorem enterFatal_fatal (c : Byte) (s : State) : (enterFatal c s).fatal = true := rfl
@[simp] theorem enterFatal_fatalCause (c : Byte) (s : State) : (enterFatal c s).fatalCause = c := rfl
@[simp] theorem enterFatal_sel (c : Byte) (s : State) : (enterFatal c s).sel = s.sel := rfl
@[simp] theorem enterFatal_shaOk (c : Byte) (s : State) : (enterFatal c s).shaOk = s.shaOk := rfl
@[simp] theorem enterFatal_params (c : Byte) (s : State) : (enterFatal c s).params = s.params := rfl
@[simp] theorem enterFatal_input (c : Byte) (s : State) : (enterFatal c s).input = s.input := rfl
@[simp] theorem enterFatal_out (c : Byte) (s : State) : (enterFatal c s).out = s.out := rfl
@[simp] theorem enterFatal_sched (c : Byte) (s : State) : (enterFatal c s).sched = s.sched := rfl

@[simp] theorem fatalReply_core (s : State) : (fatalReply s).core = s.core := rfl
@[simp] theorem fatalReply_parser (s : State) : (fatalReply s).parser = s.parser.next := rfl
@[simp] theorem fatalReply_job (s : State) : (fatalReply s).job = s.job := rfl
@[simp] theorem fatalReply_rspq (s : State) : (fatalReply s).rspq = s.rspq ++ [[0x09#8, s.fatalCause]] := rfl
@[simp] theorem fatalReply_fatal (s : State) : (fatalReply s).fatal = s.fatal := rfl
@[simp] theorem fatalReply_fatalCause (s : State) : (fatalReply s).fatalCause = s.fatalCause := rfl
@[simp] theorem fatalReply_sel (s : State) : (fatalReply s).sel = s.sel := rfl
@[simp] theorem fatalReply_shaOk (s : State) : (fatalReply s).shaOk = s.shaOk := rfl
@[simp] theorem fatalReply_params (s : State) : (fatalReply s).params = s.params := rfl
@[simp] theorem fatalReply_input (s : State) : (fatalReply s).input = s.input := rfl
@[simp] theorem fatalReply_out (s : State) : (fatalReply s).out = s.out := rfl
@[simp] theorem fatalReply_sched (s : State) : (fatalReply s).sched = s.sched := rfl

@[simp] theorem fatalAbort_core (c : Byte) (s : State) : (fatalAbort c s).core = s.core := rfl
@[simp] theorem fatalAbort_parser (c : Byte) (s : State) : (fatalAbort c s).parser = s.parser.next := rfl
@[simp] theorem fatalAbort_job (c : Byte) (s : State) : (fatalAbort c s).job = s.job := rfl
@[simp] theorem fatalAbort_rspq (c : Byte) (s : State) : (fatalAbort c s).rspq = s.rspq ++ [[0x09#8, c]] := rfl
@[simp] theorem fatalAbort_fatal (c : Byte) (s : State) : (fatalAbort c s).fatal = true := rfl
@[simp] theorem fatalAbort_fatalCause (c : Byte) (s : State) : (fatalAbort c s).fatalCause = c := rfl
@[simp] theorem fatalAbort_sel (c : Byte) (s : State) : (fatalAbort c s).sel = s.sel := rfl
@[simp] theorem fatalAbort_shaOk (c : Byte) (s : State) : (fatalAbort c s).shaOk = s.shaOk := rfl
@[simp] theorem fatalAbort_params (c : Byte) (s : State) : (fatalAbort c s).params = s.params := rfl
@[simp] theorem fatalAbort_input (c : Byte) (s : State) : (fatalAbort c s).input = s.input := rfl
@[simp] theorem fatalAbort_out (c : Byte) (s : State) : (fatalAbort c s).out = s.out := rfl
@[simp] theorem fatalAbort_sched (c : Byte) (s : State) : (fatalAbort c s).sched = s.sched := rfl

@[simp] theorem answerRoot_core (z : Bool) (r : Root) (s : State) : (answerRoot z r s).core = Core.empty := rfl
@[simp] theorem answerRoot_parser (z : Bool) (r : Root) (s : State) : (answerRoot z r s).parser = s.parser.next := rfl
@[simp] theorem answerRoot_job (z : Bool) (r : Root) (s : State) : (answerRoot z r s).job = s.job := rfl
@[simp] theorem answerRoot_rspq (z : Bool) (r : Root) (s : State) : (answerRoot z r s).rspq =
    s.rspq ++ [0x00#8 :: (nodeBytes r.node ++ if z then le64 (paddedSize s.core.total) else [])] := rfl
@[simp] theorem answerRoot_fatal (z : Bool) (r : Root) (s : State) : (answerRoot z r s).fatal = s.fatal := rfl
@[simp] theorem answerRoot_fatalCause (z : Bool) (r : Root) (s : State) : (answerRoot z r s).fatalCause = s.fatalCause := rfl
@[simp] theorem answerRoot_sel (z : Bool) (r : Root) (s : State) : (answerRoot z r s).sel = s.sel := rfl
@[simp] theorem answerRoot_shaOk (z : Bool) (r : Root) (s : State) : (answerRoot z r s).shaOk = s.shaOk := rfl
@[simp] theorem answerRoot_params (z : Bool) (r : Root) (s : State) : (answerRoot z r s).params = s.params := rfl
@[simp] theorem answerRoot_input (z : Bool) (r : Root) (s : State) : (answerRoot z r s).input = s.input := rfl
@[simp] theorem answerRoot_out (z : Bool) (r : Root) (s : State) : (answerRoot z r s).out = s.out := rfl
@[simp] theorem answerRoot_sched (z : Bool) (r : Root) (s : State) : (answerRoot z r s).sched = s.sched := rfl

@[simp] theorem beginCommand_core (k : Option Command) (s : State) : (beginCommand k s).core = s.core := rfl
@[simp] theorem beginCommand_job (k : Option Command) (s : State) : (beginCommand k s).job = [] := rfl
@[simp] theorem beginCommand_rspq (k : Option Command) (s : State) : (beginCommand k s).rspq = s.rspq := rfl
@[simp] theorem beginCommand_fatal (k : Option Command) (s : State) : (beginCommand k s).fatal = s.fatal := rfl
@[simp] theorem beginCommand_fatalCause (k : Option Command) (s : State) : (beginCommand k s).fatalCause = s.fatalCause := rfl
@[simp] theorem beginCommand_sel (k : Option Command) (s : State) : (beginCommand k s).sel = s.sel := rfl
@[simp] theorem beginCommand_shaOk (k : Option Command) (s : State) : (beginCommand k s).shaOk = s.shaOk := rfl
@[simp] theorem beginCommand_params (k : Option Command) (s : State) : (beginCommand k s).params = s.params := rfl
@[simp] theorem beginCommand_input (k : Option Command) (s : State) : (beginCommand k s).input = s.input := rfl
@[simp] theorem beginCommand_out (k : Option Command) (s : State) : (beginCommand k s).out = s.out := rfl
@[simp] theorem beginCommand_sched (k : Option Command) (s : State) : (beginCommand k s).sched = s.sched := rfl

@[simp] theorem countDown_core (s : State) : (countDown s).core = s.core := rfl
@[simp] theorem countDown_parser (s : State) : (countDown s).parser = { s.parser with rem := s.parser.rem - 1#56 } := rfl
@[simp] theorem countDown_job (s : State) : (countDown s).job = s.job := rfl
@[simp] theorem countDown_rspq (s : State) : (countDown s).rspq = s.rspq := rfl
@[simp] theorem countDown_fatal (s : State) : (countDown s).fatal = s.fatal := rfl
@[simp] theorem countDown_fatalCause (s : State) : (countDown s).fatalCause = s.fatalCause := rfl
@[simp] theorem countDown_sel (s : State) : (countDown s).sel = s.sel := rfl
@[simp] theorem countDown_shaOk (s : State) : (countDown s).shaOk = s.shaOk := rfl
@[simp] theorem countDown_params (s : State) : (countDown s).params = s.params := rfl
@[simp] theorem countDown_input (s : State) : (countDown s).input = s.input := rfl
@[simp] theorem countDown_out (s : State) : (countDown s).out = s.out := rfl
@[simp] theorem countDown_sched (s : State) : (countDown s).sched = s.sched := rfl

@[simp] theorem enterPhase_core (p : Phase) (r : Arg) (s : State) : (enterPhase p r s).core = s.core := rfl
@[simp] theorem enterPhase_parser (p : Phase) (r : Arg) (s : State) : (enterPhase p r s).parser = { s.parser with phase := p, rem := r } := rfl
@[simp] theorem enterPhase_job (p : Phase) (r : Arg) (s : State) : (enterPhase p r s).job = s.job := rfl
@[simp] theorem enterPhase_rspq (p : Phase) (r : Arg) (s : State) : (enterPhase p r s).rspq = s.rspq := rfl
@[simp] theorem enterPhase_fatal (p : Phase) (r : Arg) (s : State) : (enterPhase p r s).fatal = s.fatal := rfl
@[simp] theorem enterPhase_fatalCause (p : Phase) (r : Arg) (s : State) : (enterPhase p r s).fatalCause = s.fatalCause := rfl
@[simp] theorem enterPhase_sel (p : Phase) (r : Arg) (s : State) : (enterPhase p r s).sel = s.sel := rfl
@[simp] theorem enterPhase_shaOk (p : Phase) (r : Arg) (s : State) : (enterPhase p r s).shaOk = s.shaOk := rfl
@[simp] theorem enterPhase_params (p : Phase) (r : Arg) (s : State) : (enterPhase p r s).params = s.params := rfl
@[simp] theorem enterPhase_input (p : Phase) (r : Arg) (s : State) : (enterPhase p r s).input = s.input := rfl
@[simp] theorem enterPhase_out (p : Phase) (r : Arg) (s : State) : (enterPhase p r s).out = s.out := rfl
@[simp] theorem enterPhase_sched (p : Phase) (r : Arg) (s : State) : (enterPhase p r s).sched = s.sched := rfl

@[simp] theorem hostOffer_core (bs : List Byte) (s : State) : (hostOffer bs s).core = s.core := rfl
@[simp] theorem hostOffer_parser (bs : List Byte) (s : State) : (hostOffer bs s).parser = s.parser := rfl
@[simp] theorem hostOffer_job (bs : List Byte) (s : State) : (hostOffer bs s).job = s.job := rfl
@[simp] theorem hostOffer_rspq (bs : List Byte) (s : State) : (hostOffer bs s).rspq = s.rspq := rfl
@[simp] theorem hostOffer_fatal (bs : List Byte) (s : State) : (hostOffer bs s).fatal = s.fatal := rfl
@[simp] theorem hostOffer_fatalCause (bs : List Byte) (s : State) : (hostOffer bs s).fatalCause = s.fatalCause := rfl
@[simp] theorem hostOffer_sel (bs : List Byte) (s : State) : (hostOffer bs s).sel = s.sel := rfl
@[simp] theorem hostOffer_shaOk (bs : List Byte) (s : State) : (hostOffer bs s).shaOk = s.shaOk := rfl
@[simp] theorem hostOffer_params (bs : List Byte) (s : State) : (hostOffer bs s).params = s.params := rfl
@[simp] theorem hostOffer_input (bs : List Byte) (s : State) : (hostOffer bs s).input = s.input ++ bs := rfl
@[simp] theorem hostOffer_out (bs : List Byte) (s : State) : (hostOffer bs s).out = s.out := rfl
@[simp] theorem hostOffer_sched (bs : List Byte) (s : State) : (hostOffer bs s).sched = s.sched := rfl

@[simp] theorem shaFailure_core (s : State) : (shaFailure s).core = s.core := rfl
@[simp] theorem shaFailure_parser (s : State) : (shaFailure s).parser = s.parser := rfl
@[simp] theorem shaFailure_job (s : State) : (shaFailure s).job = s.job := rfl
@[simp] theorem shaFailure_rspq (s : State) : (shaFailure s).rspq = s.rspq := rfl
@[simp] theorem shaFailure_fatal (s : State) : (shaFailure s).fatal = s.fatal := rfl
@[simp] theorem shaFailure_fatalCause (s : State) : (shaFailure s).fatalCause = s.fatalCause := rfl
@[simp] theorem shaFailure_sel (s : State) : (shaFailure s).sel = s.sel := rfl
@[simp] theorem shaFailure_shaOk (s : State) : (shaFailure s).shaOk = false := rfl
@[simp] theorem shaFailure_params (s : State) : (shaFailure s).params = s.params := rfl
@[simp] theorem shaFailure_input (s : State) : (shaFailure s).input = s.input := rfl
@[simp] theorem shaFailure_out (s : State) : (shaFailure s).out = s.out := rfl
@[simp] theorem shaFailure_sched (s : State) : (shaFailure s).sched = s.sched := rfl

@[simp] theorem hardReset_core (s : State) : (hardReset s).core = Core.empty := rfl
@[simp] theorem hardReset_parser (s : State) : (hardReset s).parser = Parser.idle := rfl
@[simp] theorem hardReset_job (s : State) : (hardReset s).job = [] := rfl
@[simp] theorem hardReset_rspq (s : State) : (hardReset s).rspq = [] := rfl
@[simp] theorem hardReset_fatal (s : State) : (hardReset s).fatal = false := rfl
@[simp] theorem hardReset_fatalCause (s : State) : (hardReset s).fatalCause = 0x00#8 := rfl
@[simp] theorem hardReset_sel (s : State) : (hardReset s).sel = 0 := rfl
@[simp] theorem hardReset_shaOk (s : State) : (hardReset s).shaOk = true := rfl
@[simp] theorem hardReset_params (s : State) : (hardReset s).params = s.params := rfl
@[simp] theorem hardReset_input (s : State) : (hardReset s).input = s.input := rfl
@[simp] theorem hardReset_out (s : State) : (hardReset s).out = s.out := rfl
@[simp] theorem hardReset_sched (s : State) : (hardReset s).sched = s.sched := rfl

@[simp] theorem beginCommand_cmd (k : Option Command) (s : State) :
    (beginCommand k s).parser.cmd = k := rfl
@[simp] theorem beginCommand_saved (k : Option Command) (s : State) : (beginCommand k s).parser.saved = some s.core := rfl
@[simp] theorem beginCommand_phase (k : Option Command) (s : State) : (beginCommand k s).parser.phase = .cmd := rfl
@[simp] theorem beginCommand_cwbuf (k : Option Command) (s : State) : (beginCommand k s).parser.cwbuf = [] := rfl
@[simp] theorem beginCommand_rem (k : Option Command) (s : State) : (beginCommand k s).parser.rem = s.parser.rem := rfl
@[simp] theorem beginCommand_xc (k : Option Command) (s : State) : (beginCommand k s).parser.xc = [] := rfl
@[simp] theorem beginCommand_xclen (k : Option Command) (s : State) : (beginCommand k s).parser.xclen = s.parser.xclen := rfl
@[simp] theorem beginCommand_xs (k : Option Command) (s : State) : (beginCommand k s).parser.xs = [] := rfl
@[simp] theorem beginCommand_xt (k : Option Command) (s : State) : (beginCommand k s).parser.xt = [] := rfl
@[simp] theorem beginCommand_drop (k : Option Command) (s : State) : (beginCommand k s).parser.drop = s.fatal := rfl

@[simp] theorem next_phase (p : Parser) : p.next.phase = .cmd := rfl
@[simp] theorem next_cwbuf (p : Parser) : p.next.cwbuf = [] := rfl
@[simp] theorem next_cmd (p : Parser) : p.next.cmd = none := rfl
@[simp] theorem next_saved (p : Parser) : p.next.saved = none := rfl
@[simp] theorem next_rem (p : Parser) : p.next.rem = p.rem := rfl
@[simp] theorem next_xc (p : Parser) : p.next.xc = [] := rfl
@[simp] theorem next_xclen (p : Parser) : p.next.xclen = p.xclen := rfl
@[simp] theorem next_xs (p : Parser) : p.next.xs = [] := rfl
@[simp] theorem next_xt (p : Parser) : p.next.xt = [] := rfl
@[simp] theorem next_drop (p : Parser) : p.next.drop = false := rfl

theorem drained_iff (c : Core) : c.drained = true ↔ ∀ l ∈ c.layers, l.q = [] := by simp [Core.drained]
@[simp] theorem empty_drained : Core.empty.drained = true := by decide
@[simp] theorem startLayer0_drained (c : Core) : c.startLayer0.drained = c.drained := by
  obtain ⟨_, _, _, ls, _⟩ := c
  cases ls <;> rfl
@[simp] theorem pipelineEmpty_of_fused {s : State} (h : s.params.fused = true) : s.pipelineEmpty = true := by
  simp [State.pipelineEmpty, h]
theorem pipelineEmpty_of_drained {s : State} (h : s.core.drained = true) : s.pipelineEmpty = true := by
  simp [State.pipelineEmpty, h]

@[simp] theorem clearCarry_carry (c : Core) : (c.clearCarry).carry = [] := rfl
@[simp] theorem clearCarry_clen (c : Core) : (c.clearCarry).clen = 0 := rfl
@[simp] theorem clearCarry_total (c : Core) : (c.clearCarry).total = c.total := rfl
@[simp] theorem clearCarry_layers (c : Core) : (c.clearCarry).layers = c.layers := rfl
@[simp] theorem clearCarry_root (c : Core) : (c.clearCarry).root = c.root := rfl

@[simp] theorem setLayer_carry (i : Nat) (l : Layer) (c : Core) : (c.setLayer i l).carry = c.carry := rfl
@[simp] theorem setLayer_clen (i : Nat) (l : Layer) (c : Core) : (c.setLayer i l).clen = c.clen := rfl
@[simp] theorem setLayer_total (i : Nat) (l : Layer) (c : Core) : (c.setLayer i l).total = c.total := rfl
@[simp] theorem setLayer_layers (i : Nat) (l : Layer) (c : Core) : (c.setLayer i l).layers = c.layers.set i l := rfl
@[simp] theorem setLayer_root (i : Nat) (l : Layer) (c : Core) : (c.setLayer i l).root = c.root := rfl

@[simp] theorem popToken_carry (i : Nat) (c : Core) : (c.popToken i).carry = c.carry := rfl
@[simp] theorem popToken_clen (i : Nat) (c : Core) : (c.popToken i).clen = c.clen := rfl
@[simp] theorem popToken_total (i : Nat) (c : Core) : (c.popToken i).total = c.total := rfl
@[simp] theorem popToken_layers (i : Nat) (c : Core) : (c.popToken i).layers = c.layers.modify i fun l => { l with q := l.q.tail } := rfl
@[simp] theorem popToken_root (i : Nat) (c : Core) : (c.popToken i).root = c.root := rfl

@[simp] theorem startLayer0_carry (c : Core) : c.startLayer0.carry = c.carry := by
  obtain ⟨_, _, _, ls, _⟩ := c
  cases ls <;> rfl
@[simp] theorem startLayer0_clen (c : Core) : c.startLayer0.clen = c.clen := by
  obtain ⟨_, _, _, ls, _⟩ := c
  cases ls <;> rfl
@[simp] theorem startLayer0_total (c : Core) : c.startLayer0.total = c.total := by
  obtain ⟨_, _, _, ls, _⟩ := c
  cases ls <;> rfl
theorem startLayer0_layers (c : Core) :
    c.startLayer0.layers = c.layers.modify 0 fun l => { l with active := true } := by
  obtain ⟨_, _, _, ls, _⟩ := c
  cases ls <;> rfl
@[simp] theorem startLayer0_root (c : Core) : c.startLayer0.root = c.root := by
  obtain ⟨_, _, _, ls, _⟩ := c
  cases ls <;> rfl

end Sys2Proof.Machine
end

