-- ==== Sys2Proof/Laws/Ops.lean ====
section
/-! SUPPORT. For each shared operation one lemma that says once everything it can do. -/

namespace Sys2Proof.Machine

open Sys2Proof.Config

/-! ## Ends of operations -/

/-- A step answers a next state exactly if its operation ended in that state. -/
@[simp] theorem conclude_next {r : Except Fault State} {t : State} : conclude r = .next t ↔ r = .ok t := by
  cases r <;> simp [conclude]

/-- No operation refuses. -/
theorem conclude_not_refused (r : Except Fault State) (x : Refusal) : conclude r ≠ .refused x := by
  cases r <;> simp [conclude]

/-- What `trap` can do: the operation ended, or it met the internal fault. -/
theorem trap_ok {s t : State} {r : Res State} (h : trap s r = .ok t) :
    r = .ok t ∨ (r = .error .internal ∧ t = internalFault s) := by
  unfold trap at h
  split at h
  · exact .inl (by simpa using h)
  · exact .inr ⟨rfl, by simpa using h.symm⟩
  · cases h

@[simp] theorem trap_of_ok (s t : State) : trap s (.ok t) = .ok t := rfl
@[simp] theorem trap_of_internal (s : State) : trap s (.error .internal) = .ok (internalFault s) := rfl
@[simp] theorem trap_of_fault (s : State) (f : Fault) : trap s (.error (.fault f)) = .error f := rfl

/-- What the internal fault can do (rules R12, R214): with no command in progress FATAL only; with one, its effects are
discarded, and it answers `09 0A` now or, with operand bytes still due, after them. -/
theorem internalFault_cases (s : State) :
    (s.parser.saved = none ∧ internalFault s = { s with fatal := true, fatalCause := internalFaultCode, job := [] }) ∨
    ∃ c, s.parser.saved = some c ∧
      ((s.operandsDue = true ∧ internalFault s = { s with
          core := c, fatal := true, fatalCause := internalFaultCode, job := [], parser := { s.parser with drop := true } }) ∨
       (s.operandsDue = false ∧ internalFault s = { s with
          core := c, fatal := true, fatalCause := internalFaultCode, job := [], parser := s.parser.next,
          rspq := s.rspq ++ [[0x09#8, internalFaultCode]] })) := by
  cases hc : s.parser.saved with
  | none => exact .inl ⟨rfl, by simp [internalFault, hc, enterFatal]⟩
  | some c =>
    refine .inr ⟨c, rfl, ?_⟩
    cases hd : s.operandsDue
    · exact .inr ⟨rfl, by simp [internalFault, hc, hd, enterFatal, fatalReply, reply, respond, pcNext, Status.code]⟩
    · exact .inl ⟨rfl, by simp [internalFault, hc, hd, enterFatal]⟩

/-- The SHA-256 engine answers NodeHash, or it has failed. -/
theorem hash_ok {ok : Bool} {l r n : Node} : hash ok l r = .ok n ↔ ok = true ∧ n = nodeHash l r := by
  cases ok <;> simp [hash, eq_comm]

/-- A tower read answers an entry of the 31 (rules R50, R190). -/
theorem readTower_ok {i : Nat} {n : Node} : readTower i = .ok n ↔ i < towerEntries ∧ n = tower i := by
  unfold readTower
  split <;> simp_all [eq_comm]

/-! ## Layers -/

/-- What EMIT can do (rules R122, R123). -/
theorem emit_ok {ok : Bool} {l : Layer} {above ls : List Layer} {p : Node} (h : emit ok (l :: above) p = .ok ls) :
    (l.slot = none ∧ ls = { l with active := true, slot := some p } :: above) ∨
    ∃ left above', l.slot = some left ∧ ok = true ∧ emit ok above (nodeHash left p) = .ok above' ∧
      ls = { l with active := true, slot := none } :: above' := by
  unfold emit at h
  split at h
  · next hs => exact .inl ⟨hs, by simpa using h.symm⟩
  · next left hs =>
    split at h
    · cases h
    · next parent hp =>
      obtain ⟨hok, rfl⟩ := hash_ok.1 hp
      split at h
      · cases h
      · next above' he => exact .inr ⟨left, above', hs, hok, he, by simpa using h.symm⟩

/-- What PUSH can do (rules R121, R122). -/
theorem push_ok {ok : Bool} {i : Nat} {l : Layer} {above ls : List Layer} {n : Node} (h : push ok i (l :: above) n = .ok ls) :
    (l.slot = none ∧ ls = { l with slot := some n } :: above) ∨
    ∃ left above', l.slot = some left ∧ ok = true ∧ emit ok above (nodeHash left n) = .ok above' ∧
      ls = { l with slot := none } :: above' := by
  simp only [push] at h
  split at h
  · next hs => exact .inl ⟨hs, by simpa using h.symm⟩
  · next left hs =>
    split at h
    · cases h
    · next parent hp =>
      obtain ⟨hok, rfl⟩ := hash_ok.1 hp
      split at h
      · cases h
      · next above' he => exact .inr ⟨left, above', hs, hok, he, by simpa using h.symm⟩

/-- EMIT keeps the number of layers. -/
theorem emit_length {ok : Bool} {ls ls' : List Layer} {p : Node} (h : emit ok ls p = .ok ls') : ls'.length = ls.length := by
  induction ls generalizing p ls' with
  | nil => cases h
  | cons l above ih =>
    obtain ⟨_, rfl⟩ | ⟨left, above', _, _, he, rfl⟩ := emit_ok h
    · rfl
    · simp [ih he]

/-- PUSH keeps the number of layers. -/
theorem push_length {ok : Bool} {i : Nat} {ls ls' : List Layer} {n : Node} (h : push ok i ls n = .ok ls') :
    ls'.length = ls.length := by
  cases ls with
  | nil => cases h
  | cons l above =>
    obtain ⟨_, rfl⟩ | ⟨left, above', _, _, he, rfl⟩ := push_ok h
    · rfl
    · simp [emit_length he]

/-- What CLOSE can do (rules R125, R126, R128). -/
theorem close_ok {ok : Bool} {k i : Nat} {l : Layer} {above ls : List Layer} {r : Root}
    (h : close ok (k + 1) i (l :: above) = .ok (ls, r)) :
    (highestBelow above = true ∧ ∃ n, l.slot = some n ∧ ls = { l with slot := none } :: above ∧
      r = { node := n, layer := BitVec.ofNat 5 i }) ∨
    (highestBelow above = false ∧ l.slot = none ∧
      ∃ above', close ok k (i + 1) above = .ok (above', r) ∧ ls = l :: above') ∨
    (highestBelow above = false ∧ ok = true ∧ i < towerEntries ∧
      ∃ left above1 above', l.slot = some left ∧ emit ok above (nodeHash left (tower i)) = .ok above1 ∧
        close ok k (i + 1) above1 = .ok (above', r) ∧ ls = { l with slot := none } :: above') := by
  unfold close at h
  split at h
  · next hh =>
    split at h
    · cases h
    · next n hn =>
      simp only [Except.ok.injEq, Prod.mk.injEq] at h
      exact .inl ⟨hh, n, hn, h.1.symm, h.2.symm⟩
  · next hh =>
    have hh' : highestBelow above = false := by simpa using hh
    split at h
    · next hs =>
      split at h
      · cases h
      · next above' r' hc =>
        simp only [Except.ok.injEq, Prod.mk.injEq] at h
        obtain ⟨rfl, rfl⟩ := h
        exact .inr (.inl ⟨hh', hs, above', hc, rfl⟩)
    · next left hs =>
      split at h
      · cases h
      · next pad hp =>
        obtain ⟨hi, rfl⟩ := readTower_ok.1 hp
        split at h
        · cases h
        · next parent hpar =>
          obtain ⟨hok, rfl⟩ := hash_ok.1 hpar
          split at h
          · cases h
          · next above1 he =>
            split at h
            · cases h
            · next above' r' hc =>
              simp only [Except.ok.injEq, Prod.mk.injEq] at h
              obtain ⟨rfl, rfl⟩ := h
              exact .inr (.inr ⟨hh', hok, hi, left, above1, above', hs, he, hc, rfl⟩)

/-- CLOSE keeps the number of layers. -/
theorem close_length {ok : Bool} {k i : Nat} {ls ls' : List Layer} {r : Root} (h : close ok k i ls = .ok (ls', r)) :
    ls'.length = ls.length := by
  induction k generalizing i ls ls' r with
  | zero => cases h
  | succ k ih =>
    cases ls with
    | nil => cases h
    | cons l above =>
      obtain ⟨_, n, _, rfl, _⟩ | ⟨_, _, above', hc, rfl⟩ | ⟨_, _, _, left, above1, above', _, he, hc, rfl⟩ := close_ok h
      · rfl
      · simp [ih hc]
      · simp [ih hc, emit_length he]

/-- What a reference PUSH on the core can do (rule R130): it changes the layers from `L` up. -/
theorem pushAt_ok {ok : Bool} {i : Nat} {n : Node} {c c' : Core} (h : c.pushAt ok i n = .ok c') :
    ∃ ls, push ok i (c.layers.drop i) n = .ok ls ∧ c' = { c with layers := c.layers.take i ++ ls } := by
  unfold Core.pushAt at h
  split at h
  · cases h
  · next ls hl => exact ⟨ls, hl, by simpa using h.symm⟩

/-- What a reference CLOSE on the core can do (rule R130): it changes the layers from `L` up and publishes the root. -/
theorem closeAt_ok {ok : Bool} {i : Nat} {c c' : Core} (h : c.closeAt ok i = .ok c') :
    ∃ ls r, close ok (c.layers.drop i).length i (c.layers.drop i) = .ok (ls, r) ∧
      c' = { c with layers := c.layers.take i ++ ls, root := some r } := by
  unfold Core.closeAt at h
  split at h
  · cases h
  · next ls r hl => exact ⟨ls, r, hl, by simpa using h.symm⟩

/-- What enqueueing can do (rules R33, R140): append to the queue if there is room, hold if there is none. -/
theorem enqueue_ok {d i : Nat} {t : Token} {c : Core} {x : Option Core} (h : c.enqueue d i t = .ok x) :
    ∃ l, c.layers[i]? = some l ∧
      ((l.q.length < d ∧ x = some (c.setLayer i { l with q := l.q ++ [t] })) ∨ (d ≤ l.q.length ∧ x = none)) := by
  unfold Core.enqueue at h
  split at h
  · cases h
  · next l hl =>
    refine ⟨l, hl, ?_⟩
    by_cases hr : l.q.length < d
    · exact .inl ⟨hr, by simpa [hr] using h.symm⟩
    · exact .inr ⟨by omega, by simpa [hr] using h.symm⟩

/-- What an agent's step on a NODE token can do (rule R140). -/
theorem agentNode_ok {d i : Nat} {ok : Bool} {n : Node} {c : Core} {x : Option Core} (h : c.agentNode d ok i n = .ok x) :
    ∃ l, c.layers[i]? = some l ∧
      ((l.slot = none ∧ x = some (c.setLayer i { l with slot := some n, q := l.q.tail })) ∨
       ∃ left m, l.slot = some left ∧ c.layers[i + 1]? = some m ∧
        ((m.q.length < d ∧ ok = true ∧
            x = some ((c.setLayer i { l with slot := none, q := l.q.tail }).setLayer (i + 1)
              { m with active := true, q := m.q ++ [nodeToken (nodeHash left n)] })) ∨
          (d ≤ m.q.length ∧ x = none))) := by
  unfold Core.agentNode at h
  split at h
  · cases h
  · next l hl =>
    refine ⟨l, hl, ?_⟩
    split at h
    · next hs => exact .inl ⟨hs, by simpa using h.symm⟩
    · next left hs =>
      split at h
      · cases h
      · next m hm =>
        refine .inr ⟨left, m, hs, hm, ?_⟩
        split at h
        · next hr =>
          split at h
          · cases h
          · next parent hp =>
            obtain ⟨hok, rfl⟩ := hash_ok.1 hp
            exact .inl ⟨hr, hok, by simpa using h.symm⟩
        · next hr => exact .inr ⟨by omega, by simpa using h.symm⟩

/-- What an agent's step on a CLOSE token can do (rules R140, R141). -/
theorem agentClose_ok {d i : Nat} {ok : Bool} {c : Core} {x : Option Core} (h : c.agentClose d ok i = .ok x) :
    ∃ l, c.layers[i]? = some l ∧
      ((highestBelow (c.layers.drop (i + 1)) = true ∧ ∃ n, l.slot = some n ∧
          x = some { c.setLayer i { l with slot := none, q := l.q.tail } with
            root := some { node := n, layer := BitVec.ofNat 5 i } }) ∨
       (highestBelow (c.layers.drop (i + 1)) = false ∧ ∃ m, c.layers[i + 1]? = some m ∧
        ((l.slot = none ∧ m.q.length < d ∧
            x = some ((c.setLayer i { l with q := l.q.tail }).setLayer (i + 1) { m with q := m.q ++ [closeToken] })) ∨
         (l.slot = none ∧ d ≤ m.q.length ∧ x = none) ∨
         (∃ left, l.slot = some left ∧ m.q.length + padRoom d ≤ d ∧ i < towerEntries ∧ ok = true ∧
            x = some (if d = 1 then
                (c.setLayer i { l with slot := none }).setLayer (i + 1)
                  { m with q := m.q ++ [nodeToken (nodeHash left (tower i))] }
              else
                (c.setLayer i { l with slot := none, q := l.q.tail }).setLayer (i + 1)
                  { m with q := m.q ++ [nodeToken (nodeHash left (tower i)), closeToken] })) ∨
         (l.slot ≠ none ∧ d < m.q.length + padRoom d ∧ x = none)))) := by
  unfold Core.agentClose at h
  split at h
  · cases h
  · next l hl =>
    refine ⟨l, hl, ?_⟩
    split at h
    · next hh =>
      refine .inl ⟨hh, ?_⟩
      split at h
      · cases h
      · next n hn => exact ⟨n, hn, by simpa using h.symm⟩
    · next hh =>
      refine .inr ⟨by simpa using hh, ?_⟩
      split at h
      · cases h
      · next m hm =>
        refine ⟨m, hm, ?_⟩
        split at h
        · next hs =>
          by_cases hr : m.q.length < d
          · exact .inl ⟨hs, hr, by simpa [hr] using h.symm⟩
          · exact .inr (.inl ⟨hs, by omega, by simpa [hr] using h.symm⟩)
        · next left hs =>
          split at h
          · next hr =>
            split at h
            · cases h
            · next pad hp =>
              obtain ⟨hi, rfl⟩ := readTower_ok.1 hp
              split at h
              · cases h
              · next parent hpar =>
                obtain ⟨hok, rfl⟩ := hash_ok.1 hpar
                refine .inr (.inr (.inl ⟨left, hs, hr, hi, hok, ?_⟩))
                by_cases hd : d = 1
                · simpa [hd] using h.symm
                · simpa [hd] using h.symm
          · next hr => exact .inr (.inr (.inr ⟨by simp [hs], by omega, by simpa using h.symm⟩))

/-! ## The sequencer and the stream -/

@[simp] theorem runOps_nil (s : State) : runOps [] s = .ok { s with job := [] } := rfl

/-- What running the first of some actions can do. -/
theorem runOps_cons {op : SeqOp} {ops : List SeqOp} {s t : State} (h : runOps (op :: ops) s = .ok t) :
    (runOp op s = .ok none ∧ t = { s with job := op :: ops }) ∨ ∃ s1, runOp op s = .ok (some s1) ∧ runOps ops s1 = .ok t := by
  unfold runOps at h
  split at h
  · cases h
  · next hr => exact .inl ⟨hr, by simpa using h.symm⟩
  · next s1 hr => exact .inr ⟨s1, hr, h⟩

@[simp] theorem feed_nil (s : State) : feed [] s = .ok { s with input := [] } := rfl

/-- What taking the next operand byte can do. -/
theorem feed_cons {b : Byte} {bs : List Byte} {s t : State} (h : feed (b :: bs) s = .ok t) :
    (s.wantsOperand = false ∧ t = { s with input := b :: bs }) ∨
    (s.wantsOperand = true ∧ ∃ s1, operandByte b s = .ok s1 ∧ feed bs s1 = .ok t) := by
  unfold feed at h
  split at h
  · next hw =>
    split at h
    · cases h
    · next s1 h1 => exact .inr ⟨hw, s1, h1, h⟩
  · next hw => exact .inl ⟨by simpa using hw, by simpa using h.symm⟩

/-- A state that wants no operand byte takes none. -/
theorem feed_idle {s : State} (h : s.wantsOperand = false) (bs : List Byte) : feed bs s = .ok { s with input := bs } := by
  cases bs with
  | nil => rfl
  | cons b bs => simp [feed, h]

/-- The end of DIGEST or SUM (rules R155, R158, R162). -/
theorem answerRoot_eq (sized : Bool) (r : Root) (s : State) :
    answerRoot sized r s = { s with
      core := Core.empty, parser := s.parser.next,
      rspq := s.rspq ++ [0x00#8 :: (nodeBytes r.node ++ if sized then le64 (paddedSize s.core.total) else [])] } := rfl

/-- What the wait of DIGEST or SUM can do (rule R158): hold without a root, answer with one. -/
theorem runOp_await (sized : Bool) (s : State) :
    runOp (.await sized) s = .ok (s.core.root.map fun r => answerRoot sized r s) := by
  unfold runOp
  cases s.core.root <;> rfl

/-- What the end of a WRITE can do (rules R33, R150): hold while a token is queued, answer when none is. -/
theorem runOp_writeDone {s : State} {x : Option State} (h : runOp .writeDone s = .ok x) :
    (s.pipelineEmpty = false ∧ x = none) ∨ (s.pipelineEmpty = true ∧ ∃ t, answerWrite s = .ok t ∧ x = some t) := by
  simp only [runOp] at h
  split at h
  · next hp =>
    split at h
    · cases h
    · next t ht => exact .inr ⟨hp, t, ht, by simpa using h.symm⟩
  · next hp => exact .inl ⟨by simpa using hp, by simpa using h.symm⟩

/-- The end of WRITE (rule R150). -/
theorem answerWrite_ok {s t : State} (h : answerWrite s = .ok t) :
    ∃ c, s.parser.cmd = some c ∧ t = { s with
      core := { s.core with total := s.core.total + zext64 c.arg }, parser := s.parser.next,
      rspq := s.rspq ++ [0x00#8 :: le64 (zext64 c.arg)] } := by
  unfold answerWrite State.arg at h
  cases hc : s.parser.cmd with
  | none => rw [hc] at h; cases h
  | some c =>
    rw [hc] at h
    simp only [Except.ok.injEq] at h
    exact ⟨c, rfl, by rw [← h]; rfl⟩

/-- What the extension loop can do (rule R195): one NodeHash with `P[k-5]` a step. -/
theorem extendLoop_ok {ok : Bool} {n k : Nat} {c d : Node} (h : extendLoop ok (n + 1) k c = .ok d) :
    k - 5 < towerEntries ∧ ok = true ∧ extendLoop ok n (k + 1) (nodeHash c (tower (k - 5))) = .ok d := by
  unfold extendLoop at h
  split at h
  · cases h
  · next pad hp =>
    obtain ⟨hi, rfl⟩ := readTower_ok.1 hp
    split at h
    · cases h
    · next c' hc =>
      obtain ⟨hok, rfl⟩ := hash_ok.1 hc
      exact ⟨hi, hok, h⟩

/-- What a turn of the schedule is (log entry 3). -/
theorem nextTurn_cons {s : State} {t : Turn} {ts : List Turn} (h : s.sched = t :: ts) :
    nextTurn s = (t, { s with sched := ts }) := by simp [nextTurn, h]

/-- A step is the turn it takes. -/
theorem step_eq (s : State) : step s = runTurn (nextTurn s).1 (nextTurn s).2 := rfl

end Sys2Proof.Machine
end

