-- ==== Sys2Proof/Laws/PerInstr.lean ====
section
/-! SUPPORT. Statements made of every instruction, one lemma per constructor. -/

namespace Sys2Proof.Laws

/-- The opcode-table row of an instruction, as its encoding shows it (rules R78, R84): a host command's opcode and operand
field, a token's tag and node bits. -/
def EncodedFields.row : Instr → CodeWord → Prop
  | .write len, w => ∃ c, w = .cmd c ∧ cwOpc c = 0x01#8 ∧ cwArg c = len
  | .digest, w => ∃ c, w = .cmd c ∧ cwOpc c = 0x02#8 ∧ cwArg c = 0#56
  | .sum, w => ∃ c, w = .cmd c ∧ cwOpc c = 0x03#8 ∧ cwArg c = 0#56
  | .reset, w => ∃ c, w = .cmd c ∧ cwOpc c = 0x04#8 ∧ cwArg c = 0#56
  | .extend clen, w => ∃ c, w = .cmd c ∧ cwOpc c = 0x05#8 ∧ cwArg c = clen
  | .blockSize, w => ∃ c, w = .cmd c ∧ cwOpc c = 0x06#8 ∧ cwArg c = 0#56
  | .digestSize, w => ∃ c, w = .cmd c ∧ cwOpc c = 0x07#8 ∧ cwArg c = 0#56
  | .layerNode n, w => ∃ t, w = .token t ∧ tokenTag t = false ∧ tokenNode t = n
  | .layerClose, w => ∃ t, w = .token t ∧ tokenTag t = true ∧ tokenNode t = 0#256

/-- The encoding of an instruction holds the fields of its row. -/
def EncodedFields.Statement (i : Instr) : Prop := EncodedFields.row i (encode i)

/-- `CW[7:0]` of a command word built from an opcode and an operand. -/
@[simp] theorem cwOpc_cmdWord (opc : Byte) (arg : Arg) : cwOpc (cmdWord opc arg) = opc := by
  apply BitVec.eq_of_getLsbD_eq
  intro i hi
  simp [cwOpc, cmdWord, hi, show i < 64 by omega]

/-- `CW[63:8]` of a command word built from an opcode and an operand. -/
@[simp] theorem cwArg_cmdWord (opc : Byte) (arg : Arg) : cwArg (cmdWord opc arg) = arg := by
  apply BitVec.eq_of_getLsbD_eq
  intro i hi
  simp [cwArg, cmdWord, hi, show 8 + i < 64 by omega]

/-- The tag of a token is its bit 256 (rule R84). -/
theorem tokenTag_eq (t : Token) : tokenTag t = t.getLsbD 256 := by
  have h : t.extractLsb' 256 1 = BitVec.ofBool (t.getLsbD 256) := by
    apply BitVec.eq_of_getLsbD_eq
    intro i hi
    obtain rfl : i = 0 := by omega
    simp
  rw [tokenTag, h]
  cases t.getLsbD 256 <;> rfl

/-- The tag of a NODE token. -/
@[simp] theorem tokenTag_nodeToken (n : Node) : tokenTag (nodeToken n) = false := by
  simp [tokenTag_eq, nodeToken]

/-- The node of a NODE token. -/
@[simp] theorem tokenNode_nodeToken (n : Node) : tokenNode (nodeToken n) = n := by
  apply BitVec.eq_of_getLsbD_eq
  intro i hi
  simp [tokenNode, nodeToken, hi]
  omega

/-- The tag of the CLOSE token. -/
@[simp] theorem tokenTag_closeToken : tokenTag closeToken = true := by
  simp [tokenTag_eq, closeToken]

/-- The node bits of the CLOSE token. -/
@[simp] theorem tokenNode_closeToken : tokenNode closeToken = 0#256 := by
  apply BitVec.eq_of_getLsbD_eq
  intro i hi
  simp [tokenNode, closeToken, hi]

theorem EncodedFields.write (len : Arg) : EncodedFields.Statement (.write len) := ⟨_, rfl, by simp, by simp⟩
theorem EncodedFields.digest : EncodedFields.Statement .digest := ⟨_, rfl, by simp, by simp⟩
theorem EncodedFields.sum : EncodedFields.Statement .sum := ⟨_, rfl, by simp, by simp⟩
theorem EncodedFields.reset : EncodedFields.Statement .reset := ⟨_, rfl, by simp, by simp⟩
theorem EncodedFields.extend (clen : Arg) : EncodedFields.Statement (.extend clen) := ⟨_, rfl, by simp, by simp⟩
theorem EncodedFields.blockSize : EncodedFields.Statement .blockSize := ⟨_, rfl, by simp, by simp⟩
theorem EncodedFields.digestSize : EncodedFields.Statement .digestSize := ⟨_, rfl, by simp, by simp⟩
theorem EncodedFields.layerNode (node : Node) : EncodedFields.Statement (.layerNode node) := ⟨_, rfl, by simp, by simp⟩
theorem EncodedFields.layerClose : EncodedFields.Statement .layerClose := ⟨_, rfl, by simp, by simp⟩

end Sys2Proof.Laws
end

