-- ==== Sys2Proof/Laws/Pipeline.lean ====
section
/-! SUPPORT. What is on its way in the pipeline: the small lemmas of `pendingTokens`, `inFlight`, `settled` and `outlook`. -/

namespace Sys2Proof.Machine

@[simp] theorem token?_push (n : Node) : (SeqOp.push n).token? = some (nodeToken n) := rfl

@[simp] theorem token?_close : SeqOp.close.token? = some closeToken := rfl

@[simp] theorem token?_await (b : Bool) : (SeqOp.await b).token? = none := rfl

@[simp] theorem token?_writeDone : SeqOp.writeDone.token? = none := rfl

theorem pendingTokens_nil {s : State} (h : s.job = []) : s.pendingTokens = [] := by simp [State.pendingTokens, h]

theorem pendingTokens_cons {s : State} {op : SeqOp} {ops : List SeqOp} (h : s.job = op :: ops) :
    s.pendingTokens = op.token?.toList ++ ({ s with job := ops } : State).pendingTokens := by
  cases op <;> simp [State.pendingTokens, h, List.filterMap_cons]

/-- The leaves of a quad, as pending tokens. -/
@[simp] theorem filterMap_token?_push (ns : List Node) : (ns.map SeqOp.push).filterMap SeqOp.token? = ns.map nodeToken := by
  induction ns with
  | nil => rfl
  | cons n ns ih => simp [ih]

/-- Delivering `a ++ b` is delivering `a` and then `b`. -/
theorem deliverAll_append (lidx : Nat) (a b : List Token) (ls : List Layer) (r : Option Root) :
    deliverAll lidx (a ++ b) ls r =
      match deliverAll lidx a ls r with
      | .error e => .error e
      | .ok (ls', r') => deliverAll lidx b ls' r' := by
  induction a generalizing ls r with
  | nil => rfl
  | cons t a ih =>
    simp only [List.cons_append, deliverAll]
    cases deliver lidx t ls r with
    | error e => rfl
    | ok x => exact ih x.1 x.2

/-- Layers with empty queues are settled. -/
theorem settleLayers_drained (lidx : Nat) (ls : List Layer) (r : Option Root) (h : ∀ l ∈ ls, l.q = []) :
    settleLayers lidx ls r = .ok (ls, r) := by
  induction ls generalizing lidx with
  | nil => rfl
  | cons l ls ih =>
    have hl := h l (by simp)
    cases l with
    | mk active slot q =>
      subst hl
      simp [settleLayers, ih (lidx + 1) (fun m hm => h m (by simp [hm])), deliverAll]

theorem settled_drained (c : Core) (h : c.drained = true) : c.settled = .ok (c.layers, c.root) :=
  settleLayers_drained 0 c.layers c.root (by simpa [Core.drained] using h)

theorem inFlight_eq_nil (s : State) : s.inFlight = [] ↔ s.core.drained = true ∧ s.pendingTokens = [] := by
  simp [State.inFlight, Core.drained]

/-- With nothing on its way the outlook is what there is. -/
theorem outlook_of_inFlight_nil (s : State) (h : s.inFlight = []) : s.outlook = .ok (s.core.layers, s.core.root) := by
  obtain ⟨hd, hp⟩ := (inFlight_eq_nil s).1 h
  simp [State.outlook, settled_drained s.core hd, hp, deliverAll]

end Sys2Proof.Machine
end

