-- ==== Sys2Proof/Laws/Sha256.lean ====
section
/-! SUPPORT. Where the constants of SHA-256 come from (log entry 1), and the lengths of its parts. -/

namespace Sys2Proof.Machine

/-- The primes below `n`. -/
def primesBelow (n : Nat) : List Nat :=
  (List.range n).filter fun p => decide (2 ≤ p) && (List.range p).all fun d => decide (d < 2) || p % d != 0

/-- `k` is the first 32 bits of the fractional part of the `e`-th root of `p`, whose whole part is below 32. -/
def isRootFraction (e p : Nat) (k : Word32) : Bool :=
  (List.range 32).any fun whole =>
    let x := whole * 2 ^ 32 + k.toNat
    decide (x ^ e ≤ p * 2 ^ (32 * e)) && decide (p * 2 ^ (32 * e) < (x + 1) ^ e)

/-- The round constants are the cube roots of the first 64 primes. -/
theorem shaRoundConstants_are_cube_roots :
    (primesBelow 312).length = 64 ∧ shaRoundConstants.length = 64 ∧
      (((primesBelow 312).zip shaRoundConstants).all fun pk => isRootFraction 3 pk.1 pk.2) = true := by decide +kernel

/-- The initial hash words are the square roots of the first 8 primes. -/
theorem shaInit_are_square_roots :
    (((primesBelow 20).zip [shaInit.a, shaInit.b, shaInit.c, shaInit.d, shaInit.e, shaInit.f, shaInit.g, shaInit.h]).all
      fun pk => isRootFraction 2 pk.1 pk.2) = true := by decide +kernel

@[simp] theorem leBytes_length (n v : Nat) : (leBytes n v).length = n := by
  induction n generalizing v with
  | zero => rfl
  | succ n ih => simp [leBytes, ih]

@[simp] theorem shaWordBytes_length (w : Word32) : (shaWordBytes w).length = 4 := by simp [shaWordBytes]

end Sys2Proof.Machine
end

