-- ==== Sys2Proof/Tests/Slice0.lean ====
section
/-! SUPPORT. Tests: ill-formed terms are refused, words written out from the encodings decode as they should, one-step tests
whose results come from spec/95_test_vectors.md, and for every statement with hypotheses a state that meets them. -/

namespace Sys2Proof.Tests

open Sys2Proof Sys2Proof.Machine Sys2Proof.Config

/-! ## Helpers -/

/-- One field of the next state, if there is one. -/
def field {α : Type} (f : State → α) : Result → Option α
  | .next t => some (f t)
  | .fault _ => none
  | .refused _ => none

/-- The state right after reset with the given bytes on offer. -/
def offered (bytes : List Byte) : State := { State.reset with input := bytes }

/-- Right after reset, but pipelined with queues of `depth` tokens. -/
def piped (depth : Nat) : State := State.resetWith { fifoDepth := depth, rspqDepth := 1, shaEngines := 1, fused := false }

/-- The accumulator of a payload, after reset. -/
def withStream (p : List Byte) : State := { State.reset with core := streamCore p }

/-- `s` with its layers replaced, those not given being empty. -/
def withLayers (ls : List Layer) (s : State) : State :=
  { s with core := { s.core with layers := ls ++ List.replicate (32 - ls.length) Layer.empty } }

/-- `s` with its payload count replaced. -/
def withTotal (n : Nat) (s : State) : State := { s with core := { s.core with total := BitVec.ofNat 64 n } }

/-- `s` with `n` bytes `b` in its carry buffer. -/
def withCarry (n : Nat) (b : Byte) (s : State) : State :=
  { s with core := { s.core with carry := (List.range n).map fun i => (i, b), clen := n } }

/-- `s` with a DIGEST (`sized`) or SUM in progress that waits for the root. -/
def awaiting (sized : Bool) (root : Option Root) (s : State) : State :=
  { s with core := { s.core with root := root }, parser := { s.parser with saved := some s.core }, job := [.await sized] }

def running (slot : Option Node) (q : List Token) : Layer := { active := true, slot := slot, q := q }

def resting (slot : Option Node) (q : List Token) : Layer := { active := false, slot := slot, q := q }

/-- 32 bytes printed as a hex string, byte 0 first. -/
def printed (n : Nat) : List Byte := (leBytes 32 n).reverse

/-- The commitment of 127 bytes `cc` (V-A6). -/
def commCc : List Byte := printed 0xc2ac699bb26693c01abe4a93551de64fd72b45404fb7320c416705dde7b2a426

/-! ## Well-formedness -/

theorem test_wf_refuses_non_fr32_node : (Instr.layerNode (BitVec.allOnes 256)).wellFormed = false := by decide

theorem test_wf_refuses_bit_254 : (Instr.layerNode (1#256 <<< 254)).wellFormed = false := by decide

theorem test_wf_accepts_fr32_node : (Instr.layerNode (1#256 <<< 253)).wellFormed = true := by decide

theorem test_wf_refuses_short_payload : (AsmLine.write 3#56 [0xaa#8, 0xbb#8]).wellFormed = false := by decide

theorem test_wf_refuses_long_commitment : (AsmLine.extend 1#56 [0xaa#8, 0xbb#8] 128#64 128#64).wellFormed = false := by decide

theorem test_wf_refuses_short_commitment : (AsmLine.extend32 [0xaa#8] 128#64 128#64).wellFormed = false := by decide

/-! ## Decoding: words written out from rules R71, R78, R79 and R84, and V-I1 to V-I6 -/

theorem test_decode_write : decodeBytes [0x01#8, 0xc8#8, 0#8, 0#8, 0#8, 0#8, 0#8, 0#8] = .ok (.write 200#56) := by decide

theorem test_decode_write_top_bit : decodeBytes [0x01#8, 0#8, 0#8, 0#8, 0#8, 0#8, 0#8, 0x80#8] =
    .ok (.write 0x80000000000000#56) := by decide

theorem test_decode_digest : decodeBytes [0x02#8, 0#8, 0#8, 0#8, 0#8, 0#8, 0#8, 0#8] = .ok .digest := by decide

theorem test_decode_sum : decodeBytes [0x03#8, 0#8, 0#8, 0#8, 0#8, 0#8, 0#8, 0#8] = .ok .sum := by decide

theorem test_decode_reset : decodeBytes [0x04#8, 0#8, 0#8, 0#8, 0#8, 0#8, 0#8, 0#8] = .ok .reset := by decide

theorem test_decode_extend : decodeBytes [0x05#8, 0x20#8, 0x01#8, 0#8, 0#8, 0#8, 0#8, 0#8] = .ok (.extend 288#56) := by decide

theorem test_decode_block_size : decodeBytes [0x06#8, 0#8, 0#8, 0#8, 0#8, 0#8, 0#8, 0#8] = .ok .blockSize := by decide

theorem test_decode_digest_size : decodeBytes [0x07#8, 0#8, 0#8, 0#8, 0#8, 0#8, 0#8, 0#8] = .ok .digestSize := by decide

/-- Node byte 1 is bits 15 to 8 of the token (rule R84). -/
theorem test_decode_node : decodeToken (BitVec.setWidth 257 0x200#256) = .layerNode (nodeOfBytes (0#8 :: 2#8 :: List.replicate 30 0#8)) := by decide

/-- The node bits of a CLOSE are ignored (rule R84). -/
theorem test_decode_close : decodeToken (BitVec.setWidth 257 0x200#256 ||| closeToken) = .layerClose := by decide +kernel

theorem test_decode_zero_is_illegal :
    decodeBytes (List.replicate 8 0#8) = .error (.reservedOpcode 0x00#8) := by decide

theorem test_decode_eight_is_illegal :
    decodeBytes [0x08#8, 0#8, 0#8, 0#8, 0#8, 0#8, 0#8, 0#8] = .error (.reservedOpcode 0x08#8) := by decide

theorem test_decode_ones_is_illegal :
    decodeBytes (List.replicate 8 0xff#8) = .error (.reservedOpcode 0xff#8) := by decide

theorem test_decode_reset_with_arg_is_illegal :
    decodeBytes [0x04#8, 0#8, 0#8, 0#8, 0#8, 0#8, 0#8, 0x80#8] = .error (.nonzeroArg 0x04#8 0x80000000000000#56) := by decide

theorem test_decode_short_is_refused : decodeBytes [0x02#8] = .error (.wrongLength 1) := by decide

/-- The example of rule R87. -/
theorem test_assemble_write :
    assemble (.zwrite 65#56) = [0x01#8, 0x41#8, 0#8, 0#8, 0#8, 0#8, 0#8, 0#8] ++ List.replicate 65 0#8 := by decide

/-- `DIGEST_TO` (rule R88): the commitment and the size of the response become the operands. -/
theorem test_digest_to :
    digestToExtend 1024#64 (0x00#8 :: (commCc ++ le64 128#64)) =
      some ([0x05#8, 0x20#8, 0#8, 0#8, 0#8, 0#8, 0#8, 0#8] ++ commCc ++ [0x80#8, 0#8, 0#8, 0#8, 0#8, 0#8, 0#8, 0#8] ++
        [0#8, 0x04#8, 0#8, 0#8, 0#8, 0#8, 0#8, 0#8]) := by decide

/-! ## One step of each instruction -/

/-- Rule R150's example: `CLEN = 73` and `TOTAL = 200` after `WRITE 200`. -/
theorem test_write_200 :
    field (fun t => (t.core.clen, t.core.total, t.rspq)) (exec (.write 200#56) (offered (List.replicate 200 0#8))) =
      some (73, 200#64, [[0x00#8, 0xc8#8, 0#8, 0#8, 0#8, 0#8, 0#8, 0#8, 0#8]]) := by decide +kernel

/-- V-A29 and V-A28: ten bytes fit below `MaxPiecePayload`, eleven do not. -/
theorem test_write_at_the_limit :
    field (fun t => (t.core.total, t.rspq))
        (exec (.write 10#56) (withTotal (maxPiecePayload - 10) (offered (List.replicate 10 0#8)))) =
      some (BitVec.ofNat 64 maxPiecePayload, [[0x00#8, 0x0a#8, 0#8, 0#8, 0#8, 0#8, 0#8, 0#8, 0#8]]) ∧
    field (fun t => (t.core.total, t.core.clen, t.input, t.rspq))
        (exec (.write 11#56) (withTotal (maxPiecePayload - 10) (offered (List.replicate 12 0#8)))) =
      some (BitVec.ofNat 64 (maxPiecePayload - 10), 0, [0#8], [[0x01#8]]) := by decide +kernel

/-- V-A1: the digest of 65 zero bytes is `P[2]`, of padded size 128. -/
theorem test_digest_65_zeros :
    field State.rspq (exec .digest (withCarry 65 0#8 (withTotal 65 State.reset))) =
      some [0x00#8 :: (printed 0x3731bb99ac689f66eef5973e4a94da188f4ddcae580724fc6f3fd60dfd488333 ++
        [0x80#8, 0#8, 0#8, 0#8, 0#8, 0#8, 0#8, 0#8])] := by decide +kernel

/-- V-A21 and V-A25: 64 bytes are too few, and they are kept. -/
theorem test_digest_64 :
    field (fun t => (t.core.total, t.core.clen, t.rspq)) (exec .digest (withCarry 64 0#8 (withTotal 64 State.reset))) =
      some (64#64, 64, [[0x02#8]]) := by decide +kernel

/-- V-A26: SUM of 127 bytes `cc` answers the commitment without a size. -/
theorem test_sum_cc :
    field State.rspq (exec .sum (withStream (List.replicate 127 0xcc#8))) = some [0x00#8 :: commCc] := by
  decide +kernel

/-- V-A27: SUM of nothing enters FATAL. -/
theorem test_sum_of_nothing :
    field (fun t => (t.fatal, t.fatalCause, t.rspq)) (exec .sum State.reset) = some (true, 0x02#8, [[0x09#8, 0x02#8]]) := by decide +kernel

/-- RESET's example: the bytes before it leave no trace. -/
theorem test_reset :
    field (fun t => (t.core, t.rspq)) (exec .reset (withCarry 100 0xff#8 (withTotal 100 State.reset))) =
      some (Core.empty, [[0x00#8]]) := by decide +kernel

/-- V-F2: under FATAL it clears nothing. -/
theorem test_reset_under_fatal :
    field (fun t => (t.fatal, t.core.total, t.rspq))
        (exec .reset { withTotal 5 State.reset with fatal := true, fatalCause := 0x02#8 }) =
      some (true, 5#64, [[0x09#8, 0x02#8]]) := by decide +kernel

/-- V-X2: one step, from 128 to 256. -/
theorem test_extend_one_step :
    field State.rspq (exec (.extend 32#56) (offered (commCc ++ le64 128#64 ++ le64 256#64))) =
      some [0x00#8 :: printed 0xfc018f905e7807110a44598edb15679a42a5e5ff3d187e23e6c147c3cbbe471b] := by decide +kernel

/-- V-X11: `CLEN = 0` has 16 operand bytes and is answered `03`. -/
theorem test_extend_clen_zero :
    field (fun t => (t.rspq, t.input)) (exec (.extend 0#56) (offered (le64 128#64 ++ le64 128#64 ++ [0xaa#8]))) =
      some ([[0x03#8]], [0xaa#8]) := by decide +kernel

/-- V-R3 and V-R4. -/
theorem test_size_queries :
    field State.rspq (exec .blockSize State.reset) = some [[0x00#8, 0x7f#8, 0#8, 0#8, 0#8, 0#8, 0#8, 0#8, 0#8]] ∧
      field State.rspq (exec .digestSize State.reset) = some [[0x00#8, 0x20#8, 0#8, 0#8, 0#8, 0#8, 0#8, 0#8, 0#8]] := by decide +kernel

/-- Rule R122: two zero leaves give `P[1]` at layer 1, which is started. -/
theorem test_node_pairs :
    field (fun t => t.core.layers.take 2)
        (exec (.layerNode 0#256) (withLayers [running (some 0#256) [nodeToken 0#256]] State.reset)) =
      some [running none [], running (some (tower 1)) []] := by decide +kernel

/-- Rule R140: with `FUSED = 0` the parent is queued, as `H(slot, new)` (V-H3: the operands' order). -/
theorem test_node_pairs_in_order :
    field (fun t => (t.core.layers.getD 1 Layer.empty).q)
        (exec (.layerNode (nodeOfBytes ((List.range 32).map fun i => BitVec.ofNat 8 (32 + i))))
          (withLayers [running (some (nodeOfBytes ((List.range 32).map (BitVec.ofNat 8)))) []] (piped 2))) =
      some [nodeToken (nodeOfBytes (printed 0xfdeab9acf3710362bd2658cdc9a29e8f9c757fcf9811603a8c447cd1d9151108))] := by decide +kernel

/-- Rule R125's example: layer 2 publishes. -/
theorem test_close_publishes :
    field (fun t => t.core.root)
        (exec .layerClose (withLayers [running none [], running none [], running (some 7#256) []] State.reset)) =
      some (some { node := 7#256, layer := 2#5 }) := by decide +kernel

/-- Rule R129: nothing to publish is the internal fault. -/
theorem test_close_of_nothing :
    field (fun t => (t.fatal, t.fatalCause, t.core.root)) (exec .layerClose State.reset) = some (true, 0x0A#8, none) := by decide +kernel

/-- V-E4, leaf 1. -/
theorem test_expand_inc_leaf1 :
    (expandLeaves ((List.range 127).map (BitVec.ofNat 8)))[1]? =
      some (nodeOfBytes (printed 0x8084888c9094989ca0a4a8acb0b4b8bcc0c4c8ccd0d4d8dce0e4e8ecf0f4f83c)) := by decide +kernel

/-- V-H2: the mask clears bits 7 and 6 of byte 31. -/
theorem test_node_hash_masks :
    nodeHash (BitVec.allOnes 256) (BitVec.allOnes 256) =
      nodeOfBytes (printed 0x8667e718294e9e0df1d30600ba3eeb201f764aad2dad72748643e4a285e1d137) := by decide +kernel

/-- A command word placed by the host's interface is fetched and run as the first instruction after reset. -/
theorem test_step_runs_the_fetched_command :
    field (fun t => (t.rspq, t.input)) (step (State.reset.withFetchWord 64 0x06)) =
      some ([[0x00#8, 0x7f#8, 0#8, 0#8, 0#8, 0#8, 0#8, 0#8, 0#8]], []) := by decide +kernel

/-- So is a token: layer 0 stores the node and its queue is empty again. -/
theorem test_step_runs_the_fetched_token :
    field (fun t => t.core.layers.head?) (step (State.reset.withFetchWord 264 0x09)) =
      some (some (resting (some 9#256) [])) := by decide +kernel

/-! ## Witnesses: for every statement with hypotheses, states and operands that meet them together -/

theorem witness_DecodedWordIsItsEncoding :
    (∃ (w : CmdWord) (i : Instr), decodeCmdWord w = .ok i) ∧ ∃ (t : Token) (n : Node), decodeToken t = .layerNode n :=
  ⟨⟨0x2001#64, .write 0x20#56, by decide⟩, ⟨nodeToken 5#256, 5#256, by decide +kernel⟩⟩

/-- The eighth byte arrives (and with `n = 8` none is needed); the word is a BLOCK_SIZE. -/
theorem witness_StepRunsTheDecodedCommand (n : Nat) (h : n = 0 ∨ n = 7 ∨ n = 8) :
    ∃ s s1 : State, nextTurn s = (.seq, s1) ∧ s1.job = [] ∧ s1.rspq.length < s1.params.rspqDepth ∧ s1.parser.phase = .cmd ∧
      s1.parser.cwbuf.length = n ∧ 8 ≤ (s1.parser.cwbuf ++ s1.input).length ∧
      decodeBytes ((s1.parser.cwbuf ++ s1.input).take 8) = .ok .blockSize := by
  let bytes : List Byte := [0x06#8, 0#8, 0#8, 0#8, 0#8, 0#8, 0#8, 0#8]
  let s : State := { offered (bytes.drop n) with parser := { Parser.idle with cwbuf := bytes.take n } }
  refine ⟨s, s, ?_⟩
  rcases h with rfl | rfl | rfl <;> decide

theorem witness_StepRunsTheDecodedCommand_collects :
    ∃ s s1 : State, nextTurn s = (.seq, s1) ∧ s1.job = [] ∧ s1.rspq.length < s1.params.rspqDepth ∧ s1.parser.phase = .cmd ∧
      s1.parser.cwbuf.length ≤ 8 ∧ (s1.parser.cwbuf ++ s1.input).length = 7 :=
  ⟨offered (List.replicate 7 1#8), offered (List.replicate 7 1#8), by decide⟩

theorem witness_StepRunsTheQueuedToken (l : Fin 32) (q : List Token) :
    ∃ (s s1 : State) (r : Layer), nextTurn s = (.layer l, s1) ∧ s1.core.layers[l.val]? = some r ∧ r.q = q := by
  let s1 : State := { State.reset with core := { Core.empty with layers := List.replicate 32 (running none q) } }
  exact ⟨{ s1 with sched := [.layer l] }, s1, running none q, rfl,
    by simp only [s1, List.getElem?_replicate, l.isLt, if_true], rfl⟩

theorem witness_StepAnswersAnIllegalWord :
    ∃ (s s1 : State) (e : DecodeError), nextTurn s = (.seq, s1) ∧ s1.job = [] ∧ s1.rspq.length < s1.params.rspqDepth ∧
      s1.parser.phase = .cmd ∧ s1.parser.cwbuf.length ≤ 8 ∧ (s1.parser.cwbuf ++ s1.input).length = 8 ∧
      decodeBytes ((s1.parser.cwbuf ++ s1.input).take 8) = .error e :=
  ⟨offered (List.replicate 8 0#8), offered (List.replicate 8 0#8), .reservedOpcode 0x00#8, by decide⟩

theorem witness_FullResponseQueueHoldsTheParser :
    ∃ s s1 : State, nextTurn s = (.seq, s1) ∧ s1.job = [] ∧ s1.params.rspqDepth ≤ s1.rspq.length :=
  ⟨{ State.reset with rspq := [[0#8]] }, { State.reset with rspq := [[0#8]] }, by decide⟩

theorem witness_OperandBytesMayComeInPieces :
    ∃ (a b : List Byte) (s t : State), a ≠ [] ∧ b ≠ [] ∧ s.parser.phase = .payload ∧ feed a s = .ok t := by
  have h : (feed [1#8] (startWrite 2#56 State.reset)).toOption.isSome = true := by decide +kernel
  cases hf : feed [1#8] (startWrite 2#56 State.reset) with
  | ok t => exact ⟨[1#8], [2#8], startWrite 2#56 State.reset, t, by decide, by decide, by decide, hf⟩
  | error f => rw [hf] at h; cases h

/-- After any payload with room left, up to one byte below the limit. -/
theorem witness_WriteExtendsTheStream (n : Nat) (h : n + 1 ≤ maxPiecePayload) :
    ∃ (s : State) (p d rest : List Byte) (len : Arg),
      s.fatal = false ∧ s.params.fused = true ∧ s.shaOk = true ∧ s.core = streamCore p ∧ s.input = d ++ rest ∧
        d.length = len.toNat ∧ p.length + d.length ≤ maxPiecePayload ∧ p.length = n ∧ d ≠ [] := by
  have hp : (List.replicate n (0#8 : Byte)).length = n := List.length_replicate
  refine ⟨{ withStream (List.replicate n 0#8) with input := [1#8, 2#8] }, List.replicate n 0#8, [1#8], [2#8], 1#56,
    rfl, rfl, rfl, rfl, rfl, rfl, ?_, hp, by decide⟩
  rw [hp]
  exact h

theorem witness_WriteBuffersTheResidue (fused : Bool) :
    ∃ (s : State) (d rest : List Byte) (len : Arg),
      s.fatal = false ∧ s.pipelineEmpty = true ∧ s.core.CarryOk ∧ s.core.total.toNat + len.toNat ≤ maxPiecePayload ∧
        s.input = d ++ rest ∧ d.length = len.toNat ∧ 0 < d.length ∧ s.core.clen + d.length = 126 ∧ s.params.fused = fused := by
  let s0 : State := if fused then State.reset else piped 1
  refine ⟨withCarry 125 7#8 (withTotal 252 { s0 with input := [1#8, 2#8] }), [1#8], [2#8], 1#56, ?_⟩
  cases fused <;> decide

theorem witness_WriteWaitsForItsPayload :
    ∃ (s : State) (len : Arg),
      s.fatal = false ∧ s.core.total.toNat + len.toNat = maxPiecePayload ∧ s.input.length < len.toNat ∧ s.core.CarryOk ∧
        s.core.clen + s.input.length = 126 :=
  ⟨withCarry 125 7#8 (withTotal (maxPiecePayload - 2) (offered [1#8])), 2#56, by decide⟩

/-- A part that completes two quads and goes on. -/
theorem witness_WriteWaitsForItsPayload_quads :
    ∃ (s : State) (len : Arg) (p : List Byte),
      s.fatal = false ∧ s.core.total.toNat + len.toNat ≤ maxPiecePayload ∧ s.input.length < len.toNat ∧ s.params.fused = true ∧
        s.shaOk = true ∧ p.length ≤ maxPiecePayload ∧ s.core = streamCore p ∧ s.input.length = 300 :=
  ⟨{ withStream [1#8] with input := List.replicate 300 2#8 }, 301#56, [1#8], rfl, by decide,
    by rw [show (_ : State).input.length = 300 from List.length_replicate]; decide, rfl, rfl, by decide, rfl,
    List.length_replicate⟩

theorem witness_OverflowingWriteChangesNothing :
    ∃ (s : State) (d rest : List Byte) (len : Arg),
      s.fatal = false ∧ s.core.total.toNat ≤ maxPiecePayload ∧ s.core.total.toNat + len.toNat = maxPiecePayload + 1 ∧
        s.input = d ++ rest ∧ d.length = len.toNat :=
  ⟨withTotal maxPiecePayload (offered [1#8, 2#8]), [1#8], [2#8], 1#56, by decide⟩

theorem witness_ZeroLengthWriteIsANoOp :
    ∃ s : State, s.fatal = false ∧ s.pipelineEmpty = true ∧ s.params.fused = false ∧ s.core.total.toNat = maxPiecePayload :=
  ⟨withTotal maxPiecePayload (piped 1), by decide⟩

theorem witness_ChunkedWritesEqualOneWrite :
    ∃ (s t : State) (d1 d2 : List Byte) (len1 len2 len : Arg),
      s.fatal = false ∧ s.params.fused = true ∧ s.shaOk = true ∧
        s.core.total.toNat + d1.length + d2.length ≤ maxPiecePayload ∧ s.input = d1 ++ d2 ∧ d1.length = len1.toNat ∧
        d2.length = len2.toNat ∧ d1.length + d2.length = len.toNat ∧ exec (.write len) s = .next t ∧ t.fatal = false :=
  ⟨offered [1#8, 2#8, 3#8], _, [1#8], [2#8, 3#8], 1#56, 2#56, 3#56, rfl, rfl, rfl, by decide, rfl, rfl, rfl, rfl, rfl, rfl⟩

/-- Two quads on an empty queue of exactly eight places, with and without bytes after them in the carry buffer; and a part of a payload
that completes one quad. -/
theorem witness_PipelinedWriteEnqueuesTheLeaves (m len n : Nat) (h : (m, len, n) ∈ [(128, 128, 2), (129, 129, 2), (2, 9, 1)]) :
    ∃ (s : State) (d rest w : List Byte) (a : Arg) (l : Layer) (ls : List Layer),
      s.fatal = false ∧ s.params.fused = false ∧ s.core.CarryOk ∧ s.core.total.toNat + a.toNat ≤ maxPiecePayload ∧
        s.core.layers = l :: ls ∧ s.input = d ++ rest ∧ (d.length = a.toNat ∨ d.length < a.toNat ∧ rest = []) ∧
        w = s.core.carry.map Prod.snd ++ d ∧ n = w.length / 127 ∧ 0 < n ∧ l.q.length + 4 * n = s.params.fifoDepth ∧
        a.toNat = len ∧ d.length = m := by
  let s := withCarry 126 7#8 (withTotal 126 (piped (4 * n)))
  simp only [List.mem_cons, List.not_mem_nil, Prod.mk.injEq, or_false] at h
  refine ⟨{ s with input := List.replicate m 9#8 }, List.replicate m 9#8, [], _, BitVec.ofNat 56 len, Layer.empty,
    List.replicate 31 Layer.empty, rfl, rfl, (by decide : (withCarry 126 7#8 State.reset).core.CarryOk), ?_, rfl,
    (List.append_nil _).symm, ?_, rfl, ?_, ?_, ?_, ?_, List.length_replicate⟩
  all_goals obtain ⟨rfl, rfl, rfl⟩ | ⟨rfl, rfl, rfl⟩ | ⟨rfl, rfl, rfl⟩ := h <;> decide +kernel

/-- Each room from none to three places for the first quad, on an empty queue or, with no room, a full one; and the second quad of a
payload, whose bytes after it stay on offer. -/
theorem witness_PipelinedWriteHoldsAtAFullQueue (m len n room : Nat)
    (h : (m, len, n, room) ∈ [(1, 1, 0, 0), (1, 1, 0, 1), (1, 9, 0, 2), (1, 1, 0, 3), (128, 129, 1, 5)]) :
    ∃ (s : State) (d rest w : List Byte) (a : Arg) (l : Layer) (ls : List Layer),
      s.fatal = false ∧ s.params.fused = false ∧ s.core.CarryOk ∧ s.core.total.toNat + a.toNat ≤ maxPiecePayload ∧
        s.core.layers = l :: ls ∧ s.input = d ++ rest ∧ d.length ≤ a.toNat ∧ w = s.core.carry.map Prod.snd ++ d ∧
        w.length = 127 * (n + 1) ∧ room = s.params.fifoDepth - l.q.length ∧ 4 * n ≤ room ∧ room < 4 * n + 4 ∧
        a.toNat = len ∧ d.length = m ∧ (room = 0 ∨ l.q = []) := by
  simp only [List.mem_cons, List.not_mem_nil, Prod.mk.injEq, or_false] at h
  let q : List Token := if room = 0 then [nodeToken 1#256] else []
  let s := withLayers [running none q] (withCarry 126 7#8 (withTotal 126 (piped (if room = 0 then 1 else room))))
  refine ⟨{ s with input := List.replicate m 9#8 ++ [3#8] }, List.replicate m 9#8, [3#8], _, BitVec.ofNat 56 len, running none q,
    List.replicate 31 Layer.empty, rfl, rfl, (by decide : (withCarry 126 7#8 State.reset).core.CarryOk), ?_, rfl, rfl, ?_, rfl, ?_,
    ?_, ?_, ?_, ?_, List.length_replicate, ?_⟩
  all_goals
    rcases h with ⟨rfl, rfl, rfl, rfl⟩ | ⟨rfl, rfl, rfl, rfl⟩ | ⟨rfl, rfl, rfl, rfl⟩ | ⟨rfl, rfl, rfl, rfl⟩ |
      ⟨rfl, rfl, rfl, rfl⟩ <;> decide +kernel

/-- A pending leaf or CLOSE, the last action or not, with `Q[0]` full or with one place left. -/
theorem witness_HeldCommandGoesOn (op : SeqOp) (ops : List SeqOp) (full : Bool) :
    ∃ (s s1 : State) (l : Layer) (ls : List Layer),
      nextTurn s = (.seq, s1) ∧ s1.params.fused = false ∧ s1.job = op :: ops ∧ s1.core.layers = l :: ls ∧
        l.q.length + (if full then 0 else 1) = s1.params.fifoDepth := by
  let l := running none (if full then [nodeToken 1#256, nodeToken 2#256] else [nodeToken 1#256])
  let s1 : State := { withLayers [l] (piped 2) with job := op :: ops }
  refine ⟨{ s1 with sched := [.seq] }, s1, l, List.replicate 31 Layer.empty, rfl, rfl, rfl, rfl, ?_⟩
  cases full <;> rfl

theorem witness_HeldCommandGoesOn_await (sized : Bool) (root : Option Root) :
    ∃ s s1 : State, nextTurn s = (.seq, s1) ∧ s1.job = [SeqOp.await sized] ∧ s1.core.root = root :=
  ⟨awaiting sized root State.reset, awaiting sized root State.reset, rfl, rfl, rfl⟩

theorem witness_HeldCommandGoesOn_writeDone (queued : Bool) :
    ∃ (s s1 : State) (c : Command), nextTurn s = (.seq, s1) ∧ s1.job = [SeqOp.writeDone] ∧ s1.parser.cmd = some c ∧
      s1.pipelineEmpty = !queued := by
  let c : Command := { opc := 0x01#8, arg := 127#56 }
  let s0 := withLayers [running none (if queued then [nodeToken 1#256] else [])] (piped 2)
  let s1 : State := { s0 with
    parser := { Parser.idle with phase := .payload, cmd := some c, saved := some Core.empty }, job := [.writeDone] }
  refine ⟨{ s1 with sched := [.seq] }, s1, c, rfl, rfl, rfl, ?_⟩
  cases queued <;> rfl

/-- The shortest and the longest payload. -/
theorem witness_DigestAnswersCommP (n : Nat) (h1 : minPiecePayload ≤ n) (h2 : n ≤ maxPiecePayload) :
    ∃ (s : State) (p : List Byte),
      s.fatal = false ∧ s.params.fused = true ∧ s.shaOk = true ∧ s.core = streamCore p ∧ minPiecePayload ≤ p.length ∧
        p.length ≤ maxPiecePayload ∧ p.length = n :=
  ⟨withStream (List.replicate n 0#8), List.replicate n 0#8, rfl, rfl, rfl, rfl, by simp [h1], by simp [h2], by simp⟩

theorem witness_SumAnswersCommP :
    ∃ (s : State) (p : List Byte),
      s.fatal = false ∧ s.params.fused = true ∧ s.shaOk = true ∧ s.core = streamCore p ∧ minPiecePayload ≤ p.length ∧
        p.length ≤ maxPiecePayload :=
  (witness_DigestAnswersCommP 65 (by decide) (by decide)).imp fun _ h => h.imp fun _ h =>
    ⟨h.1, h.2.1, h.2.2.1, h.2.2.2.1, h.2.2.2.2.1, h.2.2.2.2.2.1⟩

theorem witness_DigestOfTooLittleInputKeepsTheState : ∃ s : State, s.fatal = false ∧ s.core.total.toNat = 64 :=
  ⟨withTotal 64 State.reset, by decide⟩

theorem witness_SumOfTooLittleInputIsFatal : ∃ s : State, s.fatal = false ∧ s.core.total.toNat = 64 :=
  ⟨withTotal 64 State.reset, by decide⟩

/-- A residue with each room from one place to more than the five tokens, and no residue. -/
theorem witness_PipelinedFinalizeClosesLayerZero (clen depth : Nat) (h : clen = 0 ∨ clen = 126) :
    ∃ (s : State) (l : Layer) (ls : List Layer) (leaves : List Node) (room : Nat),
      s.fatal = false ∧ s.params.fused = false ∧ s.core.CarryOk ∧ s.core.total.toNat = 254 + clen ∧ s.core.layers = l :: ls ∧
        s.core.root = none ∧ room = s.params.fifoDepth - l.q.length ∧
        leaves = (if s.core.clen = 0 then []
          else expandLeaves (s.core.carry.map Prod.snd ++ List.replicate (127 - s.core.clen) 0#8)) ∧
        s.core.clen = clen ∧ room = depth := by
  refine ⟨withCarry clen 1#8 (withTotal (254 + clen) (piped depth)), Layer.empty, List.replicate 31 Layer.empty, _, _,
    rfl, rfl, ?_, ?_, rfl, rfl, rfl, rfl, rfl, rfl⟩
  · show (withCarry clen 1#8 State.reset).core.CarryOk
    rcases h with rfl | rfl <;> decide
  · show (BitVec.ofNat 64 (254 + clen)).toNat = 254 + clen
    rcases h with rfl | rfl <;> rfl

theorem witness_PaddedSizeIsTheLeastPowerOfTwo :
    (∃ n : Size, n.toNat = minPiecePayload) ∧ ∃ n : Size, n.toNat = maxPiecePayload :=
  ⟨⟨65#64, by decide⟩, ⟨68182605824#64, by decide⟩⟩

theorem witness_ResetEmptiesTheAccumulator : (∃ s : State, s.fatal = false) ∧ ∃ s : State, s.fatal = true :=
  ⟨⟨State.reset, rfl⟩, ⟨{ State.reset with fatal := true }, rfl⟩⟩

theorem witness_SizeQueriesAnswerTheConstants : ∃ s : State, s.fatal = false := ⟨State.reset, rfl⟩

/-- The extreme sizes, 128 and 2^36. -/
theorem witness_ExtendAnswersTheExtension :
    ∃ (s : State) (c rest : List Byte) (a b : Nat),
      s.fatal = false ∧ s.shaOk = true ∧ c.length = 32 ∧ 7 = a ∧ a ≤ b ∧ b = 36 ∧
        s.input = c ++ le64 (BitVec.ofNat 64 (2 ^ a)) ++ le64 (BitVec.ofNat 64 (2 ^ b)) ++ rest :=
  ⟨offered (commCc ++ le64 (BitVec.ofNat 64 (2 ^ 7)) ++ le64 (BitVec.ofNat 64 (2 ^ 36)) ++ [1#8]), commCc, [1#8], 7, 36,
    rfl, rfl, by decide, rfl, by decide, rfl, rfl⟩

theorem witness_ExtendToTheSameSizeReturnsC :
    ∃ (s : State) (c rest : List Byte) (a : Nat),
      s.fatal = false ∧ c.length = 32 ∧ 7 ≤ a ∧ a = 36 ∧
        s.input = c ++ le64 (BitVec.ofNat 64 (2 ^ a)) ++ le64 (BitVec.ofNat 64 (2 ^ a)) ++ rest :=
  ⟨offered (commCc ++ le64 (BitVec.ofNat 64 (2 ^ 36)) ++ le64 (BitVec.ofNat 64 (2 ^ 36)) ++ []), commCc, [], 36,
    rfl, by decide, by decide, rfl, rfl⟩

/-- Any operands can be on offer, so each clause's premises on them alone decide; the next theorem meets each. -/
theorem witness_ExtendRejectsInTheOrderOfTheChecks (c rest : List Byte) (clen : Arg) (src tgt : Size)
    (h : c.length = clen.toNat) :
    ∃ s : State, s.fatal = false ∧ c.length = clen.toNat ∧ s.input = c ++ le64 src ++ le64 tgt ++ rest :=
  ⟨offered (c ++ le64 src ++ le64 tgt ++ rest), rfl, h, rfl⟩

/-- One boundary value for each clause: lengths 31 and 33, size 0, target half the source, source 64, target 2^37. -/
theorem witness_ExtendRejects_clauses :
    ((31#56).toNat ≠ 32 ∧ (33#56).toNat ≠ 32) ∧ ¬(isPow2 0#64 ∧ isPow2 128#64) ∧
      (isPow2 256#64 ∧ isPow2 128#64 ∧ (128#64).toNat < (256#64).toNat) ∧
      (isPow2 64#64 ∧ isPow2 64#64 ∧ (64#64).toNat ≤ (64#64).toNat ∧ (64#64).toNat < 128) ∧
      (isPow2 128#64 ∧ isPow2 0x2000000000#64 ∧ 128 ≤ (128#64).toNat ∧ 2 ^ 36 < (0x2000000000#64).toNat) := by
  refine ⟨by decide, ?_, ⟨⟨8, by decide⟩, ⟨7, by decide⟩, by decide⟩, ⟨⟨6, by decide⟩, ⟨6, by decide⟩, by decide⟩,
    ⟨7, by decide⟩, ⟨37, by decide⟩, by decide⟩
  rintro ⟨⟨k, hk⟩, -⟩
  exact absurd hk.symm (by simp)

theorem witness_ExtendLeavesTheAccumulatorAlone : ∃ (s t : State) (clen : Arg), exec (.extend clen) s = .next t ∧ s.shaOk = true :=
  ⟨offered (le64 128#64 ++ le64 128#64), _, 0#56, rfl, rfl⟩

theorem witness_CommandOnAFailedEngineIsFatal_extend :
    ∃ (s : State) (c rest : List Byte) (a b : Nat),
      s.fatal = false ∧ s.shaOk = false ∧ c.length = 32 ∧ 7 ≤ a ∧ a < b ∧ b ≤ 36 ∧
        s.input = c ++ le64 (BitVec.ofNat 64 (2 ^ a)) ++ le64 (BitVec.ofNat 64 (2 ^ b)) ++ rest :=
  ⟨{ offered (commCc ++ le64 (BitVec.ofNat 64 (2 ^ 7)) ++ le64 (BitVec.ofNat 64 (2 ^ 8)) ++ []) with shaOk := false },
    commCc, [], 7, 8, rfl, rfl, by decide, by decide, by decide, by decide, rfl⟩

/-- The byte that completes the first quad. -/
theorem witness_CommandOnAFailedEngineIsFatal_write :
    ∃ (s : State) (p d rest : List Byte) (len : Arg),
      s.fatal = false ∧ s.shaOk = false ∧ s.params.fused = true ∧ s.core = streamCore p ∧ s.input = d ++ rest ∧
        d.length = len.toNat ∧ p.length + d.length ≤ maxPiecePayload ∧ p.length / 127 < (p.length + d.length) / 127 ∧
        p.length = 126 := by
  have hp : (List.replicate 126 (1#8 : Byte)).length = 126 := List.length_replicate
  refine ⟨{ withStream (List.replicate 126 1#8) with input := [1#8, 2#8], shaOk := false }, List.replicate 126 1#8, [1#8], [2#8],
    1#56, rfl, rfl, rfl, rfl, rfl, rfl, ?_, ?_, hp⟩ <;> rw [hp] <;> decide

/-- A residue of 65 bytes; and three quads, which need a padding parent. -/
theorem witness_CommandOnAFailedEngineIsFatal_digest (n : Nat) (h : n = 65 ∨ n = 381) :
    ∃ (s : State) (p : List Byte),
      s.fatal = false ∧ s.shaOk = false ∧ s.params.fused = true ∧ s.core = streamCore p ∧ minPiecePayload ≤ p.length ∧
        p.length ≤ maxPiecePayload ∧ p.length = n ∧ (p.length % 127 ≠ 0 ∨ ¬∃ k, p.length = 127 * 2 ^ k) := by
  have hp : (List.replicate n (1#8 : Byte)).length = n := List.length_replicate
  refine ⟨{ withStream (List.replicate n 1#8) with shaOk := false }, List.replicate n 1#8, rfl, rfl, rfl, rfl, ?_, ?_, hp, ?_⟩
  · rw [hp]; rcases h with rfl | rfl <;> decide
  · rw [hp]; rcases h with rfl | rfl <;> decide
  · rw [hp]
    rcases h with rfl | rfl
    · exact .inl (by decide)
    · refine .inr ?_
      rintro ⟨k, hk⟩
      have h3 : 2 ^ k = 3 := by omega
      match k with
      | 0 => simp at h3
      | 1 => simp at h3
      | k + 2 => rw [Nat.pow_add] at h3; omega

/-- Any command in progress, or none; layers 30 and 31, in both implementations, with room for two tokens. -/
theorem witness_LayerHashOnAFailedEngineIsFatal (p : Parser) (fused : Bool) :
    ∃ (s : State) (l m : Layer) (x : Node),
      s.fatal = false ∧ s.shaOk = false ∧ s.core.layers.length = 32 ∧ s.core.layers[s.sel.val]? = some l ∧
        s.core.layers[s.sel.val + 1]? = some m ∧ l.slot = some x ∧ m.active = true ∧ s.params.fused = fused ∧
        m.q.length < s.params.fifoDepth ∧ m.q.length + padRoom s.params.fifoDepth ≤ s.params.fifoDepth ∧ s.parser = p := by
  let s0 := withLayers (List.replicate 30 Layer.empty ++ [running (some 1#256) [closeToken], running none []]) (piped 2)
  exact ⟨{ s0 with sel := 30, shaOk := false, parser := p, params := { s0.params with fused := fused } },
    running (some 1#256) [closeToken], running none [], 1#256, rfl, rfl, rfl, rfl, rfl, rfl, rfl, rfl,
    by show 0 < 2; decide, by show 0 + padRoom 2 ≤ 2; decide, rfl⟩

theorem witness_ExtensionAgreesWithThePaddedPayload :
    ∃ (p : List Byte) (a b : Nat),
      minPiecePayload ≤ p.length ∧ (paddedSize (BitVec.ofNat 64 p.length)).toNat = 2 ^ a ∧ p.length ≤ maxPiecePayload ∧
        a ≤ b ∧ b = 36 :=
  ⟨List.replicate 65 1#8, 7, 36, by decide⟩

theorem witness_ExpandInsertsTwoZeroBits : ∃ win : List Byte, win.length = 127 := ⟨List.replicate 127 0xcc#8, List.length_replicate⟩

theorem witness_LeavesHoldTheInputBits :
    ∃ (win : List Byte) (n : Node), win.length = 127 ∧ (expandLeaves win)[3]? = some n :=
  ⟨List.replicate 127 0xcc#8, _, List.length_replicate, rfl⟩

theorem witness_ZeroPayloadCommitsToATowerEntry :
    ∃ n : Nat, minPiecePayload ≤ n ∧ n ≤ maxPiecePayload ∧ n = maxPiecePayload := ⟨maxPiecePayload, by decide⟩

theorem witness_NodeIsStoredInAnEmptySlot :
    ∃ (s : State) (l : Layer), s.fatal = false ∧ s.core.layers[s.sel.val]? = some l ∧ l.slot = none :=
  ⟨{ State.reset with sel := 31 }, Layer.empty, by decide⟩

/-- The longest run of full slots there can be: layers 0 to 30. -/
theorem witness_NodePairsUpTheFullSlots :
    ∃ (s : State) (j : Nat) (x : Nat → Node),
      s.fatal = false ∧ s.params.fused = true ∧ s.shaOk = true ∧ s.core.layers.length = 32 ∧ 0 < j ∧ s.sel.val + j = 31 ∧
        (∀ i < j, (s.core.layers[s.sel.val + i]?).map Layer.slot = some (some (x i))) ∧
        (s.core.layers[s.sel.val + j]?).map Layer.slot = some none :=
  ⟨withLayers (List.replicate 31 (running (some 1#256) [])) State.reset, 31, fun _ => 1#256, by decide⟩

/-- Any command in progress, or none. -/
theorem witness_PairAtLayerThirtyOneIsFatal (p : Parser) (fused : Bool) :
    ∃ (s : State) (l : Layer) (x : Node),
      s.fatal = false ∧ s.core.layers.length = 32 ∧ s.sel.val = 31 ∧ s.core.layers[31]? = some l ∧ l.slot = some x ∧
        s.parser = p ∧ s.params.fused = fused := by
  let s0 := withLayers (List.replicate 32 (running (some 1#256) [])) (piped 1)
  exact ⟨{ s0 with sel := 31, parser := p, params := { s0.params with fused := fused } }, running (some 1#256) [], 1#256,
    rfl, rfl, rfl, rfl, rfl, rfl, rfl⟩

/-- The three cases of the internal fault: no command, one without operand bytes due, one with. -/
theorem witness_RaisesInternalFault :
    (∃ p : Parser, p.saved = none) ∧ (∃ (p : Parser) (c : Core), p.saved = some c ∧ (p.phase = .cmd ∨ p.rem = 0#56)) ∧
      ∃ (p : Parser) (c : Core), p.saved = some c ∧ p.phase ≠ .cmd ∧ p.rem ≠ 0#56 :=
  ⟨⟨Parser.idle, rfl⟩, ⟨{ Parser.idle with saved := some Core.empty }, Core.empty, rfl, .inl rfl⟩,
    ⟨{ Parser.idle with saved := some Core.empty, phase := .payload, rem := 1#56 }, Core.empty, rfl, by decide, by decide⟩⟩

/-- Layer 30, the last that has a next layer, with room for exactly one token there, and with none. -/
theorem witness_AgentPairsWhenTheNextQueueHasRoom (room : Bool) :
    ∃ (s : State) (l m : Layer) (x : Node),
      s.fatal = false ∧ s.params.fused = false ∧ s.shaOk = true ∧ s.core.layers[s.sel.val]? = some l ∧
        s.core.layers[s.sel.val + 1]? = some m ∧ l.slot = some x ∧
        (if room then m.q.length + 1 = s.params.fifoDepth else s.params.fifoDepth ≤ m.q.length) := by
  let m := running none (if room then [] else [nodeToken 2#256])
  let s := { withLayers (List.replicate 30 Layer.empty ++ [running (some 1#256) [nodeToken 3#256], m]) (piped 1) with sel := 30 }
  refine ⟨s, running (some 1#256) [nodeToken 3#256], m, 1#256, ?_⟩
  cases room <;> decide +kernel

theorem witness_CloseOfTheHighestLayerPublishes (k : Fin 32) :
    ∃ (s : State) (l : Layer) (n : Node),
      s.fatal = false ∧ s.core.layers[s.sel.val]? = some l ∧ l.slot = some n ∧
        (∀ m, s.core.layers[s.sel.val + 1]? = some m → m.active = false) ∧ s.sel = k := by
  refine ⟨{ State.reset with sel := k, core := { Core.empty with layers := List.replicate 32 (resting (some 1#256) []) } },
    resting (some 1#256) [], 1#256, rfl, by simp only [List.getElem?_replicate, k.isLt, if_true], rfl, ?_, rfl⟩
  intro m hm
  simp only [List.getElem?_replicate] at hm
  split at hm
  · cases hm; rfl
  · cases hm

/-- Any command in progress, or none. -/
theorem witness_CloseOfAnEmptyHighestLayerIsFatal (p : Parser) :
    ∃ (s : State) (l : Layer),
      s.fatal = false ∧ s.core.layers[s.sel.val]? = some l ∧ l.slot = none ∧
        (∀ m, s.core.layers[s.sel.val + 1]? = some m → m.active = false) ∧ s.parser = p :=
  ⟨{ State.reset with sel := 31, parser := p }, Layer.empty, rfl, rfl, rfl, fun _ h => (nomatch h), rfl⟩

/-- One quad, and the most there can be. -/
theorem witness_CloseOfAStreamPublishesItsRoot (n : Nat) (h : n = 1 ∨ n = 536870912) :
    ∃ (s : State) (p : List Byte),
      s.fatal = false ∧ s.params.fused = true ∧ s.shaOk = true ∧ s.sel = 0 ∧ s.core = streamCore p ∧ p ≠ [] ∧
        p.length % 127 = 0 ∧ p.length ≤ maxPiecePayload ∧ p.length = 127 * n := by
  have hp : (List.replicate (127 * n) (0#8 : Byte)).length = 127 * n := List.length_replicate
  have hn : 0 < n ∧ n ≤ 536870912 := by omega
  refine ⟨withStream (List.replicate (127 * n) 0#8), List.replicate (127 * n) 0#8, rfl, rfl, rfl, rfl, rfl, ?_, ?_, ?_, hp⟩
  · intro h0
    rw [h0] at hp
    simp only [List.length_nil] at hp
    omega
  · rw [hp]
    omega
  · rw [hp]
    unfold maxPiecePayload
    omega

/-- Layers 0 and 1, the latter the highest: with `slot` empty the CLOSE goes up, and with it full the padding parent first. -/
theorem witness_CloseBelowTheHighestLayerPadsAndGoesOn :
    ∃ (s : State) (l m : Layer) (k : Fin 32) (t : State),
      s.fatal = false ∧ s.params.fused = true ∧ s.shaOk = true ∧ s.core.layers.length = 32 ∧ k.val = s.sel.val + 1 ∧
        s.core.layers[s.sel.val]? = some l ∧ s.core.layers[k.val]? = some m ∧ m.active = true ∧ l.q = [] ∧ m.q = [] ∧
        l.slot = none ∧ exec .layerClose { s with sel := k } = .next t ∧ t.fatal = false :=
  ⟨withLayers [running none [], running (some 5#256) []] State.reset, running none [], running (some 5#256) [], 1, _,
    rfl, rfl, rfl, rfl, rfl, rfl, rfl, rfl, rfl, rfl, rfl, rfl, rfl⟩

theorem witness_CloseBelowTheHighestLayer_pads :
    ∃ (s : State) (l m : Layer) (k : Fin 32) (x : Node) (t1 t : State),
      s.fatal = false ∧ s.params.fused = true ∧ s.shaOk = true ∧ s.core.layers.length = 32 ∧ k.val = s.sel.val + 1 ∧
        s.core.layers[s.sel.val]? = some l ∧ s.core.layers[k.val]? = some m ∧ m.active = true ∧ l.q = [] ∧ m.q = [] ∧
        l.slot = some x ∧
        exec (.layerNode (nodeHash x (tower s.sel.val))) { s with
          sel := k, core := { s.core with layers := s.core.layers.set s.sel.val { l with slot := none } } } = .next t1 ∧
        t1.fatal = false ∧ exec .layerClose t1 = .next t ∧ t.fatal = false := by
  let p := nodeHash 5#256 (tower 0)
  let ls (slot : Option Node) (up : Option Node) := running slot [] :: running up [] :: List.replicate 30 Layer.empty
  let s : State := withLayers [running (some 5#256) [], running none []] State.reset
  let t1 : State := { s with sel := 1, core := { s.core with layers := ls none (some p) } }
  let t : State := { t1 with core := { s.core with layers := ls none none, root := some { node := p, layer := 1#5 } } }
  exact ⟨s, running (some 5#256) [], running none [], 1, 5#256, t1, t,
    rfl, rfl, rfl, rfl, rfl, rfl, rfl, rfl, rfl, rfl, rfl, rfl, rfl, rfl, rfl⟩

/-- Layer 30, with any slot, depth and queue above: each clause's premises on them are met by its own values. -/
theorem witness_AgentPassesTheCloseOn (slot : Option Node) (depth : Nat) (q : List Token) :
    ∃ (s : State) (l m : Layer),
      s.fatal = false ∧ s.params.fused = false ∧ s.shaOk = true ∧ s.core.layers.length = 32 ∧
        s.core.layers[s.sel.val]? = some l ∧ s.core.layers[s.sel.val + 1]? = some m ∧ m.active = true ∧ l.slot = slot ∧
        s.params.fifoDepth = depth ∧ m.q = q :=
  ⟨{ withLayers (List.replicate 30 Layer.empty ++ [running slot [closeToken], running none q]) (piped depth) with sel := 30 },
    running slot [closeToken], running none q, rfl, rfl, rfl, rfl, rfl, rfl, rfl, rfl, rfl, rfl⟩

theorem witness_FatalAnswersEveryCommand :
    ∃ (s : State) (i : Instr) (w : CmdWord) (ops rest : List Byte),
      s.fatal = true ∧ s.job = [] ∧ encode i = .cmd w ∧ s.input = ops ++ rest ∧ ops.length = operandBytes i ∧ ops ≠ [] :=
  ⟨{ offered [1#8, 2#8] with fatal := true, fatalCause := 0x02#8 }, .write 1#56, cmdWord 0x01#8 1#56, [1#8], [2#8],
    rfl, rfl, rfl, rfl, rfl, by decide⟩

theorem witness_reset_inv (p : Params) (h : p.wf = true) : (State.resetWith p).Inv where
  params := h
  core := by show Core.empty.Ok; decide
  parser := ⟨rfl, rfl, rfl⟩
  queues := .inl (by show Core.empty.drained = true; decide)
  cwcnt := by show 0 < 8; decide
  job := rfl
  rspq := Nat.zero_le _
  fatalJob := fun _ => rfl
  fatalDrop := fun h => nomatch h

theorem witness_fatal_inv : { State.reset with fatal := true, fatalCause := 0x02#8 : State }.Inv :=
  let h := witness_reset_inv defaultParams (by decide)
  { params := h.params, core := h.core, parser := h.parser, queues := h.queues, cwcnt := h.cwcnt, job := h.job, rspq := h.rspq,
    fatalJob := fun _ => rfl, fatalDrop := fun _ h => absurd rfl h }

theorem witness_FatalStaysUntilAHardwareReset :
    ∃ s t : State, s.Inv ∧ s.fatal = true ∧ (nextTurn s).1 ≠ .rst ∧ step s = .next t :=
  ⟨{ State.reset with fatal := true, fatalCause := 0x02#8 }, _, witness_fatal_inv, rfl, by decide, rfl⟩

theorem witness_HardwareResetRestoresTheResetState : ∃ s s1 : State, nextTurn s = (.rst, s1) :=
  ⟨{ State.reset with sched := [.rst] }, State.reset, rfl⟩

theorem witness_ResponsesKeepTheirOrder :
    (∃ s t : State, (nextTurn s).1 ≠ .rst ∧ step s = .next t) ∧
      ∃ (s s1 : State) (b : Byte) (bs : List Byte) (rs : List (List Byte)),
        nextTurn s = (.take, s1) ∧ s1.rspq = (b :: bs) :: rs ∧ bs = [] :=
  ⟨⟨State.reset, _, by decide, rfl⟩,
    ⟨{ State.reset with rspq := [[8#8], [0#8]], sched := [.take] }, { State.reset with rspq := [[8#8], [0#8]] },
      8#8, [], [[0#8]], rfl, rfl, rfl⟩⟩

theorem witness_InvariantHoldsAtReset : ∃ p : Params, p.wf = true := ⟨defaultParams, by decide⟩

theorem witness_StepKeepsTheInvariant : ∃ s t : State, s.Inv ∧ step s = .next t :=
  ⟨State.reset, _, witness_reset_inv defaultParams (by decide), rfl⟩

theorem witness_InvariantStepsNeverStop : ∃ s : State, s.Inv :=
  ⟨State.reset, witness_reset_inv defaultParams (by decide)⟩

theorem witness_StepKeepsTheStream : ∃ s t : State, s.Streaming ∧ step s = .next t :=
  ⟨State.reset, _, ⟨rfl, rfl, [], by decide, rfl, by decide +kernel⟩, rfl⟩

theorem witness_AgentStepKeepsTheSettledResult :
    ∃ (s s1 t : State) (l : Fin 32),
      nextTurn s = (.layer l, s1) ∧ s1.params.fused = false ∧ s1.shaOk = true ∧ s1.core.layers.length = 32 ∧
        s1.core.StartedInOrder ∧ step s = .next t ∧ t.fatal = false := by
  let s := withLayers [running none [nodeToken 1#256]] (piped 2)
  exact ⟨s, s, _, 0, rfl, rfl, rfl, rfl, rfl, rfl, rfl⟩

theorem witness_AgentStepKeepsTheSettledResult_queued :
    ∃ (c : Core) (l : Layer) (ls xs : List Layer) (r : Option Root), c.layers = l :: ls ∧ c.settled = .ok (xs, r) ∧ l.q ≠ [] :=
  ⟨(withLayers [running none [nodeToken 1#256]] (piped 2)).core, _, _, _, _, rfl, rfl, by decide⟩

theorem witness_PipelinedStepKeepsTheStream : ∃ s t : State, s.Inv ∧ s.PipelineStreaming ∧ step s = .next t :=
  ⟨piped 1, _, witness_reset_inv _ rfl, ⟨rfl, rfl, ⟨rfl, fun h => absurd rfl h⟩, [], by decide,
    by show (piped 1).core = streamCore []; decide +kernel⟩, rfl⟩

/-- A DIGEST of 65 bytes that waits, with the root published. -/
theorem witness_PipelinedStepKeepsTheStream_root :
    ∃ (s : State) (c : Core) (r : Root), s.PipelineStreaming ∧ s.parser.saved = some c ∧ s.parser.phase = .cmd ∧
      s.core.root = some r := by
  let p : List Byte := List.replicate 65 1#8
  have hp : p.length = 65 := List.length_replicate
  let r : Root := { node := commP p, layer := BitVec.ofNat 5 (treeHeight (4 * ceilDiv p.length 127)) }
  let s0 := withTotal 65 (piped 1)
  let s : State := { s0 with
    core := { s0.core with root := some r }, parser := { Parser.idle with saved := some (streamCore p) }, job := [.await true] }
  exact ⟨s, streamCore p, r,
    ⟨rfl, rfl, ⟨rfl, fun _ => rfl⟩, p, by rw [hp]; decide, rfl, by rw [hp]; decide, by rw [hp]; rfl, _, rfl⟩, rfl, rfl, rfl⟩

/-- The first token of a WRITE whose other payload bytes are still to come. -/
theorem witness_QueuedTokensMakeProgress :
    ∃ s : State, s.Inv ∧ s.params.fused = false ∧ s.fatal = false ∧ s.sched = [] ∧ ∃ l ∈ s.core.layers, l.q ≠ [] := by
  let s0 := withLayers [running none [nodeToken 1#256]] (piped 1)
  let s : State := { s0 with
    parser := { Parser.idle with
      phase := .payload, cmd := some { opc := 0x01#8, arg := 128#56 }, saved := some Core.empty, rem := 1#56 } }
  refine ⟨s, ⟨rfl, ?_, ?_, .inr ⟨rfl, by decide, rfl, .inr rfl⟩, by decide, rfl, by decide, fun _ => rfl, fun h => nomatch h⟩,
    rfl, rfl, rfl, running none [nodeToken 1#256], by simp [s, s0, withLayers], by decide⟩
  · show s.core.Ok
    decide +kernel
  · show Core.empty.Ok ∧ _
    exact ⟨by decide, by decide, by decide, rfl, by decide, by decide, fun _ => by decide⟩

end Sys2Proof.Tests
end

section
/-! PROOFS. Rules for the family of 10_state.md: what an outcome has to meet, turn by turn and action by action. -/

namespace Sys2Proof.StateProofs

open Sys2Proof Sys2Proof.Machine Sys2Proof.Config

/-! ## What an outcome has to meet

`F` says whether a fault of the model is allowed: `False` for a claim that none happens, `True` for a claim about the next
states only. -/

/-- An operation's answer meets `P`, and it ends in the internal fault only if `I`. -/
def Meets {α : Type} (P : α → Prop) (I F : Prop) : Res α → Prop
  | .ok a => P a
  | .error .internal => I
  | .error (.fault _) => F

/-- The state an operation ends in meets `P`. -/
def Ends (P : State → Prop) (F : Prop) : Except Fault State → Prop
  | .ok t => P t
  | .error _ => F

/-- The next state of a step meets `P`. -/
def Moves (P : State → Prop) (F : Prop) : Result → Prop
  | .next t => P t
  | .fault _ => F
  | .refused _ => F

variable {P : State → Prop} {F : Prop}

/-- With every fault allowed a claim is about the answers, and about the internal fault if one can happen. -/
theorem meets_true {α : Type} {Q : α → Prop} {I : Prop} {r : Res α} (hok : ∀ a, r = .ok a → Q a)
    (hint : r = .error .internal → I) : Meets Q I True r := by
  match r with
  | .ok a => exact hok a rfl
  | .error .internal => exact hint rfl
  | .error (.fault _) => trivial

theorem Meets.imp {α : Type} {Q Q' : α → Prop} {I I' : Prop} {r : Res α} (h : Meets Q I F r) (hQ : ∀ a, Q a → Q' a)
    (hI : I → I') : Meets Q' I' F r := by
  match r, h with
  | .ok a, h => exact hQ a h
  | .error .internal, h => exact hI h
  | .error (.fault _), h => exact h

theorem Ends.imp {P' : State → Prop} {r : Except Fault State} (h : Ends P F r) (hP : ∀ t, P t → P' t) : Ends P' F r := by
  cases r with
  | ok t => exact hP t h
  | error f => exact h

theorem Moves.of_next {r : Result} {t : State} (h : Moves P F r) (hr : r = .next t) : P t := by
  subst hr
  exact h

/-- With no fault allowed a step answers a next state. -/
theorem Moves.exists_next {r : Result} (h : Moves P False r) : ∃ t, r = .next t ∧ P t := by
  cases r with
  | next t => exact ⟨t, rfl, h⟩
  | fault _ => exact h.elim
  | refused _ => exact h.elim

@[simp] theorem moves_conclude {r : Except Fault State} : Moves P F (conclude r) ↔ Ends P F r := by
  cases r <;> rfl

/-- An operation that the sequencer or an agent runs in `s`: its answer, or the internal fault of `s` (rule R214). -/
theorem ends_trap {s : State} {r : Res State} (h : Meets P (P (internalFault s)) F r) : Ends P F (trap s r) := by
  match r, h with
  | .ok t, h => exact h
  | .error .internal, h => exact h
  | .error (.fault _), h => exact h

/-! ## Turns -/

/-- A turn is taken in the state with a shorter schedule, or the same one. -/
theorem nextTurn_snd (s : State) : ∃ ts, (nextTurn s).2 = { s with sched := ts } := by
  unfold nextTurn
  split
  · exact ⟨s.sched, rfl⟩
  · exact ⟨_, rfl⟩

/-- A step is the turn it takes, in terms of the pair `nextTurn` answers. -/
theorem step_of_nextTurn {s s1 : State} {t : Turn} (h : nextTurn s = (t, s1)) : step s = runTurn t s1 := by
  rw [step_eq, h]

@[simp] theorem busy_eq_true (s : State) : s.busy = true ↔ s.job ≠ [] := by simp [State.busy]
@[simp] theorem busy_eq_false (s : State) : s.busy = false ↔ s.job = [] := by simp [State.busy]
@[simp] theorem hasRoom_eq_true (s : State) : s.hasRoom = true ↔ s.rspq.length < s.params.rspqDepth := by simp [State.hasRoom]
@[simp] theorem hasRoom_eq_false (s : State) : s.hasRoom = false ↔ s.params.rspqDepth ≤ s.rspq.length := by simp [State.hasRoom]

/-- The sequencer's turn with nothing pending and `RSPQ` full is no step (rule R251). -/
theorem seqStep_full {s : State} (hj : s.job = []) (hr : s.params.rspqDepth ≤ s.rspq.length) : seqStep s = .next s := by
  unfold seqStep
  rw [if_neg (by simp [hj]), if_pos (by simpa using hr)]

/-- `s` ready for the decoder: its command word assembled and taken off the stream (rule R72). -/
def taken (rest : List Byte) (s : State) : State := { s with parser := { s.parser with cwbuf := [] }, input := rest }

/-- What the sequencer's turn can be (rules R72 to R77, R250): it goes on with a command that holds, is no step, collects
bytes of a command word, runs or rejects one, or takes operand bytes. -/
theorem seqStep_moves {s : State}
    (resumes : s.job ≠ [] → Ends P F (resume s))
    (holds : s.job = [] → P s)
    (collects : s.job = [] → s.rspq.length < s.params.rspqDepth → s.parser.phase = .cmd → ∀ bs : List Byte, bs.length < 8 →
      P { s with parser := { s.parser with cwbuf := bs }, input := [] })
    (runs : s.job = [] → s.rspq.length < s.params.rspqDepth → s.parser.phase = .cmd → ∀ bs rest i, decodeBytes bs = .ok i →
      Moves P F (exec i (taken rest s)))
    (rejects : s.job = [] → s.rspq.length < s.params.rspqDepth → s.parser.phase = .cmd → ∀ rest, P (illegal (taken rest s)))
    (feeds : s.job = [] → s.rspq.length < s.params.rspqDepth → s.parser.phase ≠ .cmd → Ends P F (feed s.input s)) :
    Moves P F (seqStep s) := by
  unfold seqStep
  split
  · next hb => exact moves_conclude.2 (resumes (by simpa using hb))
  · next hb =>
    have hj : s.job = [] := by simpa using hb
    split
    · exact holds hj
    · next hr =>
      have hroom : s.rspq.length < s.params.rspqDepth := by simpa using hr
      split
      · next hp =>
        unfold fetch
        simp only
        by_cases hlen : s.input.length < 8 - s.parser.cwbuf.length
        · rw [if_pos hlen]
          exact collects hj hroom hp _ (by rw [List.length_append]; omega)
        · rw [if_neg hlen]
          simp only
          split
          · next i hi => exact runs hj hroom hp _ _ i hi
          · exact rejects hj hroom hp _
      · next hp => exact moves_conclude.2 (feeds hj hroom hp)

/-- A command word decodes to an instruction of the command stream, never to a layer token (rules R73, R78). -/
theorem decodeBytes_encode {bs : List Byte} {i : Instr} (h : decodeBytes bs = .ok i) : ∃ w, encode i = .cmd w := by
  unfold decodeBytes at h
  split at h
  · simp only [decodeCmdWord, noOperand] at h
    split_ifs at h <;> (cases h; exact ⟨_, rfl⟩)
  · cases h

/-- The command words decode to the host commands only: `exec` of one is one of the seven (rules R73, R78). -/
theorem exec_decoded_moves {bs : List Byte} {i : Instr} {s : State} (h : decodeBytes bs = .ok i)
    (write : ∀ len, Moves P F (execWrite len s)) (digest : Moves P F (execDigest s)) (sum : Moves P F (execSum s))
    (reset : Moves P F (execReset s)) (extend : ∀ clen, Moves P F (execExtend clen s))
    (blockSize : Moves P F (execBlockSize s)) (digestSize : Moves P F (execDigestSize s)) : Moves P F (exec i s) := by
  cases i with
  | write len => exact write len
  | digest => exact digest
  | sum => exact sum
  | reset => exact reset
  | extend clen => exact extend clen
  | blockSize => exact blockSize
  | digestSize => exact digestSize
  | layerNode n => obtain ⟨w, hw⟩ := decodeBytes_encode h; cases hw
  | layerClose => obtain ⟨w, hw⟩ := decodeBytes_encode h; cases hw

/-- A layer agent's turn: no step on an empty queue, else the operation of the head token (rules R85, R140). -/
theorem layerStep_moves {s : State} {l : Fin 32} (idle : headToken l s = none → P s)
    (node : ∀ tok, headToken l s = some tok → tokenTag tok = false →
      Moves P F (execLayerNode (tokenNode tok) { s with sel := l }))
    (close : ∀ tok, headToken l s = some tok → tokenTag tok = true → Moves P F (execLayerClose { s with sel := l })) :
    Moves P F (layerStep l s) := by
  unfold layerStep
  cases hh : headToken l s with
  | none => exact idle hh
  | some tok =>
    cases ht : tokenTag tok with
    | false => simpa [decodeToken, ht, exec] using node tok hh ht
    | true => simpa [decodeToken, ht, exec] using close tok hh ht

/-! ## Responses -/

/-- The end of a command whose bytes were discarded is one of two responses (rules R77, R151, R215). -/
theorem endDropped_of_reply {s : State} (h : ∀ st r, P (reply st r s)) : P (endDropped s) := by
  unfold endDropped
  split
  · exact h _ _
  · exact h _ _

/-- The answer to an illegal command word is one of two responses (rules R172, R216). -/
theorem illegal_of_reply {s : State} (h : ∀ st r, P (reply st r s)) : P (illegal s) := by
  unfold illegal
  split
  · exact h _ _
  · exact h _ _

/-- A command without operand bytes: `09` under FATAL, else what it does (rule R215). -/
theorem answered_moves {s : State} {r : Result} (fatal : s.fatal = true → P (fatalReply s))
    (other : s.fatal = false → Moves P F r) : Moves P F (if s.fatal then .next (fatalReply s) else r) := by
  split
  · next hf => exact fatal hf
  · next hf => exact other (by simpa using hf)

/-! ## Actions and operand bytes -/

/-- What an action of the sequencer has to meet: `hold` if it holds, `next` if it goes on. -/
def Acts (hold : Prop) (next : State → Prop) : Option State → Prop
  | none => hold
  | some t => next t

theorem runOp_push (leaf : Node) (s : State) :
    runOp (.push leaf) s = if s.params.fused then stepped s (s.core.pushAt s.shaOk 0 leaf)
      else steppedOrHeld s (s.core.enqueue s.params.fifoDepth 0 (nodeToken leaf)) := rfl

theorem runOp_close (s : State) :
    runOp .close s = if s.params.fused then stepped s (s.core.closeAt s.shaOk 0)
      else steppedOrHeld s (s.core.enqueue s.params.fifoDepth 0 closeToken) := rfl

/-- Running the first of some actions (rule R250): the rest follow unless it holds. -/
theorem runOps_cons_meets {op : SeqOp} {ops : List SeqOp} {s : State} {I : Prop}
    (h : Meets (Acts (P { s with job := op :: ops }) fun t => Meets P I F (runOps ops t)) I F (runOp op s)) :
    Meets P I F (runOps (op :: ops) s) := by
  unfold runOps
  match runOp op s, h with
  | .ok none, h => exact h
  | .ok (some t), h => exact h
  | .error .internal, h => exact h
  | .error (.fault _), h => exact h

/-- Running actions (rule R250): each meets `R` for the actions left when it goes on, and `P` when it holds. -/
theorem runOps_meets {R : List SeqOp → State → Prop} {I : Prop} {ops : List SeqOp} {s : State}
    (done : ∀ t, R [] t → P { t with job := [] })
    (action : ∀ op ops t, R (op :: ops) t → Meets (Acts (P { t with job := op :: ops }) (R ops)) I F (runOp op t))
    (h : R ops s) : Meets P I F (runOps ops s) := by
  induction ops generalizing s with
  | nil => exact done s h
  | cons op ops ih =>
    refine runOps_cons_meets ((action op ops s h).imp (fun x hx => ?_) id)
    cases x with
    | none => exact hx
    | some t => exact ih hx

/-- Taking operand bytes keeps what does not depend on the bytes on offer and what each byte keeps (rules R74, R75). -/
theorem feed_ends {bs : List Byte} {s : State} (input : ∀ t rest, P t → P { t with input := rest })
    (byte : ∀ b t, P t → t.wantsOperand = true → Ends P F (operandByte b t)) (h : P s) : Ends P F (feed bs s) := by
  induction bs generalizing s with
  | nil => exact input s [] h
  | cons b bs ih =>
    unfold feed
    split
    · next hw =>
      have hb := byte b s h hw
      match operandByte b s, hb with
      | .ok t, hb => exact ih hb
      | .error _, hb => exact hb
    · exact input s _ h

/-- `s` after a byte of `XC`: counted, and stored below 32 unless it is discarded (rules R75, R77). -/
def stageC (b : Byte) (s : State) : State :=
  { s with parser := { s.parser with
      rem := s.parser.rem - 1#56
      xc := if s.parser.drop || !decide (s.parser.xc.length < digestSize) then s.parser.xc else s.parser.xc ++ [b] } }

/-- `s` after a byte of `XS` (rules R75, R77). -/
def stageS (b : Byte) (s : State) : State :=
  { s with parser := { s.parser with
      rem := s.parser.rem - 1#56, xs := if s.parser.drop then s.parser.xs else s.parser.xs ++ [b] } }

/-- `s` after a byte of `XT` (rules R75, R77). -/
def stageT (b : Byte) (s : State) : State :=
  { s with parser := { s.parser with
      rem := s.parser.rem - 1#56, xt := if s.parser.drop then s.parser.xt else s.parser.xt ++ [b] } }

/-- A byte of EXTEND's commitment (rule R75): after the last comes `XS`. -/
theorem extCByte_eq (b : Byte) (s : State) :
    extCByte b s = if s.parser.rem - 1#56 = 0#56 then enterPhase .extS 8#56 (stageC b s) else stageC b s := by
  unfold extCByte stageC
  by_cases h : (s.parser.drop || !decide (s.parser.xc.length < digestSize)) = true
  · simp only [if_pos h]; rfl
  · simp only [if_neg h]; rfl

/-- A byte of `XS` (rule R75): after the last comes `XT`. -/
theorem extSByte_eq (b : Byte) (s : State) :
    extSByte b s = if s.parser.rem - 1#56 = 0#56 then enterPhase .extT 8#56 (stageS b s) else stageS b s := by
  unfold extSByte stageS
  by_cases h : s.parser.drop = true
  · simp only [if_pos h]; rfl
  · simp only [if_neg h]; rfl

/-- A byte of `XT` (rule R75): after the last EXTEND executes, or ends if its bytes were discarded. -/
theorem extTByte_eq (b : Byte) (s : State) :
    extTByte b s =
      if s.parser.rem - 1#56 = 0#56 then
        if s.parser.drop then .ok (endDropped (stageT b s)) else trap (stageT b s) (extendRun (stageT b s))
      else .ok (stageT b s) := by
  unfold extTByte stageT
  by_cases h : s.parser.drop = true
  · simp only [if_pos h]; rfl
  · simp only [if_neg h]; rfl

/-- A discarded payload byte of WRITE (rule R77). -/
theorem payloadByte_dropped (b : Byte) {s : State} (h : s.parser.drop = true) :
    payloadByte b s = .ok (if s.parser.rem - 1#56 = 0#56 then endDropped (countDown s) else countDown s) := by
  simp [payloadByte, h]

/-- A payload byte of WRITE that is absorbed (rules R74, R152). -/
theorem payloadByte_absorbed (b : Byte) {s : State} (h : s.parser.drop = false) :
    payloadByte b s = trap (countDown s) (match s.core.absorb b with
      | .error e => .error e
      | .ok (c, leaves) => runOps (payloadJob leaves (s.parser.rem - 1#56 == 0#56)) { countDown s with core := c }) := by
  simp only [payloadByte, h]
  rfl

/-- What an operand byte does, by the phase and by `DROP` (rules R74, R75, R77). -/
theorem operandByte_ends {b : Byte} {s : State} (hphase : s.parser.phase ≠ .cmd)
    (discards : s.parser.phase = .payload → s.parser.drop = true →
      P (if s.parser.rem - 1#56 = 0#56 then endDropped (countDown s) else countDown s))
    (absorbs : s.parser.phase = .payload → s.parser.drop = false → Ends P F (payloadByte b s))
    (extC : s.parser.phase = .extC → P (extCByte b s))
    (extS : s.parser.phase = .extS → P (extSByte b s))
    (extT : s.parser.phase = .extT → Ends P F (extTByte b s)) : Ends P F (operandByte b s) := by
  unfold operandByte
  split
  · next h => exact absurd h hphase
  · next h =>
    cases hd : s.parser.drop with
    | false => exact absorbs h hd
    | true =>
      rw [payloadByte_dropped b hd]
      exact discards h hd
  · next h => exact extC h
  · next h => exact extS h
  · next h => exact extT h

theorem wantsOperand_iff (s : State) : s.wantsOperand = true ↔ s.parser.phase ≠ .cmd ∧ s.job = [] := by
  simp [State.wantsOperand]

/-- The state after an operation on the layers alone; a hold changes nothing (rule R145). -/
theorem withCore_meets {s : State} {r : Res (Option Core)} {I : Prop} (hold : P s)
    (h : Meets (fun x => ∀ c, x = some c → P { s with core := c }) I F r) : Meets P I F (withCore s r) := by
  match r, h with
  | .ok none, _ => exact hold
  | .ok (some c), h => exact h c rfl
  | .error .internal, h => exact h
  | .error (.fault _), h => exact h

/-- The end of a WRITE holds while a token is queued. -/
theorem runOp_writeDone_holds {s : State} (h : s.pipelineEmpty = false) : runOp .writeDone s = .ok none := by
  simp [runOp, h]

/-- The end of a WRITE answers it once the pipeline is empty. -/
theorem runOp_writeDone_meets {s : State} {Q : Option State → Prop} {I : Prop} (h : s.pipelineEmpty = true)
    (hanswer : Meets (fun t => Q (some t)) I F (answerWrite s)) : Meets Q I F (runOp .writeDone s) := by
  simp only [runOp, h, if_true]
  match answerWrite s, hanswer with
  | .ok t, hanswer => exact hanswer
  | .error .internal, hanswer => exact hanswer
  | .error (.fault _), hanswer => exact hanswer

/-- A reference operation on the core, as an action of the sequencer. -/
theorem stepped_meets {s : State} {r : Res Core} {Q : Option State → Prop} {I : Prop}
    (h : Meets (fun c => Q (some { s with core := c })) I F r) : Meets Q I F (stepped s r) := by
  match r, h with
  | .ok c, h => exact h
  | .error .internal, h => exact h
  | .error (.fault _), h => exact h

/-- An operation of the pipeline on the core, as an action of the sequencer that may hold. -/
theorem steppedOrHeld_meets {s : State} {r : Res (Option Core)} {Q : Option State → Prop} {I : Prop} (hold : Q none)
    (h : Meets (fun x => ∀ c, x = some c → Q (some { s with core := c })) I F r) : Meets Q I F (steppedOrHeld s r) := by
  match r, h with
  | .ok none, _ => exact hold
  | .ok (some c), h => exact h c rfl
  | .error .internal, h => exact h
  | .error (.fault _), h => exact h

end Sys2Proof.StateProofs
end

section
/-! PROOFS. The reset state and the response stream (rules R29, R30, R35, R61, R240, R250). -/

namespace Sys2Proof.StateProofs

open Sys2Proof Sys2Proof.Machine Sys2Proof.Config

/-- Settles O8: with nothing pending and no room for a response the sequencer's turn is no step. -/
theorem fullResponseQueueHoldsTheParser : Obligations.FullResponseQueueHoldsTheParser := by
  intro s s1 hturn hjob hfull
  rw [step_of_nextTurn hturn]
  exact seqStep_full hjob hfull

/-- Settles O51: the reset turn leaves what `nextTurn` leaves of the world outside. -/
theorem hardwareResetRestoresTheResetState : Obligations.HardwareResetRestoresTheResetState := by
  intro s s1 hturn
  obtain ⟨ts, hts⟩ := nextTurn_snd s
  have hs1 : s1 = { s with sched := ts } := by rw [← hts, hturn]
  rw [step_of_nextTurn hturn, hs1]
  rfl

/-- Settles O52: every layer after reset is `Layer.empty`, the other fields are constants. -/
theorem resetStateHasTheResetValues : Obligations.ResetStateHasTheResetValues := by
  intro p s
  refine ⟨rfl, rfl, rfl, ?_, rfl, rfl, rfl, rfl, rfl, rfl, rfl, rfl, rfl, rfl⟩
  intro l hl
  obtain rfl : l = Layer.empty := List.eq_of_mem_replicate hl
  exact ⟨rfl, rfl, rfl⟩

/-! ## The empty accumulator -/

theorem empty_carryOk : Core.empty.CarryOk := ⟨rfl, by decide⟩

/-- The reset value of the accumulator meets rules R22, R23, R25 and R26. -/
theorem empty_ok : Core.empty.Ok := ⟨empty_carryOk, by decide, rfl, by decide, rfl⟩

theorem resetWith_inv {p : Params} (h : p.wf = true) : (State.resetWith p).Inv where
  params := h
  core := empty_ok
  parser := ⟨rfl, rfl, rfl⟩
  queues := .inl empty_drained
  cwcnt := Nat.succ_pos 7
  job := rfl
  rspq := Nat.zero_le _
  fatalJob := fun _ => rfl
  fatalDrop := fun h => nomatch h

/-- Settles O54. -/
theorem invariantHoldsAtReset : Obligations.InvariantHoldsAtReset :=
  ⟨resetWith_inv (by decide), fun _ hp => resetWith_inv hp⟩

/-! ## Responses -/

/-- From `s` to `t` the host has taken nothing and responses were only put at the end of `RSPQ` (rules R30, R61). -/
def Grows (s t : State) : Prop := t.out = s.out ∧ ∃ rs, t.rspq = s.rspq ++ rs

theorem Grows.rfl {s : State} : Grows s s := ⟨Eq.refl _, [], (List.append_nil _).symm⟩

theorem Grows.trans {s t u : State} (h1 : Grows s t) (h2 : Grows t u) : Grows s u := by
  obtain ⟨hout1, rs1, hrs1⟩ := h1
  obtain ⟨hout2, rs2, hrs2⟩ := h2
  exact ⟨hout2.trans hout1, rs1 ++ rs2, by rw [hrs2, hrs1, List.append_assoc]⟩

/-- What `Grows` says of the byte stream to the host. -/
theorem Grows.stream {s t : State} (h : Grows s t) : ∃ r, t.out ++ t.rspq.flatten = s.out ++ s.rspq.flatten ++ r := by
  obtain ⟨hout, rs, hrs⟩ := h
  exact ⟨rs.flatten, by rw [hout, hrs, List.flatten_append, List.append_assoc]⟩

theorem reply_grows (st : Status) (p : List Byte) (s : State) : Grows s (reply st p s) := ⟨rfl, _, rfl⟩

theorem fatalReply_grows (s : State) : Grows s (fatalReply s) := reply_grows _ _ s

theorem internalFault_grows (s : State) : Grows s (internalFault s) := by
  obtain ⟨-, h⟩ | ⟨c, -, ⟨-, h⟩ | ⟨-, h⟩⟩ := internalFault_cases s
  · rw [h]; exact .rfl
  · rw [h]; exact .rfl
  · rw [h]; exact ⟨rfl, _, rfl⟩

variable {s0 : State}

/-- The end of an operation run in `s` that puts responses only at the end of `RSPQ`. -/
theorem trap_grows {s : State} {r : Res State} (h : Grows s0 s) (hr : Meets (Grows s0) True True r) :
    Ends (Grows s0) True (trap s r) :=
  ends_trap (hr.imp (fun _ ht => ht) fun _ => h.trans (internalFault_grows s))

theorem runOp_grows {op : SeqOp} {s t : State} (h : runOp op s = .ok (some t)) : Grows s t := by
  have hstep : ∀ r : Res Core, stepped s r = .ok (some t) → Grows s t := by
    intro r hr
    match r, hr with
    | .ok c, hr => cases hr; exact .rfl
  have hqueue : ∀ r : Res (Option Core), steppedOrHeld s r = .ok (some t) → Grows s t := by
    intro r hr
    match r, hr with
    | .ok (some c), hr => cases hr; exact .rfl
  cases op with
  | push leaf =>
    rw [runOp_push] at h
    split at h
    · exact hstep _ h
    · exact hqueue _ h
  | close =>
    rw [runOp_close] at h
    split at h
    · exact hstep _ h
    · exact hqueue _ h
  | await sized =>
    rw [runOp_await] at h
    cases hr : s.core.root with
    | none => rw [hr] at h; cases h
    | some r => rw [hr] at h; cases h; exact ⟨rfl, _, rfl⟩
  | writeDone =>
    obtain ⟨-, hx⟩ | ⟨-, t', ht', hx⟩ := runOp_writeDone h
    · cases hx
    · cases hx
      obtain ⟨c, -, rfl⟩ := answerWrite_ok ht'
      exact ⟨rfl, _, rfl⟩

theorem runOps_grows {ops : List SeqOp} {s : State} (h : Grows s0 s) : Meets (Grows s0) True True (runOps ops s) := by
  refine runOps_meets (R := fun _ u => Grows s0 u) (fun _ hu => hu) (fun op ops u hu => ?_) h
  refine meets_true (fun x hx => ?_) fun _ => trivial
  cases x with
  | none => exact hu
  | some u' => exact hu.trans (runOp_grows hx)

theorem extendRun_grows {s : State} (h : Grows s0 s) : Meets (Grows s0) True True (extendRun s) := by
  refine meets_true (fun t ht => h.trans ?_) fun _ => trivial
  unfold extendRun at ht
  repeat' split at ht
  all_goals cases ht
  all_goals exact reply_grows _ _ s

theorem operandByte_grows (b : Byte) {s : State} (hphase : s.parser.phase ≠ .cmd) (h : Grows s0 s) :
    Ends (Grows s0) True (operandByte b s) := by
  have hdown : Grows s0 (countDown s) := h
  have hstaged : Grows s0 (stageT b s) := h
  refine operandByte_ends hphase (fun _ _ => ?_) (fun _ hd => ?_) (fun _ => ?_) (fun _ => ?_) (fun _ => ?_)
  · split
    · exact hdown.trans (endDropped_of_reply fun _ _ => reply_grows _ _ _)
    · exact hdown
  · rw [payloadByte_absorbed b hd]
    refine trap_grows hdown ?_
    split
    · exact meets_true (fun t ht => nomatch ht) fun _ => trivial
    · exact runOps_grows h
  · rw [extCByte_eq]
    split <;> exact h
  · rw [extSByte_eq]
    split <;> exact h
  · rw [extTByte_eq]
    split
    · split
      · exact hstaged.trans (endDropped_of_reply fun _ _ => reply_grows _ _ _)
      · exact trap_grows hstaged (extendRun_grows hstaged)
    · exact hstaged

theorem feed_grows {bs : List Byte} {s : State} (h : Grows s0 s) : Ends (Grows s0) True (feed bs s) :=
  feed_ends (fun _ _ ht => ht) (fun b t ht hw => operandByte_grows b ((wantsOperand_iff t).1 hw).1 ht) h

theorem finalize_grows {s : State} (sized : Bool) (h : Grows s0 s) : Ends (Grows s0) True (finalize sized s) := by
  refine trap_grows h ?_
  split
  · exact meets_true (fun t ht => nomatch ht) fun _ => trivial
  · exact runOps_grows h

theorem startWrite_grows (len : Arg) (s : State) : Grows s (startWrite len s) := by
  unfold startWrite
  simp only
  repeat' split
  all_goals exact .rfl

theorem startExtend_grows (clen : Arg) (s : State) : Grows s (startExtend clen s) := by
  unfold startExtend
  simp only
  split <;> exact .rfl

theorem execWrite_grows {s : State} (len : Arg) (h : Grows s0 s) : Moves (Grows s0) True (execWrite len s) := by
  have hstart : Grows s0 (startWrite len s) := h.trans (startWrite_grows len s)
  unfold execWrite
  simp only
  split
  · rw [moves_conclude]
    split
    · exact hstart.trans (endDropped_of_reply fun _ _ => reply_grows _ _ _)
    · exact trap_grows hstart (runOps_grows hstart)
  · exact moves_conclude.2 (feed_grows hstart)

theorem execDigest_grows {s : State} (h : Grows s0 s) : Moves (Grows s0) True (execDigest s) := by
  refine answered_moves (fun _ => h.trans (fatalReply_grows s)) fun _ => ?_
  split
  · exact h.trans (reply_grows _ _ s)
  · exact moves_conclude.2 (finalize_grows _ h)

theorem execSum_grows {s : State} (h : Grows s0 s) : Moves (Grows s0) True (execSum s) := by
  refine answered_moves (fun _ => h.trans (fatalReply_grows s)) fun _ => ?_
  split
  · exact h.trans (fatalReply_grows (enterFatal _ s))
  · exact moves_conclude.2 (finalize_grows _ h)

theorem exec_grows {bs : List Byte} {i : Instr} {s : State} (hi : decodeBytes bs = .ok i) (h : Grows s0 s) :
    Moves (Grows s0) True (exec i s) := by
  have answers (st : Status) (r : List Byte) (c : Core) :
      Moves (Grows s0) True (if s.fatal then .next (fatalReply s) else .next (reply st r { s with core := c })) :=
    answered_moves (fun _ => h.trans (fatalReply_grows s)) fun _ => h.trans (reply_grows st r { s with core := c })
  exact exec_decoded_moves hi (fun len => execWrite_grows len h) (execDigest_grows h) (execSum_grows h) (answers _ _ Core.empty)
    (fun clen => moves_conclude.2 (feed_grows (h.trans (startExtend_grows clen s)))) (answers _ _ s.core) (answers _ _ s.core)

theorem seqStep_grows (s : State) : Moves (Grows s) True (seqStep s) :=
  seqStep_moves (fun _ => trap_grows .rfl (runOps_grows .rfl)) (fun _ => .rfl) (fun _ _ _ _ _ => Grows.rfl (s := s))
    (fun _ _ _ _ _ _ hi => exec_grows hi (Grows.rfl (s := s)))
    (fun _ _ _ rest => Grows.trans (s := s) (t := taken rest s) .rfl (illegal_of_reply fun _ _ => reply_grows _ _ _))
    (fun _ _ _ => feed_grows .rfl)

/-- A layer operation on the core, or the internal fault it ends in. -/
theorem layerOp_grows {s : State} (h : Grows s0 s) (r : Res (Option Core)) :
    Moves (Grows s0) True (conclude (trap s (withCore s r))) :=
  moves_conclude.2 (trap_grows h (withCore_meets h (meets_true (fun _ _ _ _ => h) fun _ => trivial)))

theorem layerStep_grows (l : Fin 32) (s : State) : Moves (Grows s) True (layerStep l s) := by
  have hsel : Grows s { s with sel := l } := .rfl (s := s)
  refine layerStep_moves (fun _ => .rfl) (fun tok _ _ => ?_) (fun _ _ _ => ?_)
  · unfold execLayerNode
    repeat' split
    · exact hsel
    · exact layerOp_grows hsel _
    · exact layerOp_grows hsel _
  · unfold execLayerClose
    repeat' split
    · exact hsel
    · exact layerOp_grows hsel _
    · exact layerOp_grows hsel _

/-- The host takes the oldest byte, which moves it from the queue's front to the end of what was taken (rule R61). -/
theorem hostTake_stream (s : State) : (hostTake s).out ++ (hostTake s).rspq.flatten = s.out ++ s.rspq.flatten := by
  unfold hostTake
  split
  · rfl
  · next h => simp [h]
  · next h => simp [h]
  · next h => simp [h]

/-- Settles O53: every turn of the block only adds at the end of `RSPQ`, and the host's turn moves the oldest byte. -/
theorem responsesKeepTheirOrder : Obligations.ResponsesKeepTheirOrder := by
  constructor
  · intro s t hrst hstep
    obtain ⟨ts, hts⟩ := nextTurn_snd s
    have hsame : Grows s (nextTurn s).2 := by rw [hts]; exact .rfl (s := s)
    rw [step_eq] at hstep
    generalize (nextTurn s).2 = s1 at hstep hsame
    have block : ∀ {r : Result}, Moves (Grows s1) True r → r = .next t →
        ∃ r, t.out ++ t.rspq.flatten = s.out ++ s.rspq.flatten ++ r :=
      fun hm hr => (hsame.trans (hm.of_next hr)).stream
    cases hturn : (nextTurn s).1 with
    | seq => rw [hturn] at hstep; exact block (seqStep_grows s1) hstep
    | layer l => rw [hturn] at hstep; exact block (layerStep_grows l s1) hstep
    | offer bytes => rw [hturn] at hstep; cases hstep; exact hsame.stream
    | take =>
      rw [hturn] at hstep
      cases hstep
      rw [hostTake_stream]
      exact hsame.stream
    | rst => exact absurd hturn hrst
    | shaFail => rw [hturn] at hstep; cases hstep; exact hsame.stream
  · intro s s1 b bs rs hturn hq
    rw [step_of_nextTurn hturn]
    cases bs with
    | nil => simp [runTurn, hostTake, hq]
    | cons b' bs => simp [runTurn, hostTake, hq]

end Sys2Proof.StateProofs
end

section
/-! PROOFS. FATAL is sticky (rules R31, R77, R215). -/

namespace Sys2Proof.StateProofs

open Sys2Proof Sys2Proof.Machine Sys2Proof.Config

/-- `t` is a state under the FATAL of `s`: the cause and the accumulator are those of `s`, nothing is pending, and operand bytes
are discarded. -/
structure Aborted (s t : State) : Prop where
  fatal : t.fatal = true
  cause : t.fatalCause = s.fatalCause
  core : t.core = s.core
  job : t.job = []
  drop : t.parser.phase ≠ .cmd → t.parser.drop = true

variable {s0 s : State}

theorem fatalReply_aborted (h : Aborted s0 s) : Aborted s0 (fatalReply s) :=
  ⟨h.fatal, h.cause, h.core, h.job, fun hp => absurd rfl hp⟩

theorem endDropped_aborted (h : Aborted s0 s) : Aborted s0 (endDropped s) := by
  unfold endDropped
  rw [if_pos h.fatal]
  exact fatalReply_aborted h

theorem illegal_aborted (h : Aborted s0 s) : Aborted s0 (illegal s) := by
  unfold illegal
  rw [if_pos h.fatal]
  exact fatalReply_aborted h

/-- Under FATAL an operand byte is counted and discarded, and the last one ends the command (rule R77). -/
theorem operandByte_aborted (b : Byte) (hphase : s.parser.phase ≠ .cmd) (h : Aborted s0 s) :
    Ends (Aborted s0) False (operandByte b s) := by
  have hdrop : s.parser.drop = true := h.drop hphase
  have hkeep : ∀ p : Parser, p.drop = s.parser.drop → Aborted s0 { s with parser := p } := fun p hp =>
    ⟨h.fatal, h.cause, h.core, h.job, fun _ => hp.trans hdrop⟩
  refine operandByte_ends hphase (fun _ _ => ?_) (fun _ hd => ?_) (fun _ => ?_) (fun _ => ?_) (fun _ => ?_)
  · split
    · exact endDropped_aborted (hkeep _ rfl)
    · exact hkeep _ rfl
  · rw [hdrop] at hd; cases hd
  · rw [extCByte_eq]
    split <;> exact hkeep _ rfl
  · rw [extSByte_eq]
    split <;> exact hkeep _ rfl
  · rw [extTByte_eq, if_pos hdrop]
    split
    · exact endDropped_aborted (hkeep _ rfl)
    · exact hkeep _ rfl

theorem feed_aborted {bs : List Byte} (h : Aborted s0 s) : Ends (Aborted s0) False (feed bs s) :=
  feed_ends (fun _ _ ht => ⟨ht.fatal, ht.cause, ht.core, ht.job, ht.drop⟩)
    (fun b t ht hw => operandByte_aborted b ((wantsOperand_iff t).1 hw).1 ht) h

/-- The two commands with operand bytes begin with `DROP = 1` under FATAL (rule R77). -/
theorem startWrite_aborted (len : Arg) (h : Aborted s0 s) : Aborted s0 (startWrite len s) := by
  unfold startWrite
  simp only
  rw [if_pos (by simp [h.fatal])]
  exact ⟨h.fatal, h.cause, h.core, rfl, fun _ => rfl⟩

theorem startExtend_aborted (clen : Arg) (h : Aborted s0 s) : Aborted s0 (startExtend clen s) := by
  unfold startExtend
  simp only
  split <;> exact ⟨h.fatal, h.cause, h.core, rfl, fun _ => h.fatal⟩

theorem startWrite_drop (len : Arg) (h : s.fatal = true) : (startWrite len s).parser.drop = true := by
  simp [startWrite, h]

theorem exec_aborted {bs : List Byte} {i : Instr} (hi : decodeBytes bs = .ok i) (h : Aborted s0 s) :
    Moves (Aborted s0) False (exec i s) := by
  have answers : ∀ r : Result, Moves (Aborted s0) False (if s.fatal then .next (fatalReply s) else r) := by
    intro r
    exact answered_moves (fun _ => fatalReply_aborted h) fun hf => absurd (hf.symm.trans h.fatal) Bool.false_ne_true
  refine exec_decoded_moves hi (fun len => ?_) (answers _) (answers _) (answers _)
    (fun clen => moves_conclude.2 (feed_aborted (startExtend_aborted clen h))) (answers _) (answers _)
  have hstart := startWrite_aborted len h
  unfold execWrite
  simp only
  rw [if_pos (startWrite_drop len h.fatal)]
  split
  · exact endDropped_aborted hstart
  · exact moves_conclude.2 (feed_aborted hstart)

theorem seqStep_aborted (h : Aborted s0 s) : Moves (Aborted s0) False (seqStep s) := by
  have htaken : ∀ rest, Aborted s0 (taken rest s) := fun _ => ⟨h.fatal, h.cause, h.core, h.job, h.drop⟩
  exact seqStep_moves (fun hj => absurd h.job hj) (fun _ => h)
    (fun _ _ _ _ _ => ⟨h.fatal, h.cause, h.core, h.job, h.drop⟩) (fun _ _ _ _ rest _ hi => exec_aborted hi (htaken rest))
    (fun _ _ _ rest => illegal_aborted (htaken rest)) (fun _ _ _ => feed_aborted h)

theorem layerStep_aborted (l : Fin 32) (h : Aborted s0 s) : Moves (Aborted s0) False (layerStep l s) := by
  have hsel : Aborted s0 { s with sel := l } := ⟨h.fatal, h.cause, h.core, h.job, h.drop⟩
  refine layerStep_moves (fun _ => h) (fun tok _ _ => ?_) (fun _ _ _ => ?_)
  · unfold execLayerNode
    rw [if_pos h.fatal]
    exact hsel
  · unfold execLayerClose
    rw [if_pos h.fatal]
    exact hsel

@[simp] theorem hostTake_fatal (s : State) : (hostTake s).fatal = s.fatal := by unfold hostTake; split <;> rfl
@[simp] theorem hostTake_fatalCause (s : State) : (hostTake s).fatalCause = s.fatalCause := by unfold hostTake; split <;> rfl
@[simp] theorem hostTake_core (s : State) : (hostTake s).core = s.core := by unfold hostTake; split <;> rfl
@[simp] theorem hostTake_job (s : State) : (hostTake s).job = s.job := by unfold hostTake; split <;> rfl
@[simp] theorem hostTake_parser (s : State) : (hostTake s).parser = s.parser := by unfold hostTake; split <;> rfl
@[simp] theorem hostTake_params (s : State) : (hostTake s).params = s.params := by unfold hostTake; split <;> rfl

/-- Every turn but a reset keeps an aborted state aborted. -/
theorem runTurn_aborted {turn : Turn} (hturn : turn ≠ .rst) (h : Aborted s0 s) : Moves (Aborted s0) False (runTurn turn s) := by
  cases turn with
  | seq => exact seqStep_aborted h
  | layer l => exact layerStep_aborted l h
  | offer bytes => exact ⟨h.fatal, h.cause, h.core, h.job, h.drop⟩
  | take =>
    exact ⟨by simpa using h.fatal, by simpa using h.cause, by simpa using h.core, by simpa using h.job, by simpa using h.drop⟩
  | rst => exact absurd rfl hturn
  | shaFail => exact ⟨h.fatal, h.cause, h.core, h.job, h.drop⟩

/-- Outside `PHASE = CMD` a command is in progress (rule R29). -/
theorem saved_of_phase (h : s.parserOk) (hphase : s.parser.phase ≠ .cmd) : s.parser.saved ≠ none := by
  intro hnone
  unfold State.parserOk at h
  rw [hnone] at h
  exact hphase h.1

/-- Settles O50: a run's state under FATAL has nothing pending and discards operand bytes, and every turn but a reset keeps
it so. -/
theorem fatalStaysUntilAHardwareReset : Obligations.FatalStaysUntilAHardwareReset := by
  intro s t hinv hfatal hrst hstep
  have hstart : Aborted s (nextTurn s).2 := by
    obtain ⟨ts, hts⟩ := nextTurn_snd s
    rw [hts]
    exact ⟨hfatal, rfl, rfl, hinv.fatalJob hfatal, fun hp => hinv.fatalDrop hfatal (saved_of_phase hinv.parser hp)⟩
  have ht := (runTurn_aborted hrst hstart).of_next (step_eq s ▸ hstep)
  exact ⟨ht.fatal, ht.cause, ht.core, ht.job⟩

end Sys2Proof.StateProofs
end

section
/-! PROOFS. What the operations on the accumulator and the layers keep (rules R22, R25, R26), and that none of them reads a cell
without a value. -/

namespace Sys2Proof.StateProofs

open Sys2Proof Sys2Proof.Machine Sys2Proof.Config

/-! ## Fr32 nodes -/

/-- The Fr32 invariant as a bound: bits 254 and 255 are clear. -/
theorem isFr32_iff (n : Node) : isFr32 n = true ↔ n.toNat < 2 ^ 254 := by
  have hn : n.toNat < 2 ^ 256 := n.isLt
  simp only [isFr32, beq_iff_eq, ← BitVec.toNat_inj, BitVec.extractLsb'_toNat, Nat.shiftRight_eq_div_pow, BitVec.toNat_ofNat]
  omega

theorem isFr32_nodeHash (l r : Node) : isFr32 (nodeHash l r) = true := by
  rw [isFr32_iff]
  unfold nodeHash maskTop
  rw [BitVec.toNat_setWidth_of_le (by decide)]
  exact BitVec.isLt _

theorem leNat_append (bs cs : List Byte) : leNat (bs ++ cs) = leNat bs + 256 ^ bs.length * leNat cs := by
  induction bs with
  | nil => simp [leNat]
  | cons b bs ih => simp only [List.cons_append, leNat, ih, List.length_cons, pow_succ]; ring

theorem leNat_lt (bs : List Byte) : leNat bs < 256 ^ bs.length := by
  induction bs with
  | nil => simp [leNat]
  | cons b bs ih =>
    have hb : b.toNat < 256 := b.isLt
    simp only [leNat, List.length_cons, pow_succ]
    omega

/-- 32 bytes whose last is below 64 are an Fr32 node. -/
theorem isFr32_nodeOfBytes {bs : List Byte} {b : Byte} (hlen : bs.length = 31) (hb : b.toNat < 64) :
    isFr32 (nodeOfBytes (bs ++ [b])) = true := by
  have hbs := leNat_lt bs
  rw [isFr32_iff, nodeOfBytes, leNat_append, BitVec.toNat_ofNat, hlen]
  rw [hlen] at hbs
  simp only [leNat]
  omega

/-- The last byte of each leaf has its two top bits clear (rules R101, R102). -/
theorem expandByte_lt (win : List Byte) {k : Nat} (hk : k < 4) : (expandByte win (32 * k + 31)).toNat < 64 := by
  have hmask : ∀ x : Byte, (x &&& 0x3F#8).toNat < 64 := fun x => by
    rw [BitVec.toNat_and]
    exact Nat.lt_of_le_of_lt Nat.and_le_right (by decide)
  have hshift : ∀ x : Byte, (x >>> 2).toNat < 64 := fun x => by
    have := x.isLt
    rw [BitVec.toNat_ushiftRight, Nat.shiftRight_eq_div_pow]
    omega
  obtain rfl | rfl | rfl | rfl : k = 0 ∨ k = 1 ∨ k = 2 ∨ k = 3 := by omega
  · exact hmask _
  · exact hmask _
  · exact hmask _
  · exact hshift _

/-- The 32 indexes of each leaf's bytes, the last one apart. -/
theorem slice_range : ∀ k < 4, ((List.range 128).drop (32 * k)).take 32 = List.range' (32 * k) 31 ++ [32 * k + 31] := by
  decide

theorem expand_slice (win : List Byte) {k : Nat} (hk : k < 4) :
    ((expand win).drop (32 * k)).take 32 = (List.range' (32 * k) 31).map (expandByte win) ++ [expandByte win (32 * k + 31)] := by
  rw [expand, ← List.map_drop, ← List.map_take, slice_range k hk, List.map_append]
  rfl

/-- The leaves of a quad are Fr32 (rule R26). -/
theorem expandLeaves_fr32 (win : List Byte) : (expandLeaves win).all isFr32 = true := by
  rw [List.all_eq_true]
  intro n hn
  obtain ⟨k, hk, rfl⟩ := List.mem_map.1 hn
  have hk4 : k < 4 := List.mem_range.1 hk
  rw [expand_slice win hk4]
  exact isFr32_nodeOfBytes (by simp) (expandByte_lt win hk4)

/-! ## The carry buffer -/

/-- The cells of a memory that holds `k, k+1, ...` in order are read back in order. -/
theorem read_of_range' {m : Memory} {k n : Nat} (h : m.map Prod.fst = List.range' k n) (i : Nat) :
    m.read (k + i) = (m.map Prod.snd)[i]? := by
  induction m generalizing k n i with
  | nil => rfl
  | cons e m ih =>
    obtain ⟨a, b⟩ := e
    cases n with
    | zero => simp at h
    | succ n =>
      simp only [List.map_cons, List.range'_succ, List.cons.injEq] at h
      obtain ⟨rfl, hm⟩ := h
      cases i with
      | zero => simp [Memory.read]
      | succ i =>
        rw [Memory.read, if_neg (by omega), show a + (i + 1) = a + 1 + i by omega, ih hm]
        simp

/-- A memory of the cells `0 .. n-1` is read as a whole (rule R11). -/
theorem readRange_of_range {m : Memory} {n : Nat} (h : m.map Prod.fst = List.range n) :
    m.readRange 0 n = .ok (m.map Prod.snd) := by
  have hlen : m.length = n := by simpa using congrArg List.length h
  rw [readRange_eq]
  refine ⟨by simpa using hlen, fun i _ => ?_⟩
  rw [List.range_eq_range'] at h
  exact read_of_range' h i

/-- Writing the next cell of a memory of the cells `0 .. n-1` appends it. -/
theorem write_next {m : Memory} {n : Nat} (h : m.map Prod.fst = List.range n) (b : Byte) : m.write n b = m ++ [(n, b)] := by
  refine write_append m n b fun e he => ?_
  have : e.1 ∈ List.range n := h ▸ List.mem_map_of_mem he
  simpa using this

theorem write_next_range {m : Memory} {n : Nat} (h : m.map Prod.fst = List.range n) (b : Byte) :
    (m.write n b).map Prod.fst = List.range (n + 1) := by
  rw [write_next h, List.map_append, h, List.range_succ]
  rfl

/-- A full window is read whole and handed over as its leaves (rule R152). -/
theorem takeQuad_full {c : Core} (h : c.carry.map Prod.fst = List.range blockSize) :
    c.takeQuad = .ok (c.clearCarry, expandLeaves (c.carry.map Prod.snd)) := by
  unfold Core.takeQuad Core.readWindow
  rw [readRange_of_range h]

/-- ABSORB of a byte that leaves the quad incomplete (rule R152). -/
theorem absorb_buffers {c : Core} (h : c.CarryOk) (b : Byte) (hq : c.clen + 1 ≠ blockSize) :
    c.absorb b = .ok ({ c with carry := c.carry ++ [(c.clen, b)], clen := c.clen + 1 }, []) := by
  obtain ⟨hcarry, hclen⟩ := h
  unfold Core.absorb Core.writeCarry
  rw [if_pos hclen, write_next hcarry]
  exact if_neg hq

/-- ABSORB of a byte that completes the quad (rule R152). -/
theorem absorb_completes {c : Core} (h : c.CarryOk) (b : Byte) (hq : c.clen + 1 = blockSize) :
    c.absorb b = .ok (c.clearCarry, expandLeaves (c.carry.map Prod.snd ++ [b])) := by
  obtain ⟨hcarry, hclen⟩ := h
  have hnext := write_next_range hcarry b
  rw [write_next hcarry, hq] at hnext
  unfold Core.absorb Core.writeCarry
  rw [if_pos hclen, write_next hcarry]
  simp only
  rw [if_pos hq, takeQuad_full hnext, List.map_append]
  rfl

/-- The zero fill of FINALIZE completes the window (rule R158). -/
theorem zeroFill_eq {c : Core} {i n : Nat} (h : c.carry.map Prod.fst = List.range i) (hle : i + n ≤ blockSize) :
    ∃ m, c.zeroFill i n = .ok { c with carry := m } ∧ m.map Prod.fst = List.range (i + n) := by
  induction n generalizing i c with
  | zero => exact ⟨c.carry, rfl, h⟩
  | succ n ih =>
    obtain ⟨m, hm, hr⟩ := ih (c := { c with carry := c.carry.write i 0x00#8 }) (write_next_range h _) (by omega)
    refine ⟨m, ?_, by rw [hr]; congr 1; omega⟩
    unfold Core.zeroFill Core.writeCarry
    rw [if_pos (by omega)]
    exact hm

/-- The padding of FINALIZE pushes Fr32 leaves and leaves an empty carry buffer; the rest of the core stays (rule R158). -/
theorem padQuad_eq {c : Core} (h : c.CarryOk) :
    ∃ leaves, c.padQuad = .ok (c.clearCarry, leaves) ∧ leaves.all isFr32 = true := by
  obtain ⟨hcarry, hclen⟩ := h
  unfold Core.padQuad
  split
  · next h0 =>
    have hnil : c.carry = [] := by simpa [h0] using hcarry
    exact ⟨[], by rw [Core.clearCarry, ← hnil, ← h0], rfl⟩
  · obtain ⟨m, hm, hr⟩ := zeroFill_eq hcarry (n := blockSize - c.clen) (by omega)
    rw [hm]
    simp only
    rw [takeQuad_full (by rw [hr]; congr 1; omega)]
    exact ⟨_, rfl, expandLeaves_fr32 _⟩

/-! ## Layers -/

theorem layer_ok_iff (l : Layer) : l.ok = true ↔ (∀ n, l.slot = some n → isFr32 n = true) ∧ ∀ t ∈ l.q, tokenOk t = true := by
  cases hs : l.slot <;> simp [Layer.ok, hs]

theorem tokenOk_nodeToken {n : Node} (h : isFr32 n = true) : tokenOk (nodeToken n) = true := by
  rw [tokenOk, Laws.tokenNode_nodeToken, h]

theorem tokenOk_closeToken : tokenOk closeToken = true := by
  rw [tokenOk, Laws.tokenNode_closeToken]
  decide

variable {ok : Bool}

/-- NodeHash answers an Fr32 node or meets the engine's failure. -/
theorem hash_meets (l r : Node) : Meets (fun n => isFr32 n = true) True False (hash ok l r) := by
  cases ok with
  | false => trivial
  | true => exact isFr32_nodeHash l r

/-- The layers `xs` are Fr32 and hold the same queues as `ls`: what PUSH and CLOSE keep. -/
def Reduced (ls xs : List Layer) : Prop := xs.all Layer.ok = true ∧ xs.map Layer.q = ls.map Layer.q

theorem Reduced.cons {l l' : Layer} {ls xs : List Layer} (hl : l'.ok = true) (hq : l'.q = l.q) (h : Reduced ls xs) :
    Reduced (l :: ls) (l' :: xs) := ⟨by simp [hl, h.1], by simp [hq, h.2]⟩

theorem Reduced.trans {ls xs ys : List Layer} (h1 : Reduced ls xs) (h2 : Reduced xs ys) : Reduced ls ys :=
  ⟨h2.1, h2.2.trans h1.2⟩

/-- A layer that keeps its queue and takes an Fr32 node, or none, into its slot. -/
theorem ok_of_slot {l : Layer} {active : Bool} {slot : Option Node} (hl : l.ok = true)
    (hs : ∀ n, slot = some n → isFr32 n = true) : ({ l with active := active, slot := slot } : Layer).ok = true :=
  (layer_ok_iff _).2 ⟨hs, ((layer_ok_iff l).1 hl).2⟩

theorem emit_meets {ls : List Layer} {p : Node} (h : ls.all Layer.ok = true) (hp : isFr32 p = true) :
    Meets (Reduced ls) True False (emit ok ls p) := by
  induction ls generalizing p with
  | nil => trivial
  | cons l above ih =>
    obtain ⟨hl, habove⟩ : l.ok = true ∧ above.all Layer.ok = true := by simpa using h
    unfold emit
    split
    · exact .cons (ok_of_slot hl (by simpa using hp)) rfl ⟨habove, rfl⟩
    · next left _ =>
      have hparent := hash_meets (ok := ok) left p
      match hash ok left p, hparent with
      | .error .internal, _ => trivial
      | .ok parent, hparent =>
        simp only
        have hemit := ih habove hparent
        match emit ok above parent, hemit with
        | .error .internal, _ => trivial
        | .ok above', hemit => exact .cons (ok_of_slot hl (by simp)) rfl hemit

theorem push_meets {ls : List Layer} {i : Nat} {n : Node} (hne : ls ≠ []) (h : ls.all Layer.ok = true) (hn : isFr32 n = true) :
    Meets (Reduced ls) True False (push ok i ls n) := by
  cases ls with
  | nil => exact absurd rfl hne
  | cons l above =>
    obtain ⟨hl, habove⟩ : l.ok = true ∧ above.all Layer.ok = true := by simpa using h
    simp only [push]
    split
    · exact .cons (ok_of_slot hl (by simpa using hn)) rfl ⟨habove, rfl⟩
    · next left _ =>
      have hparent := hash_meets (ok := ok) left n
      match hash ok left n, hparent with
      | .error .internal, _ => trivial
      | .ok parent, hparent =>
        simp only
        have hemit := emit_meets (ok := ok) habove hparent
        match emit ok above parent, hemit with
        | .error .internal, _ => trivial
        | .ok above', hemit => exact .cons (ok_of_slot hl (by simp)) rfl hemit

theorem readTower_eq {i : Nat} (h : i < towerEntries) : readTower i = .ok (tower i) := readTower_ok.2 ⟨h, rfl⟩

/-- CLOSE of the layers from `i` up to 31 reads the tower below entry 31 only, and publishes an Fr32 root. -/
theorem close_meets {k i : Nat} {ls : List Layer} (hk : ls.length = k + 1) (hi : i + k ≤ maxLayers) (h : ls.all Layer.ok = true) :
    Meets (fun x => Reduced ls x.1 ∧ isFr32 x.2.node = true) True False (close ok (k + 1) i ls) := by
  induction k generalizing i ls with
  | zero =>
    obtain ⟨l, rfl⟩ := List.length_eq_one_iff.1 hk
    obtain hl : l.ok = true := by simpa using h
    simp only [close, highestBelow, if_true]
    split
    · trivial
    · next n hn => exact ⟨.cons (ok_of_slot hl (by simp)) rfl ⟨rfl, rfl⟩, ((layer_ok_iff l).1 hl).1 n hn⟩
  | succ k ih =>
    obtain ⟨l, above, rfl⟩ := List.exists_cons_of_length_eq_add_one hk
    obtain ⟨hl, habove⟩ : l.ok = true ∧ above.all Layer.ok = true := by simpa using h
    have hlen : above.length = k + 1 := by simpa using hk
    unfold close
    split
    · split
      · trivial
      · next n hn => exact ⟨.cons (ok_of_slot hl (by simp)) rfl ⟨habove, rfl⟩, ((layer_ok_iff l).1 hl).1 n hn⟩
    · split
      · have hclose := ih (i := i + 1) hlen (by omega) habove
        match close ok (k + 1) (i + 1) above, hclose with
        | .error .internal, _ => trivial
        | .ok (above', r), hclose => exact ⟨.cons hl rfl hclose.1, hclose.2⟩
      · next left _ =>
        rw [readTower_eq (by unfold towerEntries; unfold maxLayers at hi; omega)]
        simp only
        have hparent := hash_meets (ok := ok) left (tower i)
        match hash ok left (tower i), hparent with
        | .error .internal, _ => trivial
        | .ok parent, hparent =>
          simp only
          have hemit := emit_meets (ok := ok) habove hparent
          match emit ok above parent, hemit with
          | .error .internal, _ => trivial
          | .ok above1, hemit =>
            have hlen1 : above1.length = k + 1 := by
              have := congrArg List.length hemit.2
              simpa [hlen] using this
            simp only
            have hclose := ih (i := i + 1) hlen1 (by omega) hemit.1
            match close ok (k + 1) (i + 1) above1, hclose with
            | .error .internal, _ => trivial
            | .ok (above', r), hclose => exact ⟨.cons (ok_of_slot hl (by simp)) rfl (hemit.trans hclose.1), hclose.2⟩

/-! ## The core -/

/-- `c'` meets rules R22 to R26 and has the payload count of `c`: what every operation on the layers keeps. -/
def Kept (c c' : Core) : Prop := c'.Ok ∧ c'.total = c.total

theorem drained_of_map_q {c : Core} {ls : List Layer} (h : ls.map Layer.q = c.layers.map Layer.q) :
    ({ c with layers := ls } : Core).drained = c.drained := by
  have hall : ∀ xs : List Layer, (xs.all fun l => l.q.isEmpty) = (xs.map Layer.q).all List.isEmpty := fun xs => by
    rw [List.all_map]
    rfl
  show (ls.all fun l => l.q.isEmpty) = c.layers.all fun l => l.q.isEmpty
  rw [hall, hall, h]

theorem kept_of_reduced {c : Core} {ls : List Layer} (hc : c.Ok) (h : Reduced c.layers ls) :
    Kept c { c with layers := ls } := by
  obtain ⟨hcarry, htotal, hlen, _, hroot⟩ := hc
  have hlen' : ls.length = c.layers.length := by simpa using congrArg List.length h.2
  exact ⟨⟨hcarry, htotal, hlen'.trans hlen, h.1, hroot⟩, rfl⟩

/-- The reference PUSH at layer 0 (rules R121, R122, R130). -/
theorem pushAt_meets {c : Core} {n : Node} (hc : c.Ok) (hn : isFr32 n = true) :
    Meets (fun c' => Kept c c' ∧ c'.drained = c.drained) True False (c.pushAt ok 0 n) := by
  have hne : c.layers ≠ [] := fun h => by have := hc.2.2.1; rw [h] at this; cases this
  have hpush := push_meets (ok := ok) (i := 0) hne hc.2.2.2.1 hn
  unfold Core.pushAt
  rw [List.drop_zero, List.take_zero]
  match push ok 0 c.layers n, hpush with
  | .error .internal, _ => trivial
  | .ok ls, hpush => exact ⟨kept_of_reduced hc hpush, drained_of_map_q hpush.2⟩

/-- The reference CLOSE at layer 0, which publishes a root (rules R125, R130). -/
theorem closeAt_meets {c : Core} (hc : c.Ok) :
    Meets (fun c' => Kept c c' ∧ c'.drained = c.drained) True False (c.closeAt ok 0) := by
  have hlen : c.layers.length = 31 + 1 := hc.2.2.1
  have hclose := close_meets (ok := ok) (i := 0) hlen (by decide) hc.2.2.2.1
  unfold Core.closeAt
  rw [List.drop_zero, List.take_zero, hlen]
  match close ok (31 + 1) 0 c.layers, hclose with
  | .error .internal, _ => trivial
  | .ok (ls, r), hclose =>
    obtain ⟨hred, hr⟩ := hclose
    obtain ⟨hcarry, htotal, hlen, hall, _⟩ := (kept_of_reduced hc hred).1
    exact ⟨⟨⟨hcarry, htotal, hlen, hall, by simpa using hr⟩, rfl⟩, drained_of_map_q hred.2⟩

theorem setLayer_kept {c : Core} {i : Nat} {l : Layer} (hc : c.Ok) (hl : l.ok = true) : Kept c (c.setLayer i l) := by
  obtain ⟨hcarry, htotal, hlen, hall, hroot⟩ := hc
  refine ⟨⟨hcarry, htotal, by simpa using hlen, ?_, hroot⟩, rfl⟩
  rw [List.all_eq_true] at hall ⊢
  intro x hx
  obtain hx | rfl := List.mem_or_eq_of_mem_set hx
  · exact hall x hx
  · exact hl

theorem setLayer_setLayer_kept {c : Core} {i j : Nat} {l m : Layer} (hc : c.Ok) (hl : l.ok = true) (hm : m.ok = true) :
    Kept c ((c.setLayer i l).setLayer j m) := setLayer_kept (setLayer_kept hc hl).1 hm

theorem layer_ok_of_getElem? {c : Core} {i : Nat} {l : Layer} (hc : c.Ok) (h : c.layers[i]? = some l) : l.ok = true :=
  List.all_eq_true.1 hc.2.2.2.1 l (List.mem_of_getElem? h)

theorem getElem?_of_lt {c : Core} {i : Nat} (hc : c.Ok) (hi : i < layerCount) : ∃ l, c.layers[i]? = some l := by
  have hlen : c.layers.length = layerCount := hc.2.2.1
  exact ⟨_, List.getElem?_eq_getElem (by omega)⟩

/-- A layer after its agent popped a token and put an Fr32 node, or none, into the slot (rule R140). -/
theorem ok_of_pop {l : Layer} {slot : Option Node} (hl : l.ok = true) (hs : ∀ n, slot = some n → isFr32 n = true) :
    ({ l with slot := slot, q := l.q.tail } : Layer).ok = true :=
  (layer_ok_iff _).2 ⟨hs, fun t ht => ((layer_ok_iff l).1 hl).2 t (List.mem_of_mem_tail ht)⟩

/-- A layer after a token was queued for it. -/
theorem ok_of_queued {l : Layer} {active : Bool} {ts : List Token} (hl : l.ok = true) (ht : ∀ t ∈ ts, tokenOk t = true) :
    ({ l with active := active, q := l.q ++ ts } : Layer).ok = true := by
  obtain ⟨hslot, hq⟩ := (layer_ok_iff l).1 hl
  refine (layer_ok_iff _).2 ⟨hslot, fun t h => ?_⟩
  obtain h | h := List.mem_append.1 h
  · exact hq t h
  · exact ht t h

/-- What an operation of the pipeline may do with the core: keep rules R22 to R26, or hold. -/
def KeptOrHeld (c : Core) (x : Option Core) : Prop := ∀ c', x = some c' → Kept c c'

theorem enqueue_meets {d : Nat} {c : Core} {t : Token} (hc : c.Ok) (ht : tokenOk t = true) :
    Meets (KeptOrHeld c) True False (c.enqueue d 0 t) := by
  obtain ⟨l, hl⟩ := getElem?_of_lt hc (i := 0) (by decide)
  unfold Core.enqueue
  rw [hl]
  intro c' hc'
  obtain ⟨-, rfl⟩ : l.q.length < d ∧ c.setLayer 0 { l with q := l.q ++ [t] } = c' := by simpa using hc'
  exact setLayer_kept hc (ok_of_queued (layer_ok_of_getElem? hc hl) (by simpa using ht))

theorem agentNode_meets {d i : Nat} {c : Core} {n : Node} (hc : c.Ok) (hi : i < layerCount) (hn : isFr32 n = true) :
    Meets (KeptOrHeld c) True False (c.agentNode d ok i n) := by
  obtain ⟨l, hl⟩ := getElem?_of_lt hc hi
  have hlok := layer_ok_of_getElem? hc hl
  unfold Core.agentNode
  rw [hl]
  simp only
  split
  · rintro _ ⟨⟩
    exact setLayer_kept hc (ok_of_pop hlok (by simpa using hn))
  · next left _ =>
    split
    · trivial
    · next m hm =>
      have hmok := layer_ok_of_getElem? hc hm
      split
      · have hparent := hash_meets (ok := ok) left n
        match hash ok left n, hparent with
        | .error .internal, _ => trivial
        | .ok parent, hparent =>
          rintro _ ⟨⟩
          exact setLayer_setLayer_kept hc (ok_of_pop hlok (by simp))
            (ok_of_queued hmok (by simpa using tokenOk_nodeToken hparent))
      · rintro _ ⟨⟩

theorem agentClose_meets {d i : Nat} {c : Core} (hc : c.Ok) (hi : i < layerCount) :
    Meets (KeptOrHeld c) True False (c.agentClose d ok i) := by
  obtain ⟨l, hl⟩ := getElem?_of_lt hc hi
  have hlok := layer_ok_of_getElem? hc hl
  unfold Core.agentClose
  rw [hl]
  simp only
  split
  · split
    · trivial
    · next n hn =>
      rintro _ ⟨⟩
      obtain ⟨⟨hcarry, htotal, hlen, hall, _⟩, _⟩ := setLayer_kept hc (i := i) (ok_of_pop hlok (slot := none) (by simp))
      exact ⟨⟨hcarry, htotal, hlen, hall, by simpa using ((layer_ok_iff l).1 hlok).1 n hn⟩, rfl⟩
  · split
    · trivial
    · next m hm =>
      have hmok := layer_ok_of_getElem? hc hm
      split
      · intro c' hc'
        obtain ⟨-, rfl⟩ : m.q.length < d ∧
            (c.setLayer i { l with q := l.q.tail }).setLayer (i + 1) { m with q := m.q ++ [closeToken] } = c' := by simpa using hc'
        exact setLayer_setLayer_kept hc (ok_of_pop hlok ((layer_ok_iff l).1 hlok).1)
          (ok_of_queued hmok (by simpa using tokenOk_closeToken))
      · next left _ =>
        split
        · have hidx : i + 1 < layerCount := by
            have := (List.getElem?_eq_some_iff.1 hm).1
            have hlen : c.layers.length = layerCount := hc.2.2.1
            omega
          rw [readTower_eq (by unfold towerEntries; unfold layerCount at hidx; omega)]
          simp only
          have hparent := hash_meets (ok := ok) left (tower i)
          match hash ok left (tower i), hparent with
          | .error .internal, _ => trivial
          | .ok parent, hparent =>
            have hnode := tokenOk_nodeToken hparent
            simp only
            split
            · rintro _ ⟨⟩
              exact setLayer_setLayer_kept hc (ok_of_slot hlok (by simp)) (ok_of_queued hmok (by simpa using hnode))
            · rintro _ ⟨⟩
              exact setLayer_setLayer_kept hc (ok_of_pop hlok (by simp))
                (ok_of_queued hmok (by simpa using ⟨hnode, tokenOk_closeToken⟩))
        · rintro _ ⟨⟩

end Sys2Proof.StateProofs
end

section
/-! PROOFS. The inductive invariant of every run, and that no step from it stops (rules R22 to R33, 93 U5). -/

namespace Sys2Proof.StateProofs

open Sys2Proof Sys2Proof.Machine Sys2Proof.Config

/-! ## The parser's fields, by phase -/

theorem phaseOk_cmd {p : Parser} {job : List SeqOp} {total : Size} (h : p.phase = .cmd) :
    p.phaseOk job total ↔ p.cmd = none ∧ job.any SeqOp.isAwait = true := by
  unfold Parser.phaseOk
  rw [h]
  cases p.cmd <;> simp

theorem phaseOk_payload {p : Parser} {job : List SeqOp} {total : Size} (h : p.phase = .payload) :
    p.phaseOk job total ↔ ∃ c, p.cmd = some c ∧ job.any SeqOp.isAwait = false ∧ (p.rem = 0#56 ↔ SeqOp.writeDone ∈ job) ∧
      (p.drop = true → job = []) ∧ (p.drop = false → total.toNat + c.arg.toNat ≤ maxPiecePayload) := by
  unfold Parser.phaseOk
  rw [h]
  cases p.cmd <;> simp

theorem phaseOk_extC {p : Parser} {job : List SeqOp} {total : Size} (h : p.phase = .extC) :
    p.phaseOk job total ↔ p.cmd ≠ none ∧ job = [] ∧ p.rem ≠ 0#56 ∧ (p.drop = false → p.xs = [] ∧ p.xt = [] ∧
      p.xc.length = min digestSize (p.xclen.toNat - p.rem.toNat) ∧ p.rem.toNat ≤ p.xclen.toNat) := by
  unfold Parser.phaseOk
  rw [h]
  cases p.cmd <;> simp

theorem phaseOk_extS {p : Parser} {job : List SeqOp} {total : Size} (h : p.phase = .extS) :
    p.phaseOk job total ↔ p.cmd ≠ none ∧ job = [] ∧ p.rem ≠ 0#56 ∧ p.rem.toNat ≤ 8 ∧ (p.drop = false →
      p.xs.length = 8 - p.rem.toNat ∧ p.xt = [] ∧ p.xc.length = min digestSize p.xclen.toNat) := by
  unfold Parser.phaseOk
  rw [h]
  cases p.cmd <;> simp

theorem phaseOk_extT {p : Parser} {job : List SeqOp} {total : Size} (h : p.phase = .extT) :
    p.phaseOk job total ↔ p.cmd ≠ none ∧ job = [] ∧ p.rem ≠ 0#56 ∧ p.rem.toNat ≤ 8 ∧ (p.drop = false →
      p.xs.length = 8 ∧ p.xt.length = 8 - p.rem.toNat ∧ p.xc.length = min digestSize p.xclen.toNat) := by
  unfold Parser.phaseOk
  rw [h]
  cases p.cmd <;> simp

theorem parserOk_idle {s : State} (h : s.parser.saved = none) :
    s.parserOk ↔ s.parser.phase = .cmd ∧ s.parser.cmd = none ∧ s.job = [] := by
  unfold State.parserOk
  rw [h]

theorem parserOk_running {s : State} {c : Core} (h : s.parser.saved = some c) :
    s.parserOk ↔ c.Ok ∧ c.drained = true ∧ s.rspq.length < s.params.rspqDepth ∧ s.parser.phaseOk s.job s.core.total := by
  unfold State.parserOk
  rw [h]

/-- While operand bytes are due a command may begin to discard them (rules R77, R214). -/
theorem phaseOk_discard {p : Parser} {job : List SeqOp} {total total' : Size} (h : p.phaseOk job total)
    (hphase : p.phase ≠ .cmd) (hrem : p.rem ≠ 0#56) : ({ p with drop := true } : Parser).phaseOk [] total' := by
  cases hp : p.phase with
  | cmd => exact absurd hp hphase
  | payload =>
    obtain ⟨c, hc, -⟩ := (phaseOk_payload hp).1 h
    exact (phaseOk_payload rfl).2 ⟨c, hc, rfl, by simpa using hrem, fun _ => rfl, fun hd => nomatch hd⟩
  | extC =>
    obtain ⟨hc, -⟩ := (phaseOk_extC hp).1 h
    exact (phaseOk_extC rfl).2 ⟨hc, rfl, hrem, fun hd => nomatch hd⟩
  | extS =>
    obtain ⟨hc, -, -, hle, -⟩ := (phaseOk_extS hp).1 h
    exact (phaseOk_extS rfl).2 ⟨hc, rfl, hrem, hle, fun hd => nomatch hd⟩
  | extT =>
    obtain ⟨hc, -, -, hle, -⟩ := (phaseOk_extT hp).1 h
    exact (phaseOk_extT rfl).2 ⟨hc, rfl, hrem, hle, fun hd => nomatch hd⟩

/-! ## The inductive invariant -/

/-- The invariant of every run, with its part `queues` asking for `DROP = 0` in a WRITE only: that part is then inductive. If
`strict`, `DROP = 0` is asked for throughout `PHASE = CMD`, which gives the whole invariant. -/
structure RunInv (strict : Prop) (s : State) : Prop where
  params : s.params.wf = true
  core : s.core.Ok
  parser : s.parserOk
  queues : s.core.drained = true ∨
    s.params.fused = false ∧ s.parser.saved ≠ none ∧ (s.parser.phase = .cmd ∨ s.parser.phase = .payload ∧ s.parser.drop = false)
  cwcnt : s.parser.cwbuf.length < 8
  job : jobShape s.job = true
  rspq : s.rspq.length ≤ s.params.rspqDepth
  fatalJob : s.fatal = true → s.job = []
  fatalDrop : s.fatal = true → s.parser.saved ≠ none → s.parser.drop = true
  idleDrop : strict → s.parser.phase = .cmd → s.parser.drop = false

theorem runInv_of_inv {strict : Prop} {s : State} (h : s.Inv) (hd : strict → s.parser.phase = .cmd → s.parser.drop = false) :
    RunInv strict s where
  params := h.params
  core := h.core
  parser := h.parser
  queues := h.queues.imp_right fun ⟨hf, hs, hdrop, hp⟩ => ⟨hf, hs, hp.imp_right fun hp => ⟨hp, hdrop⟩⟩
  cwcnt := h.cwcnt
  job := h.job
  rspq := h.rspq
  fatalJob := h.fatalJob
  fatalDrop := h.fatalDrop
  idleDrop := hd

theorem RunInv.inv {s : State} (h : RunInv True s) : s.Inv where
  params := h.params
  core := h.core
  parser := h.parser
  queues := h.queues.imp_right fun ⟨hf, hs, hp⟩ => by
    obtain hp | ⟨hp, hd⟩ := hp
    · exact ⟨hf, hs, h.idleDrop trivial hp, .inl hp⟩
    · exact ⟨hf, hs, hd, .inr hp⟩
  cwcnt := h.cwcnt
  job := h.job
  rspq := h.rspq
  fatalJob := h.fatalJob
  fatalDrop := h.fatalDrop

variable {strict : Prop} {s : State}

/-- With no command in progress nothing is pending. -/
theorem RunInv.idle (h : RunInv strict s) (hs : s.parser.saved = none) :
    s.parser.phase = .cmd ∧ s.parser.cmd = none ∧ s.job = [] := (parserOk_idle hs).1 h.parser

/-- What holds of the command in progress and of the state it goes back to. -/
theorem RunInv.running {c : Core} (h : RunInv strict s) (hs : s.parser.saved = some c) :
    c.Ok ∧ c.drained = true ∧ s.rspq.length < s.params.rspqDepth ∧ s.parser.phaseOk s.job s.core.total :=
  (parserOk_running hs).1 h.parser

/-- The invariant does not depend on the world outside, the engine or `sel`. -/
theorem RunInv.frame {t : State} (h : RunInv strict s) (hcore : t.core = s.core) (hparser : t.parser = s.parser)
    (hjob : t.job = s.job) (hfatal : t.fatal = s.fatal) (hparams : t.params = s.params)
    (hrspq : t.rspq.length ≤ s.rspq.length) : RunInv strict t := by
  obtain ⟨core, parser, job, rspq, fatal, cause, sel, sha, params, input, out, sched⟩ := t
  subst hcore hparser hjob hfatal hparams
  refine { h with parser := ?_, rspq := hrspq.trans h.rspq }
  show State.parserOk { s with rspq := rspq }
  cases hs : s.parser.saved with
  | none => exact (parserOk_idle (by exact hs)).2 (h.idle hs)
  | some c =>
    obtain ⟨hc, hd, hroom, hphase⟩ := h.running hs
    exact (parserOk_running (by exact hs)).2 ⟨hc, hd, Nat.lt_of_le_of_lt hrspq hroom, hphase⟩

/-- The invariant between commands. -/
theorem runInv_between {p : Parser} (hw : s.params.wf = true) (hc : s.core.Ok) (hd : s.core.drained = true)
    (hp : s.parser = p.next) (hj : s.job = []) (hr : s.rspq.length ≤ s.params.rspqDepth) : RunInv strict s where
  params := hw
  core := hc
  parser := (parserOk_idle (by rw [hp]; rfl)).2 ⟨by rw [hp]; rfl, by rw [hp]; rfl, hj⟩
  queues := .inl hd
  cwcnt := by rw [hp]; exact Nat.succ_pos 7
  job := by rw [hj]; rfl
  rspq := hr
  fatalJob := fun _ => hj
  fatalDrop := fun _ hs => by rw [hp] at hs; exact absurd rfl hs
  idleDrop := fun _ _ => by rw [hp]; rfl

/-- What a response needs: the command in progress has left nothing behind, and `RSPQ` has room. -/
structure Answerable (s : State) : Prop where
  params : s.params.wf = true
  core : s.core.Ok
  drained : s.core.drained = true
  job : s.job = []
  room : s.rspq.length < s.params.rspqDepth

theorem reply_runInv (h : Answerable s) (st : Status) (p : List Byte) : RunInv strict (reply st p s) :=
  runInv_between h.params h.core h.drained (reply_parser st p s) h.job (by
    have := h.room
    rw [reply_rspq, List.length_append]
    exact this)

/-- The internal fault keeps the invariant, whatever the discarded command did with the core and the job (rules R12, R214). -/
theorem internalFault_runInv {c : Core} {job : List SeqOp} (h : RunInv strict { s with core := c, job := job })
    (hs : s.parser.saved ≠ none) : RunInv strict (internalFault s) := by
  obtain ⟨hnone, -⟩ | ⟨d, hsaved, hfault⟩ := internalFault_cases s
  · exact absurd hnone hs
  obtain ⟨hd, hdrained, hroom, hphase⟩ := h.running hsaved
  obtain ⟨hdue, heq⟩ | ⟨-, heq⟩ := hfault
  · obtain ⟨hp, hrem⟩ : s.parser.phase ≠ .cmd ∧ s.parser.rem ≠ 0#56 := by simpa [State.operandsDue] using hdue
    rw [heq]
    exact {
      params := h.params
      core := hd
      parser := (parserOk_running (by exact hsaved)).2 ⟨hd, hdrained, hroom, phaseOk_discard hphase hp hrem⟩
      queues := .inl hdrained
      cwcnt := h.cwcnt
      job := rfl
      rspq := h.rspq
      fatalJob := fun _ => rfl
      fatalDrop := fun _ _ => rfl
      idleDrop := fun _ hcmd => absurd hcmd hp }
  · rw [heq]
    exact runInv_between h.params hd hdrained rfl rfl (by rw [List.length_append]; exact hroom)

/-! ## Actions of the sequencer -/

/-- While actions are pending a WRITE, DIGEST or SUM is in progress, not under FATAL. -/
theorem RunInv.pending {op : SeqOp} {ops : List SeqOp} (h : RunInv strict { s with job := op :: ops }) :
    s.fatal = false ∧
      ∃ c, s.parser.saved = some c ∧ (s.parser.phase = .cmd ∨ s.parser.phase = .payload ∧ s.parser.drop = false) := by
  have hfatal : s.fatal = false := by
    cases hf : s.fatal with
    | false => rfl
    | true => cases h.fatalJob hf
  refine ⟨hfatal, ?_⟩
  cases hs : s.parser.saved with
  | none => cases (h.idle hs).2.2
  | some c =>
    obtain ⟨-, -, -, hphase⟩ := h.running hs
    refine ⟨c, rfl, ?_⟩
    cases hp : s.parser.phase with
    | cmd => exact .inl rfl
    | payload =>
      obtain ⟨_, -, -, -, hdrop, -⟩ := (phaseOk_payload hp).1 hphase
      refine .inr ⟨rfl, ?_⟩
      cases hd : s.parser.drop with
      | false => rfl
      | true => cases hdrop hd
    | extC => cases ((phaseOk_extC hp).1 hphase).2.1
    | extS => cases ((phaseOk_extS hp).1 hphase).2.1
    | extT => cases ((phaseOk_extT hp).1 hphase).2.1

/-- Once a leaf is put or layer 0 is closed, the actions left meet the invariant with the new core. -/
theorem RunInv.action_done {op : SeqOp} {ops : List SeqOp} {c : Core} (h : RunInv strict { s with job := op :: ops })
    (hawait : op.isAwait = false) (hdone : op ≠ .writeDone) (hjob : jobShape ops = true) (hc : Kept s.core c)
    (hfused : s.params.fused = true → c.drained = true) : RunInv strict { s with core := c, job := ops } := by
  obtain ⟨hfatal, d, hsaved, hp⟩ := h.pending
  obtain ⟨hd, hdrained, hroom, hphase⟩ := h.running hsaved
  have hphase' : s.parser.phaseOk ops c.total := by
    obtain hp | ⟨hp, hdrop⟩ := hp
    · obtain ⟨hcmd, hany⟩ := (phaseOk_cmd hp).1 hphase
      exact (phaseOk_cmd hp).2 ⟨hcmd, by simpa [hawait] using hany⟩
    · obtain ⟨k, hcmd, hany, hrem, -, htotal⟩ := (phaseOk_payload hp).1 hphase
      refine (phaseOk_payload hp).2 ⟨k, hcmd, ?_, ?_, ?_, ?_⟩
      · simpa [hawait] using hany
      · rw [hrem, List.mem_cons, or_iff_right (Ne.symm hdone)]
      · rw [hdrop]; exact fun hd => nomatch hd
      · rw [hc.2]; exact htotal
  exact {
    params := h.params
    core := hc.1
    parser := (parserOk_running (by exact hsaved)).2 ⟨hd, hdrained, hroom, hphase'⟩
    queues := by
      by_cases hf : s.params.fused = true
      · exact .inl (hfused hf)
      · exact .inr ⟨by simpa using hf, by simp [hsaved], hp⟩
    cwcnt := h.cwcnt
    job := hjob
    rspq := h.rspq
    fatalJob := by rw [hfatal]; exact fun hf => nomatch hf
    fatalDrop := by rw [hfatal]; exact fun hf => nomatch hf
    idleDrop := h.idleDrop }

/-- A fused block has no token queued (rule R221). -/
theorem RunInv.fused_drained (h : RunInv strict s) (hf : s.params.fused = true) : s.core.drained = true := by
  obtain hd | ⟨hf', -⟩ := h.queues
  · exact hd
  · rw [hf] at hf'; cases hf'

theorem jobShape_push {n : Node} {ops : List SeqOp} :
    jobShape (.push n :: ops) = true ↔ isFr32 n = true ∧ jobShape ops = true := by
  simp [jobShape]

theorem jobShape_close {ops : List SeqOp} (h : jobShape (.close :: ops) = true) : jobShape ops = true := by
  unfold jobShape at h
  split at h <;> simp_all [jobShape]

theorem jobShape_await {b : Bool} {ops : List SeqOp} (h : jobShape (.await b :: ops) = true) : ops = [] := by
  unfold jobShape at h
  split at h <;> simp_all

theorem jobShape_writeDone {ops : List SeqOp} (h : jobShape (.writeDone :: ops) = true) : ops = [] := by
  unfold jobShape at h
  split at h <;> simp_all

/-- The end of a WRITE finds its `ARG`, and `TOTAL` stays within `MaxPiecePayload` (rules R23, R150). -/
theorem answerWrite_meets {ops : List SeqOp} (h : RunInv strict { s with job := .writeDone :: ops })
    (hd : s.core.drained = true) :
    Meets (fun t => RunInv strict { t with job := [] }) True False (answerWrite s) := by
  obtain ⟨-, d, hsaved, hp⟩ := h.pending
  obtain ⟨-, -, hroom, hphase⟩ := h.running hsaved
  have hops : ops = [] := jobShape_writeDone h.job
  obtain hp | ⟨hp, hdrop⟩ := hp
  · have := ((phaseOk_cmd hp).1 hphase).2
    rw [hops] at this
    cases this
  · obtain ⟨k, hcmd, -, -, -, htotal⟩ := (phaseOk_payload hp).1 hphase
    obtain ⟨hcarry, -, hlayers⟩ := h.core
    have hle : (s.core.total + zext64 k.arg).toNat ≤ maxPiecePayload := by
      refine le_trans ?_ (htotal hdrop)
      rw [BitVec.toNat_add, zext64, BitVec.toNat_setWidth_of_le (by decide)]
      exact Nat.mod_le _ _
    unfold answerWrite State.arg
    rw [hcmd]
    exact runInv_between h.params ⟨hcarry, hle, hlayers⟩ hd rfl rfl (by
      rw [reply_rspq, List.length_append]
      exact hroom)

/-- One action of the sequencer keeps the invariant, with the actions left as the job. -/
theorem runOp_meets {op : SeqOp} {ops : List SeqOp} (h : RunInv strict { s with job := op :: ops }) :
    Meets (Acts (RunInv strict { s with job := op :: ops }) fun t => RunInv strict { t with job := ops }) True False
      (runOp op s) := by
  have hcore : s.core.Ok := h.core
  have hfused (hf : s.params.fused = true) : s.core.drained = true := h.fused_drained hf
  cases op with
  | push leaf =>
    obtain ⟨hleaf, hops⟩ := jobShape_push.1 h.job
    rw [runOp_push]
    split
    · next hf =>
      refine stepped_meets ((pushAt_meets hcore hleaf).imp (fun c hc => ?_) id)
      exact h.action_done rfl (fun hop => nomatch hop) hops hc.1 fun _ => hc.2.trans (hfused hf)
    · next hf =>
      refine steppedOrHeld_meets h ((enqueue_meets hcore (tokenOk_nodeToken hleaf)).imp (fun x hx c hc => ?_) id)
      exact h.action_done rfl (fun hop => nomatch hop) hops (hx c hc) fun hf' => absurd hf' hf
  | close =>
    have hops := jobShape_close h.job
    rw [runOp_close]
    split
    · next hf =>
      refine stepped_meets ((closeAt_meets hcore).imp (fun c hc => ?_) id)
      exact h.action_done rfl (fun hop => nomatch hop) hops hc.1 fun _ => hc.2.trans (hfused hf)
    · next hf =>
      refine steppedOrHeld_meets h ((enqueue_meets hcore tokenOk_closeToken).imp (fun x hx c hc => ?_) id)
      exact h.action_done rfl (fun hop => nomatch hop) hops (hx c hc) fun hf' => absurd hf' hf
  | await sized =>
    obtain ⟨-, d, hsaved, -⟩ := h.pending
    obtain ⟨-, -, hroom, -⟩ := h.running hsaved
    rw [runOp_await]
    cases s.core.root with
    | none => exact h
    | some r =>
      rw [jobShape_await h.job]
      exact runInv_between h.params empty_ok empty_drained rfl rfl (by
        rw [answerRoot_rspq, List.length_append]
        exact hroom)
  | writeDone =>
    cases hp : s.pipelineEmpty with
    | false =>
      rw [runOp_writeDone_holds hp]
      exact h
    | true =>
      have hd : s.core.drained = true := by
        obtain hf | hd := Bool.or_eq_true_iff.1 hp
        · exact hfused hf
        · exact hd
      refine runOp_writeDone_meets hp ?_
      rw [jobShape_writeDone h.job]
      exact answerWrite_meets h hd

/-- Running the actions of a command keeps the invariant. -/
theorem runOps_runInv {ops : List SeqOp} (h : RunInv strict { s with job := ops }) :
    Meets (RunInv strict) True False (runOps ops s) :=
  runOps_meets (R := fun ops t => RunInv strict { t with job := ops }) (fun _ ht => ht) (fun _ _ _ ht => runOp_meets ht) h

/-- An operation of the command in progress, or its internal fault. -/
theorem trap_runInv {c : Core} {job : List SeqOp} {r : Res State} (h : RunInv strict { s with core := c, job := job })
    (hs : s.parser.saved ≠ none) (hr : Meets (RunInv strict) True False r) : Ends (RunInv strict) False (trap s r) :=
  ends_trap (hr.imp (fun _ ht => ht) fun _ => internalFault_runInv h hs)

/-- The actions of a command after its carry buffer gave up a quad, or the internal fault. -/
theorem trap_runOps_runInv {c : Core} {ops : List SeqOp} (h : RunInv strict { s with core := c, job := ops })
    (hs : s.parser.saved ≠ none) : Ends (RunInv strict) False (trap s (runOps ops { s with core := c })) :=
  trap_runInv h hs (runOps_runInv h)

/-! ## Operand bytes -/

/-- What a command that takes operand bytes is: `REM` is not 0, and a token is queued only in a WRITE that absorbs its bytes. -/
theorem RunInv.operand (h : RunInv strict s) (hp : s.parser.phase ≠ .cmd) (hj : s.job = []) :
    (∃ c, s.parser.saved = some c) ∧ s.rspq.length < s.params.rspqDepth ∧ s.parser.rem ≠ 0#56 ∧
      (s.core.drained = true ∨ s.parser.phase = .payload ∧ s.parser.drop = false) := by
  cases hs : s.parser.saved with
  | none => exact absurd (h.idle hs).1 hp
  | some c =>
    obtain ⟨-, -, hroom, hphase⟩ := h.running hs
    refine ⟨⟨c, rfl⟩, hroom, ?_, ?_⟩
    · cases hp' : s.parser.phase with
      | cmd => exact absurd hp' hp
      | payload =>
        obtain ⟨_, -, -, hrem, -⟩ := (phaseOk_payload hp').1 hphase
        simp [hrem, hj]
      | extC => exact ((phaseOk_extC hp').1 hphase).2.2.1
      | extS => exact ((phaseOk_extS hp').1 hphase).2.2.1
      | extT => exact ((phaseOk_extT hp').1 hphase).2.2.1
    · obtain hd | ⟨-, -, hcmd | hpay⟩ := h.queues
      · exact .inl hd
      · exact absurd hcmd hp
      · exact .inr hpay

/-- Changing the operands of the command in progress keeps the invariant, if the phase still agrees. -/
theorem RunInv.operand_next {c : Core} {p : Parser} (h : RunInv strict s) (hs : s.parser.saved = some c)
    (hd : s.core.drained = true) (hsaved : p.saved = s.parser.saved) (hdrop : p.drop = s.parser.drop)
    (hcwbuf : p.cwbuf = s.parser.cwbuf) (hp : p.phase ≠ .cmd) (hphase : p.phaseOk s.job s.core.total) : RunInv strict { s with parser := p } := by
  obtain ⟨hc, hcd, hroom, -⟩ := h.running hs
  exact {
    params := h.params
    core := h.core
    parser := (parserOk_running (by exact hsaved.trans hs)).2 ⟨hc, hcd, hroom, hphase⟩
    queues := .inl hd
    cwcnt := by rw [hcwbuf]; exact h.cwcnt
    job := h.job
    rspq := h.rspq
    fatalJob := h.fatalJob
    fatalDrop := by rw [hsaved, hdrop]; exact h.fatalDrop
    idleDrop := fun _ hcmd => absurd hcmd hp }

/-- `REM - 1` for a `REM` that is not 0. -/
theorem toNat_sub_one {r : Arg} (h : r ≠ 0#56) : (r - 1#56).toNat = r.toNat - 1 ∧ 0 < r.toNat := by
  have h0 : r.toNat ≠ 0 := fun h0 => h (BitVec.eq_of_toNat_eq h0)
  have := r.isLt
  rw [BitVec.toNat_sub]
  simp only [BitVec.toNat_ofNat]
  omega

/-- `REM` at the start of `XS` and of `XT`. -/
theorem eight_ne_zero : 8#56 ≠ 0#56 := by decide

/-- A command that is not absorbing bytes can be answered once its operand is in. -/
theorem RunInv.answerable (h : RunInv strict s) (hd : s.core.drained = true) (hj : s.job = [])
    (hroom : s.rspq.length < s.params.rspqDepth) : Answerable s := ⟨h.params, h.core, hd, hj, hroom⟩

theorem extCByte_runInv (b : Byte) (h : RunInv strict s) (hp : s.parser.phase = .extC) : RunInv strict (extCByte b s) := by
  have hne : s.parser.phase ≠ .cmd := by rw [hp]; exact fun h => nomatch h
  cases hs : s.parser.saved with
  | none => exact absurd (h.idle hs).1 hne
  | some c =>
    obtain ⟨hcmd, hj, hrem, hfields⟩ := (phaseOk_extC hp).1 (h.running hs).2.2.2
    obtain ⟨-, -, -, hd | ⟨hp', -⟩⟩ := h.operand hne hj
    · obtain ⟨hsub, hpos⟩ := toNat_sub_one hrem
      have hxc : s.parser.drop = false → (stageC b s).parser.xc.length =
          min digestSize (s.parser.xclen.toNat - (s.parser.rem - 1#56).toNat) := fun hdrop => by
        obtain ⟨-, -, hlen, hle⟩ := hfields hdrop
        unfold digestSize at hlen ⊢
        by_cases hfull : s.parser.xc.length < 32
        · simp [stageC, hdrop, digestSize, hfull]
          omega
        · simp [stageC, hdrop, digestSize, hfull]
          omega
      rw [extCByte_eq]
      split
      · next hlast =>
        refine h.operand_next hs hd rfl rfl rfl (fun h => nomatch h)
          ((phaseOk_extS rfl).2 ⟨hcmd, hj, eight_ne_zero, le_refl 8, ?_⟩)
        intro hdrop
        obtain ⟨hxs, hxt, -, -⟩ := hfields hdrop
        refine ⟨by simp [stageC, hxs], by simpa [stageC] using hxt, ?_⟩
        have := hxc hdrop
        rw [hlast] at this
        exact this
      · next hmore =>
        refine h.operand_next hs hd rfl rfl rfl hne ((phaseOk_extC (by exact hp)).2 ⟨hcmd, hj, hmore, fun hdrop => ?_⟩)
        obtain ⟨hxs, hxt, -, hle⟩ := hfields hdrop
        exact ⟨hxs, hxt, hxc hdrop, by show (s.parser.rem - 1#56).toNat ≤ s.parser.xclen.toNat; omega⟩
    · rw [hp] at hp'; cases hp'

theorem extSByte_runInv (b : Byte) (h : RunInv strict s) (hp : s.parser.phase = .extS) : RunInv strict (extSByte b s) := by
  have hne : s.parser.phase ≠ .cmd := by rw [hp]; exact fun h => nomatch h
  cases hs : s.parser.saved with
  | none => exact absurd (h.idle hs).1 hne
  | some c =>
    obtain ⟨hcmd, hj, hrem, hle, hfields⟩ := (phaseOk_extS hp).1 (h.running hs).2.2.2
    obtain ⟨-, -, -, hd | ⟨hp', -⟩⟩ := h.operand hne hj
    · obtain ⟨hsub, hpos⟩ := toNat_sub_one hrem
      have hxs : s.parser.drop = false → (stageS b s).parser.xs.length = 8 - (s.parser.rem - 1#56).toNat := fun hdrop => by
        obtain ⟨hlen, -, -⟩ := hfields hdrop
        simp only [stageS, hdrop, Bool.false_eq_true, if_false, List.length_append, List.length_singleton]
        omega
      rw [extSByte_eq]
      split
      · next hlast =>
        refine h.operand_next hs hd rfl rfl rfl (fun h => nomatch h)
          ((phaseOk_extT rfl).2 ⟨hcmd, hj, eight_ne_zero, le_refl 8, ?_⟩)
        intro hdrop
        obtain ⟨-, hxt, hxc⟩ := hfields hdrop
        refine ⟨?_, by simp [stageS, hxt], hxc⟩
        have := hxs hdrop
        rw [hlast] at this
        exact this
      · next hmore =>
        refine h.operand_next hs hd rfl rfl rfl hne ((phaseOk_extS (by exact hp)).2 ⟨hcmd, hj, hmore, ?_, fun hdrop => ?_⟩)
        · show (s.parser.rem - 1#56).toNat ≤ 8
          omega
        · obtain ⟨-, hxt, hxc⟩ := hfields hdrop
          exact ⟨hxs hdrop, hxt, hxc⟩
    · rw [hp] at hp'; cases hp'

end Sys2Proof.StateProofs
end

section
/-! PROOFS. Every turn keeps the inductive invariant and answers a next state. -/

namespace Sys2Proof.StateProofs

open Sys2Proof Sys2Proof.Machine Sys2Proof.Config

variable {strict : Prop} {s : State}

/-! ## EXTEND -/

/-- The checks of VALIDATE that bound the extension loop (rule R194). -/
theorem validate_none {clen : Arg} {src tgt : Size} (h : validate clen src tgt = none) :
    clen.toNat = 32 ∧ tgt.toNat ≤ 2 ^ 36 := by
  unfold validate at h
  split_ifs at h with hclen _ _ _ htgt
  constructor
  · have := congrArg BitVec.toNat (not_not.1 hclen)
    rwa [zext64, BitVec.toNat_setWidth_of_le (by decide)] at this
  · simpa [BitVec.lt_def, maxPieceSize] using htgt

/-- The extension loop reads the tower below entry 31 only (rules R50, R195). -/
theorem extendLoop_meets {ok : Bool} {n k : Nat} {c : Node} (h : 0 < n → k + n ≤ 36) :
    Meets (fun _ => True) True False (extendLoop ok n k c) := by
  induction n generalizing k c with
  | zero => trivial
  | succ n ih =>
    have hk := h n.succ_pos
    unfold extendLoop
    rw [readTower_eq (by unfold towerEntries; omega)]
    simp only
    match hash ok c (tower (k - 5)), hash_meets (ok := ok) c (tower (k - 5)) with
    | .error .internal, _ => trivial
    | .ok c', _ => exact ih (by omega)

theorem extendValue_meets {ok : Bool} {c : Node} {src tgt : Size} (h : tgt.toNat ≤ 2 ^ 36) :
    Meets (fun _ => True) True False (extendValue ok c src tgt) := by
  refine extendLoop_meets fun hpos => ?_
  have hlog : log2 tgt < 37 := by
    unfold Machine.log2
    by_cases h0 : tgt.toNat = 0
    · rw [h0]; decide
    · exact (Nat.log2_lt h0).2 (by omega)
  omega

/-- EXTEND with its operands received reads no cell without a value, and is answered or meets the engine's failure. -/
theorem extendRun_meets (h : Answerable s) (hxs : s.parser.xs.length = 8) (hxt : s.parser.xt.length = 8)
    (hxc : s.parser.xc.length = min digestSize s.parser.xclen.toNat) : Meets (RunInv strict) True False (extendRun s) := by
  unfold extendRun State.xsSize State.xtSize State.xcNode
  rw [if_pos hxs, if_pos hxt]
  simp only
  split
  · exact reply_runInv h _ _
  · next hvalid =>
    obtain ⟨hclen, htgt⟩ := validate_none hvalid
    rw [if_pos (by rw [hxc, hclen]; rfl)]
    simp only
    match extendValue s.shaOk (nodeOfBytes s.parser.xc) (fromLe64 s.parser.xs) (fromLe64 s.parser.xt),
      extendValue_meets (ok := s.shaOk) (c := nodeOfBytes s.parser.xc) (src := fromLe64 s.parser.xs) htgt with
    | .error .internal, _ => trivial
    | .ok c', _ => exact reply_runInv h _ _

theorem extTByte_runInv (b : Byte) (h : RunInv strict s) (hp : s.parser.phase = .extT) :
    Ends (RunInv strict) False (extTByte b s) := by
  have hne : s.parser.phase ≠ .cmd := by rw [hp]; exact fun h => nomatch h
  cases hs : s.parser.saved with
  | none => exact absurd (h.idle hs).1 hne
  | some c =>
    obtain ⟨hc, hcd, hroom, hphase⟩ := h.running hs
    obtain ⟨hcmd, hj, hrem, hle, hfields⟩ := (phaseOk_extT hp).1 hphase
    obtain ⟨-, -, -, hd | ⟨hp', -⟩⟩ := h.operand hne hj
    · obtain ⟨hsub, hpos⟩ := toNat_sub_one hrem
      have hxt : s.parser.drop = false → (stageT b s).parser.xt.length = 8 - (s.parser.rem - 1#56).toNat := fun hdrop => by
        obtain ⟨-, hlen, -⟩ := hfields hdrop
        simp only [stageT, hdrop, Bool.false_eq_true, if_false, List.length_append, List.length_singleton]
        omega
      have hanswer : Answerable (stageT b s) := ⟨h.params, h.core, hd, hj, hroom⟩
      rw [extTByte_eq]
      split
      · next hlast =>
        split
        · exact endDropped_of_reply (reply_runInv hanswer)
        · next hdrop =>
          have hdrop' : s.parser.drop = false := by simpa using hdrop
          obtain ⟨hxs, -, hxc⟩ := hfields hdrop'
          have hfull := hxt hdrop'
          rw [hlast] at hfull
          refine ends_trap ((extendRun_meets hanswer hxs hfull hxc).imp (fun _ ht => ht) fun _ => ?_)
          obtain ⟨hnone, -⟩ | ⟨d, hsaved, ⟨hdue, -⟩ | ⟨-, heq⟩⟩ := internalFault_cases (stageT b s)
          · rw [show s.parser.saved = none from hnone] at hs; cases hs
          · obtain ⟨-, hne0⟩ : (stageT b s).parser.phase ≠ .cmd ∧ s.parser.rem - 1#56 ≠ 0#56 := by
              simpa [State.operandsDue, stageT] using hdue
            exact absurd hlast hne0
          · obtain rfl : c = d := Option.some.inj (hs.symm.trans hsaved)
            rw [heq]
            exact runInv_between h.params hc hcd rfl rfl (by rw [List.length_append]; exact hroom)
      · next hmore =>
        refine h.operand_next hs hd rfl rfl rfl hne ((phaseOk_extT (by exact hp)).2 ⟨hcmd, hj, hmore, ?_, fun hdrop => ?_⟩)
        · show (s.parser.rem - 1#56).toNat ≤ 8
          omega
        · obtain ⟨hxs, -, hxc⟩ := hfields hdrop
          exact ⟨hxs, hxt hdrop, hxc⟩
    · rw [hp] at hp'; cases hp'

/-! ## WRITE -/

/-- ABSORB keeps rules R22 to R26 and the layers, and pushes Fr32 leaves. -/
theorem absorb_kept {c : Core} (hc : c.Ok) (b : Byte) :
    ∃ c' leaves, c.absorb b = .ok (c', leaves) ∧ Kept c c' ∧ c'.layers = c.layers ∧ leaves.all isFr32 = true := by
  obtain ⟨hcarry, hrest⟩ := hc
  by_cases hq : c.clen + 1 = blockSize
  · rw [absorb_completes hcarry b hq]
    exact ⟨_, _, rfl, ⟨⟨⟨rfl, Nat.succ_pos 126⟩, hrest⟩, rfl⟩, rfl, expandLeaves_fr32 _⟩
  · rw [absorb_buffers hcarry b hq]
    have hnext := write_next_range hcarry.1 b
    rw [write_next hcarry.1] at hnext
    have hlt : c.clen + 1 < blockSize := by have := hcarry.2; omega
    exact ⟨_, _, rfl, ⟨⟨⟨hnext, hlt⟩, hrest⟩, rfl⟩, rfl, rfl⟩

theorem jobShape_pushes {leaves : List Node} {ops : List SeqOp} (h : leaves.all isFr32 = true) (hops : jobShape ops = true) :
    jobShape (leaves.map SeqOp.push ++ ops) = true := by
  induction leaves with
  | nil => exact hops
  | cons n leaves ih =>
    obtain ⟨hn, hleaves⟩ : isFr32 n = true ∧ leaves.all isFr32 = true := by simpa using h
    exact jobShape_push.2 ⟨hn, ih hleaves⟩

theorem jobShape_payloadJob {leaves : List Node} (last : Bool) (h : leaves.all isFr32 = true) :
    jobShape (payloadJob leaves last) = true := jobShape_pushes h (by cases last <;> rfl)

theorem payloadJob_isAwait (leaves : List Node) (last : Bool) : (payloadJob leaves last).any SeqOp.isAwait = false := by
  cases last <;> simp [payloadJob, SeqOp.isAwait]

theorem mem_payloadJob (leaves : List Node) (last : Bool) : SeqOp.writeDone ∈ payloadJob leaves last ↔ last = true := by
  cases last <;> simp [payloadJob]

/-- The job of a payload byte meets the invariant with the byte absorbed. -/
theorem payloadJob_runInv {c : Core} {leaves : List Node} (h : RunInv strict s) (hp : s.parser.phase = .payload)
    (hdrop : s.parser.drop = false) (hc : Kept s.core c) (hlayers : c.layers = s.core.layers)
    (hleaves : leaves.all isFr32 = true) :
    RunInv strict { countDown s with core := c, job := payloadJob leaves (s.parser.rem - 1#56 == 0#56) } := by
  have hne : s.parser.phase ≠ .cmd := by rw [hp]; exact fun h => nomatch h
  cases hs : s.parser.saved with
  | none => exact absurd (h.idle hs).1 hne
  | some d =>
    obtain ⟨hd, hdd, hroom, hphase⟩ := h.running hs
    obtain ⟨k, hcmd, -, -, -, htotal⟩ := (phaseOk_payload hp).1 hphase
    have hfatal : s.fatal ≠ true := fun hf => by
      have := h.fatalDrop hf (by rw [hs]; exact fun h => nomatch h)
      rw [hdrop] at this
      cases this
    exact {
      params := h.params
      core := hc.1
      parser := (parserOk_running (by exact hs)).2 ⟨hd, hdd, hroom, (phaseOk_payload (by exact hp)).2
        ⟨k, hcmd, payloadJob_isAwait _ _, by rw [mem_payloadJob]; simp, fun hd => absurd (hdrop.symm.trans hd) Bool.false_ne_true,
          by rw [hc.2]; exact htotal⟩⟩
      queues := by
        unfold Core.drained
        rw [hlayers]
        exact h.queues
      cwcnt := h.cwcnt
      job := jobShape_payloadJob _ hleaves
      rspq := h.rspq
      fatalJob := fun hf => absurd hf hfatal
      fatalDrop := fun hf => absurd hf hfatal
      idleDrop := fun _ hcmd => absurd hcmd hne }

theorem payloadByte_runInv (b : Byte) (h : RunInv strict s) (hp : s.parser.phase = .payload) (hdrop : s.parser.drop = false) :
    Ends (RunInv strict) False (payloadByte b s) := by
  obtain ⟨c, leaves, habsorb, hc, hlayers, hleaves⟩ := absorb_kept h.core b
  have hs : s.parser.saved ≠ none := fun hs => by rw [(h.idle hs).1] at hp; cases hp
  rw [payloadByte_absorbed b hdrop, habsorb]
  exact trap_runOps_runInv (payloadJob_runInv h hp hdrop hc hlayers hleaves) hs

/-- A discarded payload byte (rule R77). -/
theorem droppedByte_runInv (h : RunInv strict s) (hj : s.job = []) (hp : s.parser.phase = .payload)
    (hdrop : s.parser.drop = true) :
    RunInv strict (if s.parser.rem - 1#56 = 0#56 then endDropped (countDown s) else countDown s) := by
  have hne : s.parser.phase ≠ .cmd := by rw [hp]; exact fun h => nomatch h
  obtain ⟨⟨c, hs⟩, hroom, hrem, hd | ⟨-, hd⟩⟩ := h.operand hne hj
  · obtain ⟨-, -, -, hphase⟩ := h.running hs
    obtain ⟨k, hcmd, hany, -⟩ := (phaseOk_payload hp).1 hphase
    split
    · exact endDropped_of_reply (reply_runInv ⟨h.params, h.core, hd, hj, hroom⟩)
    · next hmore =>
      refine h.operand_next hs hd rfl rfl rfl hne ((phaseOk_payload (by exact hp)).2 ⟨k, hcmd, hany, ?_, fun _ => hj,
        fun hd => absurd (hd.symm.trans hdrop) Bool.false_ne_true⟩)
      rw [hj]
      simpa using hmore
  · rw [hdrop] at hd; cases hd

theorem operandByte_runInv (b : Byte) (h : RunInv strict s) (hw : s.wantsOperand = true) :
    Ends (RunInv strict) False (operandByte b s) := by
  obtain ⟨hne, hj⟩ := (wantsOperand_iff s).1 hw
  exact operandByte_ends hne (fun hp hd => droppedByte_runInv h hj hp hd) (fun hp hd => payloadByte_runInv b h hp hd)
    (fun hp => extCByte_runInv b h hp) (fun hp => extSByte_runInv b h hp) (fun hp => extTByte_runInv b h hp)

theorem feed_runInv {bs : List Byte} (h : RunInv strict s) : Ends (RunInv strict) False (feed bs s) :=
  feed_ends (fun _ _ ht => ht.frame rfl rfl rfl rfl rfl (le_refl _)) (fun b _ ht hw => operandByte_runInv b ht hw) h

end Sys2Proof.StateProofs
end

section
/-! PROOFS. The commands keep the inductive invariant, and so does every step. -/

namespace Sys2Proof.StateProofs

open Sys2Proof Sys2Proof.Machine Sys2Proof.Config

variable {strict : Prop} {s : State}

/-! ## The start of a WRITE -/

/-- The parser of a WRITE that begins in `s` (rules R73, R74). -/
def writeParser (len : Arg) (drop : Bool) (s : State) : Parser :=
  { s.parser with
    phase := .payload, cwbuf := [], cmd := some { opc := opcWrite, arg := len }, saved := some s.core, rem := len
    xc := [], xs := [], xt := [], drop := drop }

/-- A WRITE under FATAL, or one that would overflow, begins with `DROP = 1` and changes nothing else (rules R77, R151). -/
theorem startWrite_discards {len : Arg} (h : (s.fatal || overflows s.core.total len) = true) :
    startWrite len s = { s with job := [], parser := writeParser len true s } := by
  unfold startWrite
  simp only
  rw [if_pos h]
  rfl

/-- Another WRITE starts layer 0 if it has a payload (rule R150). -/
theorem startWrite_absorbs {len : Arg} (h : (s.fatal || overflows s.core.total len) = false) :
    startWrite len s = { s with
      core := if len = 0#56 then s.core else s.core.startLayer0, job := [], parser := writeParser len false s } := by
  obtain ⟨hf, -⟩ := Bool.or_eq_false_iff.1 h
  unfold startWrite
  simp only
  rw [if_neg (by rw [h]; exact Bool.false_ne_true)]
  split
  · simp only [enterPhase, beginCommand, writeParser, hf]
  · simp only [enterPhase, beginCommand, writeParser, hf]

/-- The addition that decides an overflow does not wrap (rules R23, R150). -/
theorem overflows_eq_false {total : Size} {len : Arg} (htotal : total.toNat ≤ maxPiecePayload) :
    overflows total len = false ↔ total.toNat + len.toNat ≤ maxPiecePayload := by
  have hlen := len.isLt
  have hz : (zext64 len).toNat = len.toNat := by rw [zext64, BitVec.toNat_setWidth_of_le (by decide)]
  have hadd : (total + zext64 len).toNat = total.toNat + len.toNat := by
    rw [BitVec.toNat_add, hz]
    unfold maxPiecePayload at htotal
    exact Nat.mod_eq_of_lt (by omega)
  rw [overflows, decide_eq_false_iff_not, BitVec.lt_def, hadd, not_lt]
  rfl

theorem startLayer0_kept {c : Core} (hc : c.Ok) : Kept c c.startLayer0 := by
  obtain ⟨hcarry, htotal, hlen, hall, hroot⟩ := hc
  obtain ⟨carry, clen, total, layers, root⟩ := c
  cases layers with
  | nil => cases hlen
  | cons l ls =>
    obtain ⟨hl, hls⟩ : l.ok = true ∧ ls.all Layer.ok = true := by simpa using hall
    refine ⟨⟨hcarry, htotal, hlen, ?_, hroot⟩, rfl⟩
    show (({ l with active := true } : Layer) :: ls).all Layer.ok = true
    rw [List.all_cons, hls, Bool.and_true]
    exact hl

/-- The invariant for a WRITE that begins: with its end pending if it has no payload. -/
theorem writing_runInv {c : Core} {len : Arg} {drop : Bool} (h : Answerable s) (hc : Kept s.core c) (hd : c.drained = true)
    (hdrop : drop = true → len ≠ 0#56) (hfatal : s.fatal = true → drop = true)
    (hfits : drop = false → s.core.total.toNat + len.toNat ≤ maxPiecePayload) :
    RunInv strict { s with
      core := c, job := if len = 0#56 then [SeqOp.writeDone] else [], parser := writeParser len drop s } where
  params := h.params
  core := hc.1
  parser := (parserOk_running rfl).2 ⟨h.core, h.drained, h.room, (phaseOk_payload rfl).2
    ⟨_, rfl, by split <;> rfl, by split <;> simp_all [writeParser], fun hdr => if_neg (hdrop hdr), fun hdr => by
      show c.total.toNat + len.toNat ≤ maxPiecePayload
      rw [hc.2]
      exact hfits hdr⟩⟩
  queues := .inl hd
  cwcnt := Nat.succ_pos 7
  job := by show jobShape (if len = 0#56 then [SeqOp.writeDone] else []) = true; split <;> rfl
  rspq := Nat.le_of_lt h.room
  fatalJob := fun hf => if_neg (hdrop (hfatal hf))
  fatalDrop := fun hf _ => hfatal hf
  idleDrop := fun _ hcmd => nomatch hcmd

theorem execWrite_runInv (len : Arg) (h : Answerable s) : Moves (RunInv strict) False (execWrite len s) := by
  have hfits := overflows_eq_false (len := len) h.core.2.1
  unfold execWrite
  simp only
  cases hcond : s.fatal || overflows s.core.total len with
  | true =>
    rw [startWrite_discards hcond]
    split
    · exact endDropped_of_reply (reply_runInv ⟨h.params, h.core, h.drained, rfl, h.room⟩)
    · next hlen =>
      have hstart := writing_runInv (strict := strict) (drop := true) h ⟨h.core, rfl⟩ h.drained (fun _ => hlen) (fun _ => rfl)
        (fun hf => nomatch hf)
      rw [if_neg hlen] at hstart
      exact moves_conclude.2 (feed_runInv hstart)
  | false =>
    obtain ⟨hf, hover⟩ := Bool.or_eq_false_iff.1 hcond
    have hstart (c : Core) (hc : Kept s.core c) (hd : c.drained = true) := writing_runInv (strict := strict) (drop := false)
      (len := len) h hc hd (fun hd => nomatch hd) (fun hf' => absurd (hf.symm.trans hf') Bool.false_ne_true)
      (fun _ => hfits.1 hover)
    rw [startWrite_absorbs hcond]
    split
    · next hlen =>
      have hend := hstart s.core ⟨h.core, rfl⟩ h.drained
      rw [if_pos hlen] at hend
      rw [moves_conclude]
      split
      · next hd => exact absurd hd Bool.false_ne_true
      · exact trap_runOps_runInv hend (fun hs => nomatch hs)
    · next hlen =>
      have hbegin := hstart _ (startLayer0_kept h.core) ((startLayer0_drained _).trans h.drained)
      rw [if_neg hlen] at hbegin
      exact moves_conclude.2 (feed_runInv hbegin)

/-! ## The other commands -/

/-- FINALIZE: the pushes, the CLOSE and the wait are a job that meets the invariant (rule R158). -/
theorem finalize_runInv (sized : Bool) (h : Answerable s) (hf : s.fatal = false) :
    Ends (RunInv strict) False (finalize sized (beginCommand none s)) := by
  have hnot : s.fatal ≠ true := by rw [hf]; exact Bool.false_ne_true
  obtain ⟨leaves, hpad, hleaves⟩ := padQuad_eq h.core.1
  have hcore : s.core.clearCarry.Ok := ⟨⟨rfl, Nat.succ_pos 126⟩, h.core.2⟩
  unfold finalize
  rw [beginCommand_core, hpad]
  refine trap_runOps_runInv (s := beginCommand none s) ?_ (fun hs => nomatch hs)
  exact {
    params := h.params
    core := hcore
    parser := (parserOk_running rfl).2 ⟨h.core, h.drained, h.room, (phaseOk_cmd rfl).2 ⟨rfl, by simp [SeqOp.isAwait]⟩⟩
    queues := .inl h.drained
    cwcnt := Nat.succ_pos 7
    job := jobShape_pushes hleaves rfl
    rspq := Nat.le_of_lt h.room
    fatalJob := fun hf => absurd hf hnot
    fatalDrop := fun hf => absurd hf hnot
    idleDrop := fun _ _ => hf }

theorem execDigest_runInv (h : Answerable s) : Moves (RunInv strict) False (execDigest s) := by
  refine answered_moves (fun _ => reply_runInv h _ _) fun hf => ?_
  split
  · exact reply_runInv h _ _
  · exact moves_conclude.2 (finalize_runInv true h hf)

theorem execSum_runInv (h : Answerable s) : Moves (RunInv strict) False (execSum s) := by
  refine answered_moves (fun _ => reply_runInv h _ _) fun hf => ?_
  split
  · exact reply_runInv (s := enterFatal _ s) ⟨h.params, h.core, h.drained, h.job, h.room⟩ _ _
  · exact moves_conclude.2 (finalize_runInv false h hf)

theorem execReset_runInv (h : Answerable s) : Moves (RunInv strict) False (execReset s) := by
  have hempty : Answerable { s with core := Core.empty } := ⟨h.params, empty_ok, empty_drained, h.job, h.room⟩
  exact answered_moves (fun _ => reply_runInv h _ _) fun _ => reply_runInv hempty _ _

theorem startExtend_runInv (clen : Arg) (h : Answerable s) : RunInv strict (startExtend clen s) := by
  have hbegin (p : Parser) (hsaved : p.saved = some s.core) (hdrop : p.drop = s.fatal) (hcwbuf : p.cwbuf = [])
      (hp : p.phase ≠ .cmd) (hphase : p.phaseOk [] s.core.total) : RunInv strict { s with job := [], parser := p } := {
    params := h.params
    core := h.core
    parser := (parserOk_running (by exact hsaved)).2 ⟨h.core, h.drained, h.room, hphase⟩
    queues := .inl h.drained
    cwcnt := by rw [hcwbuf]; exact Nat.succ_pos 7
    job := rfl
    rspq := Nat.le_of_lt h.room
    fatalJob := fun _ => rfl
    fatalDrop := fun hf _ => hdrop.trans hf
    idleDrop := fun _ hcmd => absurd hcmd hp }
  unfold startExtend
  simp only
  split
  · next hclen =>
    refine hbegin _ rfl rfl rfl (fun h => nomatch h)
      ((phaseOk_extS rfl).2 ⟨(fun h => nomatch h), rfl, eight_ne_zero, le_refl 8, ?_⟩)
    exact fun _ => ⟨rfl, rfl, by rw [hclen]; rfl⟩
  · next hclen =>
    refine hbegin _ rfl rfl rfl (fun h => nomatch h) ((phaseOk_extC rfl).2 ⟨(fun h => nomatch h), rfl, hclen, ?_⟩)
    exact fun _ => ⟨rfl, rfl, by simp, le_refl _⟩

theorem exec_runInv {bs : List Byte} {i : Instr} (hi : decodeBytes bs = .ok i) (h : Answerable s) :
    Moves (RunInv strict) False (exec i s) := by
  have answers (st : Status) (r : List Byte) :
      Moves (RunInv strict) False (if s.fatal then .next (fatalReply s) else .next (reply st r s)) :=
    answered_moves (fun _ => reply_runInv h _ _) fun _ => reply_runInv h st r
  exact exec_decoded_moves hi (fun len => execWrite_runInv len h) (execDigest_runInv h) (execSum_runInv h) (execReset_runInv h)
    (fun clen => moves_conclude.2 (feed_runInv (startExtend_runInv clen h))) (answers _ _) (answers _ _)

/-! ## Turns -/

/-- With nothing pending and `PHASE = CMD` no command is in progress, and the next one can be answered. -/
theorem RunInv.ready (h : RunInv strict s) (hj : s.job = []) (hroom : s.rspq.length < s.params.rspqDepth)
    (hp : s.parser.phase = .cmd) : s.parser.saved = none ∧ Answerable s := by
  have hs : s.parser.saved = none := by
    cases hs : s.parser.saved with
    | none => rfl
    | some c =>
      have hawait := ((phaseOk_cmd hp).1 (h.running hs).2.2.2).2
      rw [hj] at hawait
      cases hawait
  refine ⟨hs, h.answerable ?_ hj hroom⟩
  obtain hd | ⟨-, hne, -⟩ := h.queues
  · exact hd
  · exact absurd hs hne

theorem seqStep_runInv (h : RunInv strict s) : Moves (RunInv strict) False (seqStep s) := by
  refine seqStep_moves (fun hj => ?_) (fun _ => h) (fun hj hroom hp bs hbs => ?_) (fun hj hroom hp _ rest _ hi => ?_)
    (fun hj hroom hp rest => ?_) (fun _ _ _ => feed_runInv h)
  · obtain ⟨op, ops, hops⟩ := List.exists_cons_of_ne_nil hj
    have hjob : RunInv strict { s with job := op :: ops } := by rw [← hops]; exact h
    obtain ⟨-, c, hs, -⟩ := hjob.pending
    exact trap_runOps_runInv (c := s.core) h (by rw [hs]; exact fun h => nomatch h)
  · have hidle := h.idle (h.ready hj hroom hp).1
    exact { h with parser := (parserOk_idle (by exact (h.ready hj hroom hp).1)).2 hidle, cwcnt := hbs }
  · obtain ⟨hw, hc, hd, hj, hroom⟩ := (h.ready hj hroom hp).2
    exact exec_runInv hi ⟨hw, hc, hd, hj, hroom⟩
  · obtain ⟨hw, hc, hd, hj, hroom⟩ := (h.ready hj hroom hp).2
    exact illegal_of_reply (reply_runInv ⟨hw, hc, hd, hj, hroom⟩)

/-- An agent's operation, in a command that an internal fault can discard. -/
theorem layerOp_runInv {r : Res (Option Core)} (h : RunInv strict s) (hf : s.params.fused = false)
    (hs : s.parser.saved ≠ none) (hp : s.parser.phase = .cmd ∨ s.parser.phase = .payload ∧ s.parser.drop = false)
    (hr : Meets (KeptOrHeld s.core) True False r) : Moves (RunInv strict) False (conclude (trap s (withCore s r))) := by
  refine moves_conclude.2 (trap_runInv (c := s.core) (job := s.job) h hs (withCore_meets h (hr.imp (fun x hx c hc => ?_) id)))
  obtain ⟨hok, htotal⟩ := hx c hc
  obtain ⟨d, hd⟩ := Option.ne_none_iff_exists'.1 hs
  obtain ⟨hdok, hdd, hroom, hphase⟩ := h.running hd
  exact { h with
    core := hok
    parser := (parserOk_running (by exact hd)).2 ⟨hdok, hdd, hroom, by rw [htotal]; exact hphase⟩
    queues := .inr ⟨hf, hs, hp⟩ }

/-- The head of a layer's queue is Fr32, and means that the pipeline is in use. -/
theorem RunInv.headToken (h : RunInv strict s) {l : Fin 32} {tok : Token} (hh : headToken l s = some tok) :
    tokenOk tok = true ∧ s.params.fused = false ∧ s.parser.saved ≠ none ∧
      (s.parser.phase = .cmd ∨ s.parser.phase = .payload ∧ s.parser.drop = false) := by
  unfold Machine.headToken at hh
  split at hh
  · cases hh
  · next r hr =>
    have hmem : tok ∈ r.q := List.mem_of_head? hh
    refine ⟨((layer_ok_iff r).1 (layer_ok_of_getElem? h.core hr)).2 tok hmem, ?_⟩
    obtain hd | hq := h.queues
    · have hempty := (drained_iff s.core).1 hd r (List.mem_of_getElem? hr)
      rw [hempty] at hmem
      cases hmem
    · exact hq

theorem layerStep_runInv (l : Fin 32) (h : RunInv strict s) : Moves (RunInv strict) False (layerStep l s) := by
  have hsel : RunInv strict { s with sel := l } := h.frame rfl rfl rfl rfl rfl (le_refl _)
  refine layerStep_moves (fun _ => h) (fun tok hh _ => ?_) (fun tok hh _ => ?_)
  · obtain ⟨hok, hf, hs, hp⟩ := h.headToken hh
    unfold execLayerNode
    split
    · exact hsel
    · rw [if_neg (by rw [hf]; exact Bool.false_ne_true)]
      exact layerOp_runInv hsel hf hs hp (agentNode_meets h.core l.isLt hok)
  · obtain ⟨-, hf, hs, hp⟩ := h.headToken hh
    unfold execLayerClose
    split
    · exact hsel
    · rw [if_neg (by rw [hf]; exact Bool.false_ne_true)]
      exact layerOp_runInv hsel hf hs hp (agentClose_meets h.core l.isLt)

theorem hostTake_length (s : State) : (hostTake s).rspq.length ≤ s.rspq.length := by
  unfold hostTake
  split
  · exact le_refl _
  · next h => simp [h]
  · next h => simp [h]
  · next h => simp [h]

theorem runTurn_runInv (turn : Turn) (h : RunInv strict s) : Moves (RunInv strict) False (runTurn turn s) := by
  cases turn with
  | seq => exact seqStep_runInv h
  | layer l => exact layerStep_runInv l h
  | offer bytes => exact h.frame rfl rfl rfl rfl rfl (le_refl _)
  | take =>
    exact h.frame (hostTake_core s) (hostTake_parser s) (hostTake_job s) (hostTake_fatal s) (hostTake_params s)
      (hostTake_length s)
  | rst => exact runInv_between (p := Parser.idle) h.params empty_ok empty_drained rfl rfl (Nat.zero_le _)
  | shaFail => exact h.frame rfl rfl rfl rfl rfl (le_refl _)

/-- Every step from the inductive invariant answers a next state that meets it. -/
theorem step_runInv (h : RunInv strict s) : ∃ t, step s = .next t ∧ RunInv strict t := by
  obtain ⟨ts, hts⟩ := nextTurn_snd s
  have hs1 : RunInv strict (nextTurn s).2 := by
    rw [hts]
    exact h.frame rfl rfl rfl rfl rfl (le_refl _)
  rw [step_eq]
  exact (runTurn_runInv _ hs1).exists_next

/-- Settles O56: the invariant gives the inductive one, from which no step stops. -/
theorem invariantStepsNeverStop : Obligations.InvariantStepsNeverStop := by
  intro s h
  obtain ⟨t, hstep, -⟩ := step_runInv (strict := False) (runInv_of_inv h fun hf => hf.elim)
  exact ⟨t, hstep⟩

/-- What O55 lacks is `DROP = 0` while `PHASE = CMD`, as after reset: with it the invariant is inductive (rules R22, R23, R26, R29,
R30, R33). -/
theorem step_keeps_inv {t : State} (h : s.Inv) (hdrop : s.parser.phase = .cmd → s.parser.drop = false)
    (hstep : step s = .next t) : t.Inv ∧ (t.parser.phase = .cmd → t.parser.drop = false) := by
  obtain ⟨t', hstep', ht⟩ := step_runInv (runInv_of_inv (strict := True) h fun _ => hdrop)
  obtain rfl : t' = t := by rw [hstep'] at hstep; cases hstep; rfl
  exact ⟨ht.inv, ht.idleDrop trivial⟩

/-- The reset state meets both hypotheses of `step_keeps_inv`, so every run from it does. -/
theorem resetWith_inv_drop {p : Params} (h : p.wf = true) :
    (State.resetWith p).Inv ∧ ((State.resetWith p).parser.phase = .cmd → (State.resetWith p).parser.drop = false) :=
  ⟨resetWith_inv h, fun _ => rfl⟩

end Sys2Proof.StateProofs
end

section
/-! PROOFS. The invariant is not inductive as it stands. -/

namespace Sys2Proof.StateProofs

open Sys2Proof Sys2Proof.Machine Sys2Proof.Config

/-- A pipelined block with queues of one token. -/
def onePlaceParams : Params := { fifoDepth := 1, rspqDepth := 1, shaEngines := 1, fused := false }

/-- A DIGEST that holds before its CLOSE, with `DROP = 1`: the invariant says nothing of `DROP` while `PHASE = CMD`. -/
def droppingDigest : State :=
  { State.resetWith onePlaceParams with
    parser := { Parser.idle with saved := some Core.empty, drop := true }, job := [.close, .await true] }

theorem droppingDigest_inv : droppingDigest.Inv where
  params := rfl
  core := empty_ok
  parser := ⟨empty_ok, empty_drained, Nat.one_pos, rfl⟩
  queues := .inl empty_drained
  cwcnt := Nat.succ_pos 7
  job := rfl
  rspq := Nat.zero_le 1
  fatalJob := fun h => nomatch h
  fatalDrop := fun h => nomatch h

/-- Its next step queues the CLOSE, so that a token is queued while `DROP = 1`. -/
theorem droppingDigest_step : ∃ t, step droppingDigest = .next t ∧ t.core.drained = false ∧ t.parser.drop = true :=
  ⟨_, rfl, rfl, rfl⟩

/-- Refutes O55: the part `queues` of the invariant asks for `DROP = 0` once a token is queued, and no part of it says so before,
while a DIGEST or SUM holds. `step_keeps_inv` proves the statement where that is added. -/
theorem not_stepKeepsTheInvariant : ¬ Obligations.StepKeepsTheInvariant := by
  intro h
  obtain ⟨t, hstep, hqueued, hdrop⟩ := droppingDigest_step
  obtain hdrained | ⟨-, -, hkept, -⟩ := (h _ t droppingDigest_inv hstep).queues
  · rw [hqueued] at hdrained; cases hdrained
  · rw [hdrop] at hkept; cases hkept

end Sys2Proof.StateProofs
end

section
/-! PROOFS. The accumulator of a payload in closed form, byte by byte (rules R22, R24, R27, R152). -/

namespace Sys2Proof.StateProofs

open Sys2Proof Sys2Proof.Machine Sys2Proof.Config

/-! ## Layers after one more leaf -/

theorem layer_ext {l m : Layer} (ha : l.active = m.active) (hs : l.slot = m.slot) (hq : l.q = m.q) : l = m := by
  cases l
  cases m
  cases ha
  cases hs
  cases hq
  rfl

/-- The root of the last whole subtree of `2^i` leaves (rule R27). -/
def lastSubtree (i : Nat) (xs : List Node) : Node :=
  merkleRoot i ((xs.drop ((xs.length / 2 ^ i - 1) * 2 ^ i)).take (2 ^ i))

theorem streamLayer_slot (a : Bool) (xs : List Node) (i : Nat) :
    (streamLayer a xs i).slot = if xs.length / 2 ^ i % 2 = 1 then some (lastSubtree i xs) else none := by
  simp [streamLayer, Nat.testBit_eq_decide_div_mod_eq, lastSubtree]

theorem lastSubtree_eq {i q : Nat} {xs : List Node} (h : xs.length / 2 ^ i = q + 1) :
    lastSubtree i xs = merkleRoot i ((xs.drop (q * 2 ^ i)).take (2 ^ i)) := by
  rw [lastSubtree, h, Nat.add_sub_cancel]

/-- A part of a list is not changed by what is appended after it. -/
theorem take_drop_append {α : Type} {xs ys : List α} {k w : Nat} (h : k + w ≤ xs.length) :
    ((xs ++ ys).drop k).take w = (xs.drop k).take w := by
  rw [List.drop_append_of_le_length (by omega), List.take_append_of_le_length (by rw [List.length_drop]; omega)]

/-- The last subtree is not changed by a leaf that completes none. -/
theorem lastSubtree_append {xs : List Node} (n : Node) {i : Nat} (hdiv : (xs.length + 1) / 2 ^ i = xs.length / 2 ^ i)
    (hodd : xs.length / 2 ^ i % 2 = 1) : lastSubtree i (xs ++ [n]) = lastSubtree i xs := by
  obtain ⟨q, hq⟩ := Nat.exists_eq_add_one_of_ne_zero (n := xs.length / 2 ^ i) (by omega)
  have hin : q * 2 ^ i + 2 ^ i ≤ xs.length := by
    rw [← Nat.succ_mul, ← Nat.add_one, ← hq]
    exact Nat.div_mul_le_self _ _
  rw [lastSubtree_eq hq, lastSubtree_eq (q := q) (by rw [List.length_append, List.length_singleton, hdiv, hq]),
    take_drop_append hin]

/-- A layer whose subtree the new leaf does not complete stays as it is. -/
theorem streamLayer_append (a : Bool) (xs : List Node) (n : Node) {i : Nat} (hi : i ≠ 0) (h : ¬ 2 ^ i ∣ xs.length + 1) :
    streamLayer a (xs ++ [n]) i = streamLayer a xs i := by
  have hdiv : (xs.length + 1) / 2 ^ i = xs.length / 2 ^ i := Nat.succ_div_of_not_dvd h
  have hle : 2 ^ i ≤ xs.length + 1 ↔ 2 ^ i ≤ xs.length := by
    have hne : xs.length + 1 ≠ 2 ^ i := fun heq => h (heq ▸ dvd_refl _)
    omega
  have hslot : (streamLayer a (xs ++ [n]) i).slot = (streamLayer a xs i).slot := by
    rw [streamLayer_slot, streamLayer_slot, List.length_append, List.length_singleton, hdiv]
    split
    · next hodd => rw [lastSubtree_append n hdiv hodd]
    · rfl
  have hactive : (streamLayer a (xs ++ [n]) i).active = (streamLayer a xs i).active := by
    simp [streamLayer, hi, hle]
  exact layer_ext hactive hslot rfl

/-- The leaf after `L` others completes a subtree of `p` leaves. -/
theorem div_of_completes {L m p : Nat} (hp : 0 < p) (h : L + 1 = (m + 1) * p) : (L + 1) / p = m + 1 ∧ L / p = m := by
  have hmul : (m + 1) * p = m * p + p := Nat.succ_mul m p
  exact ⟨by rw [h]; exact Nat.mul_div_cancel _ hp, Nat.div_eq_of_lt_le (by omega) (by omega)⟩

/-- Two sibling subtrees are the subtree above them (rules R122, R135). -/
theorem lastSubtree_succ (xs : List Node) (n : Node) {i : Nat} (h : 2 ^ (i + 1) ∣ xs.length + 1) :
    lastSubtree (i + 1) (xs ++ [n]) = nodeHash (lastSubtree i xs) (lastSubtree i (xs ++ [n])) := by
  obtain ⟨q, hq⟩ := exists_eq_mul_left_of_dvd h
  obtain ⟨q, rfl⟩ := Nat.exists_eq_add_one_of_ne_zero (n := q) (by rintro rfl; omega)
  have hpow : 2 ^ (i + 1) = 2 ^ i + 2 ^ i := by rw [pow_succ, mul_two]
  have hlen : xs.length + 1 = (2 * q + 1 + 1) * 2 ^ i := by rw [hq, hpow]; ring
  obtain ⟨hAbove, -⟩ := div_of_completes (Nat.two_pow_pos (i + 1)) hq
  obtain ⟨hNew, hOld⟩ := div_of_completes (Nat.two_pow_pos i) hlen
  have hstart : q * 2 ^ (i + 1) = 2 * q * 2 ^ i := by rw [hpow]; ring
  have hnext : (2 * q + 1) * 2 ^ i = 2 * q * 2 ^ i + 2 ^ i := Nat.succ_mul _ _
  have hin : 2 * q * 2 ^ i + 2 ^ i ≤ xs.length := by
    have : (2 * q + 1 + 1) * 2 ^ i = 2 * q * 2 ^ i + 2 ^ i + 2 ^ i := by rw [Nat.succ_mul, hnext]
    have := Nat.two_pow_pos i
    omega
  rw [lastSubtree_eq (q := q) (by simpa using hAbove), lastSubtree_eq hOld, lastSubtree_eq (q := 2 * q + 1) (by simpa using hNew),
    merkleRoot, hstart, hnext, List.take_take, List.drop_take, List.drop_drop, ← take_drop_append (ys := [n]) hin, hpow,
    Nat.min_eq_left (Nat.le_add_left _ _), Nat.add_sub_cancel]

/-- The layers `i, i+1, ...` after the leaves `xs`, layer 0 being started. -/
def layersFrom (i k : Nat) (xs : List Node) : List Layer := (List.range' i k).map (streamLayer true xs)

theorem layersFrom_succ (i k : Nat) (xs : List Node) :
    layersFrom i (k + 1) xs = streamLayer true xs i :: layersFrom (i + 1) k xs := rfl

/-- EMIT into layer `i` of the subtree that the new leaf completes gives the layers with the new leaf (rules R27, R122, R123). -/
theorem emit_stream {ok : Bool} {k i : Nat} {xs : List Node} {n : Node} {ls : List Layer} (hdvd : 2 ^ i ∣ xs.length + 1)
    (h : emit ok (layersFrom i k xs) (lastSubtree i (xs ++ [n])) = .ok ls) : ls = layersFrom i k (xs ++ [n]) := by
  induction k generalizing i ls with
  | zero => cases h
  | succ k ih =>
    have hpos : 0 < 2 ^ i := Nat.two_pow_pos i
    obtain ⟨m, hm⟩ := exists_eq_mul_left_of_dvd hdvd
    obtain ⟨m, rfl⟩ := Nat.exists_eq_add_one_of_ne_zero (n := m) (by rintro rfl; omega)
    obtain ⟨hdivNew, hdivOld⟩ := div_of_completes hpos hm
    have hdvdAbove : 2 ^ (i + 1) ∣ xs.length + 1 ↔ 2 ∣ m + 1 := by
      rw [hm, pow_succ, mul_comm (2 ^ i), Nat.mul_dvd_mul_iff_right hpos]
    have hle : 2 ^ i ≤ xs.length + 1 := Nat.le_of_dvd (Nat.succ_pos _) hdvd
    have hactive : true = (streamLayer true (xs ++ [n]) i).active := by simp [streamLayer, hle]
    have hslot := streamLayer_slot true xs i
    have hslot' := streamLayer_slot true (xs ++ [n]) i
    rw [hdivOld] at hslot
    rw [List.length_append, List.length_singleton, hdivNew] at hslot'
    rw [layersFrom_succ] at h ⊢
    obtain ⟨hnone, rfl⟩ | ⟨left, above, hsome, -, habove, rfl⟩ := emit_ok h
    · have heven : m % 2 ≠ 1 := fun hodd => by rw [hslot, if_pos hodd] at hnone; cases hnone
      rw [if_pos (by omega)] at hslot'
      have habove : ∀ j ∈ List.range' (i + 1) k, streamLayer true xs j = streamLayer true (xs ++ [n]) j := fun j hj => by
        have hij : i + 1 ≤ j := (List.mem_range'_1.1 hj).1
        refine (streamLayer_append true xs n (by omega) fun hdvd => ?_).symm
        have := hdvdAbove.1 ((pow_dvd_pow 2 hij).trans hdvd)
        omega
      exact congrArg₂ List.cons (layer_ext hactive hslot'.symm rfl) (List.map_congr_left habove)
    · have hodd : m % 2 = 1 := by
        by_contra hodd
        rw [hslot, if_neg hodd] at hsome
        cases hsome
      rw [if_neg (by omega)] at hslot'
      have hleft : lastSubtree i xs = left := by
        rw [hslot, if_pos hodd] at hsome
        exact Option.some.inj hsome
      have hdvd' := hdvdAbove.2 (by omega)
      rw [← hleft, ← lastSubtree_succ xs n hdvd'] at habove
      exact congrArg₂ List.cons (layer_ext hactive hslot'.symm rfl) (ih hdvd' habove)

/-- PUSH at a started layer is EMIT into it (rules R121, R123). -/
theorem push_eq_emit {ok : Bool} {i : Nat} {l : Layer} {above : List Layer} {n : Node} (h : l.active = true) :
    push ok i (l :: above) n = emit ok (l :: above) n := by
  simp only [push, emit, ← h]

/-- A leaf pushed into layer 0 gives the layers with that leaf (rules R27, R121, R130). -/
theorem pushAt_stream {ok : Bool} {c c' : Core} {xs : List Node} {n : Node} (hl : c.layers = layersFrom 0 layerCount xs)
    (h : c.pushAt ok 0 n = .ok c') : c' = { c with layers := layersFrom 0 layerCount (xs ++ [n]) } := by
  obtain ⟨ls, hpush, rfl⟩ := pushAt_ok h
  rw [List.drop_zero, hl, show layerCount = 31 + 1 from rfl, layersFrom_succ, push_eq_emit rfl, ← layersFrom_succ] at hpush
  have hn : n = lastSubtree 0 (xs ++ [n]) := by
    rw [lastSubtree_eq (q := xs.length) (by simp), pow_zero, mul_one, List.drop_left]
    rfl
  rw [hn] at hpush
  rw [emit_stream (by simp) hpush]
  rfl

/-! ## The carry buffer of a payload -/

theorem streamCarry_length (q : List Byte) : (q.drop (127 * (q.length / 127))).length = q.length % 127 := by
  rw [List.length_drop]
  omega

theorem streamCore_carry_fst (q : List Byte) : (streamCore q).carry.map Prod.fst = List.range (q.length % 127) :=
  List.map_fst_zip (by rw [streamCarry_length, List.length_range])

theorem streamCore_carry_snd (q : List Byte) : (streamCore q).carry.map Prod.snd = q.drop (127 * (q.length / 127)) :=
  List.map_snd_zip (by rw [streamCarry_length, List.length_range])

theorem streamCore_carryOk (q : List Byte) : (streamCore q).CarryOk :=
  ⟨streamCore_carry_fst q, Nat.mod_lt _ (by decide)⟩

/-- The accumulator before anything is written is the empty one. -/
theorem streamCore_nil : streamCore [] = Core.empty := by
  have hlayer : ∀ i ∈ List.range layerCount, streamLayer false [] i = Layer.empty := fun i _ => by
    refine layer_ext ?_ (by simp [streamLayer, Layer.empty]) rfl
    by_cases hi : i = 0 <;> simp [streamLayer, Layer.empty, hi]
  have hlayers : (List.range layerCount).map (streamLayer false []) = List.replicate layerCount Layer.empty := by
    rw [List.map_congr_left hlayer, List.map_const', List.length_range]
  show Core.mk [] 0 0#64 ((List.range layerCount).map (streamLayer false [])) none = Core.empty
  rw [hlayers]
  rfl

/-- Whole quads keep their leaves when bytes follow. -/
theorem quadLeaves_append {n : Nat} {q : List Byte} (ys : List Byte) (h : 127 * n ≤ q.length) :
    quadLeaves n (q ++ ys) = quadLeaves n q := by
  unfold quadLeaves
  refine List.flatMap_congr fun i hi => ?_
  have hi : i < n := List.mem_range.1 hi
  rw [take_drop_append (by omega)]

theorem quadLeaves_succ (n : Nat) (q : List Byte) :
    quadLeaves (n + 1) q = quadLeaves n q ++ expandLeaves ((q.drop (127 * n)).take 127) := by
  simp [quadLeaves, List.range_succ]

/-- The layers of a payload with layer 0 started. -/
theorem startLayer0_stream (q : List Byte) :
    (streamCore q).startLayer0.layers = layersFrom 0 layerCount (quadLeaves (q.length / 127) q) := by
  rw [startLayer0_layers]
  show ((List.range (31 + 1)).map (streamLayer (!q.isEmpty) _)).modify 0 _ = layersFrom 0 (31 + 1) _
  have habove (xs : List Node) : ∀ i ∈ List.range' 1 31, streamLayer (!q.isEmpty) xs i = streamLayer true xs i := fun i hi => by
    have hi : 1 ≤ i := (List.mem_range'_1.1 hi).1
    have hi : i ≠ 0 := by omega
    simp [streamLayer, hi]
  rw [List.range_eq_range', List.range'_succ, List.map_cons, layersFrom_succ, List.map_congr_left (habove _)]
  rfl

/-! ## One more byte of a WRITE -/

/-- The accumulator inside a WRITE, field by field. -/
theorem writingCore_eq (p d : List Byte) :
    writingCore p d = {
      carry := (streamCore (p ++ d)).carry, clen := (p ++ d).length % 127, total := BitVec.ofNat 64 p.length
      layers := layersFrom 0 layerCount (quadLeaves ((p ++ d).length / 127) (p ++ d)), root := none } := by
  rw [← startLayer0_stream]
  simp only [writingCore, startLayer0_carry, startLayer0_clen, startLayer0_root]
  rfl

theorem writingCore_carryOk (p d : List Byte) : (writingCore p d).CarryOk := by
  rw [writingCore_eq]
  exact streamCore_carryOk (p ++ d)

/-- ABSORB inside a WRITE, up to its pushes: once they are done the accumulator has one byte more (rules R24, R27, R152). -/
theorem absorb_writing (p d : List Byte) (b : Byte) :
    ∃ c leaves, (writingCore p d).absorb b = .ok (c, leaves) ∧
      ∃ xs, c.layers = layersFrom 0 layerCount xs ∧
        ({ c with layers := layersFrom 0 layerCount (xs ++ leaves) } : Core) = writingCore p (d ++ [b]) := by
  have hassoc : p ++ (d ++ [b]) = (p ++ d) ++ [b] := (List.append_assoc _ _ _).symm
  have hok := writingCore_carryOk p d
  rw [writingCore_eq p (d ++ [b]), hassoc]
  rw [writingCore_eq] at hok ⊢
  generalize p ++ d = q at hok ⊢
  have hlen : (q ++ [b]).length = q.length + 1 := by simp
  have hle : 127 * (q.length / 127) ≤ q.length := by omega
  rw [hlen]
  by_cases hq : q.length % 127 + 1 = 127
  · rw [absorb_completes hok b hq]
    have hdiv : (q.length + 1) / 127 = q.length / 127 + 1 := by omega
    have hmod : (q.length + 1) % 127 = 0 := by omega
    refine ⟨_, _, rfl, _, rfl, ?_⟩
    have hwin : ((q ++ [b]).drop (127 * (q.length / 127))).take 127 = q.drop (127 * (q.length / 127)) ++ [b] := by
      rw [List.drop_append_of_le_length hle, List.take_of_length_le]
      rw [List.length_append, streamCarry_length, List.length_singleton]
      omega
    have hcarry : (streamCore (q ++ [b])).carry = [] := by
      have := streamCore_carry_fst (q ++ [b])
      rw [hlen, hmod] at this
      simpa using this
    rw [streamCore_carry_snd, hdiv, hmod, quadLeaves_succ, quadLeaves_append [b] hle, hwin, hcarry]
    rfl
  · rw [absorb_buffers hok b hq]
    have hdiv : (q.length + 1) / 127 = q.length / 127 := by omega
    have hmod : (q.length + 1) % 127 = q.length % 127 + 1 := by omega
    refine ⟨_, _, rfl, _, rfl, ?_⟩
    have hcarry : (streamCore (q ++ [b])).carry = (streamCore q).carry ++ [(q.length % 127, b)] := by
      show (List.range ((q ++ [b]).length % 127)).zip ((q ++ [b]).drop (127 * ((q ++ [b]).length / 127))) = _
      rw [hlen, hdiv, hmod, List.range_succ, List.drop_append_of_le_length hle,
        List.zip_append (by rw [streamCarry_length, List.length_range])]
      rfl
    rw [List.append_nil, hdiv, hmod, quadLeaves_append [b] hle, hcarry]

/-- A WRITE that begins has absorbed nothing (rule R150). -/
theorem writingCore_nil (p : List Byte) : (streamCore p).startLayer0 = writingCore p [] := by
  rw [writingCore, List.append_nil]
  show _ = { (streamCore p).startLayer0 with total := (streamCore p).total }
  rw [← startLayer0_total]

theorem zext64_eq {arg : Arg} {n : Nat} (h : n = arg.toNat) : zext64 arg = BitVec.ofNat 64 n := by
  apply BitVec.eq_of_toNat_eq
  have := arg.isLt
  rw [zext64, BitVec.toNat_setWidth_of_le (by decide), BitVec.toNat_ofNat, h, Nat.mod_eq_of_lt (by omega)]

/-- The end of a WRITE that absorbed `d` leaves the accumulator of `p ++ d` (rules R24, R150). -/
theorem writingCore_end {p d : List Byte} {arg : Arg} (hd : d ≠ []) (harg : d.length = arg.toNat) :
    ({ writingCore p d with total := (writingCore p d).total + zext64 arg } : Core) = streamCore (p ++ d) := by
  have hlayers : (streamCore (p ++ d)).layers = layersFrom 0 layerCount (quadLeaves ((p ++ d).length / 127) (p ++ d)) := by
    have hne : (!(p ++ d).isEmpty) = true := by simp [hd]
    show (List.range layerCount).map (streamLayer (!(p ++ d).isEmpty) _) = _
    rw [hne, List.range_eq_range']
    rfl
  have htotal : BitVec.ofNat 64 p.length + zext64 arg = (streamCore (p ++ d)).total := by
    rw [zext64_eq harg, ← BitVec.ofNat_add, ← List.length_append]
    rfl
  rw [writingCore_eq, ← hlayers]
  simp only
  rw [htotal]
  rfl

end Sys2Proof.StateProofs
end

section
/-! PROOFS. With `FUSED = 1` the accumulator is always that of some payload (rules R24, R27). -/

namespace Sys2Proof.StateProofs

open Sys2Proof Sys2Proof.Machine Sys2Proof.Config

variable {s : State} {p d : List Byte}

/-! ## The three kinds of streaming states -/

/-- `s` is a fused block with the accumulator of the payload `p` and nothing pending. -/
structure Accepted (p : List Byte) (s : State) : Prop where
  fused : s.params.fused = true
  job : s.job = []
  fits : p.length ≤ maxPiecePayload
  core : s.core = streamCore p

/-- A command in progress that takes operand bytes and began after the payload `p`. -/
structure Taking (p : List Byte) (s : State) : Prop where
  fused : s.params.fused = true
  job : s.job = []
  fits : p.length ≤ maxPiecePayload
  saved : s.parser.saved = some (streamCore p)
  phase : s.parser.phase ≠ .cmd
  rem : s.parser.rem ≠ 0#56

/-- What is known of a WRITE that absorbs its payload, `d` so far. -/
structure Writing (p d : List Byte) (s : State) : Prop extends Taking p s where
  payload : s.parser.phase = .payload
  drop : s.parser.drop = false
  cmd : ∃ k, s.parser.cmd = some k ∧ d.length + s.parser.rem.toNat = k.arg.toNat ∧ p.length + k.arg.toNat ≤ maxPiecePayload
  core : s.core = writingCore p d

theorem streaming_between {q : Parser} (h : Accepted p s) (hq : s.parser = q.next) : s.Streaming := by
  refine ⟨h.fused, h.job, p, h.fits, ?_⟩
  rw [hq]
  exact ⟨rfl, h.core⟩

/-- A command that takes operand bytes without absorbing them leaves the accumulator as it was. -/
theorem streaming_aside (h : Taking p s) (hcore : s.core = streamCore p)
    (hnot : ¬ (s.parser.phase = .payload ∧ s.parser.drop = false)) : s.Streaming := by
  refine ⟨h.fused, h.job, p, h.fits, ?_⟩
  rw [h.saved]
  refine ⟨rfl, h.phase, h.rem, ?_⟩
  rw [if_neg hnot]
  exact hcore

theorem Writing.streaming (h : Writing p d s) : s.Streaming := by
  obtain ⟨k, hcmd, hrem, hfits⟩ := h.cmd
  refine ⟨h.fused, h.job, p, h.fits, ?_⟩
  rw [h.saved]
  refine ⟨rfl, h.phase, h.rem, ?_⟩
  rw [if_pos ⟨h.payload, h.drop⟩]
  exact ⟨k, d, hcmd, hrem, hfits, h.core⟩

/-- What a streaming state can be: between commands, inside a command that does not absorb, or inside a WRITE that does. -/
theorem streaming_cases (h : s.Streaming) :
    (∃ p, Accepted p s ∧ s.parser.saved = none ∧ s.parser.phase = .cmd) ∨
    (∃ p, Taking p s ∧ s.core = streamCore p ∧ ¬ (s.parser.phase = .payload ∧ s.parser.drop = false)) ∨
    ∃ p d, Writing p d s := by
  obtain ⟨hfused, hjob, p, hfits, h⟩ := h
  cases hs : s.parser.saved with
  | none =>
    rw [hs] at h
    obtain ⟨hphase, hcore⟩ := h
    exact .inl ⟨p, ⟨hfused, hjob, hfits, hcore⟩, rfl, hphase⟩
  | some c =>
    rw [hs] at h
    obtain ⟨rfl, hphase, hrem, h⟩ := h
    have htaking : Taking p s := ⟨hfused, hjob, hfits, hs, hphase, hrem⟩
    split at h
    · next hw =>
      obtain ⟨k, d, hcmd, hlen, hle, hcore⟩ := h
      exact .inr (.inr ⟨p, d, { htaking with payload := hw.1, drop := hw.2, cmd := ⟨k, hcmd, hlen, hle⟩, core := hcore }⟩)
    · next hw => exact .inr (.inl ⟨p, htaking, h, hw⟩)

/-- Streaming does not depend on the world outside, the responses, FATAL, the engine or `sel`. -/
theorem streaming_frame {t : State} (h : s.Streaming) (hcore : t.core = s.core) (hparser : t.parser = s.parser)
    (hjob : t.job = s.job) (hparams : t.params = s.params) : t.Streaming := by
  unfold State.Streaming
  rw [hcore, hparser, hjob, hparams]
  exact h

/-- A fused block has no token queued. -/
theorem streaming_drained (h : s.Streaming) : s.core.drained = true := by
  have hstream (p : List Byte) : (streamCore p).drained = true := by
    rw [drained_iff]
    intro l hl
    obtain ⟨i, -, rfl⟩ := List.mem_map.1 hl
    rfl
  obtain ⟨p, h, -⟩ | ⟨p, -, hcore, -⟩ | ⟨p, d, h⟩ := streaming_cases h
  · rw [h.core]; exact hstream p
  · rw [hcore]; exact hstream p
  · rw [h.core]; exact (startLayer0_drained _).trans (hstream (p ++ d))

/-! ## Ends of commands -/

theorem reply_streaming (h : Accepted p s) (st : Status) (r : List Byte) : (reply st r s).Streaming :=
  streaming_between ⟨h.fused, h.job, h.fits, h.core⟩ (reply_parser st r s)

/-- The internal fault goes back to the accumulator the command began with (rule R12; log entry 6). -/
theorem internalFault_streaming (hf : s.params.fused = true) (hfits : p.length ≤ maxPiecePayload)
    (hs : s.parser.saved = some (streamCore p)) : (internalFault s).Streaming := by
  obtain ⟨hnone, -⟩ | ⟨c, hc, hfault⟩ := internalFault_cases s
  · rw [hs] at hnone; cases hnone
  obtain rfl : streamCore p = c := Option.some.inj (hs.symm.trans hc)
  obtain ⟨hdue, heq⟩ | ⟨-, heq⟩ := hfault
  · obtain ⟨hphase, hrem⟩ : s.parser.phase ≠ .cmd ∧ s.parser.rem ≠ 0#56 := by simpa [State.operandsDue] using hdue
    rw [heq]
    exact streaming_aside ⟨hf, rfl, hfits, hs, hphase, hrem⟩ rfl (fun hw => nomatch hw.2)
  · rw [heq]
    exact streaming_between (p := p) ⟨hf, rfl, hfits, rfl⟩ rfl

/-- An operation of a command that began after `p`, or its internal fault. -/
theorem trap_streaming {r : Res State} (hf : s.params.fused = true) (hfits : p.length ≤ maxPiecePayload)
    (hs : s.parser.saved = some (streamCore p)) (hr : Meets State.Streaming True True r) :
    Ends State.Streaming True (trap s r) :=
  ends_trap (hr.imp (fun _ ht => ht) fun _ => internalFault_streaming hf hfits hs)

/-! ## Actions of a fused block -/

/-- In a fused block a leaf and the CLOSE are done at once (rules R130, R221). -/
theorem runOps_push_meets {leaf : Node} {ops : List SeqOp} (hf : s.params.fused = true)
    (h : ∀ c, s.core.pushAt s.shaOk 0 leaf = .ok c → Meets State.Streaming True True (runOps ops { s with core := c })) :
    Meets State.Streaming True True (runOps (.push leaf :: ops) s) := by
  refine runOps_cons_meets ?_
  rw [runOp_push, if_pos hf]
  exact stepped_meets (meets_true h fun _ => trivial)

theorem runOps_close_meets {ops : List SeqOp} (hf : s.params.fused = true)
    (h : ∀ c, s.core.closeAt s.shaOk 0 = .ok c → Meets State.Streaming True True (runOps ops { s with core := c })) :
    Meets State.Streaming True True (runOps (.close :: ops) s) := by
  refine runOps_cons_meets ?_
  rw [runOp_close, if_pos hf]
  exact stepped_meets (meets_true h fun _ => trivial)

/-- The leaves of a quad go into the layers in order (rules R27, R105, R152). -/
theorem runOps_pushes_meets {leaves xs : List Node} {ops : List SeqOp} (hf : s.params.fused = true)
    (hl : s.core.layers = layersFrom 0 layerCount xs)
    (h : Meets State.Streaming True True
      (runOps ops { s with core := { s.core with layers := layersFrom 0 layerCount (xs ++ leaves) } })) :
    Meets State.Streaming True True (runOps (leaves.map SeqOp.push ++ ops) s) := by
  induction leaves generalizing s xs with
  | nil =>
    rw [List.append_nil, ← hl] at h
    exact h
  | cons n leaves ih =>
    refine runOps_push_meets hf fun c hc => ?_
    rw [pushAt_stream hl hc]
    refine ih (xs := xs ++ [n]) hf rfl ?_
    rw [List.append_assoc]
    exact h

/-- The end of a WRITE in a fused block, which never waits (rules R150, R221). -/
theorem runOps_writeDone_meets {k : Command} (hf : s.params.fused = true) (hcmd : s.parser.cmd = some k)
    (hfits : p.length ≤ maxPiecePayload)
    (hcore : ({ s.core with total := s.core.total + zext64 k.arg } : Core) = streamCore p) :
    Meets State.Streaming True True (runOps [.writeDone] s) := by
  refine runOps_cons_meets (runOp_writeDone_meets (pipelineEmpty_of_fused hf) ?_)
  unfold answerWrite State.arg
  rw [hcmd]
  exact streaming_between (p := p) ⟨hf, rfl, hfits, hcore⟩ rfl

/-- The end of DIGEST or SUM in a fused block: the root is published at once, and the accumulator is emptied (rules R155, R158,
R162). -/
theorem runOps_finalize_meets (leaves : List Node) (sized : Bool) (hf : s.params.fused = true) :
    Meets State.Streaming True True (runOps (leaves.map SeqOp.push ++ [.close, .await sized]) s) := by
  induction leaves generalizing s with
  | nil =>
    refine runOps_close_meets hf fun c hc => runOps_cons_meets ?_
    obtain ⟨ls, r, -, rfl⟩ := closeAt_ok hc
    rw [runOp_await]
    exact streaming_between (p := []) ⟨hf, rfl, Nat.zero_le _, streamCore_nil.symm⟩ rfl
  | cons n leaves ih => exact runOps_push_meets hf fun c _ => ih hf

/-! ## Operand bytes -/

/-- A byte of a WRITE that absorbs: the accumulator of one byte more, or the end of the WRITE (rules R24, R27, R150, R152). -/
theorem payloadByte_streaming (b : Byte) (h : Writing p d s) : Ends State.Streaming True (payloadByte b s) := by
  obtain ⟨k, hcmd, hlen, hle⟩ := h.cmd
  obtain ⟨hsub, hpos⟩ := toNat_sub_one h.rem
  obtain ⟨c, leaves, habsorb, xs, hxs, hcore⟩ := absorb_writing p d b
  rw [payloadByte_absorbed b h.drop, h.core, habsorb]
  refine trap_streaming h.fused h.fits h.saved (runOps_pushes_meets h.fused hxs ?_)
  have hdone : (d ++ [b]).length + (s.parser.rem - 1#56).toNat = k.arg.toNat := by
    rw [List.length_append, List.length_singleton, hsub]
    omega
  simp only [hcore]
  by_cases hlast : s.parser.rem - 1#56 = 0#56
  · rw [beq_iff_eq.2 hlast, if_pos rfl]
    rw [hlast, BitVec.toNat_ofNat, Nat.zero_mod, Nat.add_zero] at hdone
    exact runOps_writeDone_meets (p := p ++ (d ++ [b])) h.fused hcmd (by rw [List.length_append]; omega)
      (writingCore_end (by simp) hdone)
  · rw [beq_eq_false_iff_ne.2 hlast, if_neg Bool.false_ne_true]
    exact Writing.streaming (p := p) (d := d ++ [b])
      { fused := h.fused, job := rfl, fits := h.fits, saved := h.saved, phase := h.phase, rem := hlast
        payload := h.payload, drop := h.drop, cmd := ⟨k, hcmd, hdone, hle⟩, core := rfl }

theorem extendRun_streaming (h : Accepted p s) : Meets State.Streaming True True (extendRun s) := by
  refine meets_true (fun t ht => ?_) fun _ => trivial
  unfold extendRun at ht
  repeat' split at ht
  all_goals cases ht
  all_goals exact reply_streaming h _ _

/-- A byte of a command that does not absorb it (rules R75, R77). -/
theorem asideByte_streaming (b : Byte) (h : Taking p s) (hcore : s.core = streamCore p)
    (hnot : ¬ (s.parser.phase = .payload ∧ s.parser.drop = false)) : Ends State.Streaming True (operandByte b s) := by
  have hends : Accepted p s := ⟨h.fused, h.job, h.fits, hcore⟩
  have hmore {q : Parser} (hsaved : q.saved = s.parser.saved) (hphase : q.phase ≠ .cmd) (hrem : q.rem ≠ 0#56)
      (hq : ¬ (q.phase = .payload ∧ q.drop = false)) : ({ s with parser := q } : State).Streaming :=
    streaming_aside ⟨h.fused, h.job, h.fits, hsaved.trans h.saved, hphase, hrem⟩ hcore hq
  refine operandByte_ends h.phase (fun hp hd => ?_) (fun hp hd => absurd ⟨hp, hd⟩ hnot) (fun _ => ?_) (fun _ => ?_) (fun hp => ?_)
  · split
    · exact endDropped_of_reply (reply_streaming (p := p) ⟨h.fused, h.job, h.fits, hcore⟩)
    · next hrem => exact hmore rfl h.phase hrem hnot
  · rw [extCByte_eq]
    split
    · exact hmore rfl (fun hc => nomatch hc) eight_ne_zero (fun hc => nomatch hc.1)
    · next hrem => exact hmore rfl h.phase hrem hnot
  · rw [extSByte_eq]
    split
    · exact hmore rfl (fun hc => nomatch hc) eight_ne_zero (fun hc => nomatch hc.1)
    · next hrem => exact hmore rfl h.phase hrem hnot
  · have hstage : Accepted p (stageT b s) := ⟨h.fused, h.job, h.fits, hcore⟩
    rw [extTByte_eq]
    split
    · split
      · exact endDropped_of_reply (reply_streaming hstage)
      · exact trap_streaming h.fused h.fits h.saved (extendRun_streaming hstage)
    · next hrem => exact hmore rfl h.phase hrem hnot

theorem operandByte_streaming (b : Byte) (h : s.Streaming) (hw : s.wantsOperand = true) :
    Ends State.Streaming True (operandByte b s) := by
  obtain ⟨hphase, -⟩ := (wantsOperand_iff s).1 hw
  obtain ⟨p, -, -, hcmd⟩ | ⟨p, htaking, hcore, hnot⟩ | ⟨p, d, hwriting⟩ := streaming_cases h
  · exact absurd hcmd hphase
  · exact asideByte_streaming b htaking hcore hnot
  · refine operandByte_ends hphase (fun _ hd => ?_) (fun _ _ => payloadByte_streaming b hwriting) (fun hp => ?_) (fun hp => ?_)
      (fun hp => ?_)
    · rw [hwriting.drop] at hd; cases hd
    all_goals rw [hwriting.payload] at hp; cases hp

theorem feed_streaming {bs : List Byte} (h : s.Streaming) : Ends State.Streaming True (feed bs s) :=
  feed_ends (fun _ _ ht => streaming_frame ht rfl rfl rfl rfl) (fun b _ ht hw => operandByte_streaming b ht hw) h

/-! ## Commands -/

theorem streamCore_total (hfits : p.length ≤ maxPiecePayload) : (streamCore p).total.toNat = p.length := by
  unfold maxPiecePayload at hfits
  show (BitVec.ofNat 64 p.length).toNat = p.length
  rw [BitVec.toNat_ofNat, Nat.mod_eq_of_lt (by omega)]

theorem execWrite_streaming (len : Arg) (h : Accepted p s) : Moves State.Streaming True (execWrite len s) := by
  have htotal : s.core.total.toNat = p.length := by rw [h.core]; exact streamCore_total h.fits
  have hsaved (drop : Bool) : (writeParser len drop s).saved = some (streamCore p) := congrArg some h.core
  unfold execWrite
  simp only
  cases hcond : s.fatal || overflows s.core.total len with
  | true =>
    rw [startWrite_discards hcond]
    split
    · refine endDropped_of_reply (reply_streaming (p := p) ?_)
      exact ⟨h.fused, rfl, h.fits, h.core⟩
    · next hlen =>
      have htaking : Taking p { s with job := [], parser := writeParser len true s } :=
        ⟨h.fused, rfl, h.fits, hsaved true, (fun hc => nomatch hc), hlen⟩
      exact moves_conclude.2 (feed_streaming (streaming_aside htaking h.core (fun hc => nomatch hc.2)))
  | false =>
    obtain ⟨-, hover⟩ := Bool.or_eq_false_iff.1 hcond
    have hle : p.length + len.toNat ≤ maxPiecePayload := by
      rw [← htotal]
      exact (overflows_eq_false (by rw [htotal]; exact h.fits)).1 hover
    rw [startWrite_absorbs hcond]
    split
    · next hlen =>
      rw [moves_conclude]
      split
      · next hd => exact absurd hd Bool.false_ne_true
      · refine trap_streaming h.fused h.fits (hsaved false) (runOps_writeDone_meets (p := p) h.fused rfl h.fits ?_)
        show ({ s.core with total := s.core.total + zext64 len } : Core) = streamCore p
        rw [hlen, zext64_eq (n := 0) rfl, BitVec.add_zero]
        exact h.core
    · next hlen =>
      rw [moves_conclude]
      exact feed_streaming (Writing.streaming (p := p) (d := [])
        { fused := h.fused, job := rfl, fits := h.fits, saved := hsaved false, phase := (fun hc => nomatch hc), rem := hlen
          payload := rfl, drop := rfl, cmd := ⟨_, rfl, Nat.zero_add _, hle⟩
          core := by
            show s.core.startLayer0 = writingCore p []
            rw [h.core, writingCore_nil] })

theorem finalize_streaming (sized : Bool) (h : Accepted p s) :
    Ends State.Streaming True (finalize sized (beginCommand none s)) := by
  refine trap_streaming (p := p) h.fused h.fits (congrArg some h.core) ?_
  split
  · exact meets_true (fun t ht => nomatch ht) fun _ => trivial
  · exact runOps_finalize_meets _ sized h.fused

theorem execDigest_streaming (h : Accepted p s) : Moves State.Streaming True (execDigest s) := by
  refine answered_moves (fun _ => reply_streaming h _ _) fun _ => ?_
  split
  · exact reply_streaming h _ _
  · exact moves_conclude.2 (finalize_streaming true h)

theorem execSum_streaming (h : Accepted p s) : Moves State.Streaming True (execSum s) := by
  refine answered_moves (fun _ => reply_streaming h _ _) fun _ => ?_
  split
  · exact reply_streaming (p := p) (s := enterFatal _ s) ⟨h.fused, h.job, h.fits, h.core⟩ _ _
  · exact moves_conclude.2 (finalize_streaming false h)

theorem execReset_streaming (h : Accepted p s) : Moves State.Streaming True (execReset s) :=
  answered_moves (fun _ => reply_streaming h _ _) fun _ =>
    (reply_streaming (p := []) (s := { s with core := Core.empty }) ⟨h.fused, h.job, Nat.zero_le _, streamCore_nil.symm⟩ _ _)

theorem startExtend_streaming (clen : Arg) (h : Accepted p s) : (startExtend clen s).Streaming := by
  have hsaved : some s.core = some (streamCore p) := congrArg some h.core
  unfold startExtend
  simp only
  split
  · exact streaming_aside (p := p) ⟨h.fused, rfl, h.fits, hsaved, (fun hc => nomatch hc), eight_ne_zero⟩ h.core
      (fun hc => nomatch hc.1)
  · next hclen =>
    exact streaming_aside (p := p) ⟨h.fused, rfl, h.fits, hsaved, (fun hc => nomatch hc), hclen⟩ h.core (fun hc => nomatch hc.1)

theorem exec_streaming {bs : List Byte} {i : Instr} (hi : decodeBytes bs = .ok i) (h : Accepted p s) :
    Moves State.Streaming True (exec i s) := by
  have answers (st : Status) (r : List Byte) :
      Moves State.Streaming True (if s.fatal then .next (fatalReply s) else .next (reply st r s)) :=
    answered_moves (fun _ => reply_streaming h _ _) fun _ => reply_streaming h st r
  exact exec_decoded_moves hi (fun len => execWrite_streaming len h) (execDigest_streaming h) (execSum_streaming h)
    (execReset_streaming h) (fun clen => moves_conclude.2 (feed_streaming (startExtend_streaming clen h)))
    (answers _ _) (answers _ _)

/-! ## Turns -/

theorem seqStep_streaming (h : s.Streaming) : Moves State.Streaming True (seqStep s) := by
  have hidle (hp : s.parser.phase = .cmd) : ∃ p, Accepted p s ∧ s.parser.saved = none := by
    obtain ⟨p, haccepted, hs, -⟩ | ⟨p, htaking, -⟩ | ⟨p, d, hwriting⟩ := streaming_cases h
    · exact ⟨p, haccepted, hs⟩
    · exact absurd hp htaking.phase
    · exact absurd hp hwriting.phase
  refine seqStep_moves (fun hj => absurd h.2.1 hj) (fun _ => h) (fun _ _ hp bs _ => ?_) (fun _ _ hp _ rest _ hi => ?_)
    (fun _ _ hp rest => ?_) (fun _ _ _ => feed_streaming h)
  · obtain ⟨p, ⟨hf, hj, hfits, hcore⟩, hs⟩ := hidle hp
    refine ⟨hf, hj, p, hfits, ?_⟩
    rw [show ({ s.parser with cwbuf := bs } : Parser).saved = none from hs]
    exact ⟨hp, hcore⟩
  · obtain ⟨p, ⟨hf, hj, hfits, hcore⟩, -⟩ := hidle hp
    exact exec_streaming (p := p) hi ⟨hf, hj, hfits, hcore⟩
  · obtain ⟨p, ⟨hf, hj, hfits, hcore⟩, -⟩ := hidle hp
    exact illegal_of_reply (reply_streaming (p := p) ⟨hf, hj, hfits, hcore⟩)

/-- A layer agent of a drained block has no token to run. -/
theorem headToken_drained (h : s.core.drained = true) (l : Fin 32) : headToken l s = none := by
  unfold headToken
  split
  · rfl
  · next r hr =>
    rw [(drained_iff s.core).1 h r (List.mem_of_getElem? hr)]
    rfl

theorem layerStep_streaming (l : Fin 32) (h : s.Streaming) : Moves State.Streaming True (layerStep l s) := by
  unfold layerStep
  rw [headToken_drained (streaming_drained h)]
  exact h

theorem runTurn_streaming (turn : Turn) (h : s.Streaming) : Moves State.Streaming True (runTurn turn s) := by
  cases turn with
  | seq => exact seqStep_streaming h
  | layer l => exact layerStep_streaming l h
  | offer bytes => exact streaming_frame h rfl rfl rfl rfl
  | take => exact streaming_frame h (hostTake_core s) (hostTake_parser s) (hostTake_job s) (hostTake_params s)
  | rst => exact streaming_between (p := []) (q := Parser.idle) ⟨h.1, rfl, Nat.zero_le _, streamCore_nil.symm⟩ rfl
  | shaFail => exact streaming_frame h rfl rfl rfl rfl

/-- Settles O57: turn by turn, with the closed form of one more byte (`absorb_writing`, `pushAt_stream`) for a WRITE. -/
theorem stepKeepsTheStream : Obligations.StepKeepsTheStream := by
  intro s t h hstep
  obtain ⟨ts, hts⟩ := nextTurn_snd s
  have hs1 : (nextTurn s).2.Streaming := by
    rw [hts]
    exact streaming_frame h rfl rfl rfl rfl
  exact (runTurn_streaming _ hs1).of_next (step_eq s ▸ hstep)

end Sys2Proof.StateProofs
end

section
/-! PROOFS. Operand bytes may come in pieces (rules R55, R74, R75): what the bytes on offer cannot influence. -/

namespace Sys2Proof.MemoryProofs

open Sys2Proof Sys2Proof.Machine Sys2Proof.StateProofs

/-! ## Operations that read no byte on offer

`offering i s` is `s` with the bytes `i` on offer. An operation that neither reads nor changes `input` commutes with it. -/

/-- `s` with the bytes `i` on offer. -/
def offering (i : List Byte) (s : State) : State := { s with input := i }

section Offering

variable (i : List Byte) (s : State)

@[simp] theorem offering_parser : (offering i s).parser = s.parser := rfl
@[simp] theorem offering_core : (offering i s).core = s.core := rfl
@[simp] theorem offering_shaOk : (offering i s).shaOk = s.shaOk := rfl
@[simp] theorem offering_fatal : (offering i s).fatal = s.fatal := rfl
@[simp] theorem offering_arg : (offering i s).arg = s.arg := rfl
@[simp] theorem offering_xcNode : (offering i s).xcNode = s.xcNode := rfl
@[simp] theorem offering_xsSize : (offering i s).xsSize = s.xsSize := rfl
@[simp] theorem offering_xtSize : (offering i s).xtSize = s.xtSize := rfl
@[simp] theorem offering_pipelineEmpty : (offering i s).pipelineEmpty = s.pipelineEmpty := rfl
@[simp] theorem offering_wantsOperand : (offering i s).wantsOperand = s.wantsOperand := rfl
@[simp] theorem countDown_offering : countDown (offering i s) = offering i (countDown s) := rfl
@[simp] theorem stageT_offering (b : Byte) : stageT b (offering i s) = offering i (stageT b s) := rfl

/-! ## Ends of operations -/

theorem endDropped_offering : endDropped (offering i s) = offering i (endDropped s) := by
  unfold endDropped
  rw [offering_fatal]
  split <;> rfl

theorem internalFault_offering : internalFault (offering i s) = offering i (internalFault s) := by
  unfold internalFault
  simp only [offering_parser]
  cases s.parser.saved with
  | none => rfl
  | some c =>
    simp only [apply_ite (offering i)]
    rfl

theorem trap_offering (r : Res State) :
    trap (offering i s) (r.map (offering i)) = (trap s r).map (offering i) := by
  match r with
  | .ok t => rfl
  | .error .internal => exact congrArg Except.ok (internalFault_offering i s)
  | .error (.fault f) => rfl

/-! ## Actions of the sequencer -/

theorem stepped_offering (r : Res Core) :
    stepped (offering i s) r = (stepped s r).map (Option.map (offering i)) := by
  cases r <;> rfl

theorem steppedOrHeld_offering (r : Res (Option Core)) :
    steppedOrHeld (offering i s) r = (steppedOrHeld s r).map (Option.map (offering i)) := by
  match r with
  | .ok none => rfl
  | .ok (some c) => rfl
  | .error e => rfl

/-- A layer operation as an action, with the layers fused or pipelined (rules R130, R152, R158). -/
theorem layerAction_offering (fused : Bool) (r : Res Core) (r' : Res (Option Core)) :
    (if fused then stepped (offering i s) r else steppedOrHeld (offering i s) r') =
      (if fused then stepped s r else steppedOrHeld s r').map (Option.map (offering i)) := by
  cases fused with
  | true => exact stepped_offering i s r
  | false => exact steppedOrHeld_offering i s r'

theorem answerWrite_offering : answerWrite (offering i s) = (answerWrite s).map (offering i) := by
  unfold answerWrite
  rw [offering_arg]
  cases s.arg <;> rfl

theorem runOp_offering (op : SeqOp) :
    runOp op (offering i s) = (runOp op s).map (Option.map (offering i)) := by
  cases op with
  | push leaf =>
    rw [runOp_push, runOp_push]
    exact layerAction_offering i s _ _ _
  | close =>
    rw [runOp_close, runOp_close]
    exact layerAction_offering i s _ _ _
  | await sized =>
    rw [runOp_await, runOp_await, offering_core]
    cases s.core.root <;> rfl
  | writeDone =>
    simp only [runOp, answerWrite_offering, offering_pipelineEmpty]
    cases s.pipelineEmpty with
    | false => rfl
    | true => cases answerWrite s <;> rfl

theorem runOps_offering (ops : List SeqOp) :
    runOps ops (offering i s) = (runOps ops s).map (offering i) := by
  induction ops generalizing s with
  | nil => rfl
  | cons op ops ih =>
    unfold runOps
    rw [runOp_offering]
    match runOp op s with
    | .error e => rfl
    | .ok none => rfl
    | .ok (some t) => exact ih t

/-! ## Operand bytes -/

theorem extendRun_offering : extendRun (offering i s) = (extendRun s).map (offering i) := by
  unfold extendRun
  simp only [offering_xsSize, offering_xtSize, offering_xcNode, offering_parser, offering_shaOk]
  cases s.xsSize with
  | error e => rfl
  | ok src =>
    cases s.xtSize with
    | error e => rfl
    | ok tgt =>
      simp only
      cases validate s.parser.xclen src tgt with
      | some st => rfl
      | none =>
        cases s.xcNode with
        | error e => rfl
        | ok c =>
          simp only
          cases extendValue s.shaOk c src tgt <;> rfl

theorem payloadByte_offering (b : Byte) :
    payloadByte b (offering i s) = (payloadByte b s).map (offering i) := by
  cases hd : s.parser.drop with
  | true =>
    rw [payloadByte_dropped b hd, payloadByte_dropped b (s := offering i s) hd, offering_parser, countDown_offering]
    split
    · exact congrArg Except.ok (endDropped_offering i (countDown s))
    · rfl
  | false =>
    rw [payloadByte_absorbed b hd, payloadByte_absorbed b (s := offering i s) hd, ← trap_offering,
      offering_core, offering_parser, countDown_offering]
    congr 1
    cases s.core.absorb b with
    | error e => rfl
    | ok r => exact runOps_offering i { countDown s with core := r.1 } _

theorem extCByte_offering (b : Byte) : extCByte b (offering i s) = offering i (extCByte b s) := by
  rw [extCByte_eq, extCByte_eq, offering_parser]
  split <;> rfl

theorem extSByte_offering (b : Byte) : extSByte b (offering i s) = offering i (extSByte b s) := by
  rw [extSByte_eq, extSByte_eq, offering_parser]
  split <;> rfl

theorem extTByte_offering (b : Byte) : extTByte b (offering i s) = (extTByte b s).map (offering i) := by
  rw [extTByte_eq, extTByte_eq, offering_parser, stageT_offering]
  split
  · cases s.parser.drop with
    | true => exact congrArg Except.ok (endDropped_offering i (stageT b s))
    | false =>
      rw [extendRun_offering]
      exact trap_offering i _ _
  · rfl

theorem operandByte_offering (b : Byte) :
    operandByte b (offering i s) = (operandByte b s).map (offering i) := by
  unfold operandByte
  rw [offering_parser]
  cases s.parser.phase with
  | cmd => rfl
  | payload => exact payloadByte_offering i s b
  | extC => exact congrArg Except.ok (extCByte_offering i s b)
  | extS => exact congrArg Except.ok (extSByte_offering i s b)
  | extT => exact extTByte_offering i s b

/-! ## Feeding -/

/-- What is fed replaces what was on offer. -/
theorem feed_offering (bs : List Byte) : feed bs (offering i s) = feed bs s := by
  induction bs generalizing s with
  | nil => rfl
  | cons b bs ih =>
    unfold feed
    rw [offering_wantsOperand, operandByte_offering]
    split
    · cases operandByte b s with
      | error f => rfl
      | ok t => exact ih t
    · rfl

end Offering

/-- Taking the next operand byte: the rest follows. -/
theorem feed_cons_of_ok {b : Byte} {s s1 : State} (hw : s.wantsOperand = true) (hb : operandByte b s = .ok s1)
    (bs : List Byte) : feed (b :: bs) s = feed bs s1 := by
  simp [feed, hw, hb]

/-- Settles O9, by induction on the first piece: a byte that is taken is taken before any of the second piece, and a state
that takes none still has the whole piece on offer. -/
theorem operandBytesMayComeInPieces : Obligations.OperandBytesMayComeInPieces := by
  intro a b s t h
  induction a generalizing s with
  | nil =>
    obtain rfl : offering [] s = t := Except.ok.inj h
    exact (feed_offering [] s b).symm
  | cons x xs ih =>
    obtain ⟨-, rfl⟩ | ⟨hw, s1, hx, hxs⟩ := feed_cons h
    · exact (feed_offering (x :: xs) s _).symm
    · calc feed (x :: xs ++ b) s
        _ = feed (xs ++ b) s1 := feed_cons_of_ok hw hx (xs ++ b)
        _ = feed (t.input ++ b) t := ih s1 hxs

end Sys2Proof.MemoryProofs
end

section
/-! PROOFS. The decoder and the encoder (rules R71 to R73, R78, R79, R84), and the turns that run what was decoded (rules R72,
R85, R140). -/

namespace Sys2Proof.EncodingProofs

open Sys2Proof Sys2Proof.Machine Sys2Proof.Laws Sys2Proof.StateProofs

/-! ## Little-endian byte strings -/

/-- The `n` low bytes of a number stand for it modulo `256^n` (rule R10). -/
theorem leNat_leBytes (n v : Nat) : leNat (leBytes n v) = v % 256 ^ n := by
  induction n generalizing v with
  | zero => simp [leBytes, leNat, Nat.mod_one]
  | succ n ih =>
    rw [leBytes, leNat, ih, BitVec.toNat_ofNat]
    exact (pow_succ' 256 n ▸ Nat.mod_mul).symm

@[simp] theorem fromLe64_le64 (v : Size) : fromLe64 (le64 v) = v := by
  have hlt : v.toNat < 256 ^ 8 := v.isLt
  rw [fromLe64, le64, leNat_leBytes, Nat.mod_eq_of_lt hlt, BitVec.ofNat_toNat, BitVec.setWidth_eq]

/-- The decoder on a command word's stream bytes is the decoder on the word (rules R54, R71). -/
theorem decodeBytes_cmdBytes (w : CmdWord) : decodeBytes (cmdBytes w) = decodeCmdWord w := by
  have hlen : (cmdBytes w).length = 8 := leBytes_length 8 _
  rw [decodeBytes, if_pos hlen, cmdBytes, fromLe64_le64]

/-! ## Command words -/

/-- A command word is its two fields (rule R71). -/
theorem cmdWord_fields (w : CmdWord) : cmdWord (cwOpc w) (cwArg w) = w := by
  apply BitVec.eq_of_getLsbD_eq
  intro i hi
  by_cases h8 : i < 8
  · simp [cmdWord, cwOpc, hi, h8]
  · simp [cmdWord, cwArg, cwOpc, hi, h8, show i - 8 < 56 by omega, show 8 + (i - 8) = i by omega]

theorem noOperand_ok {opc : Byte} {arg : Arg} {i j : Instr} : noOperand opc arg i = .ok j ↔ arg = 0#56 ∧ i = j := by
  unfold noOperand
  split <;> simp_all

theorem noOperand_error {opc : Byte} {arg : Arg} {i : Instr} : (∃ e, noOperand opc arg i = .error e) ↔ arg ≠ 0#56 := by
  unfold noOperand
  split <;> simp_all

/-- The encoding of a host command decodes to it, row by row of the opcode map (rules R73, R78). -/
theorem decodeCmdWord_of_encode {i : Instr} {w : CmdWord} (h : encode i = .cmd w) : decodeCmdWord w = .ok i := by
  cases i with
  | layerNode n => cases h
  | layerClose => cases h
  | _ => cases h; simp [decodeCmdWord, noOperand]

/-- A legal command word is the encoding of what it decodes to (rules R73, R79). -/
theorem encode_of_decodeCmdWord {i : Instr} {w : CmdWord} (h : decodeCmdWord w = .ok i) : encode i = .cmd w := by
  rw [← cmdWord_fields w]
  have hnone {j : Instr} {opc : Byte} (hopc : cwOpc w = opc) (hrow : encode j = .cmd (cmdWord opc 0#56))
      (hj : noOperand (cwOpc w) (cwArg w) j = .ok i) : encode i = .cmd (cmdWord (cwOpc w) (cwArg w)) := by
    obtain ⟨harg, rfl⟩ := noOperand_ok.1 hj
    rw [hopc, harg, hrow]
  simp only [decodeCmdWord] at h
  split_ifs at h with h1 h2 h3 h4 h5 h6 h7
  · cases h; rw [h1, encode]
  · exact hnone h2 rfl h
  · exact hnone h3 rfl h
  · exact hnone h4 rfl h
  · cases h; rw [h5, encode]
  · exact hnone h6 rfl h
  · exact hnone h7 rfl h

/-! ## Layer tokens -/

theorem decodeToken_nodeToken (n : Node) : decodeToken (nodeToken n) = .layerNode n := by simp [decodeToken]

theorem decodeToken_closeToken : decodeToken closeToken = .layerClose := by simp [decodeToken]

/-- A token of tag 0 is the NODE token of its node (rule R84). -/
theorem nodeToken_tokenNode {t : Token} (h : tokenTag t = false) : nodeToken (tokenNode t) = t := by
  rw [tokenTag_eq] at h
  apply BitVec.eq_of_getLsbD_eq
  intro i hi
  by_cases h256 : i < 256
  · simp [nodeToken, tokenNode, hi, h256]
  · obtain rfl : i = 256 := by omega
    rw [h]
    simp [nodeToken]

/-! ## Obligations on the encoding -/

/-- Settles O1: command words row by row, tokens by their tag. -/
theorem decodeOfEncodeIsTheInstruction : Obligations.DecodeOfEncodeIsTheInstruction := by
  intro i
  refine ⟨?_, fun w h => (decodeBytes_cmdBytes w).trans (decodeCmdWord_of_encode h)⟩
  cases he : encode i with
  | cmd w => exact decodeCmdWord_of_encode he
  | token t =>
    cases i with
    | layerNode n => cases he; exact congrArg Except.ok (decodeToken_nodeToken n)
    | layerClose => cases he; exact congrArg Except.ok decodeToken_closeToken
    | _ => cases he

/-- Settles O2: a command word by the rows of the opcode map, a NODE token by its tag and node bits. -/
theorem decodedWordIsItsEncoding : Obligations.DecodedWordIsItsEncoding := by
  refine ⟨fun w i h => encode_of_decodeCmdWord h, fun t n h => ?_⟩
  unfold decodeToken at h
  split at h
  · cases h
  · next htag =>
    cases h
    exact congrArg CodeWord.token (nodeToken_tokenNode (by simpa using htag))

/-- Settles O3, opcode by opcode (rules R78, R79). -/
theorem illegalWordsAreExactlyTheReserved : Obligations.IllegalWordsAreExactlyTheReserved := by
  intro w
  simp only [decodeCmdWord]
  generalize cwOpc w = opc
  split_ifs with h1 h2 h3 h4 h5 h6 h7
  · simp [h1]
  · simp [h2, noOperand_error]
  · simp [h3, noOperand_error]
  · simp [h4, noOperand_error]
  · simp [h5]
  · simp [h6, noOperand_error]
  · simp [h7, noOperand_error]
  · have hreserved : opc = 0x00#8 ∨ 0x08#8 ≤ opc := by bv_omega
    simp [hreserved]

/-- The NODE token of a node is its number (rule R84). -/
theorem natCast_eq_nodeToken (n : Node) : ((n.toNat : Nat) : Token) = nodeToken n := by
  rw [BitVec.natCast_eq_ofNat, BitVec.ofNat_toNat, nodeToken]

/-- Settles O4: the command words by their 8 bytes, the tokens as the NODE token of 5 and the CLOSE token. -/
theorem sampleWordsDecode : Obligations.SampleWordsDecode := by
  have hnode : decodeToken ((5#256).toNat : Token) = .layerNode 5#256 := by
    rw [natCast_eq_nodeToken, decodeToken_nodeToken]
  exact ⟨by decide, by decide, by decide, by decide, hnode, decodeToken_closeToken⟩

/-! ## Turns -/

/-- Enough bytes on offer complete the command word (rule R72). -/
theorem fetch_word {s : State} (hcw : s.parser.cwbuf.length ≤ 8) (hlen : 8 ≤ (s.parser.cwbuf ++ s.input).length) :
    fetch s = .word ((s.parser.cwbuf ++ s.input).take 8) (taken ((s.parser.cwbuf ++ s.input).drop 8) s) := by
  rw [List.length_append] at hlen
  unfold fetch
  rw [if_neg (by omega), List.take_append, List.drop_append, List.take_of_length_le hcw, List.drop_of_length_le hcw]
  rfl

/-- Fewer bytes than a command word needs are collected (rule R72). -/
theorem fetch_more {s : State} (hlen : (s.parser.cwbuf ++ s.input).length < 8) :
    fetch s = .more { s with parser := { s.parser with cwbuf := s.parser.cwbuf ++ s.input }, input := [] } := by
  rw [List.length_append] at hlen
  unfold fetch
  rw [if_pos (by omega)]

section Sequencer

variable {s t : State} (hj : s.job = []) (hr : s.rspq.length < s.params.rspqDepth) (hp : s.parser.phase = .cmd)
include hj hr hp

/-- The sequencer between commands collects the bytes of a command word (rules R72, R250). -/
theorem seqStep_collects (h : fetch s = .more t) : seqStep s = .next t := by
  unfold seqStep
  rw [if_neg (by simp [hj]), if_neg (by simp [hr]), if_pos hp, h]

/-- The sequencer runs the command word it has assembled (rules R72, R73). -/
theorem seqStep_runs {bytes : List Byte} {i : Instr} (h : fetch s = .word bytes t) (hi : decodeBytes bytes = .ok i) :
    seqStep s = exec i t := by
  unfold seqStep
  rw [if_neg (by simp [hj]), if_neg (by simp [hr]), if_pos hp, h]
  simp only [hi]

end Sequencer

/-- Settles O5: a complete command word is run, an incomplete one collected. -/
theorem stepRunsTheDecodedCommand : Obligations.StepRunsTheDecodedCommand := by
  intro s s1 hturn hj hr hp hcw
  have hstep : step s = seqStep s1 := step_of_nextTurn hturn
  rw [hstep]
  exact ⟨fun i hlen hi => seqStep_runs hj hr hp (fetch_word hcw hlen) hi,
    fun hlen => seqStep_collects hj hr hp (fetch_more hlen)⟩

/-- The token at the head of a layer's queue. -/
theorem headToken_eq {s : State} {l : Fin 32} {r : Layer} (h : s.core.layers[l.val]? = some r) :
    headToken l s = r.q.head? := by
  unfold headToken
  rw [h]

theorem layerStep_runs {s : State} {l : Fin 32} {tok : Token} (h : headToken l s = some tok) :
    layerStep l s = exec (decodeToken tok) { s with sel := l } := by
  unfold layerStep
  rw [h]

theorem layerStep_idle {s : State} {l : Fin 32} (h : headToken l s = none) : layerStep l s = .next s := by
  unfold layerStep
  rw [h]

/-- Settles O6: the head token is run, and without one the turn is no step. -/
theorem stepRunsTheQueuedToken : Obligations.StepRunsTheQueuedToken := by
  intro s s1 l r hturn hr
  have hstep : step s = layerStep l s1 := step_of_nextTurn hturn
  have hhead := headToken_eq hr
  rw [hstep]
  exact ⟨fun tok toks hq => layerStep_runs (by rw [hhead, hq]; rfl), fun hq => layerStep_idle (by rw [hhead, hq]; rfl)⟩

end Sys2Proof.EncodingProofs
end

section
/-! PROOFS. WRITE with a part of its payload on offer (rules R74, R150, R152). -/

namespace Sys2Proof.EncodingProofs

open Sys2Proof Sys2Proof.Machine Sys2Proof.Config Sys2Proof.StateProofs Sys2Proof.MemoryProofs

variable {s : State} {len : Arg}

/-! ## A WRITE that goes on -/

/-- The WRITE of `len` that began in `s`, `n` of its bytes in and `c` its accumulator. -/
def absorbing (s : State) (len : Arg) (n : Nat) (c : Core) : State :=
  { s with core := c, job := [], parser := { writeParser len false s with rem := len - BitVec.ofNat 56 n } }

/-- A WRITE that fits and has a payload begins with layer 0 started (rule R150). -/
theorem startWrite_eq_absorbing (hf : s.fatal = false) (hfits : s.core.total.toNat + len.toNat ≤ maxPiecePayload)
    (hlen : len ≠ 0#56) : startWrite len s = absorbing s len 0 s.core.startLayer0 := by
  have hover : overflows s.core.total len = false := (overflows_eq_false (by omega)).2 hfits
  rw [startWrite_absorbs (by rw [hf, hover]; rfl), if_neg hlen]
  simp only [absorbing, BitVec.sub_zero]
  rfl

/-- `REM` after one more byte. -/
theorem rem_succ (len : Arg) (n : Nat) : len - BitVec.ofNat 56 n - 1#56 = len - BitVec.ofNat 56 (n + 1) := by
  rw [BitVec.ofNat_add]
  bv_omega

/-- `REM` counts the bytes that are missing. -/
theorem rem_ne_zero {n : Nat} (h : n < len.toNat) : len - BitVec.ofNat 56 n ≠ 0#56 := by
  have := len.isLt
  bv_omega

/-- A payload byte that is not the last: absorbed, and the leaves of its quad pushed (rules R74, R152). -/
theorem payloadByte_absorbing {n : Nat} {c c1 c2 : Core} {leaves : List Node} (b : Byte) (h : n + 1 < len.toNat)
    (habsorb : c.absorb b = .ok (c1, leaves))
    (hpush : runOps (leaves.map SeqOp.push) (absorbing s len (n + 1) c1) = .ok (absorbing s len (n + 1) c2)) :
    payloadByte b (absorbing s len n c) = .ok (absorbing s len (n + 1) c2) := by
  have hrem : (absorbing s len n c).parser.rem - 1#56 = len - BitVec.ofNat 56 (n + 1) := rem_succ len n
  have hcount : ({ countDown (absorbing s len n c) with core := c1 } : State) = absorbing s len (n + 1) c1 := by
    rw [countDown, hrem]
    rfl
  have hcore : (absorbing s len n c).core = c := rfl
  rw [payloadByte_absorbed b rfl, hcore, habsorb]
  simp only
  rw [hcount, hrem, beq_eq_false_iff_ne.2 (rem_ne_zero h), payloadJob, if_neg Bool.false_ne_true, List.append_nil, hpush]
  rfl

/-- Taking payload bytes that do not end the WRITE: byte by byte the accumulator goes through `core`. -/
theorem feed_absorbing {core : List Byte → Core} {bound : Nat}
    (hbyte : ∀ d b, d.length < bound →
      payloadByte b (absorbing s len d.length (core d)) = .ok (absorbing s len (d.length + 1) (core (d ++ [b]))))
    (bs d : List Byte) (hd : d.length + bs.length ≤ bound) :
    feed bs (absorbing s len d.length (core d)) =
      .ok { absorbing s len (d ++ bs).length (core (d ++ bs)) with input := [] } := by
  induction bs generalizing d with
  | nil => rw [List.append_nil]; rfl
  | cons b bs ih =>
    rw [List.length_cons] at hd
    have hb : operandByte b (absorbing s len d.length (core d)) = .ok (absorbing s len (d.length + 1) (core (d ++ [b]))) :=
      hbyte d b (by omega)
    have hnext := ih (d ++ [b]) (by rw [List.length_append, List.length_singleton]; omega)
    rw [List.length_append, List.length_singleton, List.append_assoc] at hnext
    exact (feed_cons_of_ok rfl hb bs).trans hnext

/-- WRITE with a part of its payload on offer, through the accumulators `core` (rules R74, R150). -/
theorem exec_write_waits {core : List Byte → Core} (hf : s.fatal = false)
    (hfits : s.core.total.toNat + len.toNat ≤ maxPiecePayload) (hpart : s.input.length < len.toNat)
    (hstart : s.core.startLayer0 = core [])
    (hbyte : ∀ d b, d.length < s.input.length →
      payloadByte b (absorbing s len d.length (core d)) = .ok (absorbing s len (d.length + 1) (core (d ++ [b])))) :
    exec (.write len) s = .next { absorbing s len s.input.length (core s.input) with input := [] } := by
  have hlen : len ≠ 0#56 := by
    rintro rfl
    exact absurd hpart (Nat.not_lt_zero _)
  have hfeed := feed_absorbing hbyte s.input [] (by simp)
  show execWrite len s = _
  unfold execWrite
  simp only
  rw [if_neg hlen, startWrite_eq_absorbing hf hfits hlen, hstart]
  exact congrArg conclude hfeed

/-! ## A part that completes no quad -/

/-- `c` with layer 0 started and the bytes `d` after those in the carry buffer. -/
def buffering (c : Core) (d : List Byte) : Core :=
  { c with
    carry := c.carry ++ (List.range' c.clen d.length).zip d
    clen := c.clen + d.length
    layers := c.layers.modify 0 fun l => { l with active := true } }

theorem buffering_nil (c : Core) : c.startLayer0 = buffering c [] := by
  obtain ⟨carry, clen, total, layers, root⟩ := c
  cases layers <;> simp [Core.startLayer0, buffering]

theorem buffering_carryOk {c : Core} {d : List Byte} (h : c.CarryOk) (hd : c.clen + d.length < blockSize) :
    (buffering c d).CarryOk := by
  refine ⟨?_, hd⟩
  show (c.carry ++ (List.range' c.clen d.length).zip d).map Prod.fst = List.range (c.clen + d.length)
  rw [List.map_append, h.1, List.map_fst_zip (by rw [List.length_range']), List.range_eq_range', List.range_eq_range',
    ← List.range'_append_1, Nat.zero_add]

/-- ABSORB of a byte that goes to the carry buffer (rule R152). -/
theorem absorb_buffering {c : Core} {d : List Byte} (b : Byte) (h : c.CarryOk) (hd : c.clen + d.length + 1 < blockSize) :
    (buffering c d).absorb b = .ok (buffering c (d ++ [b]), []) := by
  rw [absorb_buffers (buffering_carryOk h (by omega)) b (Nat.ne_of_lt hd)]
  have hzip : (List.range' c.clen (d.length + 1)).zip (d ++ [b]) =
      (List.range' c.clen d.length).zip d ++ [(c.clen + d.length, b)] := by
    rw [List.range'_1_concat, List.zip_append (by rw [List.length_range'])]
    rfl
  simp only [buffering, List.length_append, List.length_singleton, hzip, List.append_assoc, Nat.add_assoc]

/-! ## A part of any length in a fused block -/

/-- EMIT comes to an end if a slot is free (rules R122 to R124). -/
theorem emit_of_free_slot {ls : List Layer} (h : ∃ l ∈ ls, l.slot = none) (n : Node) : ∃ ls', emit true ls n = .ok ls' := by
  induction ls generalizing n with
  | nil => simp at h
  | cons l above ih =>
    cases hs : l.slot with
    | none => exact ⟨_, by simp only [emit, hs]; rfl⟩
    | some left =>
      have habove : ∃ m ∈ above, m.slot = none := by simpa [hs] using h
      obtain ⟨above', ha⟩ := ih habove (nodeHash left n)
      exact ⟨_, by simp only [emit, hs, hash_ok.2 ⟨rfl, rfl⟩, ha]; rfl⟩

/-- The highest layer's slot is free below `2^31` leaves (rule R27). -/
theorem layersFrom_free_slot {xs : List Node} (h : xs.length < 2 ^ 31) : ∃ l ∈ layersFrom 0 layerCount xs, l.slot = none := by
  refine ⟨streamLayer true xs 31, List.mem_map_of_mem (by decide), ?_⟩
  rw [streamLayer_slot, Nat.div_eq_of_lt h]
  rfl

/-- One more leaf for the layers of fewer than `2^31` leaves (rules R27, R130). -/
theorem pushAt_stream_ok {ok : Bool} {c : Core} {xs : List Node} (hok : ok = true)
    (hl : c.layers = layersFrom 0 layerCount xs) (h : xs.length < 2 ^ 31) (n : Node) :
    c.pushAt ok 0 n = .ok { c with layers := layersFrom 0 layerCount (xs ++ [n]) } := by
  subst hok
  obtain ⟨ls, hemit⟩ := emit_of_free_slot (layersFrom_free_slot h) n
  have hpush : c.pushAt true 0 n = .ok { c with layers := ls } := by
    have hpush : push true 0 (layersFrom 0 layerCount xs) n = .ok ls := (push_eq_emit rfl).trans hemit
    unfold Core.pushAt
    rw [List.drop_zero, hl, hpush]
    rfl
  rw [hpush, pushAt_stream hl hpush]

/-- Leaves pushed into a fused block's layers go there in order (rules R27, R130). That `ys` gives the same layers says how
many leaves are there already. -/
theorem runOps_pushes_stream {leaves xs ys : List Node} (hfused : s.params.fused = true) (hsha : s.shaOk = true)
    (hxs : s.core.layers = layersFrom 0 layerCount xs) (hys : s.core.layers = layersFrom 0 layerCount ys)
    (hfits : ys.length + leaves.length ≤ 2 ^ 31) :
    runOps (leaves.map SeqOp.push) s =
      .ok { s with core := { s.core with layers := layersFrom 0 layerCount (xs ++ leaves) }, job := [] } := by
  induction leaves generalizing s xs ys with
  | nil =>
    rw [List.append_nil, ← hxs]
    rfl
  | cons n leaves ih =>
    rw [List.length_cons] at hfits
    have hpush := pushAt_stream_ok hsha hys (by omega) n
    have hsame := congrArg Core.layers (pushAt_stream hxs hpush)
    have hrun : runOp (.push n) s =
        .ok (some { s with core := { s.core with layers := layersFrom 0 layerCount (ys ++ [n]) } }) := by
      rw [runOp_push, if_pos hfused, hpush]
      rfl
    have hrest := ih (s := { s with core := { s.core with layers := layersFrom 0 layerCount (ys ++ [n]) } })
      hfused hsha hsame rfl (by rw [List.length_append, List.length_singleton]; omega)
    rw [List.append_assoc] at hrest
    rw [List.map_cons, runOps, hrun]
    exact hrest

theorem expandLeaves_length (win : List Byte) : (expandLeaves win).length = 4 := by simp [expandLeaves]

theorem quadLeaves_length (n : Nat) (q : List Byte) : (quadLeaves n q).length = 4 * n := by
  induction n with
  | zero => rfl
  | succ n ih => rw [quadLeaves_succ, List.length_append, ih, expandLeaves_length, Nat.mul_succ]

/-- ABSORB leaves the layers to its pushes, of which there are at most four (rules R105, R152). -/
theorem absorb_layers {c c' : Core} {b : Byte} {leaves : List Node} (h : c.absorb b = .ok (c', leaves)) :
    c'.layers = c.layers ∧ leaves.length ≤ 4 := by
  obtain ⟨-, ⟨-, rfl, rfl⟩ | ⟨-, rfl, win, -, rfl⟩⟩ := absorb_ok h
  · exact ⟨rfl, Nat.zero_le 4⟩
  · exact ⟨rfl, Nat.le_of_eq (expandLeaves_length win)⟩

/-- A byte of a WRITE after the payload `p` that is not its last, in a fused block (rules R24, R27, R152). -/
theorem payloadByte_stream {p d : List Byte} (b : Byte) (hfused : s.params.fused = true) (hsha : s.shaOk = true)
    (hfits : p.length + len.toNat ≤ maxPiecePayload) (hpart : d.length + 1 < len.toNat) :
    payloadByte b (absorbing s len d.length (writingCore p d)) =
      .ok (absorbing s len (d.length + 1) (writingCore p (d ++ [b]))) := by
  obtain ⟨c, leaves, habsorb, xs, hxs, hcore⟩ := absorb_writing p d b
  obtain ⟨hlayers, hfour⟩ := absorb_layers habsorb
  rw [writingCore_eq] at hlayers
  refine payloadByte_absorbing b hpart habsorb ?_
  rw [← hcore]
  refine runOps_pushes_stream (s := absorbing s len (d.length + 1) c) hfused hsha hxs hlayers ?_
  rw [quadLeaves_length, List.length_append]
  unfold maxPiecePayload at hfits
  omega

/-- Settles O12, byte by byte: the carry buffer of `buffering` without a quad, the accumulator of `writingCore` in a fused
block. -/
theorem writeWaitsForItsPayload : Obligations.WriteWaitsForItsPayload := by
  intro s len hf hfits hpart
  refine ⟨fun hcarry hresidue => ?_, fun p hfused hsha hp hcore => ?_⟩
  · refine exec_write_waits (core := buffering s.core) hf hfits hpart (buffering_nil s.core) fun d b hd => ?_
    exact payloadByte_absorbing b (by omega) (absorb_buffering b hcarry (by unfold blockSize; omega)) rfl
  · refine exec_write_waits (core := writingCore p) hf hfits hpart (by rw [hcore, writingCore_nil]) fun d b hd => ?_
    rw [hcore, streamCore_total hp] at hfits
    exact payloadByte_stream b hfused hsha hfits (by omega)

end Sys2Proof.EncodingProofs
end

section
/-! PROOFS. The Fr32 expander and the node hash, bit by bit (rules R9, R101 to R107): a byte string is read as the bit stream of
its bytes, each byte's least significant bit first. -/

namespace Sys2Proof.Fr32Proofs

open Sys2Proof Sys2Proof.Machine Sys2Proof.StateProofs

/-! ## Bytes as a bit stream -/

/-- Bit `m` of a little-endian number is bit `m mod 8` of byte `m div 8` (rules R9, R10). -/
theorem testBit_leNat (bs : List Byte) (m : Nat) : (leNat bs).testBit m = (bs.getD (m / 8) 0#8).getLsbD (m % 8) := by
  induction bs generalizing m with
  | nil => simp [leNat]
  | cons b bs ih =>
    rw [leNat, Nat.add_comm, Nat.testBit_two_pow_mul_add (i := 8) _ b.isLt]
    by_cases hm : m < 8
    · rw [if_pos hm, Nat.div_eq_of_lt hm, Nat.mod_eq_of_lt hm]
      rfl
    · obtain ⟨m, rfl⟩ := Nat.exists_eq_add_of_le' (Nat.le_of_not_lt hm)
      rw [if_neg hm, Nat.add_sub_cancel, ih, Nat.add_div_right m (by decide), Nat.add_mod_right]
      rfl

theorem getLsbD_nodeOfBytes (bs : List Byte) {m : Nat} (hm : m < 256) :
    (nodeOfBytes bs).getLsbD m = (bs.getD (m / 8) 0#8).getLsbD (m % 8) := by
  rw [nodeOfBytes, BitVec.getLsbD_ofNat, decide_eq_true hm, Bool.true_and, testBit_leNat]

/-- Bit `b` of byte `j` of a number's little-endian bytes is its bit `8j + b` (rule R10). -/
theorem getLsbD_leBytes (n v : Nat) {j b : Nat} (hb : b < 8) :
    ((leBytes n v).getD j 0#8).getLsbD b = (decide (j < n) && v.testBit (8 * j + b)) := by
  induction n generalizing v j with
  | zero => simp [leBytes]
  | succ n ih =>
    cases j with
    | zero => simp [leBytes, BitVec.getLsbD_ofNat, hb, -BitVec.getLsbD_eq_getElem]
    | succ j =>
      have hdiv : (v / 256).testBit (8 * j + b) = v.testBit (8 * (j + 1) + b) := by
        rw [Nat.mul_add_one, Nat.add_right_comm]
        exact Nat.testBit_div_two_pow (n := 8) v (8 * j + b)
      rw [leBytes, List.getD_cons_succ, ih, hdiv, decide_eq_decide.2 Nat.succ_lt_succ_iff]

theorem getLsbD_nodeBytes (n : Node) {j b : Nat} (hb : b < 8) :
    ((nodeBytes n).getD j 0#8).getLsbD b = n.getLsbD (8 * j + b) := by
  rw [nodeBytes, getLsbD_leBytes _ _ hb, BitVec.testBit_toNat, Bool.and_eq_right_iff_imp, decide_eq_true_iff]
  intro hbit
  have := BitVec.lt_of_getLsbD hbit
  omega

/-- Masking with `0x3F` clears bits 6 and 7 of a byte. -/
theorem getLsbD_mask {b : Nat} (hb : b < 8) (x : Byte) : (x &&& 0x3F#8).getLsbD b = (decide (b < 6) && x.getLsbD b) := by
  have hmask : ∀ b < 8, (0x3F#8).getLsbD b = decide (b < 6) := by decide
  rw [BitVec.getLsbD_and, hmask b hb, Bool.and_comm]

/-! ## EXPAND -/

/-- The window's bit stream moved up by `s` bits, at byte `j`: the byte's low bits over the high bits of the byte before it. -/
def shiftedByte (win : List Byte) (s j : Nat) : Byte := (win.getD j 0#8 <<< s) ||| (win.getD (j - 1) 0#8 >>> (8 - s))

theorem getLsbD_shiftedByte (win : List Byte) {s j b : Nat} (hs : s < 8) (hsj : s ≤ 8 * j) (hb : b < 8) :
    (shiftedByte win s j).getLsbD b = inputBit win (8 * j + b - s) := by
  rw [shiftedByte, BitVec.getLsbD_or, BitVec.getLsbD_shiftLeft, BitVec.getLsbD_ushiftRight, inputBit, decide_eq_true hb,
    Bool.true_and]
  by_cases hbs : b < s
  · have hdiv : (8 * j + b - s) / 8 = j - 1 := by omega
    have hmod : (8 * j + b - s) % 8 = 8 - s + b := by omega
    simp [hbs, hdiv, hmod]
  · have hdiv : (8 * j + b - s) / 8 = j := by omega
    have hmod : (8 * j + b - s) % 8 = b - s := by omega
    have hout : (win.getD (j - 1) 0#8).getLsbD (8 - s + b) = false := BitVec.getLsbD_of_ge _ _ (by omega)
    rw [hdiv, hmod, hout, decide_eq_false hbs, Bool.or_false]
    rfl

theorem shiftedByte_zero (win : List Byte) (j : Nat) : shiftedByte win 0 j = win.getD j 0#8 := by
  rw [shiftedByte, BitVec.shiftLeft_zero, BitVec.ushiftRight_eq_zero (by decide), BitVec.or_zero]

/-- The mask takes nothing from the window's last byte in its place (rule R101). -/
theorem mask_ushiftRight_two (x : Byte) : (x >>> 2) &&& 0x3F#8 = x >>> 2 := by
  refine BitVec.eq_of_getLsbD_eq fun b hb => ?_
  rw [getLsbD_mask hb, Bool.and_eq_right_iff_imp, decide_eq_true_iff, BitVec.getLsbD_ushiftRight]
  intro hbit
  have := BitVec.lt_of_getLsbD hbit
  omega

/-- Rule R101's byte formulas in one: byte `j` of leaf `k` is that of the bit stream moved up by the `2k` bits inserted before it,
and the leaf's last byte is masked. -/
theorem expandByte_eq {win : List Byte} (hwin : win.length = 127) {j : Nat} (hj : j < 128) :
    expandByte win j =
      if j % 32 = 31 then shiftedByte win (2 * (j / 32)) j &&& 0x3F#8 else shiftedByte win (2 * (j / 32)) j := by
  by_cases hlast : j % 32 = 31
  · rw [if_pos hlast]
    obtain rfl | rfl | rfl | rfl : j = 31 ∨ j = 63 ∨ j = 95 ∨ j = 127 := by omega
    · rw [shiftedByte_zero]
      rfl
    · rfl
    · rfl
    · rw [shiftedByte, List.getD_eq_default _ _ (by omega), BitVec.zero_shiftLeft, BitVec.zero_or, mask_ushiftRight_two]
      rfl
  · rw [if_neg hlast]
    unfold expandByte
    obtain hk | hk | hk | hk : j / 32 = 0 ∨ j / 32 = 1 ∨ j / 32 = 2 ∨ j / 32 = 3 := by omega
    · rw [hk, shiftedByte_zero]
      simp (disch := omega) only [if_pos, if_neg]
    all_goals
      rw [hk, shiftedByte]
      simp (disch := omega) only [if_pos, if_neg]

theorem getLsbD_expandByte {win : List Byte} (hwin : win.length = 127) {j b : Nat} (hj : j < 128) (hb : b < 8) :
    (expandByte win j).getLsbD b = expandedBit win (8 * j + b) := by
  have hshifted := getLsbD_shiftedByte win (s := 2 * (j / 32)) (j := j) (by omega) (by omega) hb
  have hbit : 254 * ((8 * j + b) / 256) + (8 * j + b) % 256 = 8 * j + b - 2 * (j / 32) := by omega
  rw [expandByte_eq hwin hj, expandedBit, hbit, ← hshifted]
  by_cases hlast : j % 32 = 31
  · have hkept : (8 * j + b) % 256 < 254 ↔ b < 6 := by omega
    rw [if_pos hlast, getLsbD_mask hb]
    simp [hkept]
  · rw [if_neg hlast, if_pos (by omega)]

theorem expand_length (win : List Byte) : (expand win).length = 128 := by simp [expand]

theorem expand_getD (win : List Byte) {j : Nat} (hj : j < 128) : (expand win).getD j 0#8 = expandByte win j := by
  simp [expand, hj]

/-- Settles O34, byte by byte: EXPAND moves leaf `k` of the window's bit stream up by `2k` bits and masks its last byte. -/
theorem expandInsertsTwoZeroBits : Obligations.ExpandInsertsTwoZeroBits := by
  intro win hwin
  refine ⟨expand_length win, fun m hm => ?_⟩
  rw [expand_getD win (by omega), getLsbD_expandByte hwin (by omega) (by omega), Nat.div_add_mod]

/-! ## The leaves -/

/-- Bit `r` of leaf `k` is bit `256k + r` of EXPAND's output (rule R105). -/
theorem getLsbD_leaf (win : List Byte) (k : Nat) {r : Nat} (hr : r < 256) :
    (nodeOfBytes (((expand win).drop (32 * k)).take 32)).getLsbD r =
      ((expand win).getD ((256 * k + r) / 8) 0#8).getLsbD ((256 * k + r) % 8) := by
  have hdiv : (256 * k + r) / 8 = 32 * k + r / 8 := by omega
  have hmod : (256 * k + r) % 8 = r % 8 := by omega
  have hbyte : r / 8 < 32 := by omega
  rw [getLsbD_nodeOfBytes _ hr, hdiv, hmod, List.getD_eq_getElem?_getD, List.getElem?_take_of_lt hbyte, List.getElem?_drop,
    ← List.getD_eq_getElem?_getD]

/-- Settles O35, from the bit stream of EXPAND (O34) cut into four leaves of 256 bits. -/
theorem leavesHoldTheInputBits : Obligations.LeavesHoldTheInputBits := by
  intro win hwin
  refine ⟨EncodingProofs.expandLeaves_length win, fun k n hleaf => ?_⟩
  have hfr32 : isFr32 n = true := List.all_eq_true.1 (expandLeaves_fr32 win) n (List.mem_of_getElem? hleaf)
  refine ⟨hfr32, fun r hr => ?_⟩
  obtain ⟨hk, rfl⟩ : k < 4 ∧ nodeOfBytes (((expand win).drop (32 * k)).take 32) = n := by
    simpa [expandLeaves, List.getElem?_eq_some_iff] using hleaf
  have hdiv : (256 * k + r) / 256 = k := by omega
  have hmod : (256 * k + r) % 256 = r := by omega
  obtain ⟨-, hbits⟩ := expandInsertsTwoZeroBits win hwin
  rw [getLsbD_leaf win k (by omega), hbits _ (by omega), expandedBit, hdiv, hmod, if_pos hr]

/-! ## The node hash -/

theorem sha256_length (m : List Byte) : (sha256 m).length = 32 := rfl

theorem nodeBytes_length (n : Node) : (nodeBytes n).length = 32 := rfl

theorem getLsbD_maskTop (n : Node) (m : Nat) : (maskTop n).getLsbD m = (decide (m < 254) && n.getLsbD m) := by
  rw [maskTop, BitVec.getLsbD_setWidth, BitVec.getLsbD_setWidth]
  by_cases hm : m < 254
  · rw [decide_eq_true (by omega : m < 256), Bool.true_and]
  · rw [decide_eq_false hm, Bool.false_and, Bool.and_false]

/-- Below bit 254 the bits of NodeHash's bytes are those of SHA-256, and its bits 254 and 255 are 0 (rule R107). -/
theorem getLsbD_nodeHash_byte (l r : Node) {j b : Nat} (hj : j < 32) (hb : b < 8) :
    ((nodeBytes (nodeHash l r)).getD j 0#8).getLsbD b =
      (decide (8 * j + b < 254) && ((sha256 (nodeBytes l ++ nodeBytes r)).getD j 0#8).getLsbD b) := by
  have hdiv : (8 * j + b) / 8 = j := by omega
  have hmod : (8 * j + b) % 8 = b := by omega
  rw [getLsbD_nodeBytes _ hb, nodeHash, getLsbD_maskTop, getLsbD_nodeOfBytes _ (by omega), hdiv, hmod]

theorem nodeHash_byte_below (l r : Node) {j : Nat} (hj : j < 31) :
    (nodeBytes (nodeHash l r)).getD j 0#8 = (sha256 (nodeBytes l ++ nodeBytes r)).getD j 0#8 := by
  refine BitVec.eq_of_getLsbD_eq fun b hb => ?_
  rw [getLsbD_nodeHash_byte l r (by omega) hb, decide_eq_true (by omega), Bool.true_and]

theorem nodeHash_byte_last (l r : Node) :
    (nodeBytes (nodeHash l r)).getD 31 0#8 = (sha256 (nodeBytes l ++ nodeBytes r)).getD 31 0#8 &&& 0x3F#8 := by
  refine BitVec.eq_of_getLsbD_eq fun b hb => ?_
  have hkept : 8 * 31 + b < 254 ↔ b < 6 := by omega
  rw [getLsbD_nodeHash_byte l r (by decide) hb, getLsbD_mask hb, decide_eq_decide.2 hkept]

/-- Settles O36: NodeHash's mask changes no byte below byte 31, and clears bits 6 and 7 of byte 31. -/
theorem nodeHashMasksByteThirtyOne : Obligations.NodeHashMasksByteThirtyOne := by
  intro l r
  refine ⟨sha256_length _, ?_, nodeHash_byte_last l r, isFr32_nodeHash l r⟩
  refine List.ext_getElem (by simp [nodeBytes_length, sha256_length]) fun j hj _ => ?_
  have hj31 : j < 31 := Nat.lt_of_lt_of_le hj (List.length_take_le 31 _)
  have hbyte := nodeHash_byte_below l r hj31
  rw [List.getD_eq_getElem _ _ (by rw [nodeBytes_length]; omega),
    List.getD_eq_getElem _ _ (by rw [sha256_length]; omega)] at hbyte
  rw [List.getElem_take, List.getElem_take, hbyte]

end Sys2Proof.Fr32Proofs
end

section
/-! PROOFS. One token run by its layer, in both implementations (rules R121 to R129, R140, R141, R214). -/

namespace Sys2Proof.ReducerProofs

open Sys2Proof Sys2Proof.Machine Sys2Proof.Config Sys2Proof.StateProofs

/-! ## The two reference operations at one layer -/

theorem push_empty {ok : Bool} {i : Nat} {l : Layer} {above : List Layer} {n : Node} (h : l.slot = none) :
    push ok i (l :: above) n = .ok ({ l with slot := some n } :: above) := by
  simp only [push, h]

theorem hash_working {ok : Bool} (h : ok = true) (l r : Node) : Machine.hash ok l r = .ok (nodeHash l r) := hash_ok.2 ⟨h, rfl⟩

theorem push_full {ok : Bool} {i : Nat} {l : Layer} {above ls : List Layer} {n x : Node} (hok : ok = true)
    (h : l.slot = some x) (he : emit ok above (nodeHash x n) = .ok ls) :
    push ok i (l :: above) n = .ok ({ l with slot := none } :: ls) := by
  simp only [push, h, hash_working hok, he]

/-- A pair at the highest layer of all has no layer to go to, whether or not its parent can be computed (rules R124, R214). -/
theorem push_full_top {ok : Bool} {i : Nat} {l : Layer} {n x : Node} (h : l.slot = some x) :
    push ok i [l] n = .error .internal := by
  cases ok with
  | false => simp only [push, h]; rfl
  | true => simp only [push, h, hash_working rfl, emit]

theorem emit_empty {ok : Bool} {l : Layer} {above : List Layer} {n : Node} (h : l.slot = none) :
    emit ok (l :: above) n = .ok ({ l with active := true, slot := some n } :: above) := by
  simp only [emit, h]

theorem emit_full {ok : Bool} {l : Layer} {above ls : List Layer} {n x : Node} (hok : ok = true) (h : l.slot = some x)
    (he : emit ok above (nodeHash x n) = .ok ls) :
    emit ok (l :: above) n = .ok ({ l with active := true, slot := none } :: ls) := by
  simp only [emit, h, hash_working hok, he]

theorem close_highest {ok : Bool} {k i : Nat} {l : Layer} {above : List Layer} {n : Node} (hh : highestBelow above = true)
    (h : l.slot = some n) :
    close ok (k + 1) i (l :: above) = .ok ({ l with slot := none } :: above, { node := n, layer := BitVec.ofNat 5 i }) := by
  simp only [close, hh, if_true, h]

theorem close_highest_empty {ok : Bool} {k i : Nat} {l : Layer} {above : List Layer} (hh : highestBelow above = true)
    (h : l.slot = none) : close ok (k + 1) i (l :: above) = .error .internal := by
  simp only [close, hh, if_true, h]

/-- CLOSE below the highest layer with an empty slot (rule R128). -/
theorem close_passes {ok : Bool} {k i : Nat} {l : Layer} {above ls : List Layer} {r : Root}
    (hh : highestBelow above = false) (h : l.slot = none) (hc : close ok k (i + 1) above = .ok (ls, r)) :
    close ok (k + 1) i (l :: above) = .ok (l :: ls, r) := by
  simp only [close, hh, Bool.false_eq_true, if_false, h, hc]

/-- CLOSE below the highest layer with a full slot (rule R126). -/
theorem close_pads {ok : Bool} {k i : Nat} {l : Layer} {above above1 ls : List Layer} {x : Node} {r : Root}
    (hok : ok = true) (hh : highestBelow above = false) (h : l.slot = some x) (hi : i < towerEntries)
    (he : emit ok above (nodeHash x (tower i)) = .ok above1) (hc : close ok k (i + 1) above1 = .ok (ls, r)) :
    close ok (k + 1) i (l :: above) = .ok ({ l with slot := none } :: ls, r) := by
  simp only [close, hh, Bool.false_eq_true, if_false, h, readTower_eq hi, hash_working hok, he, hc]

/-! ## The operations on the core -/

theorem drop_eq_cons {α : Type} {xs : List α} {i : Nat} {x : α} (h : xs[i]? = some x) : xs.drop i = x :: xs.drop (i + 1) := by
  obtain ⟨hi, rfl⟩ := List.getElem?_eq_some_iff.1 h
  exact List.drop_eq_getElem_cons hi

theorem set_eq_take_cons_drop {α : Type} {xs : List α} {i : Nat} {x : α} (h : xs[i]? = some x) (y : α) :
    xs.set i y = xs.take i ++ y :: xs.drop (i + 1) := by
  obtain ⟨hi, -⟩ := List.getElem?_eq_some_iff.1 h
  rw [List.set_eq_take_append_cons_drop, if_pos hi]

/-- Popping a token of a layer of the core (rule R140). -/
theorem popToken_eq_setLayer {c : Core} {i : Nat} {l : Layer} (h : c.layers[i]? = some l) :
    c.popToken i = c.setLayer i { l with q := l.q.tail } := by
  rw [Core.popToken, List.modify_eq_set_getElem?, h]
  rfl

theorem popToken_of_empty {c : Core} {i : Nat} {l : Layer} (h : c.layers[i]? = some l) (hq : l.q = []) : c.popToken i = c := by
  obtain ⟨hi, hget⟩ := List.getElem?_eq_some_iff.1 h
  have hl : ({ l with q := l.q.tail } : Layer) = l := layer_ext rfl rfl (by rw [hq]; rfl)
  rw [popToken_eq_setLayer h, hl, Core.setLayer, ← hget, List.set_getElem_self]

theorem setLayer_drop {c : Core} {i : Nat} {l m : Layer} (h : c.layers[i]? = some l) :
    (c.setLayer i m).layers.drop i = m :: c.layers.drop (i + 1) := by
  obtain ⟨hi, -⟩ := List.getElem?_eq_some_iff.1 h
  rw [setLayer_layers, set_eq_take_cons_drop h, List.drop_left' (by rw [List.length_take]; omega)]

theorem setLayer_take (c : Core) (i : Nat) (m : Layer) : (c.setLayer i m).layers.take i = c.layers.take i :=
  List.take_set_of_le (le_refl i)

section Popped

variable {ok : Bool} {i : Nat} {c : Core} {l : Layer} (hl : c.layers[i]? = some l)
include hl

/-- LAYER_NODE of a layer, its token popped (rules R130, R140). -/
theorem pushAt_popped {n : Node} {ls : List Layer}
    (h : push ok i ({ l with q := l.q.tail } :: c.layers.drop (i + 1)) n = .ok ls) :
    (c.popToken i).pushAt ok i n = .ok { c with layers := c.layers.take i ++ ls } := by
  unfold Core.pushAt
  rw [popToken_eq_setLayer hl, setLayer_drop hl, h, setLayer_take]
  rfl

theorem pushAt_popped_error {n : Node} {e : Stop}
    (h : push ok i ({ l with q := l.q.tail } :: c.layers.drop (i + 1)) n = .error e) :
    (c.popToken i).pushAt ok i n = .error e := by
  unfold Core.pushAt
  rw [popToken_eq_setLayer hl, setLayer_drop hl, h]

/-- LAYER_CLOSE of a layer, its token popped (rules R130, R140). -/
theorem closeAt_popped {ls : List Layer} {r : Root}
    (h : close ok ((c.layers.drop (i + 1)).length + 1) i ({ l with q := l.q.tail } :: c.layers.drop (i + 1)) = .ok (ls, r)) :
    (c.popToken i).closeAt ok i = .ok { c with layers := c.layers.take i ++ ls, root := some r } := by
  unfold Core.closeAt
  rw [popToken_eq_setLayer hl, setLayer_drop hl, List.length_cons, h, setLayer_take]
  rfl

theorem closeAt_popped_error {e : Stop}
    (h : close ok ((c.layers.drop (i + 1)).length + 1) i ({ l with q := l.q.tail } :: c.layers.drop (i + 1)) = .error e) :
    (c.popToken i).closeAt ok i = .error e := by
  unfold Core.closeAt
  rw [popToken_eq_setLayer hl, setLayer_drop hl, List.length_cons, h]

end Popped

/-- LAYER_NODE and LAYER_CLOSE of a layer with nothing queued, the layers cut before it. -/
theorem pushAt_split {ok : Bool} {i : Nat} {c c' : Core} {l : Layer} {below above : List Layer} {n : Node}
    (hc : c.layers = below ++ l :: above) (hi : below.length = i) (hq : l.q = [])
    (h : (c.popToken i).pushAt ok i n = .ok c') :
    ∃ ls, push ok i (l :: above) n = .ok ls ∧ c' = { c with layers := below ++ ls } := by
  rw [popToken_of_empty (l := l) (by rw [hc, List.getElem?_append_right (by omega), hi, Nat.sub_self]; rfl) hq] at h
  obtain ⟨ls, hpush, rfl⟩ := pushAt_ok h
  rw [hc, List.drop_left' hi] at hpush
  exact ⟨ls, hpush, by rw [hc, List.take_left' hi]⟩

theorem closeAt_split {ok : Bool} {i : Nat} {c c' : Core} {l : Layer} {below above : List Layer}
    (hc : c.layers = below ++ l :: above) (hi : below.length = i) (hq : l.q = []) (h : (c.popToken i).closeAt ok i = .ok c') :
    ∃ ls r, close ok (l :: above).length i (l :: above) = .ok (ls, r) ∧ c' = { c with layers := below ++ ls, root := some r } := by
  rw [popToken_of_empty (l := l) (by rw [hc, List.getElem?_append_right (by omega), hi, Nat.sub_self]; rfl) hq] at h
  obtain ⟨ls, r, hclose, rfl⟩ := closeAt_ok h
  rw [hc, List.drop_left' hi] at hclose
  exact ⟨ls, r, hclose, by rw [hc, List.take_left' hi]⟩

/-- The layer above is the first of those above. -/
theorem highestBelow_drop {ls : List Layer} {i : Nat} :
    highestBelow (ls.drop i) = true ↔ ∀ m, ls[i]? = some m → m.active = false := by
  cases h : ls[i]? with
  | none => simp [List.drop_eq_nil_of_le (List.getElem?_eq_none_iff.1 h), highestBelow]
  | some m => simp [drop_eq_cons h, highestBelow]

theorem not_highestBelow_drop {ls : List Layer} {i : Nat} {m : Layer} (h : ls[i]? = some m) (hm : m.active = true) :
    highestBelow (ls.drop i) = false := by
  simp [drop_eq_cons h, highestBelow, hm]

/-! ## What becomes of the token -/

section Exec

variable {s : State} {n : Node} {c : Core}

/-- The outcome of a layer operation in `s` (rules R130, R140). -/
def layerOutcome (s : State) (r : Res (Option Core)) : Result := conclude (trap s (withCore s r))

@[simp] theorem layerOutcome_some (s : State) (c : Core) : layerOutcome s (.ok (some c)) = .next { s with core := c } := rfl
@[simp] theorem layerOutcome_none (s : State) : layerOutcome s (.ok none) = .next s := rfl
@[simp] theorem layerOutcome_internal (s : State) : layerOutcome s (.error .internal) = .next (internalFault s) := rfl
@[simp] theorem layerOutcome_fault (s : State) (f : Fault) : layerOutcome s (.error (.fault f)) = .fault f := rfl

@[simp] theorem always_ok (c : Core) : always (.ok c) = .ok (some c) := rfl
@[simp] theorem always_error (e : Stop) : always (.error e) = .error e := rfl

theorem exec_layerNode_fused (hf : s.fatal = false) (hfused : s.params.fused = true) :
    exec (.layerNode n) s = layerOutcome s (always ((s.core.popToken s.sel).pushAt s.shaOk s.sel n)) := by
  simp [exec, execLayerNode, hf, hfused, layerOutcome]

theorem exec_layerNode_agent (hf : s.fatal = false) (hfused : s.params.fused = false) :
    exec (.layerNode n) s = layerOutcome s (s.core.agentNode s.params.fifoDepth s.shaOk s.sel n) := by
  simp [exec, execLayerNode, hf, hfused, layerOutcome]

theorem exec_layerClose_fused (hf : s.fatal = false) (hfused : s.params.fused = true) :
    exec .layerClose s = layerOutcome s (always ((s.core.popToken s.sel).closeAt s.shaOk s.sel)) := by
  simp [exec, execLayerClose, hf, hfused, layerOutcome]

theorem exec_layerClose_agent (hf : s.fatal = false) (hfused : s.params.fused = false) :
    exec .layerClose s = layerOutcome s (s.core.agentClose s.params.fifoDepth s.shaOk s.sel) := by
  simp [exec, execLayerClose, hf, hfused, layerOutcome]

/-- An operation on the layers that left FATAL off ended in the core of the next state. -/
theorem layerOutcome_always_next {r : Res Core} {t : State} (h : layerOutcome s (always r) = .next t)
    (hf : t.fatal = false) : ∃ c, r = .ok c ∧ t = { s with core := c } := by
  match r, h with
  | .ok c, h => cases h; exact ⟨c, rfl, rfl⟩
  | .error .internal, h =>
    cases h
    obtain ⟨-, heq⟩ | ⟨_, -, ⟨-, heq⟩ | ⟨-, heq⟩⟩ := internalFault_cases s
    all_goals rw [heq] at hf; cases hf

/-- The internal fault is what `RaisesInternalFault` describes (rules R12, R214, R215; log entries 6 and 7). -/
theorem raises_internalFault (s : State) : RaisesInternalFault s (.next (internalFault s)) := by
  refine ⟨fun hs => ?_, fun c hs hend => ?_, fun c hs hphase hrem => ?_⟩
  · simp [internalFault, hs, enterFatal, internalFaultCode]
  · have hdue : s.operandsDue = false := by
      obtain h | h := hend
      · simp [State.operandsDue, h]
      · simp [State.operandsDue, h]
    obtain ⟨hnone, -⟩ | ⟨d, hsome, ⟨hdue', -⟩ | ⟨-, heq⟩⟩ := internalFault_cases s
    · rw [hs] at hnone; cases hnone
    · rw [hdue] at hdue'; cases hdue'
    · obtain rfl : c = d := Option.some.inj (hs.symm.trans hsome)
      rw [heq]
      rfl
  · have hdue : s.operandsDue = true := by simp [State.operandsDue, hphase, hrem]
    obtain ⟨hnone, -⟩ | ⟨d, hsome, ⟨-, heq⟩ | ⟨hdue', -⟩⟩ := internalFault_cases s
    · rw [hs] at hnone; cases hnone
    · obtain rfl : c = d := Option.some.inj (hs.symm.trans hsome)
      rw [heq]
      rfl
    · rw [hdue] at hdue'; cases hdue'

end Exec

/-! ## LAYER_NODE -/

/-- Settles O40: the reference PUSH after the token is popped, and the agent's step. -/
theorem nodeIsStoredInAnEmptySlot : Obligations.NodeIsStoredInAnEmptySlot := by
  intro s l n hf hl hslot
  cases hfused : s.params.fused with
  | true =>
    rw [exec_layerNode_fused hf hfused, pushAt_popped hl (push_empty hslot), set_eq_take_cons_drop hl]
    rfl
  | false =>
    rw [exec_layerNode_agent hf hfused]
    simp only [Core.agentNode, hl, hslot]
    rfl

/-- EMIT into a run of `j` full slots: each pairs and is cleared, and the layer after them stores the last parent (rules R122,
R123). -/
theorem emit_run {j : Nat} {x : Nat → Node} {ls : List Layer} (n : Node)
    (hfull : ∀ i < j, (ls[i]?).map Layer.slot = some (some (x i))) (hempty : (ls[j]?).map Layer.slot = some none) :
    ∃ ls', emit true ls n = .ok ls' ∧ ls'.length = ls.length ∧ ∀ i l, ls[i]? = some l → ls'[i]? = some (
      if j < i then l
      else if i < j then { l with active := true, slot := none }
      else { l with active := true, slot := some ((List.range j).foldl (fun acc k => nodeHash (x k) acc) n) }) := by
  induction j generalizing x ls n with
  | zero =>
    cases ls with
    | nil => cases hempty
    | cons m above =>
      refine ⟨_, emit_empty (by simpa using hempty), rfl, fun i l hi => ?_⟩
      cases i with
      | zero => cases hi; rfl
      | succ i => exact hi
  | succ j ih =>
    cases ls with
    | nil => cases hempty
    | cons m above =>
      have hm : m.slot = some (x 0) := by simpa using hfull 0 (Nat.succ_pos j)
      obtain ⟨above', hemit, hlen, habove⟩ := ih (x := fun k => x (k + 1)) (ls := above) (nodeHash (x 0) n)
        (fun i hi => by simpa using hfull (i + 1) (by omega)) (by simpa using hempty)
      refine ⟨_, emit_full rfl hm hemit, by simp [hlen], fun i l hi => ?_⟩
      cases i with
      | zero => cases hi; rfl
      | succ i =>
        have h := habove i l hi
        rw [List.range_succ_eq_map, List.foldl_cons, List.foldl_map]
        simpa using h

/-- Settles O41: PUSH pairs at the first slot, and EMIT goes through the others. -/
theorem nodePairsUpTheFullSlots : Obligations.NodePairsUpTheFullSlots := by
  intro s n j x hf hfused hsha hlen hj hle hfull hempty
  obtain ⟨j, rfl⟩ := Nat.exists_eq_add_one_of_ne_zero (Nat.ne_of_gt hj)
  obtain ⟨l, hl⟩ : ∃ l, s.core.layers[s.sel.val]? = some l := ⟨_, List.getElem?_eq_getElem (by omega)⟩
  have hslot : l.slot = some (x 0) := by simpa [hl] using hfull 0 hj
  obtain ⟨above, hemit, habovelen, habove⟩ := emit_run (j := j) (x := fun k => x (k + 1))
    (ls := s.core.layers.drop (s.sel.val + 1)) (nodeHash (x 0) n)
    (fun i hi => by simpa [Nat.add_assoc, Nat.add_comm 1] using hfull (i + 1) (by omega))
    (by simpa [Nat.add_assoc, Nat.add_comm 1] using hempty)
  rw [← hsha] at hemit
  have htake : (s.core.layers.take s.sel.val).length = s.sel.val := by rw [List.length_take]; omega
  refine ⟨s.core.layers.take s.sel.val ++ { l with slot := none, q := l.q.tail } :: above, ?_, ?_, fun i m hi => ?_⟩
  · rw [exec_layerNode_fused hf hfused, pushAt_popped hl (push_full hsha hslot hemit)]
    rfl
  · rw [List.length_append, htake, List.length_cons, habovelen, List.length_drop]
    omega
  · obtain hlt | rfl | hgt := Nat.lt_trichotomy i s.sel.val
    · rw [List.getElem?_append_left (by omega), List.getElem?_take_of_lt hlt, hi, if_pos (.inl hlt)]
    · rw [List.getElem?_append_right (by omega), htake, Nat.sub_self, if_neg (by omega), if_pos rfl]
      cases hl.symm.trans hi
      rfl
    · obtain ⟨k, rfl⟩ := Nat.exists_eq_add_of_lt hgt
      have hk := habove k m (by rw [List.getElem?_drop, ← hi]; congr 1; omega)
      rw [List.getElem?_append_right (by omega), htake, show s.sel.val + k + 1 - s.sel.val = k + 1 by omega,
        List.getElem?_cons_succ, hk, List.range_succ_eq_map, List.foldl_cons, List.foldl_map]
      simp only [show ¬ s.sel.val + k + 1 = s.sel.val by omega, if_false,
        show (s.sel.val + k + 1 < s.sel.val ∨ s.sel.val + (j + 1) < s.sel.val + k + 1) ↔ j < k by omega,
        show s.sel.val + k + 1 < s.sel.val + (j + 1) ↔ k < j by omega]

/-- Settles O42: neither implementation has a layer for the parent (rule R124). -/
theorem pairAtLayerThirtyOneIsFatal : Obligations.PairAtLayerThirtyOneIsFatal := by
  intro s l n x hf hlen hsel hl hslot
  have hl' : s.core.layers[s.sel.val]? = some l := by rw [hsel]; exact hl
  have habove : s.core.layers[s.sel.val + 1]? = none := List.getElem?_eq_none (by omega)
  have hexec : exec (.layerNode n) s = .next (internalFault s) := by
    cases hfused : s.params.fused with
    | true =>
      have htop : s.core.layers.drop (s.sel.val + 1) = [] := List.drop_eq_nil_of_le (by omega)
      rw [exec_layerNode_fused hf hfused, pushAt_popped_error hl' (by rw [htop]; exact push_full_top hslot)]
      rfl
    | false =>
      rw [exec_layerNode_agent hf hfused]
      simp only [Core.agentNode, hl', hslot, habove]
      rfl
  rw [hexec]
  exact raises_internalFault s

/-- Settles O43: the agent's step with and without room in the next queue. -/
theorem agentPairsWhenTheNextQueueHasRoom : Obligations.AgentPairsWhenTheNextQueueHasRoom := by
  intro s l m n x hf hfused hsha hl hm hslot
  rw [exec_layerNode_agent hf hfused]
  refine ⟨fun hroom => ?_, fun hfull => ?_⟩
  · simp only [Core.agentNode, hl, hslot, hm, if_pos hroom, hash_working hsha]
    rfl
  · simp only [Core.agentNode, hl, hslot, hm, if_neg (Nat.not_lt.2 hfull)]
    rfl

/-! ## LAYER_CLOSE -/

/-- Settles O44: no layer above was started, so either implementation publishes the slot. -/
theorem closeOfTheHighestLayerPublishes : Obligations.CloseOfTheHighestLayerPublishes := by
  intro s l n hf hl hslot habove
  have hhighest := highestBelow_drop.2 habove
  cases hfused : s.params.fused with
  | true =>
    rw [exec_layerClose_fused hf hfused, closeAt_popped hl (close_highest hhighest hslot), set_eq_take_cons_drop hl]
    rfl
  | false =>
    rw [exec_layerClose_agent hf hfused]
    simp only [Core.agentClose, hl, hhighest, if_true, hslot]
    rfl

/-- Settles O45: no layer above was started, and there is nothing to publish. -/
theorem closeOfAnEmptyHighestLayerIsFatal : Obligations.CloseOfAnEmptyHighestLayerIsFatal := by
  intro s l hf hl hslot habove
  have hhighest := highestBelow_drop.2 habove
  have hexec : exec .layerClose s = .next (internalFault s) := by
    cases hfused : s.params.fused with
    | true =>
      rw [exec_layerClose_fused hf hfused, closeAt_popped_error hl (close_highest_empty hhighest hslot)]
      rfl
    | false =>
      rw [exec_layerClose_agent hf hfused]
      simp only [Core.agentClose, hl, hhighest, if_true, hslot]
      rfl
  rw [hexec]
  exact raises_internalFault s

/-- Settles O47: the layer adds itself, cleared, to what the layer above does with the padding parent and the CLOSE. -/
theorem closeBelowTheHighestLayerPadsAndGoesOn : Obligations.CloseBelowTheHighestLayerPadsAndGoesOn := by
  intro s l m k hf hfused hsha hlen hk hl hm hactive hlq hmq
  rw [hk] at hm
  have hlt := (List.getElem?_eq_some_iff.1 hm).1
  have hbelow := not_highestBelow_drop hm hactive
  have hbelowlen (y : Layer) : (s.core.layers.take s.sel.val ++ [y]).length = k.val := by simp; omega
  have hsplit (y : Layer) : s.core.layers.set s.sel.val y =
      (s.core.layers.take s.sel.val ++ [y]) ++ m :: s.core.layers.drop (s.sel.val + 2) := by
    rw [set_eq_take_cons_drop hl, drop_eq_cons hm, List.append_assoc]
    rfl
  have hclosed {ls : List Layer} {r : Root} (h : close s.shaOk ((s.core.layers.drop (s.sel.val + 1)).length + 1) s.sel
      (l :: s.core.layers.drop (s.sel.val + 1)) = .ok ({ l with slot := none } :: ls, r)) :
      exec .layerClose s = .next { s with core := { s.core with
        layers := (s.core.layers.take s.sel.val ++ [{ l with slot := none }]) ++ ls, root := some r } } := by
    have hlpop : ({ l with q := l.q.tail } : Layer) = l := layer_ext rfl rfl (by rw [hlq]; rfl)
    rw [exec_layerClose_fused hf hfused, closeAt_popped hl (by rw [hlpop]; exact h), List.append_assoc]
    rfl
  refine ⟨fun hslot t ht htf => ?_, fun x hslot t1 t ht1 ht1f ht htf => ?_⟩
  · have hl' : l = { l with slot := none } := layer_ext rfl hslot rfl
    have hlayers := hsplit l
    rw [set_eq_take_cons_drop hl, ← drop_eq_cons hl, List.take_append_drop] at hlayers
    rw [exec_layerClose_fused (by exact hf) (by exact hfused)] at ht
    obtain ⟨c, hc, rfl⟩ := layerOutcome_always_next ht htf
    obtain ⟨ls, r, hclose, rfl⟩ := closeAt_split hlayers (hbelowlen l) hmq hc
    rw [hk, ← drop_eq_cons hm] at hclose
    rw [hclosed (by rw [← hl']; exact close_passes hbelow hslot hclose), ← hl']
  · rw [exec_layerNode_fused (by exact hf) (by exact hfused)] at ht1
    obtain ⟨c1, hc1, rfl⟩ := layerOutcome_always_next ht1 ht1f
    obtain ⟨ls1, hpush, rfl⟩ := pushAt_split (by exact hsplit _) (hbelowlen _) hmq hc1
    rw [push_eq_emit hactive] at hpush
    obtain ⟨m1, above1, rfl, hm1⟩ : ∃ m1 above1, ls1 = m1 :: above1 ∧ m1.q = [] := by
      obtain ⟨-, rfl⟩ | ⟨_, above', -, -, -, rfl⟩ := emit_ok hpush
      · exact ⟨_, _, rfl, hmq⟩
      · exact ⟨_, _, rfl, hmq⟩
    rw [exec_layerClose_fused (by exact ht1f) (by exact hfused)] at ht
    obtain ⟨c, hc, rfl⟩ := layerOutcome_always_next ht htf
    obtain ⟨ls, r, hclose, rfl⟩ := closeAt_split rfl (hbelowlen _) hm1 hc
    rw [emit_length hpush, hk, ← drop_eq_cons hm] at hclose
    rw [← drop_eq_cons hm] at hpush
    rw [hclosed (close_pads hsha hbelow hslot (by unfold towerEntries; omega) hpush hclose)]

/-- Settles O48: by the slot and the room in the next queue. -/
theorem agentPassesTheCloseOn : Obligations.AgentPassesTheCloseOn := by
  intro s l m hf hfused hsha hlen hl hm hactive
  have hbelow := not_highestBelow_drop hm hactive
  have htower : readTower s.sel = .ok (tower s.sel) := readTower_eq (by
    obtain ⟨hlt, -⟩ := List.getElem?_eq_some_iff.1 hm
    unfold towerEntries
    omega)
  rw [exec_layerClose_agent hf hfused]
  simp only [Core.agentClose, hl, hbelow, Bool.false_eq_true, if_false, hm, htower, hash_working hsha]
  refine ⟨fun hs hroom => ?_, fun x hs hdepth hroom => ?_, fun x hs hdepth hq => ?_, fun hs hfull => ?_, fun x hs hfull => ?_⟩
  · simp only [hs, if_pos hroom]
    rfl
  · simp only [hs, padRoom, if_neg hdepth, if_pos hroom]
    rfl
  · simp only [hs, padRoom, hdepth, hq, List.length_nil, Nat.zero_add, le_refl, if_true, List.nil_append]
    rfl
  · simp only [hs, if_neg (Nat.not_lt.2 hfull)]
    rfl
  · simp only [hs, if_neg (Nat.not_le.2 hfull)]
    rfl

end Sys2Proof.ReducerProofs
end

section
/-! PROOFS. What a layer agent's turn can do, and that it does not change what the pipeline amounts to (rules R85, R130, R140,
R141, R145). -/

namespace Sys2Proof.ReducerProofs

open Sys2Proof Sys2Proof.Machine Sys2Proof.Config Sys2Proof.StateProofs

/-! ## The steps of an agent

`AgentMove i` relates the layers from `i` up, and the root register, before and after a step of agent `i` that does not hold. -/

/-- The six steps of rules R140 and R141: a NODE is stored or pairs up; a CLOSE publishes, is passed on, pads and is passed on, or,
with `FIFO_DEPTH = 1`, only pads. -/
inductive AgentMove (i : Nat) : List Layer → Option Root → List Layer → Option Root → Prop where
  | store (l : Layer) (above : List Layer) (r : Option Root) (t : Token) (ts : List Token)
      (htag : tokenTag t = false) (hslot : l.slot = none) :
      AgentMove i ({ l with q := t :: ts } :: above) r ({ l with slot := some (tokenNode t), q := ts } :: above) r
  | pair (l m : Layer) (above : List Layer) (r : Option Root) (t : Token) (ts : List Token) (left : Node)
      (htag : tokenTag t = false) (hslot : l.slot = some left) :
      AgentMove i ({ l with q := t :: ts } :: m :: above) r
        ({ l with slot := none, q := ts } ::
          { m with active := true, q := m.q ++ [nodeToken (nodeHash left (tokenNode t))] } :: above) r
  | publish (l : Layer) (above : List Layer) (r : Option Root) (t : Token) (ts : List Token) (n : Node)
      (htag : tokenTag t = true) (hslot : l.slot = some n) (hhighest : highestBelow above = true) :
      AgentMove i ({ l with q := t :: ts } :: above) r
        ({ l with slot := none, q := ts } :: above) (some { node := n, layer := BitVec.ofNat 5 i })
  | pass (l m : Layer) (above : List Layer) (r : Option Root) (t : Token) (ts : List Token)
      (htag : tokenTag t = true) (hslot : l.slot = none) (hactive : m.active = true) :
      AgentMove i ({ l with q := t :: ts } :: m :: above) r
        ({ l with q := ts } :: { m with q := m.q ++ [closeToken] } :: above) r
  | pad (l m : Layer) (above : List Layer) (r : Option Root) (t : Token) (ts : List Token) (left : Node)
      (htag : tokenTag t = true) (hslot : l.slot = some left) (hactive : m.active = true) (hi : i < towerEntries) :
      AgentMove i ({ l with q := t :: ts } :: m :: above) r
        ({ l with slot := none, q := ts } ::
          { m with q := m.q ++ [nodeToken (nodeHash left (tower i)), closeToken] } :: above) r
  | padOnly (l m : Layer) (above : List Layer) (r : Option Root) (t : Token) (ts : List Token) (left : Node)
      (htag : tokenTag t = true) (hslot : l.slot = some left) (hactive : m.active = true) (hi : i < towerEntries) :
      AgentMove i ({ l with q := t :: ts } :: m :: above) r
        ({ l with slot := none, q := t :: ts } :: { m with q := m.q ++ [nodeToken (nodeHash left (tower i))] } :: above) r

/-- The core after agent `i` put `ls` and `r` in place of the layers from `i` up and the root register. -/
def moved (i : Nat) (ls : List Layer) (r : Option Root) (c : Core) : Core :=
  { c with layers := c.layers.take i ++ ls, root := r }

theorem setLayer_eq_moved {c : Core} {i : Nat} {l : Layer} (hl : c.layers[i]? = some l) (l' : Layer) :
    c.setLayer i l' = moved i (l' :: c.layers.drop (i + 1)) c.root c := by
  rw [Core.setLayer, moved, set_eq_take_cons_drop hl]

theorem setLayer_setLayer_eq_moved {c : Core} {i : Nat} {l m : Layer} (hl : c.layers[i]? = some l)
    (hm : c.layers[i + 1]? = some m) (l' m' : Layer) :
    (c.setLayer i l').setLayer (i + 1) m' = moved i (l' :: m' :: c.layers.drop (i + 2)) c.root c := by
  have hlen := (List.getElem?_eq_some_iff.1 hm).1
  have hset : (c.layers.set i l').set (i + 1) m' = c.layers.take i ++ l' :: m' :: c.layers.drop (i + 2) := by
    have htake : (c.layers.take i).length = i := by rw [List.length_take]; omega
    rw [set_eq_take_cons_drop hl, List.set_append, if_neg (by omega), htake, Nat.add_sub_cancel_left, drop_eq_cons hm]
    rfl
  rw [Core.setLayer, Core.setLayer, moved, hset]

section Agent

variable {d i : Nat} {ok : Bool} {c c' : Core} {l : Layer} {t : Token} {ts : List Token}
  (hl : c.layers[i]? = some l) (hq : l.q = t :: ts)
include hl hq

theorem layers_drop_of_head : c.layers.drop i = { l with q := t :: ts } :: c.layers.drop (i + 1) := by
  rw [drop_eq_cons hl, ← hq]

/-- A NODE token's step moves, or holds because the next queue is full (rules R140, R145). -/
theorem agentNode_cases {x : Option Core} (htag : tokenTag t = false) (h : c.agentNode d ok i (tokenNode t) = .ok x) :
    (∃ ls r, AgentMove i (c.layers.drop i) c.root ls r ∧ x = some (moved i ls r c)) ∨
      (x = none ∧ ∃ m, c.layers[i + 1]? = some m ∧ d ≤ m.q.length) := by
  obtain ⟨l', hl', h⟩ := agentNode_ok h
  obtain rfl : l = l' := Option.some.inj (hl.symm.trans hl')
  rw [layers_drop_of_head hl hq]
  rw [hq, List.tail_cons] at h
  obtain ⟨hs, rfl⟩ | ⟨left, m, hs, hm, ⟨-, -, rfl⟩ | ⟨hfull, rfl⟩⟩ := h
  · exact .inl ⟨_, _, .store l _ _ t ts htag hs, by rw [setLayer_eq_moved hl]⟩
  · rw [drop_eq_cons hm]
    exact .inl ⟨_, _, .pair l m _ _ t ts left htag hs, by rw [setLayer_setLayer_eq_moved hl hm]⟩
  · exact .inr ⟨rfl, m, hm, hfull⟩

/-- A CLOSE token's step moves, or holds because the next queue has not the room it needs (rules R140, R141, R145). -/
theorem agentClose_cases {x : Option Core} (htag : tokenTag t = true) (h : c.agentClose d ok i = .ok x) :
    (∃ ls r, AgentMove i (c.layers.drop i) c.root ls r ∧ x = some (moved i ls r c)) ∨
      (x = none ∧ ∃ m, c.layers[i + 1]? = some m ∧ d < m.q.length + padRoom d) := by
  obtain ⟨l', hl', h⟩ := agentClose_ok h
  obtain rfl : l = l' := Option.some.inj (hl.symm.trans hl')
  rw [layers_drop_of_head hl hq]
  obtain ⟨hh, n, hs, rfl⟩ | ⟨hh, m, hm, h⟩ := h
  · refine .inl ⟨_, _, .publish l _ _ t ts n htag hs hh, ?_⟩
    rw [hq, List.tail_cons, setLayer_eq_moved hl]
    rfl
  · have hactive : m.active = true := by simpa [drop_eq_cons hm, highestBelow] using hh
    rw [hq, List.tail_cons] at h
    obtain ⟨hs, -, rfl⟩ | ⟨hs, hfull, rfl⟩ | ⟨left, hs, -, hi, -, rfl⟩ | ⟨-, hfull, rfl⟩ := h
    · rw [drop_eq_cons hm]
      exact .inl ⟨_, _, .pass l m _ _ t ts htag hs hactive, by rw [setLayer_setLayer_eq_moved hl hm]⟩
    · refine .inr ⟨rfl, m, hm, ?_⟩
      unfold padRoom
      split <;> omega
    · rw [drop_eq_cons hm]
      by_cases hd : d = 1
      · refine .inl ⟨_, _, .padOnly l m _ _ t ts left htag hs hactive hi, ?_⟩
        rw [if_pos hd, setLayer_setLayer_eq_moved hl hm]
      · refine .inl ⟨_, _, .pad l m _ _ t ts left htag hs hactive hi, ?_⟩
        rw [if_neg hd, setLayer_setLayer_eq_moved hl hm]
    · exact .inr ⟨rfl, m, hm, hfull⟩

end Agent

/-! ## The turn of a layer agent -/

/-- What a turn of agent `l` in `s` can be in a pipelined block: no token, FATAL (log entry 8), a hold, a step, or the internal
fault. -/
inductive AgentTurn (l : Fin 32) (s : State) : State → Prop where
  | idle (h : headToken l s = none) : AgentTurn l s s
  | frozen (h : s.fatal = true) : AgentTurn l s { s with sel := l }
  | holds (m : Layer) (hm : s.core.layers[l.val + 1]? = some m)
      (hfull : s.params.fifoDepth < m.q.length + padRoom s.params.fifoDepth) : AgentTurn l s { s with sel := l }
  | moves (ls : List Layer) (r : Option Root) (hf : s.fatal = false)
      (h : AgentMove l.val (s.core.layers.drop l.val) s.core.root ls r) :
      AgentTurn l s { s with sel := l, core := moved l.val ls r s.core }
  | fails (htok : headToken l s ≠ none) : AgentTurn l s (internalFault { s with sel := l })

/-- The outcomes of an agent's operation that has moved or held. -/
theorem agentTurn_of_outcome {l : Fin 32} {s t : State} {r : Res (Option Core)} (hf : s.fatal = false)
    (htok : headToken l s ≠ none)
    (hcases : ∀ x, r = .ok x →
      (∃ ls r', AgentMove l.val (s.core.layers.drop l.val) s.core.root ls r' ∧ x = some (moved l.val ls r' s.core)) ∨
        (x = none ∧ ∃ m, s.core.layers[l.val + 1]? = some m ∧ s.params.fifoDepth < m.q.length + padRoom s.params.fifoDepth))
    (h : layerOutcome { s with sel := l } r = .next t) : AgentTurn l s t := by
  match r, h with
  | .error .internal, h => cases h; exact .fails htok
  | .ok x, h =>
    obtain ⟨ls, r', hmove, rfl⟩ | ⟨rfl, m, hm, hfull⟩ := hcases x rfl
    · cases h; exact .moves ls r' hf hmove
    · cases h; exact .holds m hm hfull

theorem layerStep_turn {l : Fin 32} {s t : State} (hfused : s.params.fused = false) (h : layerStep l s = .next t) :
    AgentTurn l s t := by
  cases hhead : headToken l s with
  | none =>
    unfold layerStep at h
    rw [hhead] at h
    cases h
    exact .idle hhead
  | some tok =>
    have htok : headToken l s ≠ none := by rw [hhead]; exact fun h => nomatch h
    unfold layerStep at h
    rw [hhead] at h
    simp only at h
    unfold headToken at hhead
    split at hhead
    · cases hhead
    · next r hr =>
      obtain ⟨ts, hq⟩ : ∃ ts, r.q = tok :: ts := List.head?_eq_some_iff.1 hhead
      cases hf : s.fatal with
      | true =>
        have ht : t = { s with sel := l } := by
          cases htag : tokenTag tok <;>
            simpa [decodeToken, htag, exec, execLayerNode, execLayerClose, hf, eq_comm] using h
        rw [ht]
        exact .frozen hf
      | false =>
        cases htag : tokenTag tok with
        | false =>
          rw [decodeToken, htag, if_neg Bool.false_ne_true, exec_layerNode_agent (by exact hf) (by exact hfused)] at h
          refine agentTurn_of_outcome hf htok (fun x hx => ?_) h
          refine (agentNode_cases hr hq htag hx).imp_right fun ⟨hnone, m, hm, hfull⟩ => ⟨hnone, m, hm, ?_⟩
          unfold padRoom
          split <;> (simp only at hfull; omega)
        | true =>
          rw [decodeToken, htag, if_pos rfl, exec_layerClose_agent (by exact hf) (by exact hfused)] at h
          exact agentTurn_of_outcome hf htok (fun x hx => agentClose_cases hr hq htag hx) h

/-! ## Settling

The reference operations as binds, so that what follows a delivery need not be looked at. -/

theorem deliver_node {i : Nat} {t : Token} {ls : List Layer} {r : Option Root} (h : tokenTag t = false) :
    deliver i t ls r = (push true i ls (tokenNode t)).bind fun ls' => .ok (ls', r) := by
  unfold deliver
  rw [h, if_neg Bool.false_ne_true]
  cases push true i ls (tokenNode t) <;> rfl

theorem deliver_close {i : Nat} {t : Token} {ls : List Layer} {r : Option Root} (h : tokenTag t = true) :
    deliver i t ls r = (close true ls.length i ls).bind fun x => .ok (x.1, some x.2) := by
  unfold deliver
  rw [h, if_pos rfl]
  cases close true ls.length i ls <;> rfl

theorem deliverAll_cons (i : Nat) (t : Token) (ts : List Token) (ls : List Layer) (r : Option Root) :
    deliverAll i (t :: ts) ls r = (deliver i t ls r).bind fun x => deliverAll i ts x.1 x.2 := by
  rw [deliverAll]
  cases deliver i t ls r <;> rfl

theorem deliverAll_append_bind (i : Nat) (a b : List Token) (ls : List Layer) (r : Option Root) :
    deliverAll i (a ++ b) ls r = (deliverAll i a ls r).bind fun x => deliverAll i b x.1 x.2 := by
  rw [deliverAll_append]
  cases deliverAll i a ls r <;> rfl

theorem deliverAll_singleton (i : Nat) (t : Token) (ls : List Layer) (r : Option Root) :
    deliverAll i [t] ls r = deliver i t ls r := by
  rw [deliverAll_cons]
  cases deliver i t ls r <;> rfl

theorem settleLayers_cons (i : Nat) (l : Layer) (above : List Layer) (r : Option Root) :
    settleLayers i (l :: above) r =
      (settleLayers (i + 1) above r).bind fun x => deliverAll i l.q ({ l with q := [] } :: x.1) x.2 := by
  rw [settleLayers]
  cases settleLayers (i + 1) above r <;> rfl

/-- Tokens put at the end of a queue are delivered last. -/
theorem settleLayers_queued (i : Nat) (l : Layer) (ts : List Token) (above : List Layer) (r : Option Root) :
    settleLayers i ({ l with q := l.q ++ ts } :: above) r =
      (settleLayers i (l :: above) r).bind fun x => deliverAll i ts x.1 x.2 := by
  rw [settleLayers_cons, settleLayers_cons]
  cases settleLayers (i + 1) above r with
  | error e => rfl
  | ok x => exact deliverAll_append_bind i l.q ts _ _

/-- The layers below see the settled layers above only. -/
theorem settleLayers_below {below ls ls' : List Layer} {r r' : Option Root} (i : Nat)
    (h : settleLayers (i + below.length) ls r = settleLayers (i + below.length) ls' r') :
    settleLayers i (below ++ ls) r = settleLayers i (below ++ ls') r' := by
  induction below generalizing i with
  | nil => exact h
  | cons l below ih =>
    rw [List.cons_append, List.cons_append, settleLayers_cons, settleLayers_cons, ih (i + 1)]
    rw [List.length_cons, Nat.add_comm below.length, ← Nat.add_assoc] at h
    exact h

/-- What a token does at a layer keeps whether it was started. -/
theorem deliver_head {i : Nat} {t : Token} {l : Layer} {above : List Layer} {r : Option Root} {x : List Layer × Option Root}
    (h : deliver i t (l :: above) r = .ok x) : ∃ l' above', x.1 = l' :: above' ∧ l'.active = l.active := by
  cases ht : tokenTag t with
  | false =>
    rw [deliver_node ht] at h
    match hp : push true i (l :: above) (tokenNode t), h with
    | .ok ls, h =>
      cases h
      obtain ⟨-, rfl⟩ | ⟨_, above', -, -, -, rfl⟩ := push_ok hp
      · exact ⟨_, _, rfl, rfl⟩
      · exact ⟨_, _, rfl, rfl⟩
  | true =>
    rw [deliver_close ht] at h
    match hc : close true (l :: above).length i (l :: above), h with
    | .ok (ls, r'), h =>
      cases h
      obtain ⟨-, _, -, rfl, -⟩ | ⟨-, -, _, -, rfl⟩ | ⟨-, -, -, _, _, _, -, -, -, rfl⟩ := close_ok hc
      · exact ⟨_, _, rfl, rfl⟩
      · exact ⟨_, _, rfl, rfl⟩
      · exact ⟨_, _, rfl, rfl⟩

theorem deliverAll_head {i : Nat} {ts : List Token} {l : Layer} {above : List Layer} {r : Option Root}
    {x : List Layer × Option Root} (h : deliverAll i ts (l :: above) r = .ok x) :
    ∃ l' above', x.1 = l' :: above' ∧ l'.active = l.active := by
  induction ts generalizing l above r with
  | nil => cases h; exact ⟨l, above, rfl, rfl⟩
  | cons t ts ih =>
    rw [deliverAll_cons] at h
    match hd : deliver i t (l :: above) r, h with
    | .ok y, h =>
      obtain ⟨l1, above1, hy, h1⟩ := deliver_head hd
      obtain ⟨ls, r'⟩ := y
      subst hy
      obtain ⟨l2, above2, hx, h2⟩ := ih h
      exact ⟨l2, above2, hx, h2.trans h1⟩

/-- A settled layer is started exactly if it was. -/
theorem settleLayers_head {i : Nat} {l : Layer} {above : List Layer} {r : Option Root} {x : List Layer × Option Root}
    (h : settleLayers i (l :: above) r = .ok x) : ∃ l' above', x.1 = l' :: above' ∧ l'.active = l.active := by
  rw [settleLayers_cons] at h
  match settleLayers (i + 1) above r, h with
  | .ok y, h => exact deliverAll_head (l := { l with q := [] }) h

/-- Binds of the settled layers agree if they do on layers the first of which is started. -/
theorem settled_bind_congr {α : Type} {i : Nat} {m : Layer} {above : List Layer} {r : Option Root}
    {f g : List Layer × Option Root → Res α} (hm : m.active = true)
    (h : ∀ m' above' r', m'.active = true → f (m' :: above', r') = g (m' :: above', r')) :
    (settleLayers i (m :: above) r).bind f = (settleLayers i (m :: above) r).bind g := by
  match hx : settleLayers i (m :: above) r with
  | .error e => rfl
  | .ok (ls, r') =>
    obtain ⟨m', above', hls, hm'⟩ := settleLayers_head hx
    simp only at hls
    subst hls
    exact h m' above' r' (hm'.trans hm)

/-- EMIT as a delivery: it leaves the root register alone. -/
def emitted (p : Node) (x : List Layer × Option Root) : Res (List Layer × Option Root) :=
  (emit true x.1 p).bind fun ls => .ok (ls, x.2)

theorem push_full_bind {i : Nat} {l : Layer} {above : List Layer} {n left : Node} (h : l.slot = some left) :
    push true i (l :: above) n =
      (emit true above (nodeHash left n)).bind fun ls => .ok ({ l with slot := none } :: ls) := by
  simp only [push, h, hash_working rfl]
  cases emit true above (nodeHash left n) <;> rfl

theorem close_passes_bind {k i : Nat} {l : Layer} {above : List Layer} (hh : highestBelow above = false) (h : l.slot = none) :
    close true (k + 1) i (l :: above) = (close true k (i + 1) above).bind fun x => .ok (l :: x.1, x.2) := by
  simp only [close, hh, Bool.false_eq_true, if_false, h]
  cases close true k (i + 1) above <;> rfl

theorem close_pads_bind {k i : Nat} {l : Layer} {above : List Layer} {left : Node} (hh : highestBelow above = false)
    (h : l.slot = some left) (hi : i < towerEntries) :
    close true (k + 1) i (l :: above) = (emit true above (nodeHash left (tower i))).bind fun above1 =>
      (close true k (i + 1) above1).bind fun x => .ok ({ l with slot := none } :: x.1, x.2) := by
  simp only [close, hh, Bool.false_eq_true, if_false, h, readTower_eq hi, hash_working rfl]
  cases emit true above (nodeHash left (tower i)) with
  | error e => rfl
  | ok above1 =>
    simp only [Except.bind]
    cases close true k (i + 1) above1 <;> rfl

/-- A NODE token at a started layer is EMIT into it. -/
theorem deliver_node_active {i : Nat} {m : Layer} {above : List Layer} {r : Option Root} {p : Node} (hm : m.active = true) :
    deliver i (nodeToken p) (m :: above) r = emitted p (m :: above, r) := by
  rw [deliver_node (Laws.tokenTag_nodeToken p), Laws.tokenNode_nodeToken, push_eq_emit hm]
  rfl

/-! ## Layers started in order -/

theorem startedInOrder_cons {l : Layer} {above : List Layer} :
    startedInOrder (l :: above) = true ↔
      (l.active = true ∨ l.q = [] ∧ ∀ m ∈ above, m.active = false ∧ m.q = []) ∧ startedInOrder above = true := by
  simp [startedInOrder]

/-- Above a layer that was not started nothing was, and no token is queued. -/
theorem quiet_of_not_active {ls : List Layer} (h : startedInOrder ls = true) (hh : highestBelow ls = true) :
    ∀ m ∈ ls, m.q = [] := by
  cases ls with
  | nil => simp
  | cons l above =>
    have hl : l.active = false := by simpa [highestBelow] using hh
    obtain ⟨hact | ⟨hq, habove⟩, -⟩ := startedInOrder_cons.1 h
    · rw [hl] at hact; cases hact
    · simp only [List.mem_cons, forall_eq_or_imp]
      exact ⟨hq, fun m hm => (habove m hm).2⟩

/-- The layers below one with a token queued were started, and so was that one. -/
theorem startedInOrder_cut {below above : List Layer} {l : Layer} (hq : l.q ≠ [])
    (h : startedInOrder (below ++ l :: above) = true) :
    (∀ b ∈ below, b.active = true) ∧ l.active = true ∧ startedInOrder above = true := by
  induction below with
  | nil =>
    obtain ⟨hact | ⟨hnil, -⟩, habove⟩ := startedInOrder_cons.1 h
    · exact ⟨by simp, hact, habove⟩
    · exact absurd hnil hq
  | cons b below ih =>
    obtain ⟨hact | ⟨-, hquiet⟩, hrest⟩ := startedInOrder_cons.1 h
    · obtain ⟨hbelow, hl⟩ := ih hrest
      exact ⟨by simpa using ⟨hact, hbelow⟩, hl⟩
    · exact absurd (hquiet l (by simp)).2 hq

theorem startedInOrder_of_active {below ls : List Layer} (hbelow : ∀ b ∈ below, b.active = true)
    (h : startedInOrder ls = true) : startedInOrder (below ++ ls) = true := by
  induction below with
  | nil => exact h
  | cons b below ih =>
    obtain ⟨hb, hbelow⟩ : b.active = true ∧ ∀ b ∈ below, b.active = true := by simpa using hbelow
    exact startedInOrder_cons.2 ⟨.inl hb, ih hbelow⟩

section Move

variable {i : Nat} {ls ls' : List Layer} {r r' : Option Root}

/-- The layers that an agent's step is about begin with the agent's, which has a token queued and keeps its `ACTIVE`; it starts
only the next. -/
theorem AgentMove.head (h : AgentMove i ls r ls' r') :
    ∃ l above l' above', ls = l :: above ∧ ls' = l' :: above' ∧ l.q ≠ [] ∧ l'.active = l.active ∧
      (startedInOrder above = true → startedInOrder above' = true) := by
  cases h with
  | store l above r t ts htag hslot => exact ⟨_, _, _, _, rfl, rfl, List.cons_ne_nil _ _, rfl, id⟩
  | pair l m above r t ts left htag hslot =>
    exact ⟨_, _, _, _, rfl, rfl, List.cons_ne_nil _ _, rfl,
      fun h => startedInOrder_cons.2 ⟨.inl rfl, (startedInOrder_cons.1 h).2⟩⟩
  | publish l above r t ts n htag hslot hhighest => exact ⟨_, _, _, _, rfl, rfl, List.cons_ne_nil _ _, rfl, id⟩
  | pass l m above r t ts htag hslot hactive =>
    exact ⟨_, _, _, _, rfl, rfl, List.cons_ne_nil _ _, rfl,
      fun h => startedInOrder_cons.2 ⟨.inl hactive, (startedInOrder_cons.1 h).2⟩⟩
  | pad l m above r t ts left htag hslot hactive hi =>
    exact ⟨_, _, _, _, rfl, rfl, List.cons_ne_nil _ _, rfl,
      fun h => startedInOrder_cons.2 ⟨.inl hactive, (startedInOrder_cons.1 h).2⟩⟩
  | padOnly l m above r t ts left htag hslot hactive hi =>
    exact ⟨_, _, _, _, rfl, rfl, List.cons_ne_nil _ _, rfl,
      fun h => startedInOrder_cons.2 ⟨.inl hactive, (startedInOrder_cons.1 h).2⟩⟩

/-- The layers above the agent's, in a core whose layers were started in order. -/
theorem startedInOrder_tail {c : Core} {l : Layer} {above : List Layer} (hs : c.StartedInOrder)
    (hl : c.layers.drop i = l :: above) (hq : l.q ≠ []) : startedInOrder above = true := by
  unfold Core.StartedInOrder at hs
  cases i with
  | zero =>
    rw [List.drop_zero] at hl
    rw [hl] at hs
    exact hs
  | succ i =>
    rw [← List.take_append_drop i (c.layers.drop 1), List.drop_drop, Nat.add_comm 1, hl] at hs
    exact (startedInOrder_cut hq hs).2.2

/-- An agent's step keeps the layers started in order (rule R123). -/
theorem AgentMove.keeps_startedInOrder {c : Core} (h : AgentMove i (c.layers.drop i) c.root ls' r') (hs : c.StartedInOrder) :
    (moved i ls' r' c).StartedInOrder := by
  obtain ⟨l, above, l', above', hl, rfl, hq, hactive, habove⟩ := h.head
  have habove' := habove (startedInOrder_tail hs hl hq)
  unfold Core.StartedInOrder at hs ⊢
  show startedInOrder ((c.layers.take i ++ l' :: above').drop 1) = true
  cases i with
  | zero => exact habove'
  | succ i =>
    have hne : c.layers ≠ [] := by rintro hnil; rw [hnil] at hl; cases hl
    obtain ⟨b, bs, hbs⟩ := List.exists_cons_of_ne_nil hne
    rw [hbs] at hl hs ⊢
    rw [List.drop_succ_cons] at hl
    rw [List.drop_one, List.tail_cons, ← List.take_append_drop i bs, hl] at hs
    obtain ⟨hbelow, hact, -⟩ := startedInOrder_cut hq hs
    exact startedInOrder_of_active hbelow (startedInOrder_cons.2 ⟨.inl (hactive.trans hact), habove'⟩)

/-- NODE for the next layer, which it starts: a delivery to that layer as it was (rules R123, R141). -/
theorem settleLayers_emit {m : Layer} {above : List Layer} (p : Node) (h : startedInOrder (m :: above) = true) :
    settleLayers i ({ m with active := true, q := m.q ++ [nodeToken p] } :: above) r =
      (settleLayers i (m :: above) r).bind (emitted p) := by
  cases hm : m.active with
  | true =>
    have heq : ({ m with active := true, q := m.q ++ [nodeToken p] } : Layer) = { m with q := m.q ++ [nodeToken p] } :=
      layer_ext hm.symm rfl rfl
    rw [heq, settleLayers_queued]
    exact settled_bind_congr hm fun m' above' r' hm' => by rw [deliverAll_singleton, deliver_node_active hm']
  | false =>
    have hquiet := quiet_of_not_active h (by simp [highestBelow, hm])
    have hq : m.q = [] := hquiet m (by simp)
    rw [settleLayers_drained i (m :: above) r hquiet, settleLayers_cons,
      settleLayers_drained (i + 1) above r fun x hx => hquiet x (by simp [hx]), hq]
    have heq : ({ m with active := true, q := [] } : Layer) = { m with active := true } := layer_ext rfl rfl hq.symm
    simp only [Except.bind, List.nil_append, deliverAll_singleton]
    rw [heq, deliver_node_active rfl]
    simp only [emitted, emit]

section Settled

variable {l m : Layer} {above : List Layer} {t : Token} {ts : List Token}

theorem settled_store (htag : tokenTag t = false) (hslot : l.slot = none) :
    settleLayers i ({ l with slot := some (tokenNode t), q := ts } :: above) r =
      settleLayers i ({ l with q := t :: ts } :: above) r := by
  rw [settleLayers_cons, settleLayers_cons]
  congr 1
  funext x
  rw [deliverAll_cons, deliver_node htag, push_empty (by exact hslot)]
  rfl

theorem settled_pair {left : Node} (htag : tokenTag t = false) (hslot : l.slot = some left)
    (hs : startedInOrder (m :: above) = true) :
    settleLayers i ({ l with slot := none, q := ts } ::
      { m with active := true, q := m.q ++ [nodeToken (nodeHash left (tokenNode t))] } :: above) r =
      settleLayers i ({ l with q := t :: ts } :: m :: above) r := by
  rw [settleLayers_cons i, settleLayers_cons i, settleLayers_emit _ hs]
  cases settleLayers (i + 1) (m :: above) r with
  | error e => rfl
  | ok x =>
    simp only [Except.bind, emitted]
    rw [deliverAll_cons, deliver_node htag, push_full_bind (by exact hslot)]
    cases emit true x.1 (nodeHash left (tokenNode t)) <;> rfl

theorem settled_publish {n : Node} (htag : tokenTag t = true) (hslot : l.slot = some n) (hhighest : highestBelow above = true)
    (hs : startedInOrder above = true) :
    settleLayers i ({ l with slot := none, q := ts } :: above) (some { node := n, layer := BitVec.ofNat 5 i }) =
      settleLayers i ({ l with q := t :: ts } :: above) r := by
  have hquiet := quiet_of_not_active hs hhighest
  rw [settleLayers_cons, settleLayers_cons, settleLayers_drained _ _ _ hquiet, settleLayers_drained _ _ _ hquiet]
  simp only [Except.bind]
  rw [deliverAll_cons, deliver_close htag, List.length_cons, close_highest hhighest (by exact hslot)]
  rfl

/-- What a CLOSE at a layer below a started one does with the settled layers above, if its slot is empty (rule R128). -/
theorem deliver_passes (htag : tokenTag t = true) (hslot : l.slot = none) (hm : m.active = true) (r : Option Root) :
    deliver i t (l :: m :: above) r =
      (deliver (i + 1) closeToken (m :: above) r).bind fun x => .ok (l :: x.1, x.2) := by
  have hbelow : highestBelow (m :: above) = false := by simp [highestBelow, hm]
  rw [deliver_close htag, deliver_close Laws.tokenTag_closeToken, List.length_cons, close_passes_bind hbelow hslot]
  cases close true (m :: above).length (i + 1) (m :: above) <;> rfl

/-- And if it is full (rule R126): the padding NODE, and then the CLOSE, which finds the slot empty. -/
theorem deliver_pads {left pad : Node} (htag : tokenTag t = true) (hslot : l.slot = some left) (hm : m.active = true)
    (hi : i < towerEntries) (hpad : nodeHash left (tower i) = pad) (r : Option Root) :
    deliver i t (l :: m :: above) r =
      (deliver (i + 1) (nodeToken pad) (m :: above) r).bind fun x =>
        deliver i t ({ l with slot := none } :: x.1) x.2 := by
  subst hpad
  have hbelow : highestBelow (m :: above) = false := by simp [highestBelow, hm]
  rw [deliver_node_active hm, deliver_close htag, List.length_cons, close_pads_bind hbelow hslot hi]
  simp only [emitted]
  cases he : emit true (m :: above) (nodeHash left (tower i)) with
  | error e => rfl
  | ok above1 =>
    have hbelow1 : highestBelow above1 = false := by
      obtain ⟨-, rfl⟩ | ⟨_, _, -, -, -, rfl⟩ := emit_ok he
      · rfl
      · rfl
    have hlen : (({ l with slot := none } : Layer) :: above1).length = (m :: above).length + 1 := by
      rw [List.length_cons, emit_length he]
    simp only [Except.bind]
    rw [deliver_close (ls := { l with slot := none } :: above1) htag, hlen, close_passes_bind hbelow1 rfl]
    cases close true (m :: above).length (i + 1) above1 <;> rfl

theorem settled_pass (htag : tokenTag t = true) (hslot : l.slot = none) (hm : m.active = true) :
    settleLayers i ({ l with q := ts } :: { m with q := m.q ++ [closeToken] } :: above) r =
      settleLayers i ({ l with q := t :: ts } :: m :: above) r := by
  rw [settleLayers_cons i, settleLayers_cons i, settleLayers_queued]
  cases hx : settleLayers (i + 1) (m :: above) r with
  | error e => rfl
  | ok x =>
    obtain ⟨xs, r0⟩ := x
    obtain ⟨m', above', hls, hm'⟩ := settleLayers_head hx
    simp only at hls
    subst hls
    simp only [Except.bind, deliverAll_singleton]
    rw [deliverAll_cons, deliver_passes htag (by exact hslot) (hm'.trans hm)]
    cases deliver (i + 1) closeToken (m' :: above') r0 <;> rfl

theorem settled_padOnly {left pad : Node} (htag : tokenTag t = true) (hslot : l.slot = some left) (hm : m.active = true)
    (hi : i < towerEntries) (hpad : nodeHash left (tower i) = pad) :
    settleLayers i ({ l with slot := none, q := t :: ts } :: { m with q := m.q ++ [nodeToken pad] } :: above) r =
      settleLayers i ({ l with q := t :: ts } :: m :: above) r := by
  rw [settleLayers_cons i, settleLayers_cons i, settleLayers_queued]
  cases hx : settleLayers (i + 1) (m :: above) r with
  | error e => rfl
  | ok x =>
    obtain ⟨xs, r0⟩ := x
    obtain ⟨m', above', hls, hm'⟩ := settleLayers_head hx
    simp only at hls
    subst hls
    simp only [Except.bind, deliverAll_singleton]
    rw [deliverAll_cons i t ts (_ :: m' :: above'), deliver_pads htag (by exact hslot) (hm'.trans hm) hi hpad]
    cases deliver (i + 1) (nodeToken pad) (m' :: above') r0 with
    | error e => rfl
    | ok y => exact deliverAll_cons i t ts _ y.2

/-- The padding step in one is the padding step in two: first the NODE, then the CLOSE at the empty slot (rule R141). -/
theorem settled_pad {left pad : Node} (htag : tokenTag t = true) (hslot : l.slot = some left) (hm : m.active = true)
    (hi : i < towerEntries) (hpad : nodeHash left (tower i) = pad) :
    settleLayers i ({ l with slot := none, q := ts } :: { m with q := m.q ++ [nodeToken pad, closeToken] } :: above) r =
      settleLayers i ({ l with q := t :: ts } :: m :: above) r := by
  have hpass := settled_pass (i := i) (r := r) (l := { l with slot := none })
    (m := { m with q := m.q ++ [nodeToken pad] }) (above := above) (ts := ts) htag rfl hm
  rw [List.append_assoc] at hpass
  exact hpass.trans (settled_padOnly htag hslot hm hi hpad)

end Settled

/-- An agent's step does not change what the tokens amount to (rule R141). -/
theorem AgentMove.settled (h : AgentMove i ls r ls' r') (hs : ∀ l above, ls = l :: above → startedInOrder above = true) :
    settleLayers i ls' r' = settleLayers i ls r := by
  cases h with
  | store l above r t ts htag hslot => exact settled_store htag hslot
  | pair l m above r t ts left htag hslot => exact settled_pair htag hslot (hs _ _ rfl)
  | publish l above r t ts n htag hslot hhighest => exact settled_publish htag hslot hhighest (hs _ _ rfl)
  | pass l m above r t ts htag hslot hactive => exact settled_pass htag hslot hactive
  | pad l m above r t ts left htag hslot hactive hi => exact settled_pad htag hslot hactive hi rfl
  | padOnly l m above r t ts left htag hslot hactive hi => exact settled_padOnly htag hslot hactive hi rfl

/-- An agent's step keeps the settled core. -/
theorem AgentMove.core_settled {c : Core} (h : AgentMove i (c.layers.drop i) c.root ls' r') (hs : c.StartedInOrder) :
    (moved i ls' r' c).settled = c.settled := by
  obtain ⟨l, above, -, -, hl, -, hq, -⟩ := h.head
  have hi : i ≤ c.layers.length := by
    by_contra hlt
    rw [List.drop_eq_nil_of_le (by omega)] at hl
    cases hl
  have hsame := h.settled fun l' above' heq => by
    obtain ⟨-, rfl⟩ := List.cons.inj (hl.symm.trans heq)
    exact startedInOrder_tail hs hl hq
  unfold Core.settled
  show settleLayers 0 (c.layers.take i ++ ls') r' = settleLayers 0 c.layers c.root
  conv_rhs => rw [← List.take_append_drop i c.layers]
  refine settleLayers_below 0 ?_
  rw [List.length_take, Nat.zero_add, Nat.min_eq_left hi, hsame]

end Move

theorem internalFault_fatal (s : State) : (internalFault s).fatal = true := by
  obtain ⟨-, heq⟩ | ⟨_, -, ⟨-, heq⟩ | ⟨-, heq⟩⟩ := internalFault_cases s
  all_goals rw [heq]

/-- A token queued for layer 0 is delivered after all the others. -/
theorem settled_queued {c : Core} {l : Layer} {ls : List Layer} (h : c.layers = l :: ls) (ts : List Token) :
    ({ c with layers := { l with q := l.q ++ ts } :: ls } : Core).settled =
      c.settled.bind fun x => deliverAll 0 ts x.1 x.2 := by
  unfold Core.settled
  rw [h]
  exact settleLayers_queued 0 l ts ls c.root

/-- Settles O58: each of an agent's steps keeps the settled layers (`AgentMove.settled`), and a token queued for layer 0 comes
after the settled ones. -/
theorem agentStepKeepsTheSettledResult : Obligations.AgentStepKeepsTheSettledResult := by
  constructor
  · intro s s1 t l hturn hfused _ _ hs hstep hf
    rw [step_of_nextTurn hturn] at hstep
    cases layerStep_turn hfused hstep with
    | idle => exact ⟨rfl, hs⟩
    | frozen => exact ⟨rfl, hs⟩
    | holds => exact ⟨rfl, hs⟩
    | moves ls r _ hmove => exact ⟨hmove.core_settled hs, hmove.keeps_startedInOrder hs⟩
    | fails => rw [internalFault_fatal] at hf; cases hf
  · intro c l ls xs r hc hsettled
    refine ⟨fun n => ?_, ?_⟩
    · rw [settled_queued hc, hsettled]
      simp only [Except.bind, deliverAll_singleton]
      rw [deliver_node (Laws.tokenTag_nodeToken n), Laws.tokenNode_nodeToken]
      cases push true 0 xs n <;> rfl
    · rw [settled_queued hc, hsettled]
      simp only [Except.bind, deliverAll_singleton]
      rw [deliver_close Laws.tokenTag_closeToken]
      cases close true xs.length 0 xs <;> rfl

end Sys2Proof.ReducerProofs
end

section
/-! PROOFS. The CLOSE of a stream of leaves in closed form: the root of the leaves and the zero leaves after them (rules R126 to
R128, R131, R192). -/

namespace Sys2Proof.ReducerProofs

open Sys2Proof Sys2Proof.Machine Sys2Proof.Config Sys2Proof.StateProofs Sys2Proof.EncodingProofs

/-! ## Zero leaves after whole subtrees -/

/-- `n` zero leaves. -/
abbrev zeros (n : Nat) : List Node := List.replicate n 0#256

/-- `P[i]` is the root of `2^i` zero leaves (rule R192). -/
theorem merkleRoot_zeros (i : Nat) : merkleRoot i (zeros (2 ^ i)) = tower i := by
  induction i with
  | zero => rfl
  | succ i ih =>
    have hpow : 2 ^ (i + 1) = 2 ^ i + 2 ^ i := by rw [pow_succ, mul_two]
    rw [merkleRoot, zeros, List.take_replicate, List.drop_replicate, hpow, Nat.min_eq_left (Nat.le_add_left _ _),
      Nat.add_sub_cancel, ih]
    rfl

theorem append_zeros_succ (xs : List Node) (z : Nat) : xs ++ zeros (z + 1) = xs ++ zeros z ++ [0#256] := by
  rw [zeros, List.replicate_succ', ← List.append_assoc]

theorem length_append_zeros (xs : List Node) (z : Nat) : (xs ++ zeros z).length = xs.length + z := by simp

/-- The zero leaves that complete a subtree of height `i`, the last of them apart. -/
theorem zeros_pow (i : Nat) : ∃ z, z + 1 = 2 ^ i ∧ ∀ xs, xs ++ zeros (2 ^ i) = xs ++ zeros z ++ [0#256] := by
  obtain ⟨z, hz⟩ := Nat.exists_eq_add_one_of_ne_zero (Nat.ne_of_gt (Nat.two_pow_pos i))
  exact ⟨z, hz.symm, fun xs => by rw [hz, append_zeros_succ]⟩

section Padding

variable {i q e z : Nat} {xs : List Node}

/-- Zero leaves that complete no subtree of height `i` leave its last whole subtree. -/
theorem lastSubtree_append_zeros (hlen : xs.length = 2 ^ i * q) (hq : q % 2 = 1) (hz : z < 2 ^ i) :
    lastSubtree i (xs ++ zeros z) = lastSubtree i xs := by
  induction z with
  | zero => simp
  | succ z ih =>
    have hdiv (w : Nat) (hw : w < 2 ^ i) : (xs.length + w) / 2 ^ i = q := by
      rw [hlen, Nat.mul_add_div (Nat.two_pow_pos i), Nat.div_eq_of_lt hw, Nat.add_zero]
    have hold := hdiv z (by omega)
    rw [← length_append_zeros] at hold
    have hnew := hdiv (z + 1) hz
    rw [← Nat.add_assoc, ← length_append_zeros] at hnew
    rw [append_zeros_succ, lastSubtree_append _ (hnew.trans hold.symm) (by rw [hold]; exact hq), ih (by omega)]

/-- Nor do they change a layer above. -/
theorem layersFrom_append_zeros {k : Nat} (hlen : xs.length = 2 ^ i * q) (hz : z < 2 ^ i) :
    layersFrom (i + 1) k (xs ++ zeros z) = layersFrom (i + 1) k xs := by
  induction z with
  | zero => simp
  | succ z ih =>
    rw [append_zeros_succ, ← ih (by omega)]
    refine List.map_congr_left fun j hj => ?_
    have hij : i + 1 ≤ j := (List.mem_range'_1.1 hj).1
    refine streamLayer_append true _ _ (by omega) fun hdvd => ?_
    rw [length_append_zeros, hlen, Nat.add_assoc] at hdvd
    have hdvd' := (Nat.dvd_add_right ⟨q, rfl⟩).1 ((pow_dvd_pow 2 (Nat.le_of_succ_le hij)).trans hdvd)
    exact Nat.not_le.2 hz (Nat.le_of_dvd (Nat.succ_pos z) hdvd')

/-- An odd number of subtrees of height `i`, and one of zero leaves: whole subtrees of height `i + 1`. -/
theorem length_padded (hlen : xs.length = 2 ^ i * (2 * e + 1)) : xs.length + 2 ^ i = 2 ^ (i + 1) * (e + 1) := by
  rw [hlen, pow_succ]
  ring

/-- The padding parent of layer `i` is the last subtree of the layer above once `2^i` zero leaves follow (rules R126, R192). -/
theorem lastSubtree_padded (hlen : xs.length = 2 ^ i * (2 * e + 1)) :
    lastSubtree (i + 1) (xs ++ zeros (2 ^ i)) = nodeHash (lastSubtree i xs) (tower i) := by
  obtain ⟨z, hz, hzeros⟩ := zeros_pow i
  have hdvd : 2 ^ (i + 1) ∣ (xs ++ zeros z).length + 1 :=
    ⟨e + 1, by rw [length_append_zeros, Nat.add_assoc, hz, length_padded hlen]⟩
  have hdiv : (xs ++ zeros (2 ^ i)).length / 2 ^ i = 2 * e + 1 + 1 := by
    rw [length_append_zeros, hlen, ← Nat.mul_succ, Nat.mul_div_cancel_left _ (Nat.two_pow_pos i)]
  have hlast : lastSubtree i (xs ++ zeros (2 ^ i)) = tower i := by
    rw [lastSubtree_eq hdiv, Nat.mul_comm, ← hlen, List.drop_left, List.take_of_length_le (by simp), merkleRoot_zeros]
  rw [hzeros] at hlast ⊢
  rw [lastSubtree_succ _ _ hdvd, lastSubtree_append_zeros hlen (by omega) (by omega), hlast]

/-- EMIT of the padding parent of layer `i` gives the layers above with `2^i` zero leaves more (rules R126, R131). -/
theorem emit_padding {k : Nat} (hlen : xs.length = 2 ^ i * (2 * e + 1)) (hfree : ∃ l ∈ layersFrom (i + 1) k xs, l.slot = none) :
    emit true (layersFrom (i + 1) k xs) (nodeHash (lastSubtree i xs) (tower i)) =
      .ok (layersFrom (i + 1) k (xs ++ zeros (2 ^ i))) := by
  obtain ⟨ls, hemit⟩ := emit_of_free_slot hfree (nodeHash (lastSubtree i xs) (tower i))
  obtain ⟨z, hz, hzeros⟩ := zeros_pow i
  have hdvd : 2 ^ (i + 1) ∣ (xs ++ zeros z).length + 1 :=
    ⟨e + 1, by rw [length_append_zeros, Nat.add_assoc, hz, length_padded hlen]⟩
  have hsame := hemit
  rw [← lastSubtree_padded hlen, hzeros, ← layersFrom_append_zeros hlen (z := z) (by omega)] at hsame
  rw [hemit, emit_stream hdvd hsame, hzeros]

end Padding

/-! ## The whole CLOSE -/

theorem streamLayer_slot_full {a : Bool} {xs : List Node} {i q : Nat} (hlen : xs.length = 2 ^ i * q) (hq : q % 2 = 1) :
    (streamLayer a xs i).slot = some (lastSubtree i xs) := by
  rw [streamLayer_slot, hlen, Nat.mul_div_cancel_left _ (Nat.two_pow_pos i), if_pos hq]

theorem streamLayer_slot_empty {a : Bool} {xs : List Node} {i q : Nat} (hlen : xs.length = 2 ^ i * (2 * q)) :
    (streamLayer a xs i).slot = none := by
  rw [streamLayer_slot, hlen, Nat.mul_div_cancel_left _ (Nat.two_pow_pos i), if_neg (by omega)]

/-- A layer that no whole subtree has reached. -/
theorem streamLayer_slot_unreached {a : Bool} {xs : List Node} {i : Nat} (h : xs.length < 2 ^ i) :
    (streamLayer a xs i).slot = none := by
  rw [streamLayer_slot, Nat.div_eq_of_lt h]
  rfl

/-- CLOSE at the layer that holds the root of all leaves (rule R125). -/
theorem close_stream_highest {k i : Nat} {xs : List Node} (hlen : xs.length = 2 ^ i) :
    ∃ ls, close true (k + 1) i (layersFrom i (k + 1) xs) =
        .ok (ls, { node := merkleRoot i xs, layer := BitVec.ofNat 5 i }) ∧ ls.length = k + 1 ∧ ∀ l ∈ ls, l.slot = none := by
  have hhighest : highestBelow (layersFrom (i + 1) k xs) = true := by
    cases k with
    | zero => rfl
    | succ k => simp [layersFrom_succ, highestBelow, streamLayer, hlen, pow_succ]
  have hslot : (streamLayer true xs i).slot = some (lastSubtree i xs) :=
    streamLayer_slot_full (q := 1) (by rw [hlen, Nat.mul_one]) rfl
  have hroot : lastSubtree i xs = merkleRoot i xs := by
    rw [lastSubtree_eq (q := 0) (by rw [hlen, Nat.div_self (Nat.two_pow_pos i)]), Nat.zero_mul, List.drop_zero,
      List.take_of_length_le (Nat.le_of_eq hlen)]
  refine ⟨{ streamLayer true xs i with slot := none } :: layersFrom (i + 1) k xs, ?_, by simp [layersFrom], ?_⟩
  · rw [layersFrom_succ, close_highest hhighest hslot, hroot]
  · rintro l (_ | ⟨_, hl⟩)
    · rfl
    · obtain ⟨j, hj, rfl⟩ := List.mem_map.1 hl
      have hij : i + 1 ≤ j := (List.mem_range'_1.1 hj).1
      exact streamLayer_slot_unreached (hlen ▸ Nat.pow_lt_pow_right (by decide) hij)

/-- CLOSE at layer `i` of the layers up to `i + k - 1`, with `q` whole subtrees of height `i`, over which the tree has `g` levels
more: it publishes the root of the leaves and the zero leaves after them, and empties every slot (rules R126 to R128, R131). -/
theorem close_stream {g k i q : Nat} {xs : List Node} (hlen : xs.length = 2 ^ i * q) (hle : q ≤ 2 ^ g) (hlt : 2 ^ g < 2 * q)
    (hg : g < k) (hk : i + k ≤ layerCount) :
    ∃ ls, close true k i (layersFrom i k xs) =
        .ok (ls, { node := merkleRoot (i + g) (xs ++ zeros (2 ^ (i + g) - xs.length)), layer := BitVec.ofNat 5 (i + g) }) ∧
      ls.length = k ∧ ∀ l ∈ ls, l.slot = none := by
  induction g generalizing k i q xs with
  | zero =>
    obtain ⟨k, rfl⟩ := Nat.exists_eq_add_one_of_ne_zero (Nat.ne_of_gt hg)
    obtain rfl : q = 1 := by omega
    rw [Nat.mul_one] at hlen
    simpa [hlen] using close_stream_highest (k := k) hlen
  | succ g ih =>
    obtain ⟨k, rfl⟩ : ∃ j, k = j + 1 + 1 := ⟨k - 2, by omega⟩
    have hheight : i + (g + 1) = i + 1 + g := by omega
    rw [pow_succ] at hle hlt
    have hreached : 2 ^ (i + 1) ≤ xs.length := by
      rw [hlen, pow_succ]
      exact Nat.mul_le_mul_left _ (by have := Nat.two_pow_pos g; omega)
    have hbelow : highestBelow (layersFrom (i + 1) (k + 1) xs) = false := by
      simp [layersFrom_succ, highestBelow, streamLayer, hreached]
    have hslots {l : Layer} {ls : List Layer} (hl : l.slot = none) (hls : ∀ l ∈ ls, l.slot = none) :
        ∀ m ∈ l :: ls, m.slot = none := by simpa using ⟨hl, hls⟩
    rw [layersFrom_succ, hheight]
    obtain ⟨e, rfl | rfl⟩ := Nat.even_or_odd' q
    · have hslot : (streamLayer true xs i).slot = none := streamLayer_slot_empty hlen
      obtain ⟨ls, hclose, hls, hnone⟩ := ih (k := k + 1) (i := i + 1) (q := e) (by rw [hlen, pow_succ, Nat.mul_assoc])
        (by omega) (by omega) (by omega) (by omega)
      exact ⟨_, close_passes hbelow hslot hclose, by simp [hls], hslots hslot hnone⟩
    · have hslot : (streamLayer true xs i).slot = some (lastSubtree i xs) := streamLayer_slot_full hlen (by omega)
      have hpadded := length_padded hlen
      have hroom : 2 ^ (i + 1) * (e + 1) ≤ 2 ^ (i + 1 + g) := by
        rw [pow_add _ (i + 1)]
        exact Nat.mul_le_mul_left _ (by omega)
      have hpos := Nat.two_pow_pos i
      have hfree : ∃ l ∈ layersFrom (i + 1) (k + 1) xs, l.slot = none := by
        refine ⟨streamLayer true xs (i + 1 + g), List.mem_map_of_mem (List.mem_range'_1.2 ⟨by omega, by omega⟩), ?_⟩
        exact streamLayer_slot_unreached (by omega)
      obtain ⟨ls, hclose, hls, hnone⟩ := ih (k := k + 1) (i := i + 1) (q := e + 1) (xs := xs ++ zeros (2 ^ i))
        (by rw [length_append_zeros, hpadded]) (by omega) (by omega) (by omega) (by omega)
      rw [length_append_zeros, List.append_assoc, zeros, zeros, List.replicate_append_replicate,
        show 2 ^ i + (2 ^ (i + 1 + g) - (xs.length + 2 ^ i)) = 2 ^ (i + 1 + g) - xs.length by omega] at hclose
      exact ⟨_, close_pads rfl hbelow hslot (by unfold towerEntries; unfold layerCount at hk; omega)
        (emit_padding hlen hfree) hclose, by simp [hls], hslots rfl hnone⟩

/-! ## The height of the tree -/

/-- The height of the tree over `n` leaves is that of the least power of two at or above `n` (rules R10, R131). -/
theorem pow_treeHeight {n : Nat} (hn : n ≠ 0) : n ≤ 2 ^ treeHeight n ∧ 2 ^ treeHeight n < 2 * n := by
  have hlow : 2 ^ n.log2 ≤ n := Nat.log2_self_le hn
  have hhigh : n < 2 ^ (n.log2 + 1) := Nat.lt_log2_self
  unfold treeHeight nextPow2
  split
  · next h =>
    rw [h]
    omega
  · next h =>
    rw [Nat.log2_two_pow]
    rw [pow_succ] at hhigh ⊢
    omega

/-- At most `2^31` leaves have a tree of at most 31 levels, one for each layer above layer 0 (rules R6, R25). -/
theorem treeHeight_lt {n : Nat} (hn : n ≠ 0) (h : n ≤ 2 ^ 31) : treeHeight n < layerCount := by
  have hlt := (pow_treeHeight hn).2
  have : 2 ^ treeHeight n < 2 ^ 32 := by omega
  exact (Nat.pow_lt_pow_iff_right (by decide)).1 this

/-- CLOSE of layer 0 after the leaves `xs` (rules R126 to R128, R131). -/
theorem close_leaves {xs : List Node} (hne : xs.length ≠ 0) (hfits : xs.length ≤ 2 ^ 31) :
    ∃ ls, close true layerCount 0 (layersFrom 0 layerCount xs) =
        .ok (ls, { node := paddedRoot xs, layer := BitVec.ofNat 5 (treeHeight xs.length) }) ∧
      ls.length = layerCount ∧ ∀ l ∈ ls, l.slot = none := by
  obtain ⟨hle, hlt⟩ := pow_treeHeight hne
  have h := close_stream (i := 0) (k := layerCount) (by rw [pow_zero, Nat.one_mul]) hle hlt (treeHeight_lt hne hfits)
    (Nat.le_of_eq (Nat.zero_add _))
  rw [Nat.zero_add] at h
  exact h

/-! ## The commitment of a payload -/

/-- The layers of a payload that is not empty. -/
theorem streamCore_layers {p : List Byte} (hp : p ≠ []) :
    (streamCore p).layers = layersFrom 0 layerCount (quadLeaves (p.length / 127) p) := by
  have hne : (!p.isEmpty) = true := by simp [hp]
  show (List.range layerCount).map (streamLayer (!p.isEmpty) _) = _
  rw [hne, List.range_eq_range']
  rfl

theorem streamCore_drained (p : List Byte) : (streamCore p).drained = true := by
  rw [drained_iff]
  intro l hl
  obtain ⟨i, -, rfl⟩ := List.mem_map.1 hl
  rfl

theorem paddedLeaves_length (p : List Byte) : (paddedLeaves p).length = 4 * ceilDiv p.length 127 := quadLeaves_length _ _

/-- A payload of whole quads has its leaves as they are (rule R160 (a)). -/
theorem paddedLeaves_whole {p : List Byte} (h : p.length % 127 = 0) : paddedLeaves p = quadLeaves (p.length / 127) p := by
  have hceil : ceilDiv p.length 127 = p.length / 127 := by unfold ceilDiv; omega
  rw [paddedLeaves, hceil, show 127 * (p.length / 127) - p.length = 0 by omega, List.replicate_zero, List.append_nil]

/-- The number of leaves of a payload: at least one if there is a payload, and at most `2^31`. -/
theorem paddedLeaves_bounds {p : List Byte} (hp : p ≠ []) (hfits : p.length ≤ maxPiecePayload) :
    4 * ceilDiv p.length 127 ≠ 0 ∧ 4 * ceilDiv p.length 127 ≤ 2 ^ 31 := by
  have := List.length_pos_iff.2 hp
  unfold ceilDiv
  unfold maxPiecePayload at hfits
  omega

theorem closeAt_zero {ok : Bool} {c : Core} {ls : List Layer} {r : Root} (h : close ok c.layers.length 0 c.layers = .ok (ls, r)) :
    c.closeAt ok 0 = .ok { c with layers := ls, root := some r } := by
  unfold Core.closeAt
  rw [List.drop_zero, h]
  rfl

/-- Settles O46: the core is that of whole quads, whose leaves the CLOSE pads (`close_leaves`). -/
theorem closeOfAStreamPublishesItsRoot : Obligations.CloseOfAStreamPublishesItsRoot := by
  intro s p hf hfused hsha hsel hcore hne hwhole hfits
  obtain ⟨hpos, hle⟩ := paddedLeaves_bounds hne hfits
  rw [← paddedLeaves_length] at hpos hle
  obtain ⟨ls, hclose, hlen, hnone⟩ := close_leaves hpos hle
  have hlayers : s.core.layers = layersFrom 0 layerCount (paddedLeaves p) := by
    rw [hcore, streamCore_layers hne, paddedLeaves_whole hwhole]
  have hpop : s.core.popToken s.sel = s.core := by
    rw [hsel]
    exact popToken_of_empty (by rw [hlayers]; rfl) rfl
  have hceil : ceilDiv p.length 127 = p.length / 127 := by unfold ceilDiv; omega
  have hcloseAt : s.core.closeAt s.shaOk s.sel = .ok { s.core with
      layers := ls, root := some { node := commP p, layer := BitVec.ofNat 5 (treeHeight (4 * (p.length / 127))) } } := by
    rw [paddedLeaves_length, hceil] at hclose
    rw [hsel, hsha]
    exact closeAt_zero (by rw [hlayers]; exact hclose)
  refine ⟨ls, ?_, hlen, hnone⟩
  rw [exec_layerClose_fused hf hfused, hpop, hcloseAt]
  rfl

end Sys2Proof.ReducerProofs
end

section
/-! PROOFS. The tokens on their way in a pipelined block: their order, and what they amount to (rules R33, R140 to R142). -/

namespace Sys2Proof.ReducerProofs

open Sys2Proof Sys2Proof.Machine Sys2Proof.Config Sys2Proof.StateProofs Sys2Proof.EncodingProofs

/-! ## The order of the tokens -/

/-- A token that has another after it is a NODE: the CLOSE is the last (rule R142). -/
def CloseLast (ts : List Token) : Prop := ts.Pairwise fun t _ => tokenTag t = false

theorem dropLast_all_iff (ts : List Token) : ts.dropLast.all (fun t => !tokenTag t) = true ↔ CloseLast ts := by
  unfold CloseLast
  induction ts with
  | nil => simp
  | cons t ts ih =>
    cases ts with
    | nil => simp
    | cons u ts =>
      have hpair : (∀ x ∈ u :: ts, tokenTag t = false) ↔ tokenTag t = false := ⟨fun h => h u (by simp), fun h _ _ => h⟩
      rw [List.dropLast_cons_cons, List.all_cons, Bool.and_eq_true, ih, List.pairwise_cons (l := u :: ts), hpair, Bool.not_eq_true']

theorem closeIsLast_iff (s : State) :
    s.CloseIsLast ↔ CloseLast s.inFlight ∧ (s.core.root ≠ none → s.inFlight = []) := by
  unfold State.CloseIsLast
  rw [dropLast_all_iff]

theorem closeLast_of_nodes {ts : List Token} (h : ∀ t ∈ ts, tokenTag t = false) : CloseLast ts :=
  List.pairwise_iff_forall_sublist.2 fun hsub => h _ (hsub.subset (by simp))

theorem closeLast_nodes_append {ts : List Token} {t : Token} (h : ∀ t ∈ ts, tokenTag t = false) : CloseLast (ts ++ [t]) :=
  List.pairwise_append.2 ⟨closeLast_of_nodes h, List.pairwise_singleton _ _, fun a ha _ _ => h a ha⟩

/-- Putting NODEs, or nothing, in the place of a NODE. -/
theorem CloseLast.replace_node {a b new : List Token} {t : Token} (h : CloseLast (a ++ t :: b))
    (hnew : ∀ x ∈ new, tokenTag x = false) : CloseLast (a ++ (new ++ b)) := by
  obtain ⟨ha, htb, hab⟩ := List.pairwise_append.1 h
  have hb := (List.pairwise_cons.1 htb).2
  have hnodes : ∀ x ∈ a, tokenTag x = false := fun x hx => hab x hx t (by simp)
  exact List.pairwise_append.2 ⟨ha, List.pairwise_append.2 ⟨closeLast_of_nodes hnew, hb, fun x hx _ _ => hnew x hx⟩,
    fun x hx _ _ => hnodes x hx⟩

/-- Nothing comes after a CLOSE, and only NODEs before it. -/
theorem CloseLast.close {a b : List Token} {t : Token} (h : CloseLast (a ++ t :: b)) (ht : tokenTag t = true) :
    b = [] ∧ ∀ x ∈ a, tokenTag x = false := by
  obtain ⟨-, htb, hab⟩ := List.pairwise_append.1 h
  refine ⟨List.eq_nil_iff_forall_not_mem.2 fun y hy => ?_, fun x hx => hab x hx t (by simp)⟩
  have := (List.pairwise_cons.1 htb).1 y hy
  rw [ht] at this
  cases this

/-- The queued tokens of some layers, the deepest layer's first. -/
def queued (ls : List Layer) : List Token := ls.reverse.flatMap Layer.q

theorem queued_cons (l : Layer) (above : List Layer) : queued (l :: above) = queued above ++ l.q := by simp [queued]

theorem queued_append (below ls : List Layer) : queued (below ++ ls) = queued ls ++ queued below := by simp [queued]

theorem queued_quiet {ls : List Layer} (h : ∀ l ∈ ls, l.q = []) : queued ls = [] := by simpa [queued] using h

theorem inFlight_eq (s : State) : s.inFlight = queued s.core.layers ++ s.pendingTokens := rfl

/-- What an agent's step does to the order of the tokens (rules R140, R141): a NODE gives way to NODEs, a CLOSE to NODEs and
a CLOSE, or it was the deepest token and publishes the root. -/
theorem AgentMove.order {i : Nat} {ls ls' : List Layer} {r r' : Option Root} (h : AgentMove i ls r ls' r')
    (hs : ∀ l above, ls = l :: above → startedInOrder above = true) :
    (r' = r ∧ ∃ a t b new, queued ls = a ++ t :: b ∧ queued ls' = a ++ (new ++ b) ∧
      ((tokenTag t = false ∧ ∀ x ∈ new, tokenTag x = false) ∨
        (tokenTag t = true ∧ ∃ nodes c, new = nodes ++ [c] ∧ ∀ x ∈ nodes, tokenTag x = false))) ∨
    ∃ t, tokenTag t = true ∧ queued ls = t :: queued ls' := by
  have hnode (n : Node) : ∀ x ∈ [nodeToken n], tokenTag x = false := by simp
  cases h with
  | store l above r t ts htag hslot =>
    exact .inl ⟨rfl, queued above, t, ts, [], queued_cons _ _, queued_cons _ _, .inl ⟨htag, by simp⟩⟩
  | pair l m above r t ts left htag hslot =>
    refine .inl ⟨rfl, queued (m :: above), t, ts, [nodeToken (nodeHash left (tokenNode t))], queued_cons _ _, ?_,
      .inl ⟨htag, hnode _⟩⟩
    simp only [queued_cons, List.append_assoc]
  | publish l above r t ts n htag hslot hhighest =>
    have hnone := queued_quiet (quiet_of_not_active (hs _ _ rfl) hhighest)
    exact .inr ⟨t, htag, by rw [queued_cons, queued_cons, hnone]; rfl⟩
  | pass l m above r t ts htag hslot hactive =>
    refine .inl ⟨rfl, queued (m :: above), t, ts, [closeToken], queued_cons _ _, ?_,
      .inr ⟨htag, [], closeToken, rfl, by simp⟩⟩
    simp only [queued_cons, List.append_assoc]
  | pad l m above r t ts left htag hslot hactive hi =>
    refine .inl ⟨rfl, queued (m :: above), t, ts, [nodeToken (nodeHash left (tower i)), closeToken], queued_cons _ _, ?_,
      .inr ⟨htag, [_], closeToken, rfl, hnode _⟩⟩
    simp only [queued_cons, List.append_assoc]
  | padOnly l m above r t ts left htag hslot hactive hi =>
    refine .inl ⟨rfl, queued (m :: above), t, ts, [nodeToken (nodeHash left (tower i)), t], queued_cons _ _, ?_,
      .inr ⟨htag, [_], t, rfl, hnode _⟩⟩
    simp only [queued_cons, List.append_assoc]
    rfl

/-- A token can only be queued while no root is published, and a step that publishes it leaves no token (rule R142). -/
theorem AgentMove.closeIsLast {s : State} {i : Nat} {ls' : List Layer} {r' : Option Root}
    (h : AgentMove i (s.core.layers.drop i) s.core.root ls' r') (hs : s.core.StartedInOrder) (hc : s.CloseIsLast) :
    ({ s with core := moved i ls' r' s.core } : State).CloseIsLast := by
  obtain ⟨l, above, -, -, hl, -, hq, -⟩ := h.head
  have hold : s.inFlight = queued (s.core.layers.drop i) ++
      (queued (s.core.layers.take i) ++ s.pendingTokens) := by
    rw [inFlight_eq, ← List.append_assoc, ← queued_append, List.take_append_drop]
  have hnew : ({ s with core := moved i ls' r' s.core } : State).inFlight = queued ls' ++
      (queued (s.core.layers.take i) ++ s.pendingTokens) := by
    rw [inFlight_eq, ← List.append_assoc, ← queued_append]
    rfl
  rw [closeIsLast_iff] at hc ⊢
  rw [hold] at hc
  rw [hnew]
  obtain ⟨hlast, hroot⟩ := hc
  obtain ⟨rfl, a, t, b, new, hls, hls', hkinds⟩ | ⟨t, htag, hls⟩ := h.order fun l' above' heq => by
    obtain ⟨-, rfl⟩ := List.cons.inj (hl.symm.trans heq)
    exact startedInOrder_tail hs hl hq
  · rw [hls, List.append_assoc, List.cons_append] at hlast hroot
    refine ⟨?_, fun hr => absurd (hroot hr) (by simp)⟩
    rw [hls', List.append_assoc, List.append_assoc]
    obtain ⟨-, hnodes⟩ | ⟨htag, nodes, c, rfl, hnodes⟩ := hkinds
    · exact hlast.replace_node hnodes
    · obtain ⟨hrest, hbefore⟩ := hlast.close htag
      rw [hrest, List.append_nil, ← List.append_assoc]
      refine closeLast_nodes_append fun x hx => ?_
      obtain hx | hx := List.mem_append.1 hx
      · exact hbefore x hx
      · exact hnodes x hx
  · rw [hls] at hlast
    obtain ⟨hrest, -⟩ := CloseLast.close (a := []) (b := queued ls' ++ _) hlast htag
    rw [hrest]
    exact ⟨List.Pairwise.nil, fun _ => rfl⟩

/-! ## What the tokens amount to -/

theorem outlook_eq_bind (s : State) :
    s.outlook = s.core.settled.bind fun x => deliverAll 0 s.pendingTokens x.1 x.2 := by
  unfold State.outlook
  cases s.core.settled <;> rfl

/-- With a root published by none of them, no CLOSE was delivered. -/
theorem deliverAll_root_none {i : Nat} {ts : List Token} {ls xs : List Layer} {r : Option Root}
    (h : deliverAll i ts ls r = .ok (xs, none)) : r = none ∧ ∀ t ∈ ts, tokenTag t = false := by
  induction ts generalizing ls r with
  | nil => cases h; simp
  | cons t ts ih =>
    rw [deliverAll_cons] at h
    match hd : deliver i t ls r, h with
    | .ok (ls', r'), h =>
      obtain ⟨rfl, hts⟩ := ih h
      cases htag : tokenTag t with
      | true =>
        rw [deliver_close htag] at hd
        cases hc : close true ls.length i ls with
        | error e => rw [hc] at hd; cases hd
        | ok x => rw [hc] at hd; cases hd
      | false =>
        rw [deliver_node htag] at hd
        cases hp : push true i ls (tokenNode t) with
        | error e => rw [hp] at hd; cases hd
        | ok x => rw [hp] at hd; cases hd; simpa [htag] using hts

theorem settleLayers_root_none {i : Nat} {ls xs : List Layer} {r : Option Root} (h : settleLayers i ls r = .ok (xs, none)) :
    r = none ∧ ∀ t ∈ queued ls, tokenTag t = false := by
  induction ls generalizing i xs with
  | nil => cases h; simp [queued]
  | cons l above ih =>
    rw [settleLayers_cons] at h
    match hs : settleLayers (i + 1) above r, h with
    | .ok (ys, r'), h =>
      obtain ⟨rfl, hq⟩ := deliverAll_root_none h
      obtain ⟨rfl, habove⟩ := ih hs
      refine ⟨rfl, fun t ht => ?_⟩
      rw [queued_cons, List.mem_append] at ht
      exact ht.elim (habove t) (hq t)

/-- No CLOSE is on its way if the tokens amount to no root. -/
theorem inFlight_nodes_of_outlook {s : State} {xs : List Layer} (h : s.outlook = .ok (xs, none)) :
    s.core.root = none ∧ ∀ t ∈ s.inFlight, tokenTag t = false := by
  rw [outlook_eq_bind] at h
  match hs : s.core.settled, h with
  | .ok (ys, r), h =>
    obtain ⟨rfl, hpending⟩ := deliverAll_root_none h
    obtain ⟨hroot, hqueued⟩ := settleLayers_root_none hs
    refine ⟨hroot, fun t ht => ?_⟩
    rw [inFlight_eq, List.mem_append] at ht
    exact ht.elim (hqueued t) (hpending t)

/-- A leaf delivered to the layers of fewer than `2^31` leaves (rules R27, R121). That `ys` gives the same layers says how many
leaves are there already. -/
theorem push_leaf {xs ys : List Node} (hsame : layersFrom 0 layerCount ys = layersFrom 0 layerCount xs)
    (h : ys.length < 2 ^ 31) (n : Node) :
    push true 0 (layersFrom 0 layerCount ys) n = .ok (layersFrom 0 layerCount (ys ++ [n])) ∧
      layersFrom 0 layerCount (ys ++ [n]) = layersFrom 0 layerCount (xs ++ [n]) := by
  have hpushed := pushAt_stream_ok (c := { Core.empty with layers := layersFrom 0 layerCount ys }) rfl rfl h n
  obtain ⟨ls, hpush, heq⟩ := pushAt_ok hpushed
  have hls : layersFrom 0 layerCount (ys ++ [n]) = ls := congrArg Core.layers heq
  rw [hls]
  rw [List.drop_zero] at hpush
  exact ⟨hpush, hls.symm.trans (congrArg Core.layers (pushAt_stream hsame hpushed))⟩

/-- Leaves delivered to layer 0 in order (rules R27, R105). -/
theorem deliverAll_leaves {leaves xs ys : List Node} {r : Option Root}
    (hsame : layersFrom 0 layerCount ys = layersFrom 0 layerCount xs) (hfits : ys.length + leaves.length ≤ 2 ^ 31) :
    deliverAll 0 (leaves.map nodeToken) (layersFrom 0 layerCount ys) r = .ok (layersFrom 0 layerCount (xs ++ leaves), r) := by
  induction leaves generalizing xs ys with
  | nil => rw [List.append_nil, ← hsame]; rfl
  | cons n leaves ih =>
    rw [List.length_cons] at hfits
    obtain ⟨hpush, hnext⟩ := push_leaf hsame (by omega) n
    have hrest := ih hnext (by rw [List.length_append, List.length_singleton]; omega)
    rw [List.map_cons, deliverAll_cons, deliver_node (Laws.tokenTag_nodeToken n), Laws.tokenNode_nodeToken, hpush]
    rw [List.append_assoc] at hrest
    exact hrest

/-! ## Accumulators with nothing queued -/

/-- The layers after some leaves, but for layer 0, were started in order. -/
theorem startedInOrder_stream (a : Bool) (xs : List Node) (i k : Nat) :
    startedInOrder ((List.range' (i + 1) k).map (streamLayer a xs)) = true := by
  induction k generalizing i with
  | zero => rfl
  | succ k ih =>
    refine startedInOrder_cons.2 ⟨?_, ih (i + 1)⟩
    by_cases hreached : 2 ^ (i + 1) ≤ xs.length
    · exact .inl (by simp [streamLayer, hreached])
    · refine .inr ⟨rfl, fun m hm => ?_⟩
      obtain ⟨j, hj, rfl⟩ := List.mem_map.1 hm
      have hij : i + 1 + 1 ≤ j := (List.mem_range'_1.1 hj).1
      have hpow : 2 ^ (i + 1) ≤ 2 ^ j := Nat.pow_le_pow_right (by decide) (by omega)
      exact ⟨by simp [streamLayer, show j ≠ 0 by omega, show ¬ 2 ^ j ≤ xs.length by omega], rfl⟩

theorem streamCore_startedInOrder (p : List Byte) : (streamCore p).StartedInOrder := startedInOrder_stream _ _ 0 31

theorem writingCore_startedInOrder (p d : List Byte) : (writingCore p d).StartedInOrder := by
  rw [writingCore_eq]
  exact startedInOrder_stream _ _ 0 31

theorem writingCore_drained (p d : List Byte) : (writingCore p d).drained = true :=
  (startLayer0_drained _).trans (streamCore_drained (p ++ d))

/-- With nothing on its way the CLOSE is the last token, and the outlook is what there is. -/
theorem closeIsLast_of_empty {s : State} (hd : s.core.drained = true) (hj : s.job = []) : s.CloseIsLast := by
  have hnone : s.inFlight = [] := (inFlight_eq_nil s).2 ⟨hd, pendingTokens_nil hj⟩
  rw [closeIsLast_iff, hnone]
  exact ⟨List.Pairwise.nil, fun _ => rfl⟩

end Sys2Proof.ReducerProofs
end

section
/-! PROOFS. The accumulator of a payload at FINALIZE and at a byte of a WRITE, whatever the layers are (rules R152, R158, R160). -/

namespace Sys2Proof.ReducerProofs

open Sys2Proof Sys2Proof.Machine Sys2Proof.Config Sys2Proof.StateProofs Sys2Proof.EncodingProofs

/-! ## The zero padding -/

/-- The zero fill puts zero bytes after the residue (rule R158). -/
theorem zeroFill_residue {c : Core} {i n : Nat} (h : c.carry.map Prod.fst = List.range i) (hle : i + n ≤ blockSize) :
    ∃ m, c.zeroFill i n = .ok { c with carry := m } ∧ m.map Prod.fst = List.range (i + n) ∧
      m.map Prod.snd = c.carry.map Prod.snd ++ List.replicate n 0#8 := by
  induction n generalizing i c with
  | zero => exact ⟨c.carry, rfl, h, by simp⟩
  | succ n ih =>
    obtain ⟨m, hm, hfst, hsnd⟩ := ih (c := { c with carry := c.carry.write i 0x00#8 }) (write_next_range h _) (by omega)
    refine ⟨m, ?_, by rw [hfst]; congr 1; omega, ?_⟩
    · unfold Core.zeroFill Core.writeCarry
      rw [if_pos (by omega)]
      exact hm
    · rw [hsnd, write_next h, List.map_append, List.append_assoc, List.replicate_succ]
      rfl

/-- The first part of FINALIZE after the payload `p`: the leaves it pushes complete those of the padded payload (rules R158,
R160 (a)). -/
theorem padQuad_stream (p : List Byte) :
    ∃ leaves, (streamCore p).padQuad = .ok ((streamCore p).clearCarry, leaves) ∧ leaves.all isFr32 = true ∧
      quadLeaves (p.length / 127) p ++ leaves = paddedLeaves p := by
  have hcarry := streamCore_carry_fst p
  by_cases hwhole : p.length % 127 = 0
  · have hclen : (streamCore p).clen = 0 := hwhole
    have hclear : (streamCore p).clearCarry = streamCore p := by
      rw [hwhole, List.range_zero, List.map_eq_nil_iff] at hcarry
      rw [Core.clearCarry, ← hcarry, ← hclen]
    refine ⟨[], ?_, rfl, by rw [List.append_nil, paddedLeaves_whole hwhole]⟩
    rw [Core.padQuad, if_pos hclen, hclear]
  · have hlt : p.length % 127 < 127 := Nat.mod_lt _ (by decide)
    have hclen : (streamCore p).clen = p.length % 127 := rfl
    obtain ⟨m, hfill, hfst, hsnd⟩ := zeroFill_residue hcarry (n := blockSize - p.length % 127) (by unfold blockSize; omega)
    have hfull : p.length % 127 + (blockSize - p.length % 127) = blockSize := by unfold blockSize; omega
    rw [hfull] at hfst
    refine ⟨expandLeaves (m.map Prod.snd), ?_, expandLeaves_fr32 _, ?_⟩
    · rw [Core.padQuad, hclen, if_neg hwhole, hfill]
      exact takeQuad_full hfst
    · have hceil : ceilDiv p.length 127 = p.length / 127 + 1 := by unfold ceilDiv; omega
      have hzeros : 127 * (p.length / 127 + 1) - p.length = blockSize - p.length % 127 := by unfold blockSize; omega
      have hdrop := streamCarry_length p
      rw [hsnd, streamCore_carry_snd, paddedLeaves, hceil, hzeros, quadLeaves_succ, quadLeaves_append _ (by omega),
        List.drop_append_of_le_length (by omega), List.take_of_length_le (by
          rw [List.length_append, hdrop, List.length_replicate]
          unfold blockSize
          omega)]

/-! ## ABSORB and the layers -/

/-- `c` with other layers and another root register. -/
def relayered (ls : List Layer) (r : Option Root) (c : Core) : Core := { c with layers := ls, root := r }

theorem writeCarry_relayered (i : Nat) (b : Byte) (c : Core) (ls : List Layer) (r : Option Root) :
    (relayered ls r c).writeCarry i b = (c.writeCarry i b).map (relayered ls r) := by
  unfold Core.writeCarry
  split <;> rfl

theorem takeQuad_relayered (c : Core) (ls : List Layer) (r : Option Root) :
    (relayered ls r c).takeQuad = c.takeQuad.map fun x => (relayered ls r x.1, x.2) := by
  have hwindow : (relayered ls r c).readWindow = c.readWindow := rfl
  unfold Core.takeQuad
  rw [hwindow]
  cases c.readWindow <;> rfl

/-- ABSORB looks at the carry buffer only (rule R152). -/
theorem absorb_relayered (b : Byte) (c : Core) (ls : List Layer) (r : Option Root) :
    (relayered ls r c).absorb b = (c.absorb b).map fun x => (relayered ls r x.1, x.2) := by
  have hclen : (relayered ls r c).clen = c.clen := rfl
  unfold Core.absorb
  rw [hclen, writeCarry_relayered]
  cases c.writeCarry c.clen b with
  | error e => rfl
  | ok c1 =>
    simp only [Except.map]
    split
    · exact takeQuad_relayered { c1 with clen := c.clen + 1 } ls r
    · rfl

/-- A byte of a WRITE: with the leaves it completes delivered, the accumulator has one byte more (rules R24, R27, R152). -/
theorem absorb_writing_leaves {p d : List Byte} (b : Byte) (hfits : p.length + d.length + 1 ≤ maxPiecePayload) :
    ∃ c leaves, (writingCore p d).absorb b = .ok (c, leaves) ∧ leaves.all isFr32 = true ∧
      (∀ ls r, relayered ls r c = relayered ls r (writingCore p (d ++ [b]))) ∧
      deliverAll 0 (leaves.map nodeToken) (writingCore p d).layers none = .ok ((writingCore p (d ++ [b])).layers, none) := by
  obtain ⟨c, leaves, habsorb, xs, hxs, hcore⟩ := absorb_writing p d b
  obtain ⟨hlayers, hfour⟩ := absorb_layers habsorb
  refine ⟨c, leaves, habsorb, ?_, fun ls r => ?_, ?_⟩
  · obtain ⟨-, ⟨-, rfl, -⟩ | ⟨-, -, win, -, rfl⟩⟩ := absorb_ok habsorb
    · rfl
    · exact expandLeaves_fr32 win
  · rw [← hcore]
    rfl
  · have hys : (writingCore p d).layers = layersFrom 0 layerCount (quadLeaves ((p ++ d).length / 127) (p ++ d)) := by
      rw [writingCore_eq]
    rw [hys] at hlayers ⊢
    rw [← hcore]
    refine deliverAll_leaves (hlayers.symm.trans hxs) ?_
    rw [quadLeaves_length, List.length_append]
    unfold maxPiecePayload at hfits
    omega

end Sys2Proof.ReducerProofs
end

section
/-! PROOFS. With `FUSED = 0` the accumulator with the tokens on their way is always that of some payload (rules R24, R27, R131, R141,
R160). -/

namespace Sys2Proof.ReducerProofs

open Sys2Proof Sys2Proof.Machine Sys2Proof.Config Sys2Proof.StateProofs Sys2Proof.EncodingProofs

variable {s t : State} {p d : List Byte}

/-! ## The kinds of states -/

/-- Inside a DIGEST or SUM after the payload `p`: the tokens amount to its commitment. -/
structure Finalizes (p : List Byte) (s : State) : Prop where
  phase : s.parser.phase = .cmd
  await : s.job.any SeqOp.isAwait = true
  enough : minPiecePayload ≤ p.length
  total : s.core.total = BitVec.ofNat 64 p.length
  outlook : ∃ ls, s.outlook = .ok (ls, some {
    node := commP p, layer := BitVec.ofNat 5 (treeHeight (4 * ceilDiv p.length 127)) })

/-- Inside a WRITE after the payload `p` that has absorbed `d`: the tokens amount to the layers of `p ++ d`. -/
structure Absorbs (p d : List Byte) (s : State) : Prop where
  phase : s.parser.phase = .payload
  drop : s.parser.drop = false
  last : s.parser.rem = 0#56 ↔ SeqOp.writeDone ∈ s.job
  cmd : ∃ k, s.parser.cmd = some k ∧ k.arg ≠ 0#56 ∧ d.length + s.parser.rem.toNat = k.arg.toNat ∧
    p.length + k.arg.toNat ≤ maxPiecePayload
  core : s.core = relayered s.core.layers s.core.root (writingCore p d)
  outlook : s.outlook = .ok ((writingCore p d).layers, none)

/-- A command in progress that uses the pipeline and began after the payload `p`. -/
structure Running (p : List Byte) (s : State) : Prop where
  unfused : s.params.fused = false
  fits : p.length ≤ maxPiecePayload
  started : s.core.StartedInOrder
  closeIsLast : s.CloseIsLast
  saved : s.parser.saved = some (streamCore p)
  shape : jobShape s.job = true
  aims : Finalizes p s ∨ ∃ d, Absorbs p d s

/-- The accumulator of the payload `p` with nothing pending: between commands, or inside one that does not use the pipeline. -/
structure Resting (p : List Byte) (s : State) : Prop where
  unfused : s.params.fused = false
  fits : p.length ≤ maxPiecePayload
  job : s.job = []
  core : s.core = streamCore p
  aside : s.parser.saved = none ∧ s.parser.phase = .cmd ∨
    s.parser.saved = some (streamCore p) ∧ s.parser.phase ≠ .cmd ∧ ¬ (s.parser.phase = .payload ∧ s.parser.drop = false)

/-- What a pipelined block is in at every step. -/
def Flowing (s : State) : Prop := ∃ p, Resting p s ∨ Running p s

theorem Resting.flowing (h : Resting p s) : Flowing s := ⟨p, .inl h⟩
theorem Running.flowing (h : Running p s) : Flowing s := ⟨p, .inr h⟩

theorem Resting.drained (h : Resting p s) : s.core.drained = true := by rw [h.core]; exact streamCore_drained p

theorem Resting.pipelineStreaming (h : Resting p s) : s.PipelineStreaming := by
  refine ⟨h.unfused, h.core ▸ streamCore_startedInOrder p, closeIsLast_of_empty h.drained h.job, p, h.fits, ?_⟩
  obtain ⟨hs, -⟩ | ⟨hs, hphase, hnot⟩ := h.aside
  · rw [hs]
    exact h.core
  · rw [hs]
    refine ⟨rfl, ?_⟩
    split
    · next heq => exact absurd heq hphase
    · next hp hd => exact absurd ⟨hp, hd⟩ hnot
    · exact h.core

theorem Running.pipelineStreaming (h : Running p s) : s.PipelineStreaming := by
  refine ⟨h.unfused, h.started, h.closeIsLast, p, h.fits, ?_⟩
  rw [h.saved]
  refine ⟨rfl, ?_⟩
  obtain hfin | ⟨d, habs⟩ := h.aims
  · rw [hfin.phase]
    exact ⟨hfin.enough, hfin.total, hfin.outlook⟩
  · rw [habs.phase, habs.drop]
    obtain ⟨k, hcmd, hne, hlen, hle⟩ := habs.cmd
    exact ⟨k, d, hcmd, hne, hlen, hle, habs.core, habs.outlook⟩

theorem Flowing.pipelineStreaming (h : Flowing s) : s.PipelineStreaming := by
  obtain ⟨p, h | h⟩ := h
  · exact h.pipelineStreaming
  · exact h.pipelineStreaming

/-- With the invariant of every run a streaming state is one of the two kinds. -/
theorem flowing_of_inv (hinv : s.Inv) (h : s.PipelineStreaming) : Flowing s := by
  obtain ⟨hfused, hstarted, hclose, p, hfits, h⟩ := h
  have hrun : RunInv False s := runInv_of_inv hinv fun hf => hf.elim
  cases hs : s.parser.saved with
  | none =>
    rw [hs] at h
    obtain ⟨hphase, -, hjob⟩ := hrun.idle hs
    exact ⟨p, .inl ⟨hfused, hfits, hjob, h, .inl ⟨hs, hphase⟩⟩⟩
  | some c =>
    rw [hs] at h
    obtain ⟨rfl, h⟩ := h
    obtain ⟨-, -, -, hphase⟩ := hrun.running hs
    have haside (hp : s.parser.phase ≠ .cmd) (hnot : ¬ (s.parser.phase = .payload ∧ s.parser.drop = false))
        (hjob : s.job = []) (hcore : s.core = streamCore p) : Flowing s :=
      ⟨p, .inl ⟨hfused, hfits, hjob, hcore, .inr ⟨hs, hp, hnot⟩⟩⟩
    have hrunning (haims : Finalizes p s ∨ ∃ d, Absorbs p d s) : Flowing s :=
      ⟨p, .inr ⟨hfused, hfits, hstarted, hclose, hs, hinv.job, haims⟩⟩
    cases hp : s.parser.phase with
    | cmd =>
      rw [hp] at h
      obtain ⟨henough, htotal, houtlook⟩ := h
      exact hrunning (.inl ⟨hp, ((phaseOk_cmd hp).1 hphase).2, henough, htotal, houtlook⟩)
    | payload =>
      obtain ⟨_, -, -, hrem, hdrop, -⟩ := (phaseOk_payload hp).1 hphase
      cases hd : s.parser.drop with
      | false =>
        rw [hp, hd] at h
        obtain ⟨k, d, hcmd, hne, hlen, hle, hcore, houtlook⟩ := h
        exact hrunning (.inr ⟨d, hp, hd, hrem, ⟨k, hcmd, hne, hlen, hle⟩, hcore, houtlook⟩)
      | true =>
        rw [hp, hd] at h
        exact haside (by simp [hp]) (by simp [hd]) (hdrop hd) h
    | extC => rw [hp] at h; exact haside (by simp [hp]) (by simp [hp]) ((phaseOk_extC hp).1 hphase).2.1 h
    | extS => rw [hp] at h; exact haside (by simp [hp]) (by simp [hp]) ((phaseOk_extS hp).1 hphase).2.1 h
    | extT => rw [hp] at h; exact haside (by simp [hp]) (by simp [hp]) ((phaseOk_extT hp).1 hphase).2.1 h

/-- Neither kind depends on the world outside, the responses, FATAL, the engine or `sel`. -/
theorem Flowing.frame (h : Flowing s) (hcore : t.core = s.core) (hparser : t.parser = s.parser) (hjob : t.job = s.job)
    (hparams : t.params = s.params) : Flowing t := by
  obtain ⟨core, parser, job, rspq, fatal, cause, sel, sha, params, input, out, sched⟩ := t
  subst hcore hparser hjob hparams
  obtain ⟨p, ⟨hunfused, hfits, hjob, hcore, haside⟩ | ⟨hunfused, hfits, hstarted, hclose, hsaved, hshape, haims⟩⟩ := h
  · exact ⟨p, .inl ⟨hunfused, hfits, hjob, hcore, haside⟩⟩
  · refine ⟨p, .inr ⟨hunfused, hfits, hstarted, hclose, hsaved, hshape, ?_⟩⟩
    obtain ⟨hphase, hawait, henough, htotal, houtlook⟩ | ⟨d, hphase, hdrop, hlast, hcmd, hcore, houtlook⟩ := haims
    · exact .inl ⟨hphase, hawait, henough, htotal, houtlook⟩
    · exact .inr ⟨d, hphase, hdrop, hlast, hcmd, hcore, houtlook⟩

/-- Work on the pipeline that keeps what the tokens amount to. -/
theorem Running.advance {ls : List Layer} {r : Option Root} {job : List SeqOp} (h : Running p s)
    (hstarted : (relayered ls r s.core).StartedInOrder)
    (hclose : ({ s with core := relayered ls r s.core, job := job } : State).CloseIsLast)
    (hshape : jobShape job = true) (hawait : s.job.any SeqOp.isAwait = true → job.any SeqOp.isAwait = true)
    (hlast : SeqOp.writeDone ∈ s.job ↔ SeqOp.writeDone ∈ job)
    (houtlook : ({ s with core := relayered ls r s.core, job := job } : State).outlook = s.outlook) :
    Running p { s with core := relayered ls r s.core, job := job } where
  unfused := h.unfused
  fits := h.fits
  started := hstarted
  closeIsLast := hclose
  saved := h.saved
  shape := hshape
  aims := by
    obtain hfin | ⟨d, habs⟩ := h.aims
    · exact .inl ⟨hfin.phase, hawait hfin.await, hfin.enough, hfin.total, houtlook ▸ hfin.outlook⟩
    · refine .inr ⟨d, habs.phase, habs.drop, habs.last.trans hlast, habs.cmd, ?_, houtlook ▸ habs.outlook⟩
      show relayered ls r s.core = relayered ls r (writingCore p d)
      rw [habs.core]
      rfl

/-! ## Ends of commands -/

theorem reply_flowing (hfused : s.params.fused = false) (hfits : p.length ≤ maxPiecePayload) (hjob : s.job = [])
    (hcore : s.core = streamCore p) (st : Status) (r : List Byte) : Flowing (reply st r s) :=
  Resting.flowing (p := p) ⟨hfused, hfits, hjob, hcore, .inl ⟨rfl, rfl⟩⟩

theorem Resting.reply (h : Resting p s) (st : Status) (r : List Byte) : Flowing (reply st r s) :=
  reply_flowing h.unfused h.fits h.job h.core st r

/-- The internal fault goes back to the accumulator the command began with (rule R12; log entry 6). -/
theorem internalFault_flowing (hfused : s.params.fused = false) (hfits : p.length ≤ maxPiecePayload)
    (hs : s.parser.saved = some (streamCore p)) : Flowing (internalFault s) := by
  obtain ⟨hnone, -⟩ | ⟨c, hc, hfault⟩ := internalFault_cases s
  · rw [hs] at hnone; cases hnone
  obtain rfl : streamCore p = c := Option.some.inj (hs.symm.trans hc)
  obtain ⟨hdue, heq⟩ | ⟨-, heq⟩ := hfault
  · obtain ⟨hphase, -⟩ : s.parser.phase ≠ .cmd ∧ s.parser.rem ≠ 0#56 := by simpa [State.operandsDue] using hdue
    rw [heq]
    exact Resting.flowing ⟨hfused, hfits, rfl, rfl, .inr ⟨hs, hphase, fun h => nomatch h.2⟩⟩
  · rw [heq]
    exact Resting.flowing ⟨hfused, hfits, rfl, rfl, .inl ⟨rfl, rfl⟩⟩

/-- An operation of a command that began after `p`, or its internal fault. -/
theorem trap_flowing {r : Res State} (hfused : s.params.fused = false) (hfits : p.length ≤ maxPiecePayload)
    (hs : s.parser.saved = some (streamCore p)) (hr : Meets Flowing True True r) : Ends Flowing True (trap s r) :=
  ends_trap (hr.imp (fun _ ht => ht) fun _ => internalFault_flowing hfused hfits hs)

/-! ## Actions of the sequencer -/

/-- While actions are pending the pipeline is in use. -/
theorem Flowing.pending (h : Flowing s) (hj : s.job ≠ []) : ∃ p, Running p s := by
  obtain ⟨p, h | h⟩ := h
  · exact absurd h.job hj
  · exact ⟨p, h⟩

/-- Queueing the first pending token for layer 0, if there is room (rules R142, R152, R158): it only changes from a token still to be
queued into a queued one. -/
theorem enqueue_flowing {op : SeqOp} {ops : List SeqOp} {tok : Token} (h : Flowing { s with job := op :: ops })
    (htok : op.token? = some tok) (hshape : jobShape ops = true) (hawait : op.isAwait = false) (hdone : op ≠ .writeDone) :
    Meets (Acts (Flowing { s with job := op :: ops }) fun t => Flowing { t with job := ops }) True True
      (steppedOrHeld s (s.core.enqueue s.params.fifoDepth 0 tok)) := by
  refine steppedOrHeld_meets h (meets_true (fun x hx c hc => ?_) fun _ => trivial)
  subst hc
  obtain ⟨l, hl, ⟨-, hc⟩ | ⟨-, hc⟩⟩ := enqueue_ok hx
  · cases hc
    obtain ⟨p, hrun⟩ := h.pending (List.cons_ne_nil op ops)
    obtain ⟨ls, hls⟩ : ∃ ls, s.core.layers = l :: ls := by
      cases hlayers : s.core.layers with
      | nil => rw [hlayers] at hl; cases hl
      | cons l' ls => rw [hlayers] at hl; cases hl; exact ⟨ls, rfl⟩
    have hset : s.core.setLayer 0 { l with q := l.q ++ [tok] } =
        relayered ({ l with q := l.q ++ [tok] } :: ls) s.core.root s.core := by
      rw [Core.setLayer, hls]
      rfl
    have hpending : ({ s with job := op :: ops } : State).pendingTokens = tok :: ({ s with job := ops } : State).pendingTokens := by
      rw [pendingTokens_cons rfl, htok]
      rfl
    rw [hset]
    refine (hrun.advance ?_ ?_ hshape (fun ha => ?_) ?_ ?_).flowing
    · have := hrun.started
      unfold Core.StartedInOrder at this ⊢
      rw [hls] at this
      exact this
    · have hsame : ({ s with core := relayered ({ l with q := l.q ++ [tok] } :: ls) s.core.root s.core, job := ops } : State).inFlight =
          ({ s with job := op :: ops } : State).inFlight := by
        rw [inFlight_eq, inFlight_eq, hpending]
        show queued ({ l with q := l.q ++ [tok] } :: ls) ++ _ = queued s.core.layers ++ _
        rw [hls, queued_cons, queued_cons, List.append_assoc, List.append_assoc, List.append_assoc]
        rfl
      have hclose := hrun.closeIsLast
      rw [closeIsLast_iff] at hclose ⊢
      rw [hsame]
      exact hclose
    · simpa [hawait] using ha
    · show SeqOp.writeDone ∈ op :: ops ↔ _
      rw [List.mem_cons, or_iff_right (Ne.symm hdone)]
    · rw [outlook_eq_bind, outlook_eq_bind, hpending]
      show (Core.settled { s.core with layers := { l with q := l.q ++ [tok] } :: ls }).bind _ = s.core.settled.bind _
      rw [settled_queued hls]
      cases s.core.settled with
      | error e => rfl
      | ok x =>
        simp only [Except.bind]
        rw [deliverAll_singleton, deliverAll_cons]
        rfl
  · cases hc

/-- The end of a pipelined WRITE once the pipeline is empty: the accumulator is that of the payload with its bytes (rules R24, R33,
R150). -/
theorem answerWrite_flowing {ops : List SeqOp} (h : Flowing { s with job := .writeDone :: ops }) (hd : s.core.drained = true) :
    Meets (fun t => Flowing { t with job := ops }) True True (answerWrite s) := by
  obtain ⟨p, hrun⟩ := h.pending (List.cons_ne_nil _ _)
  obtain rfl : ops = [] := jobShape_writeDone hrun.shape
  obtain hfin | ⟨d, habs⟩ := hrun.aims
  · cases hfin.await
  · obtain ⟨k, hcmd, hne, hlen, hle⟩ := habs.cmd
    have hrem : s.parser.rem = 0#56 := habs.last.2 (by simp)
    have hlen' : d.length = k.arg.toNat := by
      rw [← hlen]
      show d.length = d.length + s.parser.rem.toNat
      rw [hrem]
      rfl
    have hdne : d ≠ [] := by
      rintro rfl
      exact hne (BitVec.eq_of_toNat_eq hlen'.symm)
    have hcore : s.core = writingCore p d := by
      have houtlook := habs.outlook
      rw [outlook_of_inFlight_nil { s with job := [.writeDone] } ((inFlight_eq_nil _).2 ⟨hd, rfl⟩)] at houtlook
      obtain ⟨hlayers, hroot⟩ := Prod.mk.inj (Except.ok.inj houtlook)
      have hroot' : s.core.root = (writingCore p d).root := by rw [writingCore_eq]; exact hroot
      calc s.core
        _ = relayered s.core.layers s.core.root (writingCore p d) := habs.core
        _ = relayered (writingCore p d).layers (writingCore p d).root (writingCore p d) := by rw [← hroot', ← hlayers]
        _ = writingCore p d := rfl
    unfold answerWrite State.arg
    rw [show s.parser.cmd = some k from hcmd]
    refine Resting.flowing (p := p ++ d) ⟨hrun.unfused, by rw [List.length_append]; omega, rfl, ?_, .inl ⟨rfl, rfl⟩⟩
    rw [← writingCore_end hdne hlen', ← hcore]
    rfl

theorem runOp_flowing {op : SeqOp} {ops : List SeqOp} (h : Flowing { s with job := op :: ops }) :
    Meets (Acts (Flowing { s with job := op :: ops }) fun t => Flowing { t with job := ops }) True True (runOp op s) := by
  obtain ⟨p, hrun⟩ := h.pending (List.cons_ne_nil op ops)
  have hfused : ¬ s.params.fused = true := by rw [show s.params.fused = false from hrun.unfused]; exact Bool.false_ne_true
  cases op with
  | push leaf =>
    rw [runOp_push, if_neg hfused]
    exact enqueue_flowing h rfl (jobShape_push.1 hrun.shape).2 rfl (fun hop => nomatch hop)
  | close =>
    rw [runOp_close, if_neg hfused]
    exact enqueue_flowing h rfl (jobShape_close hrun.shape) rfl (fun hop => nomatch hop)
  | await sized =>
    rw [runOp_await]
    cases s.core.root with
    | none => exact h
    | some r =>
      obtain rfl : ops = [] := jobShape_await hrun.shape
      exact Resting.flowing (p := []) ⟨hrun.unfused, Nat.zero_le _, rfl, streamCore_nil.symm, .inl ⟨rfl, rfl⟩⟩
  | writeDone =>
    cases hp : s.pipelineEmpty with
    | false =>
      rw [runOp_writeDone_holds hp]
      exact h
    | true =>
      have hd : s.core.drained = true := (Bool.or_eq_true_iff.1 hp).resolve_left hfused
      exact runOp_writeDone_meets hp (answerWrite_flowing h hd)

theorem runOps_flowing {ops : List SeqOp} (h : Flowing { s with job := ops }) : Meets Flowing True True (runOps ops s) :=
  runOps_meets (R := fun ops t => Flowing { t with job := ops }) (fun _ ht => ht) (fun _ _ _ ht => runOp_flowing ht) h

/-! ## Operand bytes -/

/-- A byte of a WRITE that absorbs: its leaves are the tokens still to be queued (rules R24, R27, R152). -/
theorem payloadByte_flowing (b : Byte) (h : Running p s) (hj : s.job = []) (habs : Absorbs p d s) :
    Ends Flowing True (payloadByte b s) := by
  obtain ⟨k, hcmd, hne, hlen, hle⟩ := habs.cmd
  have hrem : s.parser.rem ≠ 0#56 := fun h0 => by
    have := habs.last.1 h0
    rw [hj] at this
    cases this
  obtain ⟨hsub, hpos⟩ := toNat_sub_one hrem
  obtain ⟨c, leaves, habsorb, hfr32, hcore, hdeliver⟩ := absorb_writing_leaves (p := p) (d := d) b (by omega)
  have habsorb' : s.core.absorb b = .ok (relayered s.core.layers s.core.root c, leaves) := by
    rw [habs.core, absorb_relayered, habsorb]
    rfl
  obtain ⟨hroot, hnodes⟩ := inFlight_nodes_of_outlook habs.outlook
  rw [payloadByte_absorbed b habs.drop, habsorb']
  refine trap_flowing (p := p) h.unfused h.fits h.saved (runOps_flowing (Running.flowing (p := p) ?_))
  let last := s.parser.rem - 1#56 == 0#56
  have hpending : ({ s with job := payloadJob leaves last } : State).pendingTokens = leaves.map nodeToken := by
    unfold State.pendingTokens payloadJob
    rw [List.filterMap_append, filterMap_token?_push]
    cases last <;> simp
  exact {
    unfused := h.unfused
    fits := h.fits
    started := h.started
    closeIsLast := by
      have hflight : ({ s with job := payloadJob leaves last } : State).inFlight = s.inFlight ++ leaves.map nodeToken := by
        rw [inFlight_eq, inFlight_eq, hpending, pendingTokens_nil hj, List.append_nil]
      refine (closeIsLast_iff _).2 ⟨?_, fun hr => absurd hroot hr⟩
      show CloseLast ({ s with job := payloadJob leaves last } : State).inFlight
      rw [hflight]
      refine closeLast_of_nodes fun x hx => ?_
      obtain hx | hx := List.mem_append.1 hx
      · exact hnodes x hx
      · obtain ⟨n, -, rfl⟩ := List.mem_map.1 hx
        exact Laws.tokenTag_nodeToken n
    saved := h.saved
    shape := jobShape_payloadJob _ hfr32
    aims := .inr ⟨d ++ [b], {
      phase := habs.phase
      drop := habs.drop
      last := by
        show s.parser.rem - 1#56 = 0#56 ↔ SeqOp.writeDone ∈ payloadJob leaves last
        rw [mem_payloadJob, beq_iff_eq]
      cmd := ⟨k, hcmd, hne, by
        show (d ++ [b]).length + (s.parser.rem - 1#56).toNat = k.arg.toNat
        rw [List.length_append, List.length_singleton, hsub]
        omega, hle⟩
      core := hcore _ _
      outlook := by
        have hsettled : s.core.settled = .ok ((writingCore p d).layers, none) := by
          have := habs.outlook
          rw [outlook_eq_bind, pendingTokens_nil hj] at this
          cases hc : s.core.settled with
          | error e => rw [hc] at this; cases this
          | ok x => rw [hc] at this; exact this
        rw [outlook_eq_bind]
        show s.core.settled.bind (fun x => deliverAll 0 ({ s with job := payloadJob leaves last } : State).pendingTokens x.1 x.2) = _
        rw [hsettled, hpending]
        exact hdeliver }⟩ }

/-- A byte of a command that does not use the pipeline (rules R75, R77). -/
theorem asideByte_flowing (b : Byte) (h : Resting p s) (hphase : s.parser.phase ≠ .cmd) :
    Ends Flowing True (operandByte b s) := by
  obtain ⟨-, hcmd⟩ | ⟨hs, -, hnot⟩ := h.aside
  · exact absurd hcmd hphase
  have hmore {q : Parser} (hsaved : q.saved = s.parser.saved) (hphase : q.phase ≠ .cmd)
      (hq : ¬ (q.phase = .payload ∧ q.drop = false)) : Flowing { s with parser := q } :=
    Resting.flowing ⟨h.unfused, h.fits, h.job, h.core, .inr ⟨hsaved.trans hs, hphase, hq⟩⟩
  have hreply {q : Parser} (st : Status) (r : List Byte) : Flowing (reply st r { s with parser := q }) :=
    reply_flowing (s := { s with parser := q }) h.unfused h.fits h.job h.core st r
  refine operandByte_ends hphase (fun _ _ => ?_) (fun hp hd => absurd ⟨hp, hd⟩ hnot) (fun _ => ?_) (fun _ => ?_) (fun _ => ?_)
  · split
    · exact endDropped_of_reply hreply
    · exact hmore rfl hphase hnot
  · rw [extCByte_eq]
    split
    · exact hmore rfl (fun hc => nomatch hc) (fun hc => nomatch hc.1)
    · exact hmore rfl hphase hnot
  · rw [extSByte_eq]
    split
    · exact hmore rfl (fun hc => nomatch hc) (fun hc => nomatch hc.1)
    · exact hmore rfl hphase hnot
  · rw [extTByte_eq]
    split
    · split
      · exact endDropped_of_reply hreply
      · refine trap_flowing h.unfused h.fits hs (meets_true (fun t ht => ?_) fun _ => trivial)
        unfold extendRun at ht
        repeat' split at ht
        all_goals cases ht
        all_goals exact hreply _ _
    · exact hmore rfl hphase hnot

theorem operandByte_flowing (b : Byte) (h : Flowing s) (hw : s.wantsOperand = true) : Ends Flowing True (operandByte b s) := by
  obtain ⟨hphase, hj⟩ := (wantsOperand_iff s).1 hw
  obtain ⟨p, h | h⟩ := h
  · exact asideByte_flowing b h hphase
  · obtain hfin | ⟨d, habs⟩ := h.aims
    · exact absurd hfin.phase hphase
    · unfold operandByte
      rw [habs.phase]
      exact payloadByte_flowing b h hj habs

theorem feed_flowing {bs : List Byte} (h : Flowing s) : Ends Flowing True (feed bs s) :=
  feed_ends (fun _ _ ht => ht.frame rfl rfl rfl rfl) (fun b _ ht hw => operandByte_flowing b ht hw) h

/-! ## Commands -/

theorem execWrite_flowing (len : Arg) (h : Resting p s) : Moves Flowing True (execWrite len s) := by
  have htotal : s.core.total.toNat = p.length := by rw [h.core]; exact streamCore_total h.fits
  have hsaved (drop : Bool) : (writeParser len drop s).saved = some (streamCore p) := congrArg some h.core
  unfold execWrite
  simp only
  cases hcond : s.fatal || overflows s.core.total len with
  | true =>
    rw [startWrite_discards hcond]
    split
    · refine endDropped_of_reply fun st r => reply_flowing (p := p) ?_ h.fits ?_ ?_ st r
      · exact h.unfused
      · rfl
      · exact h.core
    · exact moves_conclude.2 (feed_flowing (Resting.flowing (p := p)
        ⟨h.unfused, h.fits, rfl, h.core, .inr ⟨hsaved true, (fun hc => nomatch hc), fun hc => nomatch hc.2⟩⟩))
  | false =>
    obtain ⟨-, hover⟩ := Bool.or_eq_false_iff.1 hcond
    have hle : p.length + len.toNat ≤ maxPiecePayload := by
      rw [← htotal]
      exact (overflows_eq_false (by rw [htotal]; exact h.fits)).1 hover
    rw [startWrite_absorbs hcond]
    split
    · next hlen =>
      rw [moves_conclude]
      split
      · next hd => exact absurd hd Bool.false_ne_true
      · refine trap_flowing (p := p) h.unfused h.fits (hsaved false) (runOps_cons_meets (runOp_writeDone_meets ?_ ?_))
        · exact pipelineEmpty_of_drained h.drained
        · unfold answerWrite
          refine Resting.flowing (p := p) ⟨h.unfused, h.fits, rfl, ?_, .inl ⟨rfl, rfl⟩⟩
          show ({ s.core with total := s.core.total + zext64 len } : Core) = streamCore p
          rw [hlen, zext64_eq (n := 0) rfl, BitVec.add_zero]
          exact h.core
    · next hlen =>
      rw [moves_conclude]
      have hcore : s.core.startLayer0 = writingCore p [] := by rw [h.core, writingCore_nil]
      rw [hcore]
      refine feed_flowing (Running.flowing (p := p) ?_)
      exact {
        unfused := h.unfused
        fits := h.fits
        started := writingCore_startedInOrder p []
        closeIsLast := closeIsLast_of_empty (writingCore_drained p []) rfl
        saved := hsaved false
        shape := rfl
        aims := .inr ⟨[], {
          phase := rfl
          drop := rfl
          last := ⟨fun hc => absurd hc hlen, fun hm => nomatch hm⟩
          cmd := ⟨_, rfl, hlen, Nat.zero_add _, hle⟩
          core := rfl
          outlook := by
            rw [outlook_of_inFlight_nil _ ((inFlight_eq_nil _).2 ⟨writingCore_drained p [], rfl⟩)]
            have hroot : (writingCore p []).root = none := by rw [writingCore_eq]
            show Except.ok ((writingCore p []).layers, (writingCore p []).root) = _
            rw [hroot] }⟩ }

/-- FINALIZE queues the leaves of the padded payload that are missing, and the CLOSE: what they amount to is the commitment (rules
R131, R158, R160). -/
theorem finalize_flowing (sized : Bool) (h : Resting p s) (henough : minPiecePayload ≤ p.length) :
    Ends Flowing True (finalize sized (beginCommand none s)) := by
  obtain ⟨leaves, hpad, hfr32, hleaves⟩ := padQuad_stream p
  have hne : p ≠ [] := by rintro rfl; exact absurd henough (by decide)
  obtain ⟨hpos, hmax⟩ := paddedLeaves_bounds hne h.fits
  rw [← paddedLeaves_length] at hpos hmax
  obtain ⟨ls, hclose, hlen, -⟩ := close_leaves hpos hmax
  have hlength := congrArg List.length hleaves
  rw [List.length_append] at hlength
  have hpending (c : Core) : ({ beginCommand none s with
      core := c, job := leaves.map SeqOp.push ++ [.close, .await sized] } : State).pendingTokens =
      leaves.map nodeToken ++ [closeToken] := by
    unfold State.pendingTokens
    rw [List.filterMap_append, filterMap_token?_push]
    rfl
  have hdrained : (streamCore p).clearCarry.drained = true := streamCore_drained p
  have hflight : ({ beginCommand none s with
      core := (streamCore p).clearCarry, job := leaves.map SeqOp.push ++ [.close, .await sized] } : State).inFlight =
      leaves.map nodeToken ++ [closeToken] := by
    rw [inFlight_eq, hpending]
    show queued (streamCore p).layers ++ _ = _
    rw [queued_quiet ((drained_iff _).1 (streamCore_drained p)), List.nil_append]
  have hnodes : ∀ x ∈ leaves.map nodeToken, tokenTag x = false := fun x hx => by
    obtain ⟨n, -, rfl⟩ := List.mem_map.1 hx
    exact Laws.tokenTag_nodeToken n
  unfold finalize
  rw [beginCommand_core, h.core, hpad]
  refine trap_flowing (p := p) h.unfused h.fits (congrArg some h.core) (runOps_flowing (Running.flowing (p := p) ?_))
  exact {
    unfused := h.unfused
    fits := h.fits
    started := streamCore_startedInOrder p
    closeIsLast := (closeIsLast_iff _).2
      ⟨by rw [hflight]; exact closeLast_nodes_append hnodes, fun hr => absurd rfl hr⟩
    saved := congrArg some h.core
    shape := jobShape_pushes hfr32 rfl
    aims := .inl {
      phase := rfl
      await := by simp [SeqOp.isAwait]
      enough := henough
      total := rfl
      outlook := by
        refine ⟨ls, ?_⟩
        rw [outlook_eq_bind, hpending, settled_drained _ hdrained]
        show deliverAll 0 (leaves.map nodeToken ++ [closeToken]) (streamCore p).layers none = _
        rw [deliverAll_append_bind, streamCore_layers hne, deliverAll_leaves rfl (by omega), hleaves]
        simp only [Except.bind, deliverAll_singleton]
        rw [deliver_close Laws.tokenTag_closeToken, show (layersFrom 0 layerCount (paddedLeaves p)).length = layerCount by
          simp [layersFrom], hclose, paddedLeaves_length]
        rfl } }

/-- With `TOTAL` at least 65 the payload has as many bytes (rule R156). -/
theorem Resting.enough (h : Resting p s) (hins : ¬ insufficient s = true) : minPiecePayload ≤ p.length := by
  have htotal : s.core.total.toNat = p.length := by rw [h.core]; exact streamCore_total h.fits
  rw [insufficient, decide_eq_true_iff, htotal] at hins
  omega

theorem execDigest_flowing (h : Resting p s) : Moves Flowing True (execDigest s) := by
  refine answered_moves (fun _ => h.reply _ _) fun _ => ?_
  split
  · exact h.reply _ _
  · next hins => exact moves_conclude.2 (finalize_flowing true h (h.enough hins))

theorem execSum_flowing (h : Resting p s) : Moves Flowing True (execSum s) := by
  refine answered_moves (fun _ => h.reply _ _) fun _ => ?_
  split
  · exact reply_flowing (s := enterFatal _ s) h.unfused h.fits h.job h.core _ _
  · next hins => exact moves_conclude.2 (finalize_flowing false h (h.enough hins))

theorem execReset_flowing (h : Resting p s) : Moves Flowing True (execReset s) :=
  answered_moves (fun _ => h.reply _ _) fun _ =>
    reply_flowing (p := []) (s := { s with core := Core.empty }) h.unfused (Nat.zero_le _) h.job streamCore_nil.symm _ _

theorem startExtend_flowing (clen : Arg) (h : Resting p s) : Flowing (startExtend clen s) := by
  have hsaved : some s.core = some (streamCore p) := congrArg some h.core
  unfold startExtend
  simp only
  split
  · exact Resting.flowing (p := p)
      ⟨h.unfused, h.fits, rfl, h.core, .inr ⟨hsaved, (fun hc => nomatch hc), fun hc => nomatch hc.1⟩⟩
  · exact Resting.flowing (p := p)
      ⟨h.unfused, h.fits, rfl, h.core, .inr ⟨hsaved, (fun hc => nomatch hc), fun hc => nomatch hc.1⟩⟩

theorem exec_flowing {bs : List Byte} {i : Instr} (hi : decodeBytes bs = .ok i) (h : Resting p s) :
    Moves Flowing True (exec i s) := by
  have answers (st : Status) (r : List Byte) : Moves Flowing True (if s.fatal then .next (fatalReply s) else .next (reply st r s)) :=
    answered_moves (fun _ => h.reply _ _) fun _ => h.reply st r
  exact exec_decoded_moves hi (fun len => execWrite_flowing len h) (execDigest_flowing h) (execSum_flowing h) (execReset_flowing h)
    (fun clen => moves_conclude.2 (feed_flowing (startExtend_flowing clen h))) (answers _ _) (answers _ _)

/-! ## Turns -/

/-- With nothing pending and `PHASE = CMD` no command is in progress. -/
theorem Flowing.idle (h : Flowing s) (hj : s.job = []) (hp : s.parser.phase = .cmd) :
    ∃ p, Resting p s ∧ s.parser.saved = none := by
  obtain ⟨p, h | h⟩ := h
  · obtain ⟨hs, -⟩ | ⟨-, hne, -⟩ := h.aside
    · exact ⟨p, h, hs⟩
    · exact absurd hp hne
  · obtain hfin | ⟨d, habs⟩ := h.aims
    · have := hfin.await
      rw [hj] at this
      cases this
    · rw [habs.phase] at hp
      cases hp

theorem seqStep_flowing (h : Flowing s) : Moves Flowing True (seqStep s) := by
  refine seqStep_moves (fun hj => ?_) (fun _ => h) (fun hj _ hp bs _ => ?_) (fun hj _ hp _ rest _ hi => ?_)
    (fun hj _ hp rest => ?_) (fun _ _ _ => feed_flowing h)
  · obtain ⟨p, hrun⟩ := h.pending hj
    exact trap_flowing hrun.unfused hrun.fits hrun.saved (runOps_flowing h)
  · obtain ⟨p, ⟨hunfused, hfits, hjob, hcore, -⟩, hs⟩ := h.idle hj hp
    exact Resting.flowing (p := p) ⟨hunfused, hfits, hjob, hcore, .inl ⟨hs, hp⟩⟩
  · obtain ⟨p, ⟨hunfused, hfits, hjob, hcore, -⟩, hs⟩ := h.idle hj hp
    exact exec_flowing (p := p) hi ⟨hunfused, hfits, hjob, hcore, .inl ⟨hs, hp⟩⟩
  · obtain ⟨p, ⟨hunfused, hfits, hjob, hcore, -⟩, hs⟩ := h.idle hj hp
    exact illegal_of_reply fun st r => reply_flowing (p := p) (s := taken rest s) hunfused hfits hjob hcore st r

/-- A layer agent's step, in whatever order, keeps what the tokens amount to (rules R140, R141). -/
theorem layerStep_flowing (l : Fin 32) (h : Flowing s) : Moves Flowing True (layerStep l s) := by
  have hsel : Flowing { s with sel := l } := h.frame rfl rfl rfl rfl
  have hunfused : s.params.fused = false := h.pipelineStreaming.1
  cases hstep : layerStep l s with
  | fault f => trivial
  | refused r => trivial
  | next t =>
    cases layerStep_turn hunfused hstep with
    | idle => exact h
    | frozen => exact hsel
    | holds => exact hsel
    | moves ls r hf hmove =>
      obtain ⟨p, hrest | hrun⟩ := h
      · obtain ⟨m, above, -, -, hm, -, hq, -⟩ := hmove.head
        exact absurd ((drained_iff _).1 hrest.drained m (List.mem_of_mem_drop (by rw [hm]; simp))) hq
      · have hpending (c : Core) : ({ s with core := c } : State).pendingTokens = s.pendingTokens := rfl
        refine Flowing.frame (s := { s with core := moved l.val ls r s.core }) (hrun.advance (job := s.job)
          (hmove.keeps_startedInOrder hrun.started) (hmove.closeIsLast hrun.started hrun.closeIsLast) hrun.shape id Iff.rfl
          ?_).flowing rfl rfl rfl rfl
        rw [outlook_eq_bind, outlook_eq_bind]
        show (moved l.val ls r s.core).settled.bind _ = _
        rw [hmove.core_settled hrun.started]
        rfl
    | fails htok =>
      obtain ⟨p, hrest | hrun⟩ := h
      · exact absurd (headToken_drained hrest.drained l) htok
      · exact internalFault_flowing (s := { s with sel := l }) hunfused hrun.fits hrun.saved

theorem runTurn_flowing (turn : Turn) (h : Flowing s) : Moves Flowing True (runTurn turn s) := by
  cases turn with
  | seq => exact seqStep_flowing h
  | layer l => exact layerStep_flowing l h
  | offer bytes => exact h.frame rfl rfl rfl rfl
  | take => exact h.frame (hostTake_core s) (hostTake_parser s) (hostTake_job s) (hostTake_params s)
  | rst =>
    exact Resting.flowing (p := []) ⟨h.pipelineStreaming.1, Nat.zero_le _, rfl, streamCore_nil.symm, .inl ⟨rfl, rfl⟩⟩
  | shaFail => exact h.frame rfl rfl rfl rfl

/-- Settles O59: turn by turn each step keeps the two kinds of `Flowing`; a published root leaves nothing on its way, so that it is
the commitment the tokens amounted to. -/
theorem pipelinedStepKeepsTheStream : Obligations.PipelinedStepKeepsTheStream := by
  constructor
  · intro s t hinv h hstep
    obtain ⟨ts, hts⟩ := nextTurn_snd s
    have hs1 : Flowing (nextTurn s).2 := by
      rw [hts]
      exact (flowing_of_inv hinv h).frame rfl rfl rfl rfl
    exact ((runTurn_flowing _ hs1).of_next (step_eq s ▸ hstep)).pipelineStreaming
  · intro s c r h hsaved hphase hroot
    obtain ⟨-, -, ⟨-, hnone⟩, p, -, h⟩ := h
    rw [hsaved, hphase] at h
    obtain ⟨rfl, -, -, ls, houtlook⟩ := h
    rw [outlook_of_inFlight_nil s (hnone (by rw [hroot]; exact fun h => nomatch h)), hroot] at houtlook
    obtain ⟨-, hr⟩ := Prod.mk.inj (Except.ok.inj houtlook)
    exact ⟨p, rfl, by rw [Option.some.inj hr]⟩

end Sys2Proof.ReducerProofs
end

section
/-! PROOFS. While a token is queued, the deepest layer that has one makes progress (rule R142; log entry 3). -/

namespace Sys2Proof.ReducerProofs

open Sys2Proof Sys2Proof.Machine Sys2Proof.Config Sys2Proof.StateProofs Sys2Proof.EncodingProofs

/-- No queue holds a token exactly if there is no deepest one. -/
theorem deepestReady_eq_none {i : Nat} {ls : List Layer} : deepestReady i ls = none ↔ ∀ l ∈ ls, l.q = [] := by
  induction ls generalizing i with
  | nil => simp [deepestReady]
  | cons l ls ih =>
    rw [deepestReady, List.forall_mem_cons, ← ih (i := i + 1)]
    cases deepestReady (i + 1) ls <;> simp

/-- The deepest layer with a token: its queue is not empty, those above are. -/
theorem deepestReady_eq_some {i j : Nat} {ls : List Layer} (h : deepestReady i ls = some j) :
    ∃ k l above, j = i + k ∧ ls.drop k = l :: above ∧ l.q ≠ [] ∧ ∀ m ∈ above, m.q = [] := by
  induction ls generalizing i with
  | nil => cases h
  | cons l ls ih =>
    rw [deepestReady] at h
    cases hdeep : deepestReady (i + 1) ls with
    | some j' =>
      rw [hdeep] at h
      cases h
      obtain ⟨k, m, above, rfl, hdrop, hm, habove⟩ := ih hdeep
      exact ⟨k + 1, m, above, by omega, hdrop, hm, habove⟩
    | none =>
      rw [hdeep] at h
      cases hq : l.q with
      | nil => simp [hq] at h
      | cons t ts =>
        simp only [hq, List.isEmpty_cons, Bool.false_eq_true, if_false, Option.some.injEq] at h
        exact ⟨0, l, ls, h.symm, rfl, by simp [hq], deepestReady_eq_none.1 hdeep⟩

/-- A step of an agent takes the token off its queue, or, if it only pads, the node out of its slot. -/
theorem AgentMove.ne {i : Nat} {ls ls' : List Layer} {r r' : Option Root} (h : AgentMove i ls r ls' r') : ls' ≠ ls := by
  intro heq
  cases h with
  | padOnly l m above r t ts left htag hslot hactive hi =>
    have hnone : none = l.slot := congrArg Layer.slot (List.cons.inj heq).1
    rw [hslot] at hnone
    cases hnone
  | _ => exact List.cons_ne_self _ _ (congrArg Layer.q (List.cons.inj heq).1).symm

/-- An empty queue has the room that the longest step of the layer below needs (rule R141). -/
theorem padRoom_le {d : Nat} (h : 1 ≤ d) : padRoom d ≤ d := by
  unfold padRoom
  split <;> omega

/-- The agent of the deepest layer with a token does not hold. -/
theorem deepest_turn_progress {l : Fin 32} {s t : State} {r : Layer} {above : List Layer} (hd : 1 ≤ s.params.fifoDepth)
    (hlayers : s.core.layers.drop l.val = r :: above) (hq : r.q ≠ []) (habove : ∀ m ∈ above, m.q = [])
    (h : AgentTurn l s t) : t.core ≠ s.core ∨ t.fatal = true := by
  have hget (k : Nat) : s.core.layers[l.val + k]? = (r :: above)[k]? := by rw [← hlayers, List.getElem?_drop]
  cases h with
  | idle hnone =>
    rw [headToken_eq (hget 0)] at hnone
    exact absurd (List.head?_eq_none_iff.1 hnone) hq
  | frozen hfatal => exact .inr hfatal
  | holds m hm hfull =>
    rw [habove m (List.mem_of_getElem? ((hget 1).symm.trans hm)), List.length_nil] at hfull
    have := padRoom_le hd
    omega
  | moves ls r' _ hmove =>
    refine .inl fun hcore => hmove.ne ?_
    have hsame : s.core.layers.take l.val ++ ls = s.core.layers := congrArg Core.layers hcore
    exact List.append_cancel_left (hsame.trans (List.take_append_drop l.val s.core.layers).symm)
  | fails => exact .inr (internalFault_fatal _)

/-- Settles O60: the default turn is the deepest agent's (`deepestReady_eq_some`), whose next queue is empty. -/
theorem queuedTokensMakeProgress : Obligations.QueuedTokensMakeProgress := by
  intro s hinv hfused hf hsched ⟨m, hm, hmq⟩
  have hd : 1 ≤ s.params.fifoDepth := by
    have := hinv.params
    simp only [Params.wf, Bool.and_eq_true, decide_eq_true_eq] at this
    omega
  cases hdeep : deepestReady 0 s.core.layers with
  | none => exact absurd (deepestReady_eq_none.1 hdeep m hm) hmq
  | some j =>
    obtain ⟨k, r, above, rfl, hdrop, hq, habove⟩ := deepestReady_eq_some hdeep
    rw [Nat.zero_add] at hdeep
    have hk : k < 32 := by
      have hlt : k < s.core.layers.length := List.length_lt_of_drop_ne_nil (by rw [hdrop]; exact List.cons_ne_nil _ _)
      obtain ⟨-, -, hlen, -⟩ := hinv.core
      rw [hlen] at hlt
      exact hlt
    have hturn : defaultTurn s = .layer ⟨k, hk⟩ := by simp [defaultTurn, hf, hdeep, hk]
    have hnext : nextTurn s = (.layer ⟨k, hk⟩, s) := by rw [nextTurn, hsched, hturn]
    refine ⟨⟨_, hturn⟩, fun t hstep => ?_⟩
    rw [step_of_nextTurn hnext] at hstep
    exact deepest_turn_progress (l := ⟨k, hk⟩) hd hdrop hq habove (layerStep_turn hfused hstep)

end Sys2Proof.ReducerProofs
end

section
/-! PROOFS. The sequencer's turn on a command that holds (rules R33, R142, R150, R155, R158, R162, R250). -/

namespace Sys2Proof.ReducerProofs

open Sys2Proof Sys2Proof.Machine Sys2Proof.Config Sys2Proof.StateProofs

variable {s s1 : State} {op : SeqOp} {ops : List SeqOp} {tok : Token} {l : Layer} {ls : List Layer}

/-! ## Queueing a token -/

/-- `s`, whose layers are `l :: ls`, after `toks` were queued for layer 0. -/
def queuedFor (l : Layer) (ls : List Layer) (toks : List Token) (s : State) : State :=
  { s with core := { s.core with layers := { l with q := l.q ++ toks } :: ls } }

/-- With `FUSED = 0` pushing a leaf and closing layer 0 queue a token (rules R152, R158). -/
theorem runOp_token (hfused : s.params.fused = false) (htok : op.token? = some tok) :
    runOp op s = steppedOrHeld s (s.core.enqueue s.params.fifoDepth 0 tok) := by
  have hf : ¬ s.params.fused = true := by simp [hfused]
  cases op with
  | push leaf => cases htok; rw [runOp_push, if_neg hf]
  | close => cases htok; rw [runOp_close, if_neg hf]
  | await sized => cases htok
  | writeDone => cases htok

theorem runOp_queues (hfused : s.params.fused = false) (htok : op.token? = some tok) (hlayers : s.core.layers = l :: ls)
    (hroom : l.q.length < s.params.fifoDepth) : runOp op s = .ok (some (queuedFor l ls [tok] s)) := by
  rw [runOp_token hfused htok, Core.enqueue, hlayers]
  simp [hroom, steppedOrHeld, Core.setLayer, hlayers, queuedFor]

theorem runOp_full (hfused : s.params.fused = false) (htok : op.token? = some tok) (hlayers : s.core.layers = l :: ls)
    (hfull : s.params.fifoDepth ≤ l.q.length) : runOp op s = .ok none := by
  rw [runOp_token hfused htok, Core.enqueue, hlayers]
  simp [Nat.not_lt.2 hfull, steppedOrHeld]

/-! ## Running actions -/

theorem runOps_cons_of_next {t : State} (h : runOp op s = .ok (some t)) : runOps (op :: ops) s = runOps ops t := by
  rw [runOps, h]

theorem runOps_cons_of_hold (h : runOp op s = .ok none) : runOps (op :: ops) s = .ok { s with job := op :: ops } := by
  rw [runOps, h]

/-- `s` with other actions pending. -/
def pending (job : List SeqOp) (s : State) : State := { s with job := job }

/-- An action does not look at what is pending after it. -/
theorem runOp_pending (job : List SeqOp) (op : SeqOp) (s : State) :
    runOp op (pending job s) = (runOp op s).map (Option.map (pending job)) := by
  have layerAction (fused : Bool) (r : Res Core) (r' : Res (Option Core)) :
      (if fused then stepped (pending job s) r else steppedOrHeld (pending job s) r') =
        (if fused then stepped s r else steppedOrHeld s r').map (Option.map (pending job)) := by
    match fused, r, r' with
    | true, .ok _, _ => rfl
    | true, .error _, _ => rfl
    | false, _, .ok none => rfl
    | false, _, .ok (some _) => rfl
    | false, _, .error _ => rfl
  cases op with
  | push leaf => exact layerAction _ _ _
  | close => exact layerAction _ _ _
  | await sized =>
    rw [runOp_await, runOp_await]
    show Except.ok (s.core.root.map _) = _
    cases s.core.root <;> rfl
  | writeDone =>
    have hempty : (pending job s).pipelineEmpty = s.pipelineEmpty := rfl
    have hanswer : answerWrite (pending job s) = (answerWrite s).map (pending job) := by
      have harg : (pending job s).arg = s.arg := rfl
      unfold answerWrite
      rw [harg]
      cases s.arg <;> rfl
    simp only [runOp, hempty, hanswer]
    cases s.pipelineEmpty with
    | false => rfl
    | true => cases answerWrite s <;> rfl

theorem runOps_pending (job ops : List SeqOp) (s : State) : runOps ops (pending job s) = runOps ops s := by
  induction ops generalizing s with
  | nil => rfl
  | cons op ops ih =>
    unfold runOps
    rw [runOp_pending]
    match runOp op s with
    | .error e => rfl
    | .ok none => rfl
    | .ok (some t) => exact ih t

/-- The sequencer's actions on queues raise no internal fault (rule R214). -/
theorem runOps_unfused_meets (hfused : s.params.fused = false) : Meets (fun _ => True) False True (runOps ops s) := by
  refine runOps_meets (R := fun _ t => t.params.fused = false) (fun _ _ => trivial) (fun op ops t ht => ?_) hfused
  have hf : ¬ t.params.fused = true := by simp [ht]
  have queues (tok : Token) : Meets (Acts True fun t => t.params.fused = false) False True
      (steppedOrHeld t (t.core.enqueue t.params.fifoDepth 0 tok)) := by
    refine steppedOrHeld_meets trivial (meets_true (fun x _ c _ => ht) fun he => ?_)
    unfold Core.enqueue at he
    split at he <;> cases he
  cases op with
  | push leaf =>
    rw [runOp_push, if_neg hf]
    exact queues _
  | close =>
    rw [runOp_close, if_neg hf]
    exact queues _
  | await sized =>
    rw [runOp_await]
    cases t.core.root with
    | none => trivial
    | some r => exact ht
  | writeDone =>
    cases hp : t.pipelineEmpty with
    | false =>
      rw [runOp_writeDone_holds hp]
      trivial
    | true =>
      refine runOp_writeDone_meets hp (meets_true (fun t' hanswer => ?_) fun he => ?_)
      · obtain ⟨c, -, rfl⟩ := answerWrite_ok hanswer
        exact ht
      · unfold answerWrite State.arg at he
        cases hc : t.parser.cmd <;> simp [hc] at he

/-- So it does not matter which state an internal fault would go back to. -/
theorem trap_runOps_unfused (hfused : s.params.fused = false) (a b : State) : trap a (runOps ops s) = trap b (runOps ops s) := by
  have h := runOps_unfused_meets (ops := ops) hfused
  match runOps ops s, h with
  | .ok t, _ => rfl
  | .error (.fault f), _ => rfl

/-! ## The turn -/

/-- The sequencer's turn goes on with the actions that are pending (rule R250). -/
theorem seqStep_resumes (h : s.job ≠ []) : seqStep s = conclude (trap s (runOps s.job s)) := by
  unfold seqStep
  rw [if_pos ((busy_eq_true s).2 h)]
  rfl

theorem seqStep_holds (hjob : s.job = op :: ops) (h : runOp op s = .ok none) : seqStep s = .next s := by
  rw [seqStep_resumes (by simp [hjob]), hjob, runOps_cons_of_hold h, ← hjob]
  rfl

/-- The last pending action ends the command. -/
theorem seqStep_ends {t : State} (hjob : s.job = [op]) (h : runOp op s = .ok (some t)) :
    seqStep s = .next { t with job := [] } := by
  rw [seqStep_resumes (by simp [hjob]), hjob, runOps_cons_of_next h]
  rfl

/-- A pending token that fits: the actions after it go on as they would in the state with that token queued. -/
theorem seqStep_queues (hfused : s.params.fused = false) (hjob : s.job = op :: ops) (hops : ops ≠ [])
    (htok : op.token? = some tok) (hlayers : s.core.layers = l :: ls) (hroom : l.q.length < s.params.fifoDepth) :
    seqStep s = seqStep (pending ops (queuedFor l ls [tok] s)) := by
  rw [seqStep_resumes (by simp [hjob]), hjob, runOps_cons_of_next (runOp_queues hfused htok hlayers hroom), seqStep_resumes hops]
  show _ = conclude (trap _ (runOps ops (pending ops _)))
  rw [runOps_pending, trap_runOps_unfused (s := queuedFor l ls [tok] s) hfused]

/-- Settles O18: the pending action holds (`seqStep_holds`), is the last (`seqStep_ends`), or is followed by others
(`seqStep_queues`). -/
theorem heldCommandGoesOn : Obligations.HeldCommandGoesOn := by
  intro s s1 hturn
  have hstep : step s = seqStep s1 := step_of_nextTurn hturn
  refine ⟨fun op tok ops l ls hfused hjob hlayers hop => ?_, fun sized hjob => ?_, fun c hjob hcmd => ?_⟩
  · have htok : op.token? = some tok := by
      obtain ⟨leaf, rfl, rfl⟩ | ⟨rfl, rfl⟩ := hop
      · rfl
      · rfl
    refine ⟨fun hfull => ?_, fun hroom hops => ?_, fun hroom hops => ?_⟩
    · rw [hstep, seqStep_holds hjob (runOp_full hfused htok hlayers hfull)]
    · subst hops
      rw [hstep, seqStep_ends hjob (runOp_queues hfused htok hlayers hroom)]
      rfl
    · rw [hstep, seqStep_queues hfused hjob hops htok hlayers hroom, step_of_nextTurn (nextTurn_cons rfl)]
      rfl
  · refine ⟨fun hroot => ?_, fun r hroot => ?_⟩
    · rw [hstep, seqStep_holds hjob (by rw [runOp_await, hroot]; rfl)]
    · rw [hstep, seqStep_ends (t := answerRoot sized r s1) hjob (by rw [runOp_await, hroot]; rfl), answerRoot_eq]
  · refine ⟨fun hqueued => ?_, fun hempty => ?_⟩
    · rw [hstep, seqStep_holds hjob (runOp_writeDone_holds hqueued)]
    · have hanswer : answerWrite s1 = .ok (reply .ok (le64 (zext64 c.arg))
          { s1 with core := { s1.core with total := s1.core.total + zext64 c.arg } }) := by
        simp [answerWrite, State.arg, hcmd]
      rw [hstep, seqStep_ends hjob (by rw [runOp, if_pos hempty, hanswer])]
      rfl

end Sys2Proof.ReducerProofs
end

section
/-! PROOFS. WRITE with `FUSED = 0` up to a quad that finds `Q[0]` full (rules R142, R152, R250). -/

namespace Sys2Proof.ReducerProofs

open Sys2Proof Sys2Proof.Machine Sys2Proof.Config Sys2Proof.StateProofs Sys2Proof.MemoryProofs Sys2Proof.EncodingProofs

variable {s : State} {len : Arg} {c : Core} {l : Layer} {ls : List Layer}

/-! ## Pushing leaves into a queue -/

theorem queuedFor_nil (hlayers : s.core.layers = l :: ls) : queuedFor l ls [] s = s := by
  rw [queuedFor, List.append_nil, ← hlayers]

/-- Leaves that fit are queued in order (rule R152). -/
theorem runOps_pushes_fit {leaves : List Node} (hfused : s.params.fused = false) (hlayers : s.core.layers = l :: ls)
    (hroom : leaves.length ≤ s.params.fifoDepth - l.q.length) :
    runOps (leaves.map SeqOp.push) s = .ok (pending [] (queuedFor l ls (leaves.map nodeToken) s)) := by
  induction leaves generalizing s l with
  | nil => rw [List.map_nil, List.map_nil, queuedFor_nil hlayers]; rfl
  | cons leaf leaves ih =>
    rw [List.length_cons] at hroom
    have hrest := ih (s := queuedFor l ls [nodeToken leaf] s) (l := { l with q := l.q ++ [nodeToken leaf] }) hfused rfl (by
      show leaves.length ≤ s.params.fifoDepth - (l.q ++ [nodeToken leaf]).length
      rw [List.length_append, List.length_singleton]
      omega)
    rw [List.map_cons, runOps_cons_of_next (runOp_queues hfused rfl hlayers (by omega)), hrest]
    simp [queuedFor]

/-- Of leaves that do not all fit, those that do are queued, and the others are left with the actions after them (rules R142,
R250). -/
theorem runOps_pushes_full {leaves : List Node} {ops : List SeqOp} {room : Nat} (hfused : s.params.fused = false)
    (hlayers : s.core.layers = l :: ls) (hroom : room = s.params.fifoDepth - l.q.length) (hfull : room < leaves.length) :
    runOps (leaves.map SeqOp.push ++ ops) s = .ok (pending ((leaves.drop room).map SeqOp.push ++ ops)
      (queuedFor l ls ((leaves.take room).map nodeToken) s)) := by
  induction leaves generalizing s l room with
  | nil => exact absurd hfull (Nat.not_lt_zero _)
  | cons leaf leaves ih =>
    rw [List.map_cons, List.cons_append]
    cases room with
    | zero =>
      rw [runOps_cons_of_hold (runOp_full hfused rfl hlayers (by omega)), List.take_zero, List.map_nil, queuedFor_nil hlayers]
      rfl
    | succ room =>
      rw [List.length_cons] at hfull
      have hrest := ih (s := queuedFor l ls [nodeToken leaf] s) (l := { l with q := l.q ++ [nodeToken leaf] }) (room := room)
        hfused rfl (by
          show room = s.params.fifoDepth - (l.q ++ [nodeToken leaf]).length
          rw [List.length_append, List.length_singleton]
          omega) (by omega)
      rw [runOps_cons_of_next (runOp_queues hfused rfl hlayers (by omega)), hrest]
      simp [queuedFor]

/-! ## The accumulator between two bytes -/

/-- The leaves of the whole quads of `w`. -/
def wholeLeaves (w : List Byte) : List Node := quadLeaves (w.length / 127) w

theorem wholeLeaves_length (w : List Byte) : (wholeLeaves w).length = 4 * (w.length / 127) := quadLeaves_length _ _

/-- `c` with the residue of the bytes `w` in its carry buffer, and the layers `ls`. -/
def carrying (w : List Byte) (ls : List Layer) (c : Core) : Core :=
  { c with carry := (streamCore w).carry, clen := w.length % 127, layers := ls }

/-- The carry buffer's bytes are a residue (rules R22, R24). -/
theorem carrying_self (h : c.CarryOk) (ls : List Layer) :
    carrying (c.carry.map Prod.snd) ls c = { c with layers := ls } ∧ wholeLeaves (c.carry.map Prod.snd) = [] := by
  obtain ⟨hcarry, hclen⟩ := h
  have hlength : (c.carry.map Prod.snd).length = c.clen := by simpa using congrArg List.length hcarry
  have hquads : (c.carry.map Prod.snd).length / 127 = 0 := by rw [hlength]; exact Nat.div_eq_of_lt hclen
  have hresidue : (c.carry.map Prod.snd).length % 127 = c.clen := by rw [hlength]; exact Nat.mod_eq_of_lt hclen
  refine ⟨?_, by rw [wholeLeaves, hquads]; rfl⟩
  have hzip : (streamCore (c.carry.map Prod.snd)).carry = c.carry := by
    show (List.range _).zip (List.drop (127 * _) _) = _
    rw [hquads, hresidue, Nat.mul_zero, List.drop_zero, ← hcarry]
    exact (List.zip_of_prod rfl rfl).symm
  rw [carrying, hzip, hresidue]

/-- Whole quads leave an empty carry buffer. -/
theorem carrying_whole {w : List Byte} (h : w.length % 127 = 0) (ls : List Layer) (c : Core) :
    carrying w ls c = { c.clearCarry with layers := ls } := by
  have hempty : (streamCore w).carry = [] := by
    have := streamCore_carry_fst w
    rw [h] at this
    simpa using this
  rw [carrying, hempty, h]
  rfl

/-- ABSORB of one more byte: the leaves it hands over are those of the quad it completes, if it does (rule R152). -/
theorem absorb_carrying (w : List Byte) (b : Byte) (ls : List Layer) (c : Core) :
    ∃ leaves, (carrying w ls c).absorb b = .ok (carrying (w ++ [b]) ls c, leaves) ∧
      wholeLeaves (w ++ [b]) = wholeLeaves w ++ leaves := by
  have hok : (carrying w ls c).CarryOk := streamCore_carryOk w
  have hlen : (w ++ [b]).length = w.length + 1 := by simp
  have hle : 127 * (w.length / 127) ≤ w.length := by omega
  by_cases hq : w.length % 127 + 1 = 127
  · have hdiv : (w.length + 1) / 127 = w.length / 127 + 1 := by omega
    have hmod : (w.length + 1) % 127 = 0 := by omega
    refine ⟨expandLeaves (w.drop (127 * (w.length / 127)) ++ [b]), ?_, ?_⟩
    · have hsnd : (carrying w ls c).carry.map Prod.snd = _ := streamCore_carry_snd w
      rw [absorb_completes hok b hq, hsnd, carrying_whole (w := w ++ [b]) (by rw [hlen, hmod])]
      rfl
    · rw [wholeLeaves, wholeLeaves, hlen, hdiv, quadLeaves_succ, quadLeaves_append [b] hle, List.drop_append_of_le_length hle,
        List.take_of_length_le (by rw [List.length_append, streamCarry_length, List.length_singleton]; omega)]
  · have hdiv : (w.length + 1) / 127 = w.length / 127 := by omega
    have hmod : (w.length + 1) % 127 = w.length % 127 + 1 := by omega
    refine ⟨[], ?_, by rw [wholeLeaves, wholeLeaves, hlen, hdiv, quadLeaves_append [b] hle, List.append_nil]⟩
    have hcarry : (streamCore (w ++ [b])).carry = (streamCore w).carry ++ [(w.length % 127, b)] := by
      show (List.range ((w ++ [b]).length % 127)).zip ((w ++ [b]).drop (127 * ((w ++ [b]).length / 127))) = _
      rw [hlen, hdiv, hmod, List.range_succ, List.drop_append_of_le_length hle,
        List.zip_append (by rw [streamCarry_length, List.length_range])]
      rfl
    rw [absorb_buffers hok b hq, carrying, carrying, hcarry, hlen, hmod]

/-- Layer 0 of a WRITE that has queued the leaves of the bytes `w`. -/
def filledLayer (l : Layer) (w : List Byte) : Layer := { l with active := true, q := l.q ++ (wholeLeaves w).map nodeToken }

/-- The accumulator of a pipelined WRITE that began with the layers `l :: ls`: `w` are the bytes of the carry buffer it began
with and of its payload so far (rules R150, R152). -/
def filling (l : Layer) (ls : List Layer) (c : Core) (w : List Byte) : Core := carrying w (filledLayer l w :: ls) c

/-- The same, from the bytes `d` of the payload. -/
def filledBy (l : Layer) (ls : List Layer) (c : Core) (d : List Byte) : Core := filling l ls c (c.carry.map Prod.snd ++ d)

theorem startLayer0_filledBy (h : c.CarryOk) (hlayers : c.layers = l :: ls) : c.startLayer0 = filledBy l ls c [] := by
  obtain ⟨hself, hnone⟩ := carrying_self h (filledLayer l (c.carry.map Prod.snd) :: ls)
  rw [filledBy, List.append_nil, filling, hself, filledLayer, hnone, List.map_nil, List.append_nil, Core.startLayer0, hlayers]

/-- The WRITE of `len` that began in `s`, `n` of its bytes in: of the leaves of the bytes `w` the first `room` are queued, and the
others are pending, with the end of the WRITE if its payload is complete (rules R142, R250). -/
def holding (s : State) (len : Arg) (l : Layer) (ls : List Layer) (n room : Nat) (w : List Byte) : State :=
  pending
    (((wholeLeaves w).drop room).map SeqOp.push ++ (if len - BitVec.ofNat 56 n = 0#56 then [SeqOp.writeDone] else []))
    (absorbing s len n
      (carrying w ({ l with active := true, q := l.q ++ ((wholeLeaves w).take room).map nodeToken } :: ls) s.core))

theorem holding_busy {n room : Nat} {w : List Byte} (h : room < (wholeLeaves w).length) :
    (holding s len l ls n room w).busy = true := by
  rw [busy_eq_true]
  refine List.append_ne_nil_of_left_ne_nil (fun hnil => ?_) _
  rw [List.map_eq_nil_iff, List.drop_eq_nil_iff] at hnil
  omega

/-- Queueing more leaves for layer 0. -/
theorem queuedFor_absorbing {n : Nat} {w w' : List Byte} {leaves toks : List Node} (h : toks = wholeLeaves w ++ leaves) :
    queuedFor (filledLayer l w) ls (leaves.map nodeToken) (absorbing s len n (carrying w' (filledLayer l w :: ls) c)) =
      absorbing s len n (carrying w' ({ l with active := true, q := l.q ++ toks.map nodeToken } :: ls) c) := by
  rw [h, List.map_append, ← List.append_assoc]
  rfl

/-! ## A byte of the WRITE -/

/-- A byte of a pipelined WRITE that is not its last and whose leaves fit (rules R74, R152). -/
theorem payloadByte_fits {n : Nat} {w : List Byte} (b : Byte) (hfused : s.params.fused = false) (hn : n + 1 < len.toNat)
    (hroom : (wholeLeaves (w ++ [b])).length ≤ s.params.fifoDepth - l.q.length) :
    payloadByte b (absorbing s len n (filling l ls s.core w)) =
      .ok (absorbing s len (n + 1) (filling l ls s.core (w ++ [b]))) := by
  obtain ⟨leaves, habsorb, hleaves⟩ := absorb_carrying w b (filledLayer l w :: ls) s.core
  refine payloadByte_absorbing b hn habsorb ?_
  rw [runOps_pushes_fit (s := absorbing s len (n + 1) _) (l := filledLayer l w) hfused rfl, queuedFor_absorbing hleaves]
  · rfl
  · show leaves.length ≤ s.params.fifoDepth - (l.q ++ (wholeLeaves w).map nodeToken).length
    rw [hleaves, List.length_append] at hroom
    rw [List.length_append, List.length_map]
    omega

/-- A byte of a pipelined WRITE whose leaves do not all fit: it holds (rules R142, R152, R250). -/
theorem payloadByte_full {n room : Nat} {w : List Byte} (b : Byte) (hfused : s.params.fused = false)
    (hroom : room = s.params.fifoDepth - l.q.length) (hfits : (wholeLeaves w).length ≤ room)
    (hfull : room < (wholeLeaves (w ++ [b])).length) :
    payloadByte b (absorbing s len n (filling l ls s.core w)) = .ok (holding s len l ls (n + 1) room (w ++ [b])) := by
  obtain ⟨leaves, habsorb, hleaves⟩ := absorb_carrying w b (filledLayer l w :: ls) s.core
  have hrem : (absorbing s len n (filling l ls s.core w)).parser.rem - 1#56 = len - BitVec.ofNat 56 (n + 1) := rem_succ len n
  have hcount : ({ countDown (absorbing s len n (filling l ls s.core w)) with
      core := carrying (w ++ [b]) (filledLayer l w :: ls) s.core } : State) =
      absorbing s len (n + 1) (carrying (w ++ [b]) (filledLayer l w :: ls) s.core) := by
    rw [countDown, hrem]
    rfl
  have hcore : (absorbing s len n (filling l ls s.core w)).core = carrying w (filledLayer l w :: ls) s.core := rfl
  have hleft : room - (wholeLeaves w).length = s.params.fifoDepth - (l.q ++ (wholeLeaves w).map nodeToken).length := by
    rw [List.length_append, List.length_map]
    omega
  have hdrop : (wholeLeaves (w ++ [b])).drop room = leaves.drop (room - (wholeLeaves w).length) := by
    rw [hleaves, List.drop_append, List.drop_eq_nil_of_le hfits, List.nil_append]
  have htake : (wholeLeaves (w ++ [b])).take room = wholeLeaves w ++ leaves.take (room - (wholeLeaves w).length) := by
    rw [hleaves, List.take_append, List.take_of_length_le hfits]
  rw [hleaves, List.length_append] at hfull
  rw [payloadByte_absorbed b rfl, hcore, habsorb]
  simp only
  rw [hcount, hrem, payloadJob,
    runOps_pushes_full (s := absorbing s len (n + 1) _) (l := filledLayer l w) hfused rfl hleft (by omega), trap_of_ok, queuedFor_absorbing htake, holding, hdrop]
  simp only [beq_iff_eq]

/-! ## The command -/

/-- WRITE up to the first byte whose leaves do not all fit (rules R74, R142, R250). -/
theorem exec_write_full {w init rest : List Byte} {b : Byte} {room : Nat} (hf : s.fatal = false) (hfused : s.params.fused = false)
    (hcarry : s.core.CarryOk) (hfits : s.core.total.toNat + len.toNat ≤ maxPiecePayload) (hlayers : s.core.layers = l :: ls)
    (hinput : s.input = init ++ b :: rest) (hlen : init.length + 1 ≤ len.toNat) (hw : w = s.core.carry.map Prod.snd ++ init)
    (hroom : room = s.params.fifoDepth - l.q.length) (hqueued : (wholeLeaves w).length ≤ room)
    (hfull : room < (wholeLeaves (w ++ [b])).length) :
    exec (.write len) s = .next { holding s len l ls (init.length + 1) room (w ++ [b]) with input := rest } := by
  have hne : len ≠ 0#56 := by
    rintro rfl
    exact absurd hlen (by simp)
  have hcore : filledBy l ls s.core init = filling l ls s.core w := by rw [filledBy, hw]
  have hbyte (d : List Byte) (x : Byte) (hd : d.length < init.length) :
      payloadByte x (absorbing s len d.length (filledBy l ls s.core d)) =
        .ok (absorbing s len (d.length + 1) (filledBy l ls s.core (d ++ [x]))) := by
    have hnext := payloadByte_fits (ls := ls) (n := d.length) (w := s.core.carry.map Prod.snd ++ d) x hfused
      (show d.length + 1 < len.toNat by omega) (show _ ≤ s.params.fifoDepth - l.q.length by
        refine le_trans ?_ (hroom ▸ hqueued)
        rw [wholeLeaves_length, wholeLeaves_length, hw]
        simp only [List.length_append, List.length_singleton]
        omega)
    rw [List.append_assoc] at hnext
    exact hnext
  have hinit : feed init (absorbing s len 0 (filledBy l ls s.core [])) =
      .ok (offering [] (absorbing s len init.length (filledBy l ls s.core init))) :=
    feed_absorbing hbyte init [] (by simp)
  have hlast : operandByte b (absorbing s len init.length (filledBy l ls s.core init)) =
      .ok (holding s len l ls (init.length + 1) room (w ++ [b])) := by
    rw [hcore]
    exact payloadByte_full b hfused hroom hqueued hfull
  have hbusy : (holding s len l ls (init.length + 1) room (w ++ [b])).wantsOperand = false := by
    rw [State.wantsOperand, holding_busy hfull, Bool.not_true, Bool.and_false]
  have hfeed := calc feed (init ++ b :: rest) (absorbing s len 0 (filledBy l ls s.core []))
    _ = feed (b :: rest) (offering [] (absorbing s len init.length (filledBy l ls s.core init))) :=
      operandBytesMayComeInPieces init _ _ _ hinit
    _ = feed (b :: rest) (absorbing s len init.length (filledBy l ls s.core init)) := feed_offering [] _ _
    _ = feed rest (holding s len l ls (init.length + 1) room (w ++ [b])) := feed_cons_of_ok rfl hlast rest
    _ = .ok { holding s len l ls (init.length + 1) room (w ++ [b]) with input := rest } := feed_idle hbusy rest
  show execWrite len s = _
  unfold execWrite
  simp only
  rw [if_neg hne, startWrite_eq_absorbing hf hfits hne, startLayer0_filledBy hcarry hlayers]
  show conclude (feed s.input _) = _
  rw [hinput, hfeed]
  rfl

/-- `REM` is 0 after the last byte of the payload. -/
theorem rem_eq_zero_iff {n : Nat} (h : n ≤ len.toNat) : len - BitVec.ofNat 56 n = 0#56 ↔ n = len.toNat := by
  refine ⟨fun hrem => ?_, fun hn => ?_⟩
  · by_contra hne
    exact rem_ne_zero (by omega) hrem
  · rw [hn, BitVec.ofNat_toNat, BitVec.setWidth_eq, BitVec.sub_self]

/-- Settles O17: the bytes before the quad's last leave room (`payloadByte_fits`), the last does not (`payloadByte_full`), and the
bytes after it stay on offer (`exec_write_full`). -/
theorem pipelinedWriteHoldsAtAFullQueue : Obligations.PipelinedWriteHoldsAtAFullQueue := by
  intro s d rest w len n room l ls hf hfused hcarry hfits hlayers hinput hdlen hw hwlen hroom hmin hmax
  have hresidue : (s.core.carry.map Prod.snd).length < 127 := by
    obtain ⟨hfst, hclen⟩ := hcarry
    rw [List.length_map, show s.core.carry.length = s.core.clen by simpa using congrArg List.length hfst]
    exact hclen
  obtain rfl | ⟨init, b, hd⟩ := d.eq_nil_or_concat'
  · rw [List.append_nil] at hw
    rw [hw] at hwlen
    omega
  have hdlength : d.length = init.length + 1 := by simp [hd]
  rw [hd, ← List.append_assoc] at hw
  rw [hd, List.append_assoc, List.singleton_append] at hinput
  have hlength := congrArg List.length hw
  rw [List.length_append, List.length_singleton] at hlength
  have hquads : w.length / 127 = n + 1 := by omega
  have hfull : room < (wholeLeaves w).length := by rw [wholeLeaves_length]; omega
  have hexec := exec_write_full (b := b) hf hfused hcarry hfits hlayers hinput (by omega) rfl hroom
    (by rw [wholeLeaves_length]; omega) (hw ▸ hfull)
  rw [← hw, ← hdlength] at hexec
  have hwhole : wholeLeaves w = quadLeaves (n + 1) w := by rw [wholeLeaves, hquads]
  have hmod : w.length % 127 = 0 := by omega
  refine ⟨_, hexec, holding_busy (s := s) (l := l) (ls := ls) hfull, ?_⟩
  rw [holding, carrying_whole hmod, hwhole]
  simp only [rem_eq_zero_iff hdlen]
  rfl

end Sys2Proof.ReducerProofs
end

section
/-! PROOFS. The commands that end at once, and illegal command words (rules R79, R156, R164, R166, R167, R170, R172). -/

namespace Sys2Proof.AccumulatorProofs

open Sys2Proof Sys2Proof.Machine Sys2Proof.Config Sys2Proof.StateProofs Sys2Proof.EncodingProofs

variable {s : State}

/-- The sequencer answers a command word that does not decode (rule R172). -/
theorem seqStep_rejects {t : State} {bytes : List Byte} {e : DecodeError} (hj : s.job = [])
    (hr : s.rspq.length < s.params.rspqDepth) (hp : s.parser.phase = .cmd) (h : fetch s = .word bytes t)
    (he : decodeBytes bytes = .error e) : seqStep s = .next (illegal t) := by
  unfold seqStep
  rw [if_neg (by simp [hj]), if_neg (by simp [hr]), if_pos hp, h]
  simp only [he]

/-- The answer to an illegal command word, FATAL first (rules R172, R215, R216). -/
theorem illegal_eq (s : State) :
    illegal s = { s with
      parser := s.parser.next, rspq := s.rspq ++ [if s.fatal then [0x09#8, s.fatalCause] else [0x08#8]] } := by
  unfold illegal
  split
  · rfl
  · rfl

/-- Settles O7: the word is assembled (`fetch_word`), rejected (`seqStep_rejects`) and answered (`illegal_eq`). -/
theorem stepAnswersAnIllegalWord : Obligations.StepAnswersAnIllegalWord := by
  intro s s1 e hturn hj hr hp hcw hlen he
  have hstep : step s = seqStep s1 := step_of_nextTurn hturn
  rw [hstep, seqStep_rejects hj hr hp (fetch_word hcw hlen) he, illegal_eq]
  rfl

/-- A command without operand bytes that is not under FATAL (rule R215). -/
theorem answered_of_not_fatal (hf : s.fatal = false) (r : Result) : (if s.fatal then .next (fatalReply s) else r) = r :=
  if_neg (by simp [hf])

/-- `TOTAL` below `MinPiecePayload` (rule R156). -/
theorem insufficient_eq_true : insufficient s = true ↔ s.core.total.toNat < minPiecePayload := by simp [insufficient]

/-- Settles O21: DIGEST answers before it begins. -/
theorem digestOfTooLittleInputKeepsTheState : Obligations.DigestOfTooLittleInputKeepsTheState := by
  intro s hf hless
  show execDigest s = _
  unfold execDigest
  rw [answered_of_not_fatal hf, if_pos (insufficient_eq_true.2 hless)]
  rfl

/-- Settles O22: SUM enters FATAL before it begins. -/
theorem sumOfTooLittleInputIsFatal : Obligations.SumOfTooLittleInputIsFatal := by
  intro s hf hless
  show execSum s = _
  unfold execSum
  rw [answered_of_not_fatal hf, if_pos (insufficient_eq_true.2 hless)]
  rfl

/-- Settles O25: RESET puts back `Core.empty`, and under FATAL only answers. -/
theorem resetEmptiesTheAccumulator : Obligations.ResetEmptiesTheAccumulator := by
  refine fun s => ⟨fun hf => answered_of_not_fatal hf _, fun hf => ?_⟩
  show execReset s = _
  unfold execReset
  rw [if_pos hf]
  rfl

/-- The 8 bytes of a constant below 256 (rule R10). -/
theorem le64_constants : le64 (BitVec.ofNat 64 blockSize) = [0x7f#8, 0#8, 0#8, 0#8, 0#8, 0#8, 0#8, 0#8] ∧
    le64 (BitVec.ofNat 64 digestSize) = [0x20#8, 0#8, 0#8, 0#8, 0#8, 0#8, 0#8, 0#8] := by decide

/-- Settles O26: the two constants byte by byte (`le64_constants`). -/
theorem sizeQueriesAnswerTheConstants : Obligations.SizeQueriesAnswerTheConstants := by
  intro s hf
  obtain ⟨hblock, hdigest⟩ := le64_constants
  rw [← hblock, ← hdigest]
  exact ⟨answered_of_not_fatal hf _, answered_of_not_fatal hf _⟩

end Sys2Proof.AccumulatorProofs
end

section
/-! PROOFS. `PADDED_SIZE`, the padding of FINALIZE and the commitment of zero bytes (rules R10, R131, R157, R158, R160, R192). -/

namespace Sys2Proof.AccumulatorProofs

open Sys2Proof Sys2Proof.Machine Sys2Proof.Config Sys2Proof.StateProofs Sys2Proof.EncodingProofs Sys2Proof.ReducerProofs

/-! ## The least power of two -/

/-- `next_pow2` is the power of two whose exponent is the height of a tree over as many leaves (rules R10, R131). -/
theorem nextPow2_eq (v : Nat) : nextPow2 v = 2 ^ treeHeight v := by
  unfold treeHeight nextPow2
  split
  · next h => exact h.symm
  · rw [Nat.log2_two_pow]

/-- A power of two at or above `n` is at or above the least one. -/
theorem treeHeight_le {n k : Nat} (hn : n ≠ 0) (h : n ≤ 2 ^ k) : treeHeight n ≤ k := by
  have hlt := (pow_treeHeight hn).2
  have hpow : 2 ^ treeHeight n < 2 ^ (k + 1) := by rw [pow_succ]; omega
  exact Nat.le_of_lt_succ ((Nat.pow_lt_pow_iff_right (by decide)).1 hpow)

/-- The tree over `2^k * n` leaves is `k` levels higher than that over `n`. -/
theorem treeHeight_pow_mul {n : Nat} (k : Nat) (hn : n ≠ 0) : treeHeight (2 ^ k * n) = k + treeHeight n := by
  have hpos := Nat.two_pow_pos k
  have hne : 2 ^ k * n ≠ 0 := Nat.mul_ne_zero (Nat.ne_of_gt hpos) hn
  obtain ⟨hle, -⟩ := pow_treeHeight hn
  obtain ⟨hle', -⟩ := pow_treeHeight hne
  have hupper : treeHeight (2 ^ k * n) ≤ k + treeHeight n :=
    treeHeight_le hne (by rw [pow_add]; exact Nat.mul_le_mul_left _ hle)
  have hk : k ≤ treeHeight (2 ^ k * n) := by
    refine (Nat.pow_le_pow_iff_right (a := 2) (by decide)).1 (le_trans ?_ hle')
    exact Nat.le_mul_of_pos_right _ (Nat.pos_of_ne_zero hn)
  obtain ⟨j, hj⟩ := Nat.exists_eq_add_of_le hk
  rw [hj] at hle' hupper ⊢
  rw [pow_add] at hle'
  have hlower := treeHeight_le hn (Nat.le_of_mul_le_mul_left hle' hpos)
  omega

/-- A payload that DIGEST accepts has between 1 and `2^29` quads (rule R6). -/
theorem ceilDiv_bounds {n : Nat} (hmin : minPiecePayload ≤ n) (hmax : n ≤ maxPiecePayload) :
    ceilDiv n 127 ≠ 0 ∧ ceilDiv n 127 ≤ 2 ^ 29 := by
  unfold minPiecePayload at hmin
  unfold maxPiecePayload at hmax
  unfold ceilDiv
  omega

/-- `PADDED_SIZE` in closed form: a quad has four leaves of 32 bytes (rules R105, R157). -/
theorem paddedSize_toNat {n : Nat} (hmin : minPiecePayload ≤ n) (hmax : n ≤ maxPiecePayload) :
    (paddedSize (BitVec.ofNat 64 n)).toNat = 2 ^ treeHeight (ceilDiv n 127 * 128) ∧
      treeHeight (ceilDiv n 127 * 128) ≤ 36 := by
  obtain ⟨hpos, hle⟩ := ceilDiv_bounds hmin hmax
  have hheight : treeHeight (ceilDiv n 127 * 128) ≤ 36 := treeHeight_le (by omega) (by omega)
  have hfits : 2 ^ treeHeight (ceilDiv n 127 * 128) < 2 ^ 64 := Nat.pow_lt_pow_right (by decide) (by omega)
  have hn : (BitVec.ofNat 64 n).toNat = n := by
    unfold maxPiecePayload at hmax
    rw [BitVec.toNat_ofNat, Nat.mod_eq_of_lt (by omega)]
  refine ⟨?_, hheight⟩
  rw [paddedSize, hn, nextPow2_eq, BitVec.toNat_ofNat, Nat.mod_eq_of_lt hfits]

/-- Settles O24: the exponent is the height of the tree (`paddedSize_toNat`), the least one (`treeHeight_le`). -/
theorem paddedSizeIsTheLeastPowerOfTwo : Obligations.PaddedSizeIsTheLeastPowerOfTwo := by
  intro n hmin hmax raw
  obtain ⟨hpos, -⟩ := ceilDiv_bounds hmin hmax
  obtain ⟨hsize, hheight⟩ := paddedSize_toNat hmin hmax
  rw [BitVec.ofNat_toNat, BitVec.setWidth_eq] at hsize
  have hraw : raw = ceilDiv n.toNat 127 * 128 := rfl
  have hne : raw ≠ 0 := by omega
  have hleast : raw ≤ 2 ^ treeHeight raw := (pow_treeHeight hne).1
  rw [hsize, ← hraw]
  refine ⟨⟨_, rfl⟩, hleast, fun k hk => ?_, by omega, ?_⟩
  · exact Nat.pow_le_pow_right (by decide) (treeHeight_le hne hk)
  · exact Nat.pow_le_pow_right (by decide) hheight

/-! ## Zero bytes -/

/-- A quad of zero bytes has four zero leaves (rule R101). -/
theorem expandLeaves_zero : expandLeaves (List.replicate 127 0#8) = zeros 4 := by decide

theorem quadLeaves_zero (q : Nat) : ∀ m, 127 * q ≤ m → quadLeaves q (List.replicate m 0#8) = zeros (4 * q) := by
  intro m hm
  induction q with
  | zero => rfl
  | succ q ih =>
    rw [quadLeaves_succ, ih (by omega), List.drop_replicate, List.take_replicate,
      Nat.min_eq_left (by omega), expandLeaves_zero, zeros, zeros, List.replicate_append_replicate]
    rfl

/-- The leaves of a payload of zero bytes (rule R160 (a)). -/
theorem paddedLeaves_zero (n : Nat) : paddedLeaves (List.replicate n 0#8) = zeros (4 * ceilDiv n 127) := by
  rw [paddedLeaves, List.length_replicate, List.replicate_append_replicate]
  exact quadLeaves_zero _ _ (by omega)

/-- Zero leaves have a tower entry for their root (rule R192). -/
theorem paddedRoot_zeros {n : Nat} (hn : n ≠ 0) : paddedRoot (zeros n) = tower (treeHeight n) := by
  have hle := (pow_treeHeight hn).1
  rw [paddedRoot, List.length_replicate, List.replicate_append_replicate, Nat.add_sub_cancel' hle]
  exact merkleRoot_zeros _

/-- Settles O39: the root of the zero leaves (`paddedRoot_zeros`), at the height that `PADDED_SIZE` gives. -/
theorem zeroPayloadCommitsToATowerEntry : Obligations.ZeroPayloadCommitsToATowerEntry := by
  intro n hmin hmax
  obtain ⟨hpos, -⟩ := ceilDiv_bounds hmin hmax
  have hne : 4 * ceilDiv n 127 ≠ 0 := by omega
  have hheight : treeHeight (ceilDiv n 127 * 128) = 5 + treeHeight (4 * ceilDiv n 127) := by
    rw [← treeHeight_pow_mul 5 hne]
    congr 1
    omega
  have hdiv : 2 ^ (5 + treeHeight (4 * ceilDiv n 127)) / 32 = 2 ^ treeHeight (4 * ceilDiv n 127) := by
    rw [pow_add]
    exact Nat.mul_div_cancel_left _ (by decide)
  rw [commP, paddedLeaves_zero, paddedRoot_zeros hne, (paddedSize_toNat hmin hmax).1, hheight, hdiv, Nat.log2_two_pow]

end Sys2Proof.AccumulatorProofs
end

section
/-! PROOFS. WRITE with its whole payload on offer (rules R74, R150 to R154). -/

namespace Sys2Proof.AccumulatorProofs

open Sys2Proof Sys2Proof.Machine Sys2Proof.Config Sys2Proof.StateProofs Sys2Proof.MemoryProofs Sys2Proof.EncodingProofs
open Sys2Proof.ReducerProofs

variable {s : State} {len : Arg} {c c' : Core} {bs d rest : List Byte}

/-! ## Bytes that a WRITE absorbs -/

/-- In a block with the parameters and the engine of `s` the payload byte `b` takes the accumulator of a WRITE from `c` to `c'`: it
is absorbed, and the leaves of the quad it completes are all pushed (rule R152). -/
def TakesByte (s : State) (b : Byte) (c c' : Core) : Prop :=
  ∃ c1 leaves, c.absorb b = .ok (c1, leaves) ∧
    ∀ u : State, u.params = s.params → u.shaOk = s.shaOk →
      runOps (leaves.map SeqOp.push) { u with core := c1 } = .ok { u with core := c', job := [] }

/-- The same for the bytes of a list, in order. -/
inductive TakesBytes (s : State) : List Byte → Core → Core → Prop
  | nil (c : Core) : TakesBytes s [] c c
  | cons {b : Byte} {bs : List Byte} {c c1 c' : Core} :
      TakesByte s b c c1 → TakesBytes s bs c1 c' → TakesBytes s (b :: bs) c c'

/-- A family of accumulators that a WRITE goes through byte by byte. -/
theorem takesBytes_along {core : List Byte → Core} {bound : Nat}
    (h : ∀ d b, d.length < bound → TakesByte s b (core d) (core (d ++ [b]))) (bs d : List Byte)
    (hd : d.length + bs.length ≤ bound) : TakesBytes s bs (core d) (core (d ++ bs)) := by
  induction bs generalizing d with
  | nil => rw [List.append_nil]; exact .nil _
  | cons b bs ih =>
    rw [List.length_cons] at hd
    have hrest := ih (d ++ [b]) (by rw [List.length_append, List.length_singleton]; omega)
    rw [List.append_assoc] at hrest
    exact .cons (h d b (by omega)) hrest

/-- Actions that were all done are followed by the next ones (rule R250). -/
theorem runOps_append {ops more : List SeqOp} {t : State} (h : runOps ops s = .ok t) (hj : t.job = []) :
    runOps (ops ++ more) s = runOps more t := by
  induction ops generalizing s with
  | nil =>
    obtain rfl : pending [] s = t := Except.ok.inj h
    exact (runOps_pending [] more s).symm
  | cons op ops ih =>
    obtain ⟨-, rfl⟩ | ⟨s1, hop, hops⟩ := runOps_cons h
    · cases hj
    · rw [List.cons_append, runOps_cons_of_next hop, ih hops]

/-- A payload byte that is not the last (rule R74). -/
theorem TakesByte.operandByte_next {b : Byte} {n : Nat} (h : TakesByte s b c c') (hn : n + 1 < len.toNat) :
    operandByte b (absorbing s len n c) = .ok (absorbing s len (n + 1) c') := by
  obtain ⟨c1, leaves, habsorb, hpush⟩ := h
  exact payloadByte_absorbing b hn habsorb (hpush (absorbing s len (n + 1) c1) rfl rfl)

/-- Payload bytes that do not end the WRITE (rule R74). -/
theorem TakesBytes.feed_part {n : Nat} (h : TakesBytes s bs c c') (hn : n + bs.length < len.toNat) :
    feed bs (absorbing s len n c) = .ok (offering [] (absorbing s len (n + bs.length) c')) := by
  induction h generalizing n with
  | nil c => rfl
  | @cons b bs c c1 c' hb _ ih =>
    rw [List.length_cons] at hn ⊢
    have hrest := ih (n := n + 1) (by omega)
    rw [show n + 1 + bs.length = n + (bs.length + 1) by omega] at hrest
    exact (feed_cons_of_ok rfl (hb.operandByte_next (by omega)) bs).trans hrest

/-! ## The end of a WRITE -/

/-- `s` after the answer to the WRITE of `len` whose bytes have made the accumulator `c` (rule R150). -/
def written (s : State) (len : Arg) (c : Core) : State :=
  { s with
    core := { c with total := c.total + zext64 len }, parser := { s.parser.next with rem := 0#56 }, job := []
    rspq := s.rspq ++ [0x00#8 :: le64 (zext64 len)] }

/-- `s` after the last payload byte: the WRITE is answered, or its end waits for the pipeline (rules R33, R150; log entry 22). -/
def finished (s : State) (len : Arg) (c : Core) : State :=
  if s.params.fused || c.drained then written s len c else pending [SeqOp.writeDone] (absorbing s len len.toNat c)

theorem finished_of_empty (h : (s.params.fused || c.drained) = true) : finished s len c = written s len c := if_pos h

theorem finished_of_queued (h : (s.params.fused || c.drained) = false) :
    finished s len c = pending [SeqOp.writeDone] (absorbing s len len.toNat c) := by
  rw [finished, h, if_neg Bool.false_ne_true]

/-- `REM` after the last byte. -/
theorem rem_last (len : Arg) : len - BitVec.ofNat 56 len.toNat = 0#56 := (rem_eq_zero_iff (le_refl _)).2 rfl

theorem finished_wantsOperand (s : State) (len : Arg) (c : Core) : (finished s len c).wantsOperand = false := by
  unfold finished
  split
  · rfl
  · rfl

/-- The end of a WRITE whose payload is in (rules R33, R150). -/
theorem runOps_writeDone (s : State) (len : Arg) (c : Core) :
    runOps [SeqOp.writeDone] (absorbing s len len.toNat c) = .ok (finished s len c) := by
  have hempty : (absorbing s len len.toNat c).pipelineEmpty = (s.params.fused || c.drained) := rfl
  cases h : s.params.fused || c.drained with
  | false =>
    rw [finished_of_queued h, runOps_cons_of_hold (runOp_writeDone_holds (hempty.trans h))]
    rfl
  | true =>
    have hdone : runOp .writeDone (absorbing s len len.toNat c) = .ok (some (written s len c)) := by
      simp only [runOp, hempty, h, if_true, written, ← rem_last len]
      rfl
    rw [finished_of_empty h, runOps_cons_of_next hdone]
    rfl

/-- The last payload byte ends the WRITE (rules R74, R150). -/
theorem TakesByte.operandByte_last {b : Byte} {n : Nat} (h : TakesByte s b c c') (hn : n + 1 = len.toNat) :
    operandByte b (absorbing s len n c) = .ok (finished s len c') := by
  obtain ⟨c1, leaves, habsorb, hpush⟩ := h
  have hrem : (absorbing s len n c).parser.rem - 1#56 = len - BitVec.ofNat 56 (n + 1) := rem_succ len n
  have hcount : ({ countDown (absorbing s len n c) with core := c1 } : State) = absorbing s len (n + 1) c1 := by
    rw [countDown, hrem]
    rfl
  have hcore : (absorbing s len n c).core = c := rfl
  have hbyte : operandByte b (absorbing s len n c) = payloadByte b (absorbing s len n c) := rfl
  rw [hbyte, payloadByte_absorbed b rfl, hcore, habsorb]
  simp only
  rw [hcount, hrem, hn, rem_last, payloadJob]
  have hrun := hpush (absorbing s len len.toNat c1) rfl rfl
  have hall := (runOps_append (more := [SeqOp.writeDone]) hrun rfl).trans (runOps_writeDone s len c')
  exact congrArg (trap _) hall

/-- The payload bytes to the end of the WRITE; the bytes after them stay on offer (rules R74, R150). -/
theorem TakesBytes.feed_all {n : Nat} (h : TakesBytes s bs c c') (hne : bs ≠ []) (hn : n + bs.length = len.toNat)
    (rest : List Byte) : feed (bs ++ rest) (absorbing s len n c) = .ok (offering rest (finished s len c')) := by
  induction h generalizing n with
  | nil c => exact absurd rfl hne
  | @cons b bs c c1 c' hb hbs ih =>
    rw [List.length_cons] at hn
    rw [List.cons_append]
    cases hbs with
    | nil =>
      rw [feed_cons_of_ok rfl (hb.operandByte_last hn), List.nil_append]
      exact feed_idle (finished_wantsOperand s len _) rest
    | cons hb' hbs' =>
      rw [feed_cons_of_ok rfl (hb.operandByte_next (by rw [List.length_cons] at hn; omega))]
      exact ih (List.cons_ne_nil _ _) (by omega)

/-! ## The command -/

/-- A WRITE of a payload begins with layer 0 started, if there is one (rules R150, R154). -/
def begun (d : List Byte) (c : Core) : Core := if d = [] then c else c.startLayer0

theorem begun_nil (c : Core) : begun [] c = c := rfl

theorem begun_of_ne_nil (h : d ≠ []) : begun d c = c.startLayer0 := if_neg h

/-- A WRITE that fits and has a payload takes the bytes on offer (rules R74, R150). -/
theorem exec_write_feeds (hf : s.fatal = false) (hfits : s.core.total.toNat + len.toNat ≤ maxPiecePayload) (hlen : len ≠ 0#56) :
    exec (.write len) s = conclude (feed s.input (absorbing s len 0 s.core.startLayer0)) := by
  show execWrite len s = _
  unfold execWrite
  simp only
  rw [if_neg hlen, startWrite_eq_absorbing hf hfits hlen]
  rfl

/-- A WRITE of no payload ends at once (rules R74, R154). -/
theorem exec_write_zero (hf : s.fatal = false) (htotal : s.core.total.toNat ≤ maxPiecePayload) :
    exec (.write 0#56) s = .next (finished s 0#56 s.core) := by
  have hover : overflows s.core.total 0#56 = false := (overflows_eq_false htotal).2 htotal
  have hstart : startWrite 0#56 s = absorbing s 0#56 (0#56 : Arg).toNat s.core :=
    startWrite_absorbs (by rw [hf, hover]; rfl)
  show conclude (if (startWrite 0#56 s).parser.drop then _ else trap _ (runOps [SeqOp.writeDone] _)) = _
  rw [hstart, runOps_writeDone]
  rfl

/-- A WRITE that fits, with its payload on offer (rules R74, R150, R154). -/
theorem exec_write_takes (hf : s.fatal = false) (hfits : s.core.total.toNat + len.toNat ≤ maxPiecePayload)
    (hinput : s.input = d ++ rest) (hlen : d.length = len.toNat) (h : TakesBytes s d (begun d s.core) c) :
    exec (.write len) s = .next (offering rest (finished s len c)) := by
  by_cases hd : d = []
  · subst hd
    obtain rfl : len = 0#56 := BitVec.eq_of_toNat_eq hlen.symm
    rw [begun_nil] at h
    cases h
    rw [exec_write_zero hf hfits, ← (show s.input = rest from hinput)]
    unfold finished
    split
    · rfl
    · rfl
  · have hne : len ≠ 0#56 := by
      rintro rfl
      exact hd (List.length_eq_zero_iff.1 hlen)
    rw [begun_of_ne_nil hd] at h
    rw [exec_write_feeds hf hfits hne, hinput, h.feed_all hd (by omega)]
    rfl

/-- Settles O14: the end of the WRITE adds 0 to `TOTAL` (`exec_write_zero`). -/
theorem zeroLengthWriteIsANoOp : Obligations.ZeroLengthWriteIsANoOp := by
  intro s hf hempty htotal
  have hzext : zext64 0#56 = 0#64 := zext64_eq rfl
  rw [exec_write_zero hf htotal, finished_of_empty hempty, written, hzext, BitVec.add_zero]
  rfl

/-! ## A payload that completes no quad -/

/-- A byte that goes to the carry buffer (rule R152). -/
theorem takesByte_buffering {b : Byte} (h : c.CarryOk) (hd : c.clen + d.length + 1 < blockSize) :
    TakesByte s b (buffering c d) (buffering c (d ++ [b])) :=
  ⟨_, [], absorb_buffering b h hd, fun _ _ _ => rfl⟩

/-- Settles O11: the bytes go to the carry buffer one by one (`takesByte_buffering`), and the queues stay empty. -/
theorem writeBuffersTheResidue : Obligations.WriteBuffersTheResidue := by
  intro s d rest len hf hempty hcarry hfits hinput hlen hpos hresidue
  have htakes : TakesBytes s d (begun d s.core) (buffering s.core d) := by
    rw [begun_of_ne_nil (List.length_pos_iff.1 hpos), buffering_nil]
    exact takesBytes_along (core := buffering s.core) (bound := d.length)
      (fun d' b hd' => takesByte_buffering hcarry (by unfold blockSize; omega)) d [] (by simp)
  have hdrained : (buffering s.core d).drained = s.core.drained := by
    rw [← startLayer0_drained s.core, Core.drained, Core.drained, startLayer0_layers]
    rfl
  rw [exec_write_takes hf hfits hinput hlen htakes, finished_of_empty (by rw [hdrained]; exact hempty)]
  rfl

/-! ## A payload of any length in a fused block -/

/-- A byte of a WRITE after the payload `p` (rules R24, R27, R152). -/
theorem takesByte_stream {p : List Byte} {b : Byte} (hfused : s.params.fused = true) (hsha : s.shaOk = true)
    (hfits : p.length + d.length + 1 ≤ maxPiecePayload) :
    TakesByte s b (writingCore p d) (writingCore p (d ++ [b])) := by
  obtain ⟨c, leaves, habsorb, xs, hxs, hcore⟩ := absorb_writing p d b
  obtain ⟨hlayers, hfour⟩ := absorb_layers habsorb
  rw [writingCore_eq] at hlayers
  refine ⟨c, leaves, habsorb, fun u hparams hengine => ?_⟩
  rw [← hcore]
  refine runOps_pushes_stream (s := { u with core := c }) (hparams ▸ hfused) (hengine.trans hsha) hxs hlayers ?_
  rw [quadLeaves_length, List.length_append]
  unfold maxPiecePayload at hfits
  omega

/-- The end of a WRITE of no payload leaves the accumulator as it was (rule R154). -/
theorem streamCore_write_nil (p : List Byte) :
    ({ streamCore p with total := (streamCore p).total + zext64 0#56 } : Core) = streamCore p := by
  rw [show zext64 0#56 = 0#64 from zext64_eq rfl, BitVec.add_zero]

/-- Settles O10: from `p` on the WRITE goes through the accumulators `writingCore p` (`takesByte_stream`). -/
theorem writeExtendsTheStream : Obligations.WriteExtendsTheStream := by
  intro s p d rest len hf hfused hsha hcore hinput hlen hfits
  have hempty (c : Core) : (s.params.fused || c.drained) = true := by rw [hfused]; rfl
  have htotal : s.core.total.toNat + len.toNat ≤ maxPiecePayload := by
    rw [hcore, streamCore_total (by omega)]
    omega
  by_cases hd : d = []
  · subst hd
    obtain rfl : len = 0#56 := BitVec.eq_of_toNat_eq hlen.symm
    rw [exec_write_takes hf htotal hinput hlen (.nil _), finished_of_empty (hempty _), written, begun_nil, hcore,
      streamCore_write_nil, List.append_nil]
    rfl
  · have htakes : TakesBytes s d (begun d s.core) (writingCore p d) := by
      rw [begun_of_ne_nil hd, hcore, writingCore_nil]
      exact takesBytes_along (core := writingCore p) (bound := d.length)
        (fun d' b hd' => takesByte_stream hfused hsha (by omega)) d [] (by simp)
    rw [exec_write_takes hf htotal hinput hlen htakes, finished_of_empty (hempty _), written, writingCore_end hd hlen]
    rfl

/-! ## A payload whose leaves are queued -/

/-- A byte of a pipelined WRITE whose leaves fit (rules R142, R152). -/
theorem takesByte_queues {l : Layer} {ls : List Layer} {w : List Byte} {b : Byte} (hfused : s.params.fused = false)
    (hroom : (wholeLeaves (w ++ [b])).length ≤ s.params.fifoDepth - l.q.length) :
    TakesByte s b (filling l ls c w) (filling l ls c (w ++ [b])) := by
  obtain ⟨leaves, habsorb, hleaves⟩ := absorb_carrying w b (filledLayer l w :: ls) c
  refine ⟨_, leaves, habsorb, fun u hparams _ => ?_⟩
  rw [hleaves, List.length_append] at hroom
  have hqueue : (filledLayer l w).q = l.q ++ (wholeLeaves w).map nodeToken := rfl
  rw [runOps_pushes_fit (l := filledLayer l w) (ls := ls) (by rw [← hfused, ← hparams]) rfl (by
    rw [hqueue, List.length_append, List.length_map]
    show _ ≤ u.params.fifoDepth - _
    rw [hparams]
    omega)]
  simp only [pending, queuedFor, filling, filledLayer, hleaves, List.map_append, carrying, List.append_assoc]

/-- A payload of a pipelined WRITE whose leaves all fit. -/
theorem takesBytes_queues {l : Layer} {ls : List Layer} (hfused : s.params.fused = false) (hcarry : s.core.CarryOk)
    (hlayers : s.core.layers = l :: ls)
    (hroom : (wholeLeaves (s.core.carry.map Prod.snd ++ d)).length ≤ s.params.fifoDepth - l.q.length) :
    TakesBytes s d s.core.startLayer0 (filledBy l ls s.core d) := by
  rw [startLayer0_filledBy hcarry hlayers]
  refine takesBytes_along (core := filledBy l ls s.core) (bound := d.length) (fun d' b hd' => ?_) d [] (by simp)
  have hbyte : TakesByte s b (filling l ls s.core (s.core.carry.map Prod.snd ++ d'))
      (filling l ls s.core (s.core.carry.map Prod.snd ++ d' ++ [b])) := by
    refine takesByte_queues hfused (le_trans ?_ hroom)
    rw [wholeLeaves_length, wholeLeaves_length]
    simp only [List.length_append, List.length_singleton]
    omega
  rw [List.append_assoc] at hbyte
  exact hbyte

/-- The carry buffer's bytes are less than a quad (rule R22). -/
theorem carry_length (h : c.CarryOk) : (c.carry.map Prod.snd).length = c.clen ∧ c.clen < 127 :=
  ⟨by simpa using congrArg List.length h.1, h.2⟩

/-- Settles O16: the leaves are queued byte by byte (`takesBytes_queues`); then the end of the WRITE waits for them, or the WRITE for
the rest of its payload. -/
theorem pipelinedWriteEnqueuesTheLeaves : Obligations.PipelinedWriteEnqueuesTheLeaves := by
  intro s d rest w len n l ls hf hfused hcarry hfits hlayers hinput hpart hw hn hpos hroom
  obtain ⟨hclen, hlt⟩ := carry_length hcarry
  have hwhole : wholeLeaves w = quadLeaves n w := by rw [wholeLeaves, hn]
  have hwlen : w.length = s.core.clen + d.length := by rw [hw, List.length_append, hclen]
  have htakes := takesBytes_queues (d := d) hfused hcarry hlayers (by
    rw [← hw, wholeLeaves_length]
    omega)
  have hd : d ≠ [] := by
    rintro rfl
    rw [List.length_nil] at hwlen
    omega
  have hdpos := List.length_pos_iff.2 hd
  have hcore : filledBy l ls s.core d = { s.core with
      carry := (List.range (w.length % 127)).zip (w.drop (127 * n)), clen := w.length % 127,
      layers := { l with active := true, q := l.q ++ (quadLeaves n w).map nodeToken } :: ls } := by
    rw [filledBy, ← hw, filling, filledLayer, hwhole, hn]
    rfl
  rw [← hcore]
  obtain hall | ⟨hsome, rfl⟩ := hpart
  · have hqueued : (s.params.fused || (filledBy l ls s.core d).drained) = false := by
      rw [hfused, Bool.false_or, ← Bool.not_eq_true, drained_iff, hcore]
      intro hq
      have hlen := congrArg List.length (hq _ List.mem_cons_self)
      simp only [List.length_append, List.length_map, quadLeaves_length, List.length_nil] at hlen
      omega
    rw [exec_write_takes hf hfits hinput hall (by rw [begun_of_ne_nil hd]; exact htakes), finished_of_queued hqueued, hall,
      if_pos rfl]
    rfl
  · have hne : len ≠ 0#56 := by
      rintro rfl
      exact absurd hsome (Nat.not_lt_zero _)
    rw [List.append_nil] at hinput
    rw [exec_write_feeds hf hfits hne, hinput, htakes.feed_part (by omega), Nat.zero_add, if_neg (Nat.ne_of_lt hsome)]
    rfl

end Sys2Proof.AccumulatorProofs
end

section
/-! PROOFS. A WRITE that would overflow (rules R77, R151). -/

namespace Sys2Proof.AccumulatorProofs

open Sys2Proof Sys2Proof.Machine Sys2Proof.Config Sys2Proof.StateProofs Sys2Proof.MemoryProofs Sys2Proof.EncodingProofs
open Sys2Proof.ReducerProofs

variable {s : State} {len : Arg}

/-- The WRITE of `len` that began in `s` and discards its payload, `n` bytes of it so far. -/
def discarding (s : State) (len : Arg) (n : Nat) : State :=
  { s with job := [], parser := { writeParser len true s with rem := len - BitVec.ofNat 56 n } }

/-- The answer to a WRITE whose payload was discarded because it would overflow (rule R151). -/
def overflowed (s : State) : State :=
  { s with parser := { s.parser.next with rem := 0#56 }, job := [], rspq := s.rspq ++ [[0x01#8]] }

theorem operandByte_discarding (hf : s.fatal = false) (b : Byte) {n : Nat} (hn : n + 1 ≤ len.toNat) :
    operandByte b (discarding s len n) = .ok (if n + 1 = len.toNat then overflowed s else discarding s len (n + 1)) := by
  have hbyte : operandByte b (discarding s len n) = payloadByte b (discarding s len n) := rfl
  have hrem : (discarding s len n).parser.rem - 1#56 = len - BitVec.ofNat 56 (n + 1) := rem_succ len n
  have hcount : countDown (discarding s len n) = discarding s len (n + 1) := by
    rw [countDown, hrem]
    rfl
  rw [hbyte, payloadByte_dropped b rfl, hcount, hrem]
  simp only [rem_eq_zero_iff hn]
  split
  · next hlast =>
    have hend : endDropped (discarding s len (n + 1)) = reply .overflowExceeded [] (discarding s len (n + 1)) :=
      if_neg (by rw [show (discarding s len (n + 1)).fatal = false from hf]; exact Bool.false_ne_true)
    rw [hend, overflowed, ← rem_last len, ← hlast]
    rfl
  · rfl

/-- The whole payload is discarded (rules R77, R151). -/
theorem feed_discarding (hf : s.fatal = false) (rest : List Byte) {n : Nat} {bs : List Byte} (hne : bs ≠ [])
    (hn : n + bs.length = len.toNat) :
    feed (bs ++ rest) (discarding s len n) = .ok (offering rest (overflowed s)) := by
  induction bs generalizing n with
  | nil => exact absurd rfl hne
  | cons b bs ih =>
    rw [List.length_cons] at hn
    rw [List.cons_append, feed_cons_of_ok rfl (operandByte_discarding hf b (by omega))]
    by_cases hbs : bs = []
    · subst hbs
      rw [if_pos (show n + 1 = len.toNat from hn)]
      exact feed_idle rfl rest
    · have := List.length_pos_iff.2 hbs
      rw [if_neg (by omega), ih hbs (by omega)]

/-- Settles O13: the overflow is seen before any byte (`startWrite_discards`), and the payload is discarded (`feed_discarding`). -/
theorem overflowingWriteChangesNothing : Obligations.OverflowingWriteChangesNothing := by
  intro s d rest len hf htotal hexceeds hinput hlen
  have hd : d ≠ [] := by
    rintro rfl
    rw [← hlen, List.length_nil] at hexceeds
    omega
  have hne : len ≠ 0#56 := by
    rintro rfl
    exact hd (List.length_eq_zero_iff.1 hlen)
  have hover : overflows s.core.total len = true := by
    rw [← Bool.not_eq_false, overflows_eq_false htotal]
    omega
  have hstart : startWrite len s = discarding s len 0 := by
    rw [startWrite_discards (by rw [hover, Bool.or_true])]
    simp only [discarding, BitVec.sub_zero]
    rfl
  show execWrite len s = _
  unfold execWrite
  simp only
  rw [if_neg hne, hstart]
  show conclude (feed s.input _) = _
  rw [hinput, feed_discarding hf rest hd (by omega)]
  rfl

end Sys2Proof.AccumulatorProofs
end

section
/-! PROOFS. Chunk independence of WRITE in a fused block (rule R153). -/

namespace Sys2Proof.AccumulatorProofs

open Sys2Proof Sys2Proof.Machine Sys2Proof.Config Sys2Proof.StateProofs Sys2Proof.MemoryProofs Sys2Proof.EncodingProofs
open Sys2Proof.ReducerProofs

variable {s : State} {len : Arg} {ok : Bool} {c c' : Core} {d rest : List Byte}

/-! ## A payload as a function on the accumulator -/

/-- Leaves pushed into layer 0, in order (rules R130, R152). -/
def pushAll (ok : Bool) (leaves : List Node) (c : Core) : Res Core := leaves.foldlM (fun c n => c.pushAt ok 0 n) c

/-- A payload byte and the leaves it completes (rule R152). -/
def fusedByte (ok : Bool) (c : Core) (b : Byte) : Res Core := (c.absorb b).bind fun x => pushAll ok x.2 x.1

/-- Payload bytes, in order. -/
def fusedBytes (ok : Bool) (d : List Byte) (c : Core) : Res Core := d.foldlM (fusedByte ok) c

/-- A payload, the start of layer 0 included (rules R150, R154). -/
def fusedWrite (ok : Bool) (d : List Byte) (c : Core) : Res Core := fusedBytes ok d (begun d c)

theorem pushAll_cons (ok : Bool) (n : Node) (leaves : List Node) (c : Core) :
    pushAll ok (n :: leaves) c = (c.pushAt ok 0 n).bind (pushAll ok leaves) := rfl

theorem fusedBytes_cons (ok : Bool) (b : Byte) (d : List Byte) (c : Core) :
    fusedBytes ok (b :: d) c = (fusedByte ok c b).bind (fusedBytes ok d) := rfl

theorem bind_ok {α β : Type} {r : Res α} {f : α → Res β} {y : β} (h : r.bind f = .ok y) : ∃ x, r = .ok x ∧ f x = .ok y := by
  cases r with
  | error e => cases h
  | ok x => exact ⟨x, rfl, h⟩

/-- The sequencer's pushes in a fused block (rules R130, R221). -/
theorem runOps_pushAll {ops : List SeqOp} (hfused : s.params.fused = true) (leaves : List Node) :
    runOps (leaves.map SeqOp.push ++ ops) s =
      (pushAll s.shaOk leaves s.core).bind fun c => runOps ops { s with core := c } := by
  induction leaves generalizing s with
  | nil => rfl
  | cons n leaves ih =>
    rw [List.map_cons, List.cons_append, pushAll_cons, runOps, runOp_push, if_pos hfused]
    cases s.core.pushAt s.shaOk 0 n with
    | error e => rfl
    | ok c => exact ih (s := { s with core := c }) hfused

theorem takesByte_of_fused {b : Byte} (hfused : s.params.fused = true) (h : fusedByte s.shaOk c b = .ok c') :
    TakesByte s b c c' := by
  obtain ⟨⟨c1, leaves⟩, habsorb, hpush⟩ := bind_ok h
  refine ⟨c1, leaves, habsorb, fun u hparams hengine => ?_⟩
  have hrun := runOps_pushAll (s := { u with core := c1 }) (ops := []) (hparams ▸ hfused) leaves
  rw [List.append_nil] at hrun
  rw [hrun]
  show (pushAll u.shaOk leaves c1).bind _ = _
  rw [hengine, hpush]
  rfl

theorem takesBytes_of_fused (hfused : s.params.fused = true) (h : fusedBytes s.shaOk d c = .ok c') :
    TakesBytes s d c c' := by
  induction d generalizing c with
  | nil => cases h; exact .nil _
  | cons b d ih =>
    rw [fusedBytes_cons] at h
    obtain ⟨c1, hb, hd⟩ := bind_ok h
    exact .cons (takesByte_of_fused hfused hb) (ih hd)

/-- A WRITE whose payload the accumulator takes (rule R150). -/
theorem exec_write_fused (hf : s.fatal = false) (hfused : s.params.fused = true)
    (hfits : s.core.total.toNat + len.toNat ≤ maxPiecePayload) (hinput : s.input = d ++ rest) (hlen : d.length = len.toNat)
    (h : fusedWrite s.shaOk d s.core = .ok c) :
    exec (.write len) s = .next (offering rest (written s len c)) := by
  rw [exec_write_takes hf hfits hinput hlen (takesBytes_of_fused hfused h), finished_of_empty (by rw [hfused]; rfl)]

/-! ## A WRITE without an internal fault -/

/-- The internal fault of a command in progress lasts: what is still fed is discarded (rules R77, R214, R215). -/
theorem feed_internalFault {u t : State} {bs : List Byte} (hs : u.parser.saved ≠ none)
    (h : feed bs (internalFault u) = .ok t) : t.fatal = true := by
  have haborted : Aborted (internalFault u) (internalFault u) := by
    obtain ⟨hnone, -⟩ | ⟨c, -, ⟨-, heq⟩ | ⟨-, heq⟩⟩ := internalFault_cases u
    · exact absurd hnone hs
    · rw [heq]; exact ⟨rfl, rfl, rfl, rfl, fun _ => rfl⟩
    · rw [heq]; exact ⟨rfl, rfl, rfl, rfl, fun hp => absurd rfl hp⟩
  have hends := feed_aborted (bs := bs) haborted
  rw [h] at hends
  exact hends.fatal

/-- A payload byte that meets no internal fault has been absorbed and its leaves pushed (rules R152, R214). -/
theorem fusedByte_of_operandByte {b : Byte} {n : Nat} {t : State} (hfused : s.params.fused = true)
    (h : operandByte b (absorbing s len n c) = .ok t) :
    (∃ c', fusedByte s.shaOk c b = .ok c') ∨ ∃ u, u.parser.saved ≠ none ∧ t = internalFault u := by
  have hbyte : operandByte b (absorbing s len n c) = payloadByte b (absorbing s len n c) := rfl
  have hcore : (absorbing s len n c).core = c := rfl
  rw [hbyte, payloadByte_absorbed b rfl, hcore] at h
  obtain hrun | ⟨-, rfl⟩ := trap_ok h
  · cases habsorb : c.absorb b with
    | error e => rw [habsorb] at hrun; cases hrun
    | ok x =>
      obtain ⟨c1, leaves⟩ := x
      rw [habsorb] at hrun
      simp only [payloadJob] at hrun
      rw [runOps_pushAll (by exact hfused)] at hrun
      obtain ⟨c', hpush, -⟩ := bind_ok hrun
      exact .inl ⟨c', by rw [fusedByte, habsorb]; exact hpush⟩
  · exact .inr ⟨countDown (absorbing s len n c), Option.some_ne_none s.core, rfl⟩

theorem fusedBytes_of_feed {bs : List Byte} {n : Nat} {t : State} (hfused : s.params.fused = true)
    (hn : n + bs.length = len.toNat) (h : feed bs (absorbing s len n c) = .ok t) (hf : t.fatal = false) :
    ∃ c', fusedBytes s.shaOk bs c = .ok c' := by
  induction bs generalizing n c with
  | nil => exact ⟨c, rfl⟩
  | cons b bs ih =>
    rw [List.length_cons] at hn
    obtain ⟨hw, -⟩ | ⟨-, s1, hb, hbs⟩ := feed_cons h
    · cases hw
    · obtain ⟨c1, hc1⟩ | ⟨u, hu, rfl⟩ := fusedByte_of_operandByte hfused hb
      · rw [fusedBytes_cons, hc1]
        by_cases hnil : bs = []
        · subst hnil
          exact ⟨c1, rfl⟩
        · have := List.length_pos_iff.2 hnil
          rw [(takesByte_of_fused hfused hc1).operandByte_next (by omega)] at hb
          cases hb
          exact ih (by omega) hbs
      · rw [feed_internalFault hu hbs] at hf
        cases hf

/-- A WRITE that ends without an internal fault has been taken whole (rules R150, R214). -/
theorem fusedWrite_of_exec {t : State} (hf : s.fatal = false) (hfused : s.params.fused = true)
    (hfits : s.core.total.toNat + len.toNat ≤ maxPiecePayload) (hinput : s.input = d) (hlen : d.length = len.toNat)
    (h : exec (.write len) s = .next t) (hft : t.fatal = false) : ∃ c, fusedWrite s.shaOk d s.core = .ok c := by
  by_cases hd : d = []
  · subst hd
    exact ⟨s.core, rfl⟩
  · have hne : len ≠ 0#56 := by
      rintro rfl
      exact hd (List.length_eq_zero_iff.1 hlen)
    rw [exec_write_feeds hf hfits hne, hinput, conclude_next] at h
    rw [fusedWrite, begun_of_ne_nil hd]
    exact fusedBytes_of_feed hfused (by omega) h hft

/-! ## What a payload does not depend on -/

/-- `f` neither reads nor changes the carry buffer. -/
structure BesideCarry (f : Core → Core) : Prop where
  carry : ∀ c, (f c).carry = c.carry
  clen : ∀ c, (f c).clen = c.clen
  setCarry : ∀ c m, f { c with carry := m } = { f c with carry := m }
  setClen : ∀ c n, f { c with clen := n } = { f c with clen := n }

section Beside

variable {f : Core → Core} (hf : BesideCarry f)
include hf

theorem writeCarry_beside (i : Nat) (b : Byte) (c : Core) : (f c).writeCarry i b = (c.writeCarry i b).map f := by
  unfold Core.writeCarry
  split
  · rw [hf.carry, ← hf.setCarry]
    rfl
  · rfl

theorem clearCarry_beside (c : Core) : (f c).clearCarry = f c.clearCarry := by
  have hclear := hf.setClen { c with carry := [] } 0
  rw [hf.setCarry] at hclear
  exact hclear.symm

theorem takeQuad_beside (c : Core) : (f c).takeQuad = c.takeQuad.map fun x => (f x.1, x.2) := by
  have hwindow : (f c).readWindow = c.readWindow := congrArg (Memory.readRange · 0 blockSize) (hf.carry c)
  unfold Core.takeQuad
  rw [hwindow, clearCarry_beside hf]
  cases c.readWindow <;> rfl

theorem absorb_beside (b : Byte) (c : Core) : (f c).absorb b = (c.absorb b).map fun x => (f x.1, x.2) := by
  unfold Core.absorb
  rw [hf.clen, writeCarry_beside hf]
  cases c.writeCarry c.clen b with
  | error e => rfl
  | ok c1 =>
    simp only [Except.map, ← hf.setClen, takeQuad_beside hf]
    split
    · rfl
    · rfl

/-- A change beside the carry buffer that PUSH commutes with, a whole payload commutes with. -/
theorem fusedBytes_beside (hpush : ∀ c n, (f c).pushAt ok 0 n = (c.pushAt ok 0 n).map f)
    (d : List Byte) (c : Core) : fusedBytes ok d (f c) = (fusedBytes ok d c).map f := by
  have hleaves (leaves : List Node) (c : Core) : pushAll ok leaves (f c) = (pushAll ok leaves c).map f := by
    induction leaves generalizing c with
    | nil => rfl
    | cons n leaves ih =>
      rw [pushAll_cons, pushAll_cons, hpush]
      cases c.pushAt ok 0 n with
      | error e => rfl
      | ok c1 => exact ih c1
  induction d generalizing c with
  | nil => rfl
  | cons b d ih =>
    rw [fusedBytes_cons, fusedBytes_cons, fusedByte, fusedByte, absorb_beside hf]
    cases c.absorb b with
    | error e => rfl
    | ok x =>
      simp only [Except.map, Except.bind, hleaves]
      cases pushAll ok x.2 x.1 with
      | error e => rfl
      | ok c1 => exact ih c1

end Beside

/-- `c` with another `TOTAL`. -/
def retotalled (total : Size) (c : Core) : Core := { c with total := total }

theorem retotalled_beside (total : Size) : BesideCarry (retotalled total) :=
  ⟨fun _ => rfl, fun _ => rfl, fun _ _ => rfl, fun _ _ => rfl⟩

theorem pushAt_retotalled (total : Size) (c : Core) (n : Node) :
    (retotalled total c).pushAt ok 0 n = (c.pushAt ok 0 n).map (retotalled total) := by
  have hlayers : (retotalled total c).layers = c.layers := rfl
  unfold Core.pushAt
  rw [hlayers]
  cases push ok 0 (c.layers.drop 0) n <;> rfl

theorem startLayer0_beside : BesideCarry Core.startLayer0 := by
  refine ⟨startLayer0_carry, startLayer0_clen, fun c m => ?_, fun c n => ?_⟩
  · obtain ⟨_, _, _, layers, _⟩ := c
    cases layers <;> rfl
  · obtain ⟨_, _, _, layers, _⟩ := c
    cases layers <;> rfl

/-- PUSH into layer 0 does not look at whether it was started (rule R121). -/
theorem pushAt_startLayer0 (c : Core) (n : Node) : c.startLayer0.pushAt ok 0 n = (c.pushAt ok 0 n).map Core.startLayer0 := by
  obtain ⟨carry, clen, total, layers, root⟩ := c
  cases layers with
  | nil => rfl
  | cons l ls =>
    simp only [Core.pushAt, Core.startLayer0, List.drop_zero, push]
    cases l.slot with
    | none => rfl
    | some left =>
      simp only
      cases hash ok left n with
      | error e => rfl
      | ok parent =>
        simp only
        cases emit ok ls parent <;> rfl

theorem startLayer0_startLayer0 (c : Core) : c.startLayer0.startLayer0 = c.startLayer0 := by
  obtain ⟨_, _, _, layers, _⟩ := c
  cases layers <;> rfl

theorem begun_retotalled (d : List Byte) (total : Size) (c : Core) :
    begun d (retotalled total c) = retotalled total (begun d c) := by
  unfold begun
  split
  · rfl
  · obtain ⟨_, _, _, layers, _⟩ := c
    cases layers <;> rfl

/-- A payload does not depend on `TOTAL`, which only the end of the WRITE changes (rule R150). -/
theorem fusedWrite_retotalled (d : List Byte) (total : Size) (c : Core) :
    fusedWrite ok d (retotalled total c) = (fusedWrite ok d c).map (retotalled total) := by
  rw [fusedWrite, begun_retotalled]
  exact fusedBytes_beside (retotalled_beside total) (pushAt_retotalled total) d _

theorem fusedWrite_total (h : fusedWrite ok d c = .ok c') : c'.total = c.total := by
  have hsame := fusedWrite_retotalled (ok := ok) d c.total c
  rw [show retotalled c.total c = c from rfl, h] at hsame
  have hcore : c' = retotalled c.total c' := Except.ok.inj hsame
  rw [hcore]
  rfl

/-- The parts of a payload, one after the other: layer 0 stays started (rule R153). -/
theorem fusedWrite_append (d1 d2 : List Byte) (c : Core) :
    fusedWrite ok (d1 ++ d2) c = (fusedWrite ok d1 c).bind (fusedWrite ok d2) := by
  by_cases h1 : d1 = []
  · subst h1
    rfl
  by_cases h2 : d2 = []
  · subst h2
    rw [List.append_nil]
    cases fusedWrite ok d1 c <;> rfl
  have hstarted : fusedBytes ok d1 c.startLayer0 = (fusedBytes ok d1 c.startLayer0).map Core.startLayer0 := by
    rw [← fusedBytes_beside startLayer0_beside pushAt_startLayer0, startLayer0_startLayer0]
  rw [fusedWrite, fusedWrite, begun_of_ne_nil h1, begun_of_ne_nil (by simp [h1])]
  show (d1 ++ d2).foldlM (fusedByte ok) c.startLayer0 = _
  rw [List.foldlM_append]
  show (fusedBytes ok d1 c.startLayer0).bind (fusedBytes ok d2) = _
  cases hpart : fusedBytes ok d1 c.startLayer0 with
  | error e => rfl
  | ok c1 =>
    rw [hpart] at hstarted
    show fusedBytes ok d2 c1 = fusedWrite ok d2 c1
    rw [fusedWrite, begun_of_ne_nil h2, ← Except.ok.inj hstarted]

/-- Settles O15: the WRITE that ends has taken its payload (`fusedWrite_of_exec`), so the parts are taken one after the other
(`fusedWrite_append`), whatever `TOTAL` is (`fusedWrite_retotalled`). -/
theorem chunkedWritesEqualOneWrite : Obligations.ChunkedWritesEqualOneWrite := by
  intro s t d1 d2 len1 len2 len hf hfused hsha hfits hinput hlen1 hlen2 hlen hexec hft
  have hall : (d1 ++ d2).length = len.toNat := by rw [List.length_append, hlen]
  obtain ⟨c, hwhole⟩ := fusedWrite_of_exec hf hfused (by omega) hinput hall hexec hft
  obtain ⟨c1, hfirst, hsecond⟩ := bind_ok (fusedWrite_append d1 d2 s.core ▸ hwhole)
  have htotal := fusedWrite_total hwhole
  have htotal1 := fusedWrite_total hfirst
  rw [exec_write_fused hf hfused (by omega) (by rw [hinput, List.append_nil]) hall hwhole] at hexec
  obtain rfl := Host.Outcome.next.inj hexec
  have hnext := exec_write_fused hf hfused (by omega) hinput hlen1 hfirst
  have hsum : (c1.total + zext64 len1).toNat = s.core.total.toNat + len1.toNat := by
    have := len1.isLt
    rw [htotal1, BitVec.toNat_add, zext64, BitVec.toNat_setWidth_of_le (by decide), Nat.mod_eq_of_lt]
    unfold maxPiecePayload at hfits
    omega
  have hsecond' : fusedWrite s.shaOk d2 (retotalled (c1.total + zext64 len1) c1) =
      .ok (retotalled (c1.total + zext64 len1) c) := by
    rw [fusedWrite_retotalled, hsecond]
    rfl
  refine ⟨_, _, hnext,
    exec_write_fused (s := offering d2 (written s len1 c1)) (rest := []) hf hfused ?_ ?_ hlen2 hsecond', ?_, hf⟩
  · show (c1.total + zext64 len1).toNat + len2.toNat ≤ maxPiecePayload
    omega
  · exact (List.append_nil d2).symm
  · have hzext : zext64 len1 + zext64 len2 = zext64 len := by
      rw [zext64_eq hlen1, zext64_eq hlen2, zext64_eq hlen, BitVec.ofNat_add]
    show retotalled (c1.total + zext64 len1 + zext64 len2) c = retotalled (c.total + zext64 len) c
    rw [BitVec.add_assoc, hzext, htotal, htotal1]

end Sys2Proof.AccumulatorProofs
end

section
/-! PROOFS. DIGEST and SUM once there is enough input (rules R142, R155, R158, R160, R162). -/

namespace Sys2Proof.AccumulatorProofs

open Sys2Proof Sys2Proof.Machine Sys2Proof.Config Sys2Proof.StateProofs Sys2Proof.EncodingProofs Sys2Proof.ReducerProofs

variable {s : State} {c : Core} {p : List Byte} {sized : Bool}

/-! ## The command up to FINALIZE -/

/-- DIGEST, with the size, and SUM, without it. -/
def finalizer (sized : Bool) : Instr := if sized then .digest else .sum

/-- `s` inside a DIGEST or SUM, with the accumulator `c` (rule R158). -/
def finalizing (s : State) (c : Core) : State := { beginCommand none s with core := c }

/-- DIGEST and SUM of enough input: pad, then push, close and wait (rules R155, R158, R162). -/
theorem exec_finalizer {leaves : List Node} (hf : s.fatal = false) (henough : minPiecePayload ≤ s.core.total.toNat)
    (hpad : s.core.padQuad = .ok (c, leaves)) :
    exec (finalizer sized) s = conclude (trap (beginCommand none s)
      (runOps (leaves.map SeqOp.push ++ [SeqOp.close, SeqOp.await sized]) (finalizing s c))) := by
  have hins : ¬ insufficient s = true := by rw [insufficient_eq_true]; omega
  have hfinalize : exec (finalizer sized) s = conclude (finalize sized (beginCommand none s)) := by
    cases sized with
    | true =>
      show execDigest s = _
      unfold execDigest
      rw [answered_of_not_fatal hf, if_neg hins]
    | false =>
      show execSum s = _
      unfold execSum
      rw [answered_of_not_fatal hf, if_neg hins]
  rw [hfinalize, finalize, beginCommand_core, hpad, finalizing]

/-! ## A fused block -/

/-- CLOSE of the leaves `xs` and the answer, in a fused block (rules R131, R155, R158, R162). -/
theorem runOps_close_answers {xs : List Node} (hfused : s.params.fused = true) (hsha : s.shaOk = true)
    (hlayers : s.core.layers = layersFrom 0 layerCount xs) (hne : xs.length ≠ 0) (hfits : xs.length ≤ 2 ^ 31) :
    runOps [SeqOp.close, SeqOp.await sized] s = .ok (pending []
      (answerRoot sized { node := paddedRoot xs, layer := BitVec.ofNat 5 (treeHeight xs.length) } s)) := by
  obtain ⟨ls, hclose, -, -⟩ := close_leaves hne hfits
  have hlength : (layersFrom 0 layerCount xs).length = layerCount := by simp [layersFrom]
  have hcloseAt := closeAt_zero (c := s.core) (ok := s.shaOk) (by rw [hsha, hlayers, hlength]; exact hclose)
  have hrun : runOp .close s = .ok (some { s with core := { s.core with
      layers := ls, root := some { node := paddedRoot xs, layer := BitVec.ofNat 5 (treeHeight xs.length) } } }) := by
    rw [runOp_close, if_pos hfused, hcloseAt]
    rfl
  rw [runOps_cons_of_next hrun, runOps_cons_of_next (runOp_await sized _)]
  rfl

/-- FINALIZE after the leaves `xs`, in a fused block: the answer is the root of these and the last leaves (rule R158). -/
theorem runOps_finalize_answers {xs leaves : List Node} (hfused : s.params.fused = true) (hsha : s.shaOk = true)
    (hlayers : s.core.layers = layersFrom 0 layerCount xs) (hne : (xs ++ leaves).length ≠ 0)
    (hfits : (xs ++ leaves).length ≤ 2 ^ 31) :
    runOps (leaves.map SeqOp.push ++ [SeqOp.close, SeqOp.await sized]) s = .ok (pending [] (answerRoot sized
      { node := paddedRoot (xs ++ leaves), layer := BitVec.ofNat 5 (treeHeight (xs ++ leaves).length) } s)) := by
  have hpush := runOps_pushes_stream hfused hsha hlayers hlayers (leaves := leaves) (by rw [← List.length_append]; exact hfits)
  rw [runOps_append hpush rfl, runOps_close_answers (xs := xs ++ leaves) (by exact hfused) (by exact hsha) (by rfl) hne hfits]
  rfl

/-- DIGEST and SUM after the payload `p`: the last leaves complete those of the padded payload (`padQuad_stream`), whose root is
answered (`runOps_finalize_answers`). -/
theorem exec_finalizer_stream (hf : s.fatal = false) (hfused : s.params.fused = true) (hsha : s.shaOk = true)
    (hcore : s.core = streamCore p) (hmin : minPiecePayload ≤ p.length) (hmax : p.length ≤ maxPiecePayload) :
    exec (finalizer sized) s = .next { s with
      core := Core.empty, parser := s.parser.next, job := []
      rspq := s.rspq ++ [0x00#8 ::
        (nodeBytes (commP p) ++ if sized then le64 (paddedSize (BitVec.ofNat 64 p.length)) else [])] } := by
  obtain ⟨leaves, hpad, -, hleaves⟩ := padQuad_stream p
  have hne : p ≠ [] := by rintro rfl; exact absurd hmin (by decide)
  obtain ⟨hpos, hle⟩ := paddedLeaves_bounds hne hmax
  rw [← paddedLeaves_length] at hpos hle
  rw [← hleaves] at hpos hle
  have hlayers : (finalizing s (streamCore p).clearCarry).core.layers =
      layersFrom 0 layerCount (quadLeaves (p.length / 127) p) := streamCore_layers hne
  rw [exec_finalizer hf (by rw [hcore, streamCore_total hmax]; exact hmin) (by rw [hcore]; exact hpad),
    runOps_finalize_answers (by exact hfused) (by exact hsha) hlayers hpos hle, hleaves]
  rfl

/-- Settles O19: `exec_finalizer_stream` with the size. -/
theorem digestAnswersCommP : Obligations.DigestAnswersCommP :=
  fun _ _ hf hfused hsha hcore hmin hmax => exec_finalizer_stream (sized := true) hf hfused hsha hcore hmin hmax

/-- Settles O20: `exec_finalizer_stream` without the size. -/
theorem sumAnswersCommP : Obligations.SumAnswersCommP := by
  intro s p hf hfused hsha hcore hmin hmax
  have h := exec_finalizer_stream (sized := false) hf hfused hsha hcore hmin hmax
  rw [if_neg Bool.false_ne_true, List.append_nil] at h
  exact h

/-! ## A pipelined block -/

/-- The leaves that FINALIZE pushes, of the residue and zero bytes after it (rule R158). -/
def residueLeaves (c : Core) : List Node :=
  if c.clen = 0 then [] else expandLeaves (c.carry.map Prod.snd ++ List.replicate (127 - c.clen) 0#8)

theorem padQuad_residue (h : c.CarryOk) : c.padQuad = .ok (c.clearCarry, residueLeaves c) := by
  obtain ⟨hcarry, hclen⟩ := h
  unfold Core.padQuad residueLeaves
  split
  · next h0 =>
    have hnil : c.carry = [] := by simpa [h0] using hcarry
    rw [Core.clearCarry, ← hnil, ← h0]
  · obtain ⟨m, hfill, hfst, hsnd⟩ := zeroFill_residue hcarry (n := blockSize - c.clen) (by omega)
    rw [Nat.add_sub_cancel' (Nat.le_of_lt hclen)] at hfst
    rw [hfill]
    simp only
    rw [takeQuad_full hfst, hsnd]
    rfl

/-- Tokens to queue, and then the wait for the root: those that fit are queued, and the others are pending with the wait (rules R142,
R158, R250). -/
theorem runOps_tokens {ops : List SeqOp} {toks : List Token} {l : Layer} {ls : List Layer} {room : Nat}
    (hfused : s.params.fused = false) (hlayers : s.core.layers = l :: ls) (hroot : s.core.root = none)
    (hroom : room = s.params.fifoDepth - l.q.length) (htoks : ops.map SeqOp.token? = toks.map some) :
    runOps (ops ++ [SeqOp.await sized]) s =
      .ok (pending (ops.drop room ++ [SeqOp.await sized]) (queuedFor l ls (toks.take room) s)) := by
  induction ops generalizing s l toks room with
  | nil =>
    obtain rfl : toks = [] := List.map_eq_nil_iff.1 htoks.symm
    rw [List.take_nil, List.drop_nil, queuedFor_nil hlayers, List.nil_append]
    exact runOps_cons_of_hold (by rw [runOp_await, hroot]; rfl)
  | cons op ops ih =>
    cases toks with
    | nil => cases htoks
    | cons tok toks =>
      obtain ⟨htok, hrest⟩ := List.cons.inj htoks
      rw [List.cons_append]
      cases room with
      | zero =>
        rw [runOps_cons_of_hold (runOp_full hfused htok hlayers (by omega)), List.take_zero, queuedFor_nil hlayers]
        rfl
      | succ room =>
        have hnext := ih (s := queuedFor l ls [tok] s) (l := { l with q := l.q ++ [tok] }) (room := room) hfused rfl hroot (by
          show room = s.params.fifoDepth - (l.q ++ [tok]).length
          rw [List.length_append, List.length_singleton]
          omega) hrest
        rw [runOps_cons_of_next (runOp_queues hfused htok hlayers (by omega)), hnext]
        simp [queuedFor]

/-- Settles O23: the padding in closed form (`padQuad_residue`), and as many tokens as fit (`runOps_tokens`). -/
theorem pipelinedFinalizeClosesLayerZero : Obligations.PipelinedFinalizeClosesLayerZero := by
  intro s l ls leaves room hf hfused hcarry henough hlayers hroot hroom hleaves i sized hi
  obtain rfl : i = finalizer sized := by
    obtain ⟨rfl, rfl⟩ | ⟨rfl, rfl⟩ := hi
    · rfl
    · rfl
  have hpad : s.core.padQuad = .ok (s.core.clearCarry, leaves) := by
    rw [hleaves]
    exact padQuad_residue hcarry
  have htoks : (leaves.map SeqOp.push ++ [SeqOp.close]).map SeqOp.token? = (leaves.map nodeToken ++ [closeToken]).map some := by
    simp [Function.comp_def]
  have hrun := runOps_tokens (s := finalizing s s.core.clearCarry) (sized := sized) hfused hlayers hroot
    hroom htoks
  rw [List.append_assoc] at hrun
  rw [exec_finalizer hf henough hpad]
  show conclude (trap _ (runOps (leaves.map SeqOp.push ++ ([SeqOp.close] ++ [SeqOp.await sized])) _)) = _
  rw [hrun]
  simp only [trap_of_ok, conclude, pending, queuedFor, finalizing, beginCommand, Core.clearCarry, Parser.next, hf]

end Sys2Proof.AccumulatorProofs
end

section
/-! PROOFS. The nul-padding tower, and extension of a commitment as padding of its payload (rules R190 to R192, R195, R199). -/

namespace Sys2Proof.ExtendProofs

open Sys2Proof Sys2Proof.Machine Sys2Proof.Config Sys2Proof.StateProofs Sys2Proof.EncodingProofs Sys2Proof.ReducerProofs
open Sys2Proof.AccumulatorProofs

/-! ## The tower -/

/-- Settles O37: the induction over the height is `merkleRoot_zeros`. -/
theorem towerEntryIsTheZeroSubtreeRoot : Obligations.TowerEntryIsTheZeroSubtreeRoot := fun i => (merkleRoot_zeros i).symm

/-- Settles O38: a closed fact, five node hashes, evaluated by the kernel. -/
theorem towerStartsWithTheTabledValues : Obligations.TowerStartsWithTheTabledValues := by
  unfold Obligations.TowerStartsWithTheTabledValues
  decide +kernel

/-! ## Zero leaves after a whole tree -/

/-- One step of the extension (rule R195): as many zero leaves again, which are a tower entry. -/
theorem merkleRoot_double {h : Nat} {ys : List Node} (hlen : ys.length = 2 ^ h) :
    merkleRoot (h + 1) (ys ++ zeros (2 ^ h)) = nodeHash (merkleRoot h ys) (tower h) := by
  rw [merkleRoot, List.take_left' hlen, List.drop_left' hlen, merkleRoot_zeros]

/-- The extension of the root of a whole tree is the root of the tree with zero leaves after it (rules R192, R195). -/
theorem extension_merkleRoot {h : Nat} {ys : List Node} (hlen : ys.length = 2 ^ h) (g : Nat) :
    extension (merkleRoot h ys) (h + 5) (h + 5 + g) = merkleRoot (h + g) (ys ++ zeros (2 ^ (h + g) - 2 ^ h)) := by
  induction g with
  | zero => simp [extension]
  | succ g ih =>
    have hle : 2 ^ h ≤ 2 ^ (h + g) := Nat.pow_le_pow_right (by decide) (Nat.le_add_right h g)
    have hsplit : 2 ^ (h + (g + 1)) - 2 ^ h = (2 ^ (h + g) - 2 ^ h) + 2 ^ (h + g) := by
      rw [← Nat.add_assoc, pow_succ]
      omega
    have hpadded : (ys ++ zeros (2 ^ (h + g) - 2 ^ h)).length = 2 ^ (h + g) := by
      rw [length_append_zeros, hlen]
      omega
    have hstep : extension (merkleRoot h ys) (h + 5) (h + 5 + (g + 1)) =
        nodeHash (extension (merkleRoot h ys) (h + 5) (h + 5 + g)) (tower (h + g)) := by
      simp only [extension, Nat.add_sub_cancel_left, List.range'_1_concat, List.foldl_append, List.foldl_cons, List.foldl_nil]
      congr 2
      omega
    rw [hstep, ih, ← merkleRoot_double hpadded, List.append_assoc, zeros, zeros, List.replicate_append_replicate, hsplit]
    rfl

/-- The root over the height of the tree that some leaves need, and over `g` levels more (rules R131, R195). -/
theorem extension_paddedRoot {xs : List Node} (hne : xs.length ≠ 0) (g : Nat) :
    extension (paddedRoot xs) (treeHeight xs.length + 5) (treeHeight xs.length + 5 + g) =
      merkleRoot (treeHeight xs.length + g) (xs ++ zeros (2 ^ (treeHeight xs.length + g) - xs.length)) := by
  obtain ⟨hle, -⟩ := pow_treeHeight hne
  have hgrow : 2 ^ treeHeight xs.length ≤ 2 ^ (treeHeight xs.length + g) :=
    Nat.pow_le_pow_right (by decide) (Nat.le_add_right _ g)
  rw [paddedRoot, extension_merkleRoot (by rw [length_append_zeros]; omega), List.append_assoc, zeros,
    List.replicate_append_replicate]
  congr 3
  omega

/-! ## Zero bytes after a payload -/

/-- Zero bytes after whole quads are zero leaves (rule R101). -/
theorem quadLeaves_append_zeros {q m : Nat} {p : List Byte} (hlen : p.length = 127 * q) (j : Nat) (hm : 127 * j ≤ m) :
    quadLeaves (q + j) (p ++ List.replicate m 0#8) = quadLeaves q p ++ zeros (4 * j) := by
  induction j with
  | zero => rw [Nat.add_zero, quadLeaves_append _ (Nat.le_of_eq hlen.symm)]; simp
  | succ j ih =>
    have hdrop : ((p ++ List.replicate m 0#8).drop (127 * (q + j))).take 127 = List.replicate 127 0#8 := by
      rw [Nat.mul_add, ← hlen, List.drop_length_add_append, List.drop_replicate, List.take_replicate, Nat.min_eq_left (by omega)]
    rw [← Nat.add_assoc, quadLeaves_succ, ih (by omega), hdrop, expandLeaves_zero, List.append_assoc, zeros, zeros,
      List.replicate_append_replicate]
    rfl

/-- A payload with zero bytes up to `Q` quads has zero leaves after its own (rule R160 (a)). -/
theorem paddedLeaves_append_zeros {p : List Byte} {Q : Nat} (hQ : ceilDiv p.length 127 ≤ Q) :
    paddedLeaves (p ++ List.replicate (Q * 127 - p.length) 0#8) = paddedLeaves p ++ zeros (4 * Q - 4 * ceilDiv p.length 127) := by
  have hceil : p.length ≤ 127 * ceilDiv p.length 127 := by unfold ceilDiv; omega
  have hlen : (p ++ List.replicate (Q * 127 - p.length) 0#8).length = 127 * Q := by
    rw [List.length_append, List.length_replicate]
    omega
  have hwhole : paddedLeaves (p ++ List.replicate (Q * 127 - p.length) 0#8) =
      quadLeaves Q (p ++ List.replicate (Q * 127 - p.length) 0#8) := by
    rw [paddedLeaves_whole (by rw [hlen, Nat.mul_mod_right]), hlen, Nat.mul_div_cancel_left _ (by decide)]
  have hsplit : Q * 127 - p.length = (127 * ceilDiv p.length 127 - p.length) + 127 * (Q - ceilDiv p.length 127) := by omega
  have hquads := quadLeaves_append_zeros (q := ceilDiv p.length 127)
    (p := p ++ List.replicate (127 * ceilDiv p.length 127 - p.length) 0#8)
    (by rw [List.length_append, List.length_replicate]; omega) (Q - ceilDiv p.length 127) (Nat.le_refl _)
  rw [Nat.add_sub_cancel' hQ, List.append_assoc, List.replicate_append_replicate, ← hsplit] at hquads
  rw [hwhole, hquads, paddedLeaves, Nat.mul_sub]

/-- The natural padded size of a payload is 32 bytes for each leaf of its tree (rules R105, R157). -/
theorem natural_size {p : List Byte} {a : Nat} (hmin : minPiecePayload ≤ p.length) (hmax : p.length ≤ maxPiecePayload)
    (ha : (paddedSize (BitVec.ofNat 64 p.length)).toNat = 2 ^ a) : a = treeHeight (paddedLeaves p).length + 5 := by
  obtain ⟨hpos, -⟩ := ceilDiv_bounds hmin hmax
  have hsize : 2 ^ treeHeight (ceilDiv p.length 127 * 128) = 2 ^ a := (paddedSize_toNat hmin hmax).1.symm.trans ha
  rw [← Nat.pow_right_injective (Nat.le_refl 2) hsize, paddedLeaves_length, Nat.add_comm, ← treeHeight_pow_mul 5 (by omega)]
  congr 1
  omega

/-- Leaves that fill a tree are not padded (rule R131). -/
theorem paddedRoot_whole {xs : List Node} {h : Nat} (hlen : xs.length = 2 ^ h) : paddedRoot xs = merkleRoot h xs := by
  have hheight : treeHeight (2 ^ h) = h := by simp [treeHeight, nextPow2, Nat.log2_two_pow]
  rw [paddedRoot, hlen, hheight, Nat.sub_self, List.replicate_zero, List.append_nil]

/-- commP of a payload with zero bytes up to `2^k` quads: the tree of height `k + 2` over its leaves and zero leaves (rule R160). -/
theorem commP_append_zeros {p : List Byte} {k : Nat} (hk : ceilDiv p.length 127 ≤ 2 ^ k) :
    commP (p ++ List.replicate (2 ^ k * 127 - p.length) 0#8) =
      merkleRoot (k + 2) (paddedLeaves p ++ zeros (2 ^ (k + 2) - (paddedLeaves p).length)) := by
  have hpow : 2 ^ (k + 2) = 4 * 2 ^ k := by
    rw [pow_add, Nat.mul_comm]
    rfl
  rw [commP, paddedLeaves_append_zeros hk, ← paddedLeaves_length, ← hpow]
  refine paddedRoot_whole ?_
  rw [length_append_zeros, paddedLeaves_length]
  omega

/-- Settles O33: both sides are the root of the payload's leaves with zero leaves after them (`extension_paddedRoot`,
`commP_append_zeros`). -/
theorem extensionAgreesWithThePaddedPayload : Obligations.ExtensionAgreesWithThePaddedPayload := by
  intro p a b hmin ha hmax hab _
  obtain ⟨hpos, -⟩ := ceilDiv_bounds hmin hmax
  have hlen : (paddedLeaves p).length = 4 * ceilDiv p.length 127 := paddedLeaves_length p
  have hne : (paddedLeaves p).length ≠ 0 := by omega
  obtain rfl := natural_size hmin hmax ha
  obtain ⟨g, rfl⟩ := Nat.exists_eq_add_of_le hab
  have hheight : treeHeight (paddedLeaves p).length = 2 + treeHeight (ceilDiv p.length 127) := by
    rw [hlen]
    exact treeHeight_pow_mul 2 hpos
  obtain ⟨k, hk⟩ : ∃ k, treeHeight (paddedLeaves p).length + g = k + 2 :=
    ⟨treeHeight (ceilDiv p.length 127) + g, by omega⟩
  have hroom : ceilDiv p.length 127 ≤ 2 ^ k :=
    le_trans (pow_treeHeight hpos).1 (Nat.pow_le_pow_right (by decide) (by omega))
  have hquads : 2 ^ (treeHeight (paddedLeaves p).length + 5 + g) / 128 = 2 ^ k := by
    rw [Nat.add_right_comm, hk, show k + 2 + 5 = k + 7 from rfl, pow_add]
    exact Nat.mul_div_cancel _ (by decide)
  rw [commP, extension_paddedRoot hne, hk, hquads, commP_append_zeros hroom]

end Sys2Proof.ExtendProofs
end

section
/-! PROOFS. EXTEND with its operands on offer: they are received byte by byte, checked, and the answer is given (rules R75,
R193 to R196). -/

namespace Sys2Proof.ExtendProofs

open Sys2Proof Sys2Proof.Machine Sys2Proof.Config Sys2Proof.StateProofs Sys2Proof.MemoryProofs Sys2Proof.EncodingProofs
open Sys2Proof.ReducerProofs Sys2Proof.AccumulatorProofs

variable {s : State} {clen : Arg} {src tgt : Size} {c rest : List Byte}

/-! ## The operands -/

/-- The EXTEND of `clen` that began in `s`, in phase `p`, with what it has received of `XC`, `XS` and `XT`. -/
def staging (s : State) (clen : Arg) (xc xs xt : List Byte) (p : Phase) (rem : Arg) : State :=
  { s with
    job := []
    parser := {
      phase := p, cwbuf := [], cmd := some { opc := opcExtend, arg := clen }, saved := some s.core, rem := rem, xc := xc,
      xclen := clen, xs := xs, xt := xt, drop := s.fatal } }

/-- The bytes `d` of the commitment are in: the first 32 are in `XC`. -/
def receivingC (s : State) (clen : Arg) (d : List Byte) : State :=
  staging s clen (d.take 32) [] [] .extC (clen - BitVec.ofNat 56 d.length)

/-- The bytes `d` of the source size are in. -/
def receivingS (s : State) (clen : Arg) (xc d : List Byte) : State :=
  staging s clen xc d [] .extS (8#56 - BitVec.ofNat 56 d.length)

/-- The bytes `d` of the target size are in. -/
def receivingT (s : State) (clen : Arg) (xc xs d : List Byte) : State :=
  staging s clen xc xs d .extT (8#56 - BitVec.ofNat 56 d.length)

/-- All the operands are in. -/
def received (s : State) (clen : Arg) (xc xs xt : List Byte) : State := staging s clen xc xs xt .extT 0#56

/-- EXTEND executes in `u` (rule R75). -/
def executed (u : State) : Except Fault State := trap u (extendRun u)

theorem startExtend_eq (s : State) (clen : Arg) :
    startExtend clen s = if clen = 0#56 then receivingS s clen [] [] else receivingC s clen [] := by
  have hall : clen - BitVec.ofNat 56 0 = clen := BitVec.sub_zero clen
  unfold startExtend receivingC
  simp only [List.length_nil, hall]
  split
  · rfl
  · rfl

/-- Byte `j < 32` of the commitment is stored, later ones are not. -/
theorem take_digest_append (d : List Byte) (b : Byte) :
    (if !decide ((d.take 32).length < digestSize) then d.take 32 else d.take 32 ++ [b]) = (d ++ [b]).take 32 := by
  unfold digestSize
  by_cases h : d.length < 32
  · rw [List.take_of_length_le (Nat.le_of_lt h), List.take_of_length_le (by simpa using h), if_neg (by simp [h])]
  · rw [List.take_append_of_le_length (by omega), if_pos (by simp; omega)]

theorem stageC_receivingC (hf : s.fatal = false) (b : Byte) (d : List Byte) :
    stageC b (receivingC s clen d) = receivingC s clen (d ++ [b]) := by
  rw [receivingC, receivingC, ← take_digest_append, List.length_append, List.length_singleton, ← rem_succ]
  simp only [stageC, staging, hf, Bool.false_or]

theorem stageS_receivingS (hf : s.fatal = false) (b : Byte) (xc d : List Byte) :
    stageS b (receivingS s clen xc d) = receivingS s clen xc (d ++ [b]) := by
  rw [receivingS, receivingS, List.length_append, List.length_singleton, ← rem_succ]
  simp only [stageS, staging, hf, if_neg Bool.false_ne_true]

theorem stageT_receivingT (hf : s.fatal = false) (b : Byte) (xc xs d : List Byte) :
    stageT b (receivingT s clen xc xs d) = receivingT s clen xc xs (d ++ [b]) := by
  rw [receivingT, receivingT, List.length_append, List.length_singleton, ← rem_succ]
  simp only [stageT, staging, hf, if_neg Bool.false_ne_true]

/-- `REM` is 0 after the last byte of an operand of `len` bytes. -/
theorem rem_last_iff {len : Arg} {n : Nat} (h : n + 1 ≤ len.toNat) :
    len - BitVec.ofNat 56 n - 1#56 = 0#56 ↔ n + 1 = len.toNat := by
  rw [rem_succ, rem_eq_zero_iff h]

theorem operandByte_receivingC (hf : s.fatal = false) (b : Byte) {d : List Byte} (hd : d.length + 1 ≤ clen.toNat) :
    operandByte b (receivingC s clen d) =
      if d.length + 1 = clen.toNat then .ok (receivingS s clen ((d ++ [b]).take 32) [])
      else .ok (receivingC s clen (d ++ [b])) := by
  have hlast : (receivingC s clen d).parser.rem - 1#56 = 0#56 ↔ d.length + 1 = clen.toNat := rem_last_iff hd
  show Except.ok (extCByte b _) = _
  rw [extCByte_eq, stageC_receivingC hf]
  simp only [hlast, apply_ite Except.ok]
  rfl

theorem operandByte_receivingS (hf : s.fatal = false) (xc : List Byte) (b : Byte) {d : List Byte} (hd : d.length + 1 ≤ 8) :
    operandByte b (receivingS s clen xc d) =
      if d.length + 1 = 8 then .ok (receivingT s clen xc (d ++ [b]) []) else .ok (receivingS s clen xc (d ++ [b])) := by
  have hlast : (receivingS s clen xc d).parser.rem - 1#56 = 0#56 ↔ d.length + 1 = 8 := rem_last_iff (len := 8#56) hd
  show Except.ok (extSByte b _) = _
  rw [extSByte_eq, stageS_receivingS hf]
  simp only [hlast, apply_ite Except.ok]
  rfl

theorem operandByte_receivingT (hf : s.fatal = false) (xc xs : List Byte) (b : Byte) {d : List Byte} (hd : d.length + 1 ≤ 8) :
    operandByte b (receivingT s clen xc xs d) =
      if d.length + 1 = 8 then executed (received s clen xc xs (d ++ [b])) else .ok (receivingT s clen xc xs (d ++ [b])) := by
  have hlast : (receivingT s clen xc xs d).parser.rem - 1#56 = 0#56 ↔ d.length + 1 = 8 := rem_last_iff (len := 8#56) hd
  have hdrop : (receivingT s clen xc xs d).parser.drop = false := hf
  have hall (h : d.length + 1 = 8) : receivingT s clen xc xs (d ++ [b]) = received s clen xc xs (d ++ [b]) := by
    rw [receivingT, List.length_append, List.length_singleton, h]
    rfl
  show extTByte b _ = _
  rw [extTByte_eq, stageT_receivingT hf, hdrop]
  simp only [hlast]
  split
  · next h => rw [hall h]; rfl
  · rfl

/-- Receiving an operand of `n` bytes, through the states `at_` of the bytes received so far (rule R75). -/
theorem feed_operand {at_ : List Byte → State} {next : List Byte → Except Fault State} {after : State} {n : Nat}
    (hwants : ∀ d, (at_ d).wantsOperand = true)
    (hbyte : ∀ b d, d.length + 1 ≤ n →
      operandByte b (at_ d) = if d.length + 1 = n then next (d ++ [b]) else .ok (at_ (d ++ [b])))
    (bs d : List Byte) (hne : bs ≠ []) (hlen : d.length + bs.length = n) (hnext : next (d ++ bs) = .ok after) :
    feed (bs ++ rest) (at_ d) = feed rest after := by
  induction bs generalizing d with
  | nil => exact absurd rfl hne
  | cons b bs ih =>
    rw [List.length_cons] at hlen
    have hb := hbyte b d (by omega)
    by_cases hbs : bs = []
    · subst hbs
      rw [if_pos (show d.length + 1 = n from hlen), hnext] at hb
      exact feed_cons_of_ok (hwants d) hb rest
    · have hpos := List.length_pos_iff.2 hbs
      rw [if_neg (by omega)] at hb
      rw [List.cons_append, feed_cons_of_ok (hwants d) hb]
      exact ih (d ++ [b]) hbs (by rw [List.length_append, List.length_singleton]; omega) (by rwa [List.append_assoc])

theorem le64_length (v : Size) : (le64 v).length = 8 := leBytes_length 8 _

theorem le64_ne_nil (v : Size) : le64 v ≠ [] := List.ne_nil_of_length_pos (by rw [le64_length]; decide)

/-- The state of EXTEND when its operands `c`, `src` and `tgt` are in (rules R75, R83). -/
abbrev loaded (s : State) (clen : Arg) (c : List Byte) (src tgt : Size) : State :=
  received s clen (c.take 32) (le64 src) (le64 tgt)

/-- EXTEND with all its operands on offer, up to what it does with them (rule R75). -/
theorem exec_extend_received {t : State} (hf : s.fatal = false) (hlen : c.length = clen.toNat)
    (hinput : s.input = c ++ le64 src ++ le64 tgt ++ rest) (hrun : executed (loaded s clen c src tgt) = .ok t) :
    exec (.extend clen) s = conclude (feed rest t) := by
  have htarget : feed (le64 tgt ++ rest) (receivingT s clen (c.take 32) (le64 src) []) = feed rest t :=
    feed_operand (next := fun d => executed (received s clen (c.take 32) (le64 src) d)) (fun _ => rfl)
      (fun b _ hd => operandByte_receivingT hf _ _ b hd) _ [] (le64_ne_nil tgt) (by rw [le64_length]; rfl) hrun
  have hsource : feed (le64 src ++ (le64 tgt ++ rest)) (receivingS s clen (c.take 32) []) = feed rest t :=
    (feed_operand (next := fun d => .ok (receivingT s clen (c.take 32) d [])) (fun _ => rfl)
      (fun b _ hd => operandByte_receivingS hf _ b hd) _ [] (le64_ne_nil src) (by rw [le64_length]; rfl) rfl).trans htarget
  have hall : feed (c ++ (le64 src ++ (le64 tgt ++ rest))) (startExtend clen s) = feed rest t := by
    rw [startExtend_eq]
    split
    · next hzero =>
      obtain rfl : c = [] := List.length_eq_zero_iff.1 (by rw [hlen, hzero]; rfl)
      exact hsource
    · next hpos =>
      have hne : c ≠ [] := by
        rintro rfl
        exact hpos (BitVec.eq_of_toNat_eq hlen.symm)
      exact (feed_operand (next := fun d => .ok (receivingS s clen (d.take 32) [])) (fun _ => rfl)
        (fun b _ hd => operandByte_receivingC hf b hd) c [] hne (by rw [List.length_nil, Nat.zero_add, hlen]) rfl).trans hsource
  have hoffer : (startExtend clen s).input = s.input := by
    rw [startExtend_eq]
    split
    · rfl
    · rfl
  show conclude (feed (startExtend clen s).input (startExtend clen s)) = _
  rw [hoffer, hinput, List.append_assoc, List.append_assoc, hall]

/-- An EXTEND that ends with a response (rules R57, R75). -/
theorem exec_extend_replies {st : Status} {payload : List Byte} (hf : s.fatal = false) (hlen : c.length = clen.toNat)
    (hinput : s.input = c ++ le64 src ++ le64 tgt ++ rest)
    (hrun : extendRun (loaded s clen c src tgt) = .ok (reply st payload (loaded s clen c src tgt))) :
    exec (.extend clen) s = .next { s with
      parser := { s.parser.next with rem := 0#56, xclen := clen }, job := [], rspq := s.rspq ++ [st.code :: payload],
      input := rest } := by
  rw [exec_extend_received hf hlen hinput (by rw [executed, hrun]; rfl), feed_idle rfl]
  rfl

/-- The operands of the checks are the ones received (rule R83). -/
theorem loaded_operands (s : State) (clen : Arg) (c : List Byte) (src tgt : Size) :
    (loaded s clen c src tgt).xsSize = .ok src ∧ (loaded s clen c src tgt).xtSize = .ok tgt ∧
      (loaded s clen c src tgt).parser.xclen = clen :=
  ⟨(if_pos (le64_length src)).trans (congrArg Except.ok (fromLe64_le64 src)),
    (if_pos (le64_length tgt)).trans (congrArg Except.ok (fromLe64_le64 tgt)), rfl⟩

/-! ## The checks -/

theorem zext64_eq_iff : zext64 clen = 32#64 ↔ clen.toNat = 32 := by
  have hlt := clen.isLt
  rw [zext64]
  bv_omega

/-- A power of two is known by its one set bit. -/
theorem toNat_eq_two_pow_iff (v : Size) (k : Nat) : v.toNat = 2 ^ k ↔ ∀ i, v.getLsbD i = true ↔ i = k := by
  have hbit (i : Nat) : (v.getLsbD i = true ↔ i = k) ↔ v.toNat.testBit i = (2 ^ k).testBit i := by
    rw [Nat.testBit_two_pow, BitVec.testBit_toNat, eq_comm (a := i)]
    cases v.getLsbD i <;> simp
  exact ⟨fun h i => (hbit i).2 (by rw [h]), fun h => Nat.eq_of_testBit_eq fun i => (hbit i).1 (h i)⟩

/-- The check for a power of two (rules R10, R194): one set bit. -/
theorem popcount_eq_one (v : Size) : popcount v = 1 ↔ isPow2 v := by
  have hcard : popcount v = ((List.range 64).filter fun i => v.getLsbD i).toFinset.card :=
    (List.toFinset_card_of_nodup (List.nodup_range.filter _)).symm
  have hmem (i : Nat) : i ∈ ((List.range 64).filter fun i => v.getLsbD i).toFinset ↔ v.getLsbD i = true := by
    rw [List.mem_toFinset, List.mem_filter, List.mem_range]
    exact and_iff_right_of_imp BitVec.lt_of_getLsbD
  rw [hcard, Finset.card_eq_one]
  refine exists_congr fun k => ?_
  simp only [toNat_eq_two_pow_iff, Finset.ext_iff, hmem, Finset.mem_singleton]

theorem validate_length (h : clen.toNat ≠ 32) : validate clen src tgt = some .invalidCommpLength :=
  if_pos (mt zext64_eq_iff.1 h)

theorem validate_powers (hlen : clen.toNat = 32) (h : ¬(isPow2 src ∧ isPow2 tgt)) :
    validate clen src tgt = some .notPowerOfTwo := by
  rw [← popcount_eq_one, ← popcount_eq_one, not_and_or] at h
  rw [validate, if_neg (not_not.2 (zext64_eq_iff.2 hlen)), if_pos h]

/-- The checks on the sizes, once the length and the powers of two are right (rule R194). -/
theorem validate_sizes (hlen : clen.toNat = 32) (hsrc : isPow2 src) (htgt : isPow2 tgt) :
    validate clen src tgt =
      if tgt.toNat < src.toNat then some .targetTooSmall
      else if src.toNat < 128 then some .sourceBelowMinimum
      else if 2 ^ 36 < tgt.toNat then some .targetAboveMaximum
      else none := by
  rw [← popcount_eq_one] at hsrc htgt
  rw [validate, if_neg (not_not.2 (zext64_eq_iff.2 hlen)), if_neg (by simp [hsrc, htgt])]
  rfl

/-- An EXTEND whose checks fail answers the status and does nothing else (rule R194). -/
theorem extendRun_rejects {st : Status} (h : validate clen src tgt = some st) :
    extendRun (loaded s clen c src tgt) = .ok (reply st [] (loaded s clen c src tgt)) := by
  obtain ⟨hxs, hxt, hxclen⟩ := loaded_operands s clen c src tgt
  simp only [extendRun, hxs, hxt, hxclen, h]

/-- Settles O29: the status of the first check that fails (`validate_length`, `validate_powers`, `validate_sizes`) is the answer
(`extendRun_rejects`). -/
theorem extendRejectsInTheOrderOfTheChecks : Obligations.ExtendRejectsInTheOrderOfTheChecks := by
  intro s c rest clen src tgt code hf hlen hinput hchecks
  obtain ⟨st, hst, rfl⟩ : ∃ st, validate clen src tgt = some st ∧ st.code = code := by
    rcases hchecks with ⟨hne, rfl⟩ | ⟨h32, hpow, rfl⟩ | ⟨h32, hs, ht, hless, rfl⟩ | ⟨h32, hs, ht, hle, hsmall, rfl⟩ |
      ⟨h32, hs, ht, hle, hmin, hlarge, rfl⟩
    · exact ⟨_, validate_length hne, rfl⟩
    · exact ⟨_, validate_powers h32 hpow, rfl⟩
    · exact ⟨.targetTooSmall, by rw [validate_sizes h32 hs ht, if_pos hless], rfl⟩
    · exact ⟨.sourceBelowMinimum, by rw [validate_sizes h32 hs ht, if_neg (by omega), if_pos hsmall], rfl⟩
    · exact ⟨.targetAboveMaximum, by rw [validate_sizes h32 hs ht, if_neg (by omega), if_neg (by omega), if_pos hlarge], rfl⟩
  exact exec_extend_replies hf hlen hinput (extendRun_rejects hst)

/-! ## The answer -/

/-- The extension loop on a working engine reads the tower below entry 31 only (rule R195). -/
theorem extendLoop_working {ok : Bool} {n k : Nat} (hok : ok = true) (hk : k + n ≤ 36) (x : Node) :
    extendLoop ok n k x = .ok ((List.range' k n).foldl (fun x k => nodeHash x (tower (k - 5))) x) := by
  induction n generalizing k x with
  | zero => rfl
  | succ n ih =>
    have htower : readTower (k - 5) = .ok (tower (k - 5)) := readTower_eq (by unfold towerEntries; omega)
    simp only [extendLoop, htower, hash_working hok]
    rw [ih (by omega), List.range'_succ, List.foldl_cons]

/-- A legal size (rules R6, R194). -/
theorem size_toNat {a : Nat} (ha : a ≤ 36) : (BitVec.ofNat 64 (2 ^ a)).toNat = 2 ^ a := by
  rw [BitVec.toNat_ofNat, Nat.mod_eq_of_lt (Nat.pow_lt_pow_right (by decide) (by omega))]

theorem log2_size {a : Nat} (ha : a ≤ 36) : Machine.log2 (BitVec.ofNat 64 (2 ^ a)) = a := by
  rw [Machine.log2, size_toNat ha, Nat.log2_two_pow]

/-- The value of an EXTEND between legal sizes (rules R193, R195). -/
theorem extendValue_working {ok : Bool} {a b : Nat} (hok : ok = true) (hab : a ≤ b) (hb : b ≤ 36) (x : Node) :
    extendValue ok x (BitVec.ofNat 64 (2 ^ a)) (BitVec.ofNat 64 (2 ^ b)) = .ok (extension x a b) := by
  rw [extendValue, log2_size hb, log2_size (hab.trans hb)]
  exact extendLoop_working hok (by omega) x

/-- EXTEND to the same size hashes nothing (rule R196). -/
theorem extendValue_self (ok : Bool) (x : Node) (v : Size) : extendValue ok x v v = .ok x := by
  rw [extendValue, Nat.sub_self]
  rfl

/-- All checks pass (rule R194). -/
theorem validate_legal {a b : Nat} (hmin : 7 ≤ a) (hab : a ≤ b) (hb : b ≤ 36) :
    validate 32#56 (BitVec.ofNat 64 (2 ^ a)) (BitVec.ofNat 64 (2 ^ b)) = none := by
  have hsrc : (BitVec.ofNat 64 (2 ^ a)).toNat = 2 ^ a := size_toNat (hab.trans hb)
  have htgt : (BitVec.ofNat 64 (2 ^ b)).toNat = 2 ^ b := size_toNat hb
  rw [validate_sizes rfl ⟨a, hsrc⟩ ⟨b, htgt⟩, hsrc, htgt, if_neg, if_neg, if_neg]
  · exact Nat.not_lt.2 (Nat.pow_le_pow_right (by decide) hb)
  · exact Nat.not_lt.2 (Nat.pow_le_pow_right (n := 2) (by decide) hmin)
  · exact Nat.not_lt.2 (Nat.pow_le_pow_right (by decide) hab)

/-- An EXTEND whose checks pass answers its value (rules R193, R195). -/
theorem extendRun_answers {n : Node} (hvalid : validate clen src tgt = none) (hlen : c.length = 32)
    (hvalue : extendValue s.shaOk (nodeOfBytes c) src tgt = .ok n) :
    extendRun (loaded s clen c src tgt) = .ok (reply .ok (nodeBytes n) (loaded s clen c src tgt)) := by
  obtain ⟨hxs, hxt, hxclen⟩ := loaded_operands s clen c src tgt
  have hxc : (loaded s clen c src tgt).xcNode = .ok (nodeOfBytes c) := by
    have hall : c.take 32 = c := List.take_of_length_le (Nat.le_of_eq hlen)
    rw [loaded, hall]
    exact if_pos hlen
  have hsha : (loaded s clen c src tgt).shaOk = s.shaOk := rfl
  simp only [extendRun, hxs, hxt, hxclen, hvalid, hxc, hsha, hvalue]

/-- Settles O27: the checks pass (`validate_legal`), and the loop computes the extension (`extendValue_working`). -/
theorem extendAnswersTheExtension : Obligations.ExtendAnswersTheExtension := by
  intro s c rest a b hf hsha hlen hmin hab hb hinput
  exact exec_extend_replies hf hlen hinput
    (extendRun_answers (validate_legal hmin hab hb) hlen (extendValue_working hsha hab hb _))

/-- Bytes are their number's bytes (rule R10). -/
theorem leBytes_leNat (bs : List Byte) : leBytes bs.length (leNat bs) = bs := by
  induction bs with
  | nil => rfl
  | cons b bs ih =>
    have hb : b.toNat < 256 := b.isLt
    have hdiv : (b.toNat + 256 * leNat bs) / 256 = leNat bs := by omega
    have hlow : BitVec.ofNat 8 (b.toNat + 256 * leNat bs) = b := by
      apply BitVec.eq_of_toNat_eq
      rw [BitVec.toNat_ofNat]
      omega
    rw [List.length_cons, leNat, leBytes, hdiv, hlow, ih]

/-- The bytes of a node are the 32 it was made of, Fr32 or not (rules R9, R84). -/
theorem nodeBytes_nodeOfBytes (hlen : c.length = 32) : nodeBytes (nodeOfBytes c) = c := by
  have hlt : leNat c < 2 ^ 256 := by
    have := leNat_lt c
    rw [hlen] at this
    exact this
  rw [nodeBytes, nodeOfBytes, BitVec.toNat_ofNat, Nat.mod_eq_of_lt hlt, ← hlen, leBytes_leNat]

/-- Settles O28: the loop makes no step (`extendValue_self`), and the bytes are those received (`nodeBytes_nodeOfBytes`). -/
theorem extendToTheSameSizeReturnsC : Obligations.ExtendToTheSameSizeReturnsC := by
  intro s c rest a hf hlen hmin hmax hinput
  have hrun := extendRun_answers (s := s) (validate_legal hmin (le_refl a) hmax) hlen (extendValue_self s.shaOk _ _)
  rw [nodeBytes_nodeOfBytes hlen] at hrun
  exact exec_extend_replies hf hlen hinput hrun

end Sys2Proof.ExtendProofs
end

section
/-! PROOFS. The frame of EXTEND, with whatever part of its operands on offer (rules R198, R214). -/

namespace Sys2Proof.ExtendProofs

open Sys2Proof Sys2Proof.Machine Sys2Proof.Config Sys2Proof.StateProofs

variable {s t : State}

/-! ## What EXTEND can end in -/

/-- A read of a cell of the state: the value, or a fault of the model, but never the internal fault. -/
def Reads {α : Type} (r : Res α) : Prop := (∃ a, r = .ok a) ∨ ∃ f, r = .error (.fault f)

theorem reads_ite {α : Type} {p : Prop} [Decidable p] {a : α} {f : Fault} :
    Reads (if p then .ok a else .error (.fault f) : Res α) := by
  split
  · exact .inl ⟨a, rfl⟩
  · exact .inr ⟨f, rfl⟩

theorem reads_readTower (i : Nat) : Reads (readTower i) := reads_ite
theorem reads_xsSize (s : State) : Reads s.xsSize := reads_ite
theorem reads_xtSize (s : State) : Reads s.xtSize := reads_ite
theorem reads_xcNode (s : State) : Reads s.xcNode := reads_ite

/-- The extension loop meets an internal fault on a failed engine only (rule R214). -/
theorem extendLoop_internal {ok : Bool} {n k : Nat} {c : Node} (h : extendLoop ok n k c = .error .internal) : ok = false := by
  induction n generalizing k c with
  | zero => cases h
  | succ n ih =>
    obtain ⟨pad, hpad⟩ | ⟨f, hf⟩ := reads_readTower (k - 5)
    · cases ok with
      | false => rfl
      | true =>
        simp only [extendLoop, hpad] at h
        exact ih h
    · simp only [extendLoop, hf] at h
      cases h

/-- EXTEND with its operands received ends with a response, or meets an internal fault on a failed engine (rules R193, R214). -/
theorem extendRun_meets_engine (s : State) :
    Meets (fun t => ∃ st payload, t = reply st payload s) (s.shaOk = false) True (extendRun s) := by
  unfold extendRun
  obtain ⟨src, hsrc⟩ | ⟨f, hf⟩ := reads_xsSize s
  · obtain ⟨tgt, htgt⟩ | ⟨f, hf⟩ := reads_xtSize s
    · simp only [hsrc, htgt]
      cases validate s.parser.xclen src tgt with
      | some st => exact ⟨st, [], rfl⟩
      | none =>
        obtain ⟨c, hc⟩ | ⟨f, hf⟩ := reads_xcNode s
        · simp only [hc]
          match hvalue : extendValue s.shaOk c src tgt with
          | .ok c' => exact ⟨.ok, nodeBytes c', rfl⟩
          | .error .internal => exact extendLoop_internal hvalue
          | .error (.fault _) => trivial
        · simp only [hf]
          trivial
    · simp only [hsrc, hf]
      trivial
  · simp only [hf]
    trivial

/-! ## The frame -/

/-- `t` is a state of the EXTEND that began in `s`, or one after it: it has the accumulator, the layers and the queues of `s`, an
internal fault goes back to them, and on a working engine FATAL is as it was. -/
structure Extending (s t : State) : Prop where
  core : t.core = s.core
  sel : t.sel = s.sel
  shaOk : t.shaOk = s.shaOk
  params : t.params = s.params
  out : t.out = s.out
  sched : t.sched = s.sched
  fatal : s.shaOk = true → t.fatal = s.fatal ∧ t.fatalCause = s.fatalCause
  saved : ∀ c, t.parser.saved = some c → c = s.core
  phase : t.parser.phase ≠ .payload

theorem Extending.withParser (h : Extending s t) (p : Parser) (hsaved : p.saved = t.parser.saved)
    (hphase : p.phase ≠ .payload) : Extending s { t with parser := p } :=
  ⟨h.core, h.sel, h.shaOk, h.params, h.out, h.sched, h.fatal, fun c hc => h.saved c (hsaved ▸ hc), hphase⟩

theorem Extending.reply (h : Extending s t) (st : Status) (payload : List Byte) : Extending s (reply st payload t) where
  __ := h
  saved _ hc := nomatch hc
  phase hp := nomatch hp

/-- The internal fault goes back to the accumulator EXTEND began with, which is the one it has (rules R12, R214). -/
theorem Extending.internalFault (h : Extending s t) (hsha : s.shaOk = false) : Extending s (internalFault t) := by
  have hfatal {b : Bool} {c : Byte} (hok : s.shaOk = true) : b = s.fatal ∧ c = s.fatalCause :=
    absurd (hsha.symm.trans hok) Bool.false_ne_true
  obtain ⟨-, heq⟩ | ⟨c, hc, ⟨-, heq⟩ | ⟨-, heq⟩⟩ := internalFault_cases t
  all_goals rw [heq]
  · exact { h with fatal := hfatal }
  · exact { h with core := h.saved c hc, fatal := hfatal }
  · exact { h with core := h.saved c hc, fatal := hfatal, saved := (fun _ hc => nomatch hc), phase := (fun hp => nomatch hp) }

theorem operandByte_extending (b : Byte) (hphase : t.parser.phase ≠ .cmd) (h : Extending s t) :
    Ends (Extending s) True (operandByte b t) := by
  have hstaged : Extending s (stageT b t) := h.withParser _ rfl h.phase
  have hextS : Phase.extS ≠ .payload := by decide
  have hextT : Phase.extT ≠ .payload := by decide
  refine operandByte_ends hphase (fun hp _ => absurd hp h.phase) (fun hp _ => absurd hp h.phase) (fun _ => ?_) (fun _ => ?_)
    (fun _ => ?_)
  · rw [extCByte_eq]
    split
    · exact h.withParser _ rfl hextS
    · exact h.withParser _ rfl h.phase
  · rw [extSByte_eq]
    split
    · exact h.withParser _ rfl hextT
    · exact h.withParser _ rfl h.phase
  · rw [extTByte_eq]
    split
    · split
      · exact endDropped_of_reply hstaged.reply
      · refine ends_trap ((extendRun_meets_engine (stageT b t)).imp ?_ fun hsha => ?_)
        · rintro _ ⟨st, payload, rfl⟩
          exact hstaged.reply st payload
        · exact hstaged.internalFault (hstaged.shaOk ▸ hsha)
    · exact hstaged

theorem feed_extending {bs : List Byte} (h : Extending s t) : Ends (Extending s) True (feed bs t) :=
  feed_ends (fun _ _ hu => { hu with })
    (fun b u hu hw => operandByte_extending b ((wantsOperand_iff u).1 hw).1 hu) h

theorem startExtend_extending (clen : Arg) (s : State) : Extending s (startExtend clen s) := by
  have hsaved : ∀ c, some s.core = some c → c = s.core := fun c hc => (Option.some.inj hc).symm
  rw [startExtend_eq]
  split
  · exact ⟨rfl, rfl, rfl, rfl, rfl, rfl, fun _ => ⟨rfl, rfl⟩, hsaved, fun hp => nomatch hp⟩
  · exact ⟨rfl, rfl, rfl, rfl, rfl, rfl, fun _ => ⟨rfl, rfl⟩, hsaved, fun hp => nomatch hp⟩

/-- Settles O30: every operand byte keeps `Extending`. -/
theorem extendLeavesTheAccumulatorAlone : Obligations.ExtendLeavesTheAccumulatorAlone := by
  intro s t clen hexec
  have hmoves : Moves (Extending s) True (exec (.extend clen) s) :=
    moves_conclude.2 (feed_extending (startExtend_extending clen s))
  have ht := hmoves.of_next hexec
  exact ⟨ht.core, ht.sel, ht.shaOk, ht.params, ht.out, ht.sched, ht.fatal⟩

end Sys2Proof.ExtendProofs
end

section
/-! PROOFS. A failed SHA-256 engine in one layer's step (rules R107, R140, R214). -/

namespace Sys2Proof.ExceptionProofs

open Sys2Proof Sys2Proof.Machine Sys2Proof.Config Sys2Proof.StateProofs Sys2Proof.ReducerProofs

variable {l : Layer} {above : List Layer} {n x : Node} {i k : Nat}

/-! ## The reference operations -/

theorem hash_failed {ok : Bool} (h : ok = false) (a b : Node) : Machine.hash ok a b = .error .internal := by
  subst h
  rfl

/-- PUSH at a full slot (rules R122, R214). -/
theorem push_full_failed {ok : Bool} (hok : ok = false) (h : l.slot = some x) :
    push ok i (l :: above) n = .error .internal := by
  simp only [push, h, hash_failed hok]

/-- CLOSE below the highest layer with a full slot (rules R126, R214). -/
theorem close_pads_failed {ok : Bool} (hok : ok = false) (hh : highestBelow above = false) (h : l.slot = some x)
    (hi : i < towerEntries) : close ok (k + 1) i (l :: above) = .error .internal := by
  simp only [close, hh, Bool.false_eq_true, if_false, h, readTower_eq hi, hash_failed hok]

/-- CLOSE below the highest layer with an empty slot fails as the layer above does (rule R128). -/
theorem close_passes_error {ok : Bool} {e : Stop} (hh : highestBelow above = false) (h : l.slot = none)
    (hc : close ok k (i + 1) above = .error e) : close ok (k + 1) i (l :: above) = .error e := by
  simp only [close, hh, Bool.false_eq_true, if_false, h, hc]

/-! ## The two tokens -/

variable {s : State} {m : Layer}

/-- LAYER_NODE at a full slot, in both implementations (rules R122, R140, R214). -/
theorem exec_layerNode_failed (hf : s.fatal = false) (hsha : s.shaOk = false) (hl : s.core.layers[s.sel.val]? = some l)
    (hm : s.core.layers[s.sel.val + 1]? = some m) (hslot : l.slot = some x)
    (hroom : s.params.fused = true ∨ m.q.length < s.params.fifoDepth) :
    exec (.layerNode n) s = .next (internalFault s) := by
  cases hfused : s.params.fused with
  | true =>
    rw [exec_layerNode_fused hf hfused, pushAt_popped_error hl (push_full_failed hsha hslot)]
    rfl
  | false =>
    rw [exec_layerNode_agent hf hfused]
    simp only [Core.agentNode, hl, hslot, hm, if_pos (hroom.resolve_left (by simp [hfused])), hash_failed hsha]
    rfl

/-- LAYER_CLOSE that pads, in both implementations (rules R126, R140, R214). -/
theorem exec_layerClose_failed (hf : s.fatal = false) (hsha : s.shaOk = false) (hlen : s.core.layers.length = 32)
    (hl : s.core.layers[s.sel.val]? = some l) (hm : s.core.layers[s.sel.val + 1]? = some m) (hslot : l.slot = some x)
    (hactive : m.active = true)
    (hroom : s.params.fused = true ∨ m.q.length + padRoom s.params.fifoDepth ≤ s.params.fifoDepth) :
    exec .layerClose s = .next (internalFault s) := by
  have hbelow := not_highestBelow_drop hm hactive
  have htower : s.sel.val < towerEntries := by
    obtain ⟨hlt, -⟩ := List.getElem?_eq_some_iff.1 hm
    unfold towerEntries
    omega
  cases hfused : s.params.fused with
  | true =>
    rw [exec_layerClose_fused hf hfused, closeAt_popped_error hl (close_pads_failed hsha hbelow hslot htower)]
    rfl
  | false =>
    rw [exec_layerClose_agent hf hfused]
    simp only [Core.agentClose, hl, hbelow, Bool.false_eq_true, if_false, hm, hslot,
      if_pos (hroom.resolve_left (by simp [hfused])), readTower_eq htower, hash_failed hsha]
    rfl

/-- Settles O32: the layer's NodeHash fails in either implementation, and `raises_internalFault` says what follows. -/
theorem layerHashOnAFailedEngineIsFatal : Obligations.LayerHashOnAFailedEngineIsFatal := by
  intro s l m n x hf hsha hlen hl hm hslot
  refine ⟨fun hroom => ?_, fun hactive hroom => ?_⟩
  · rw [exec_layerNode_failed hf hsha hl hm hslot hroom]
    exact raises_internalFault s
  · rw [exec_layerClose_failed hf hsha hlen hl hm hslot hactive hroom]
    exact raises_internalFault s

end Sys2Proof.ExceptionProofs
end

section
/-! PROOFS. Under FATAL operand bytes are discarded, and the command is answered `09` after the last of them (rules R73, R77,
R215). -/

namespace Sys2Proof.ExceptionProofs

open Sys2Proof Sys2Proof.Machine Sys2Proof.Config Sys2Proof.StateProofs Sys2Proof.MemoryProofs Sys2Proof.EncodingProofs
open Sys2Proof.AccumulatorProofs Sys2Proof.ExtendProofs

variable {s t : State} {bs rest : List Byte} {len : Arg}

/-! ## Discarding operand bytes -/

/-- The command in progress in `t` discards its operand bytes, and bytes of the operand of this phase are still to come (rules R74,
R75, R77). -/
structure Skipping (t : State) : Prop where
  phase : t.parser.phase ≠ .cmd
  job : t.job = []
  drop : t.parser.drop = true
  rem : t.parser.rem ≠ 0#56

theorem Skipping.wantsOperand (h : Skipping t) : t.wantsOperand = true := (wantsOperand_iff t).2 ⟨h.phase, h.job⟩

/-- What follows the last byte of an operand that is discarded: EXTEND's next operand, or the end of the command (rules R74, R75,
R77). -/
def afterOperand : Phase → State → State
  | .extC => enterPhase .extS 8#56
  | .extS => enterPhase .extT 8#56
  | .cmd => endDropped
  | .payload => endDropped
  | .extT => endDropped

/-- A discarded operand byte is counted only (rules R74, R75, R77). -/
theorem operandByte_skipped (b : Byte) (h : Skipping t) :
    operandByte b t =
      .ok (if t.parser.rem - 1#56 = 0#56 then afterOperand t.parser.phase (countDown t) else countDown t) := by
  have hcount : stageC b t = countDown t ∧ stageS b t = countDown t ∧ stageT b t = countDown t := by
    simp only [stageC, stageS, stageT, h.drop, Bool.true_or, if_true, countDown, and_self]
  obtain ⟨hC, hS, hT⟩ := hcount
  unfold operandByte
  cases hp : t.parser.phase with
  | cmd => exact absurd hp h.phase
  | payload => exact payloadByte_dropped b h.drop
  | extC => rw [extCByte_eq, hC]; rfl
  | extS => rw [extSByte_eq, hS]; rfl
  | extT =>
    rw [extTByte_eq, hT, if_pos h.drop]
    simp only [apply_ite Except.ok]
    rfl

/-- `REM` of `XS` and of `XT` before their first byte (rule R75). -/
theorem sizeRem_ne_zero : (8#56 : Arg) ≠ 0#56 := by decide

/-- `t` after the last byte of its operand. -/
def exhausted (t : State) : State := enterPhase t.parser.phase 0#56 t

/-- An operand that is discarded, byte by byte. -/
theorem feed_skipped (h : Skipping t) (hbs : bs.length = t.parser.rem.toNat) :
    feed (bs ++ rest) t = feed rest (afterOperand t.parser.phase (exhausted t)) := by
  induction bs generalizing t with
  | nil => exact absurd (BitVec.eq_of_toNat_eq hbs.symm) h.rem
  | cons b bs ih =>
    rw [List.length_cons] at hbs
    have hrem := h.rem
    have hless : bs.length = (t.parser.rem - 1#56).toNat := by bv_omega
    rw [List.cons_append, feed_cons_of_ok h.wantsOperand (operandByte_skipped b h)]
    by_cases hlast : t.parser.rem - 1#56 = 0#56
    · have hcount : countDown t = exhausted t := by rw [countDown, hlast]; rfl
      obtain rfl : bs = [] := List.length_eq_zero_iff.1 (by rw [hless, hlast]; rfl)
      rw [if_pos hlast, hcount, List.nil_append]
    · rw [if_neg hlast]
      exact ih (t := countDown t) ⟨h.phase, h.job, h.drop, hlast⟩ hless

/-! ## The answer -/

/-- `t` with the answer to a command under FATAL, and `rest` left on offer (rules R29, R215). -/
def answeredFatal (rest : List Byte) (t : State) : State :=
  { t with
    parser := { t.parser.next with rem := 0#56 }, rspq := t.rspq ++ [[0x09#8, t.fatalCause]], input := rest }

/-- The last operand byte of a command under FATAL is followed by the answer (rules R77, R215). -/
theorem feed_endDropped (hf : t.fatal = true) : feed rest (endDropped (exhausted t)) = .ok (answeredFatal rest t) := by
  have hend : endDropped (exhausted t) = fatalReply (exhausted t) := if_pos hf
  rw [hend, feed_idle rfl]
  rfl

/-- `XS` and `XT` of an EXTEND under FATAL (rules R75, R77, R215). -/
theorem feed_sizes_fatal (hf : t.fatal = true) (h : Skipping t) (hp : t.parser.phase = .extS) (hrem : t.parser.rem = 8#56)
    (hbs : bs.length = 16) : feed (bs ++ rest) t = .ok (answeredFatal rest t) := by
  have hsource : (bs.take 8).length = t.parser.rem.toNat := by
    rw [hrem, List.length_take, hbs]
    rfl
  have hskip : Skipping (enterPhase .extT 8#56 (exhausted t)) := ⟨nofun, h.job, h.drop, sizeRem_ne_zero⟩
  have htarget : (bs.drop 8).length = (enterPhase .extT 8#56 (exhausted t)).parser.rem.toNat := by
    rw [List.length_drop, hbs]
    rfl
  rw [← List.take_append_drop 8 bs, List.append_assoc, feed_skipped h hsource, hp]
  exact (feed_skipped hskip htarget).trans (feed_endDropped hf)

/-- The operands of an EXTEND under FATAL (rules R75, R77, R215). -/
theorem feed_extend_fatal (clen : Arg) (hf : s.fatal = true) (hbs : bs.length = clen.toNat + 16) :
    feed (bs ++ rest) (startExtend clen s) = .ok (answeredFatal rest (startExtend clen s)) := by
  rw [startExtend_eq]
  split
  · next hzero =>
    subst hzero
    exact feed_sizes_fatal hf ⟨nofun, rfl, hf, sizeRem_ne_zero⟩ rfl rfl hbs
  · next hne =>
    have hskip : Skipping (receivingC s clen []) := ⟨nofun, rfl, hf, by simpa [receivingC, staging] using hne⟩
    have hC : (bs.take clen.toNat).length = (receivingC s clen []).parser.rem.toNat := by
      have hall : (receivingC s clen []).parser.rem = clen := BitVec.sub_zero clen
      rw [hall, List.length_take, hbs]
      omega
    rw [← List.take_append_drop clen.toNat bs, List.append_assoc, feed_skipped hskip hC]
    exact feed_sizes_fatal hf ⟨nofun, rfl, hf, sizeRem_ne_zero⟩ rfl rfl (by rw [List.length_drop, hbs]; omega)

/-! ## The commands -/

/-- The payload of a WRITE under FATAL, or what is left of it (rules R74, R77, R215). -/
theorem feed_payload_fatal {n : Nat} (hf : s.fatal = true) (hne : bs ≠ []) (hbs : n + bs.length = len.toNat) :
    feed (bs ++ rest) (discarding s len n) = .ok (answeredFatal rest { s with job := [] }) := by
  have hpos := List.length_pos_iff.2 hne
  have hskip : Skipping (discarding s len n) := ⟨nofun, rfl, rfl, rem_ne_zero (by omega)⟩
  have hrem : bs.length = (len - BitVec.ofNat 56 n).toNat := by bv_omega
  rw [feed_skipped hskip hrem]
  exact feed_endDropped hf

/-- WRITE under FATAL (rules R74, R77, R215). -/
theorem exec_write_fatal (len : Arg) (hf : s.fatal = true) (hinput : s.input = bs ++ rest) (hbs : bs.length = len.toNat) :
    exec (.write len) s = .next (answeredFatal rest { s with job := [] }) := by
  have hstart : startWrite len s = discarding s len 0 := by
    rw [startWrite_discards (by rw [hf, Bool.true_or])]
    simp only [discarding, BitVec.sub_zero]
    rfl
  show execWrite len s = _
  unfold execWrite
  simp only
  rw [hstart]
  split
  · next hzero =>
    subst hzero
    obtain rfl : bs = [] := List.length_eq_zero_iff.1 hbs
    have hend : endDropped (discarding s 0#56 0) = fatalReply (discarding s 0#56 0) := if_pos hf
    rw [hend, ← show s.input = rest from hinput]
    rfl
  · next hne =>
    have hbsne : bs ≠ [] := by
      rintro rfl
      exact hne (BitVec.eq_of_toNat_eq hbs.symm)
    show conclude (feed s.input _) = _
    rw [hinput, feed_payload_fatal hf hbsne (by omega)]
    rfl

/-- EXTEND under FATAL (rules R75, R77, R215). -/
theorem exec_extend_fatal (clen : Arg) (hf : s.fatal = true) (hinput : s.input = bs ++ rest)
    (hbs : bs.length = clen.toNat + 16) : exec (.extend clen) s = .next (answeredFatal rest (startExtend clen s)) := by
  have hoffer : (startExtend clen s).input = s.input := by
    rw [startExtend_eq]
    split
    · rfl
    · rfl
  show conclude (feed (startExtend clen s).input (startExtend clen s)) = _
  rw [hoffer, hinput, feed_extend_fatal clen hf hbs]
  rfl

/-- A command without operand bytes under FATAL (rule R215). -/
theorem answered_of_fatal (hf : s.fatal = true) (r : Result) : (if s.fatal then .next (fatalReply s) else r) = .next (fatalReply s) :=
  if_pos hf

/-- A next state that differs from `s` by the answer `09` and the cause, the bytes taken, and the parser, which is at the first byte of
a command word (rules R29, R215). -/
def OnlyAnswers (s : State) (rest : List Byte) (o : Result) : Prop :=
  ∃ q : Parser, q.phase = .cmd ∧ q.cwbuf = [] ∧ q.cmd = none ∧ q.saved = none ∧ q.drop = false ∧
    o = .next { s with parser := q, rspq := s.rspq ++ [[0x09#8, s.fatalCause]], input := rest }

theorem onlyAnswers_fatalReply (hinput : s.input = rest) : OnlyAnswers s rest (.next (fatalReply s)) := by
  subst hinput
  exact ⟨s.parser.next, rfl, rfl, rfl, rfl, rfl, rfl⟩

/-- A command with operand bytes begins by changing the parser only. -/
theorem onlyAnswers_answeredFatal {p : Parser} (hjob : s.job = []) :
    OnlyAnswers s rest (.next (answeredFatal rest { s with job := [], parser := p })) :=
  ⟨{ p.next with rem := 0#56 }, rfl, rfl, rfl, rfl, rfl, by rw [answeredFatal, ← hjob]⟩

/-- Settles O49: WRITE and EXTEND discard their operand bytes first (`exec_write_fatal`, `exec_extend_fatal`), the other commands have
none (`answered_of_fatal`). -/
theorem fatalAnswersEveryCommand : Obligations.FatalAnswersEveryCommand := by
  intro s i w ops rest hf hjob hi hinput hlen
  have answers (hnone : ops.length = 0) (r : Result) : OnlyAnswers s rest (if s.fatal then .next (fatalReply s) else r) := by
    obtain rfl : ops = [] := List.length_eq_zero_iff.1 hnone
    rw [answered_of_fatal hf]
    exact onlyAnswers_fatalReply hinput
  cases i with
  | write len =>
    rw [exec_write_fatal len hf hinput hlen]
    exact onlyAnswers_answeredFatal hjob
  | extend clen =>
    have hstart : startExtend clen s = { s with job := [], parser := (startExtend clen s).parser } := by
      rw [startExtend_eq]
      split
      · rfl
      · rfl
    rw [exec_extend_fatal clen hf hinput hlen, hstart]
    exact onlyAnswers_answeredFatal hjob
  | digest => exact answers hlen _
  | sum => exact answers hlen _
  | reset => exact answers hlen _
  | blockSize => exact answers hlen _
  | digestSize => exact answers hlen _
  | layerNode n => cases hi
  | layerClose => cases hi

end Sys2Proof.ExceptionProofs
end

section
/-! PROOFS. A command that needs a failed SHA-256 engine (rules R12, R214; log entries 6 and 7). -/

namespace Sys2Proof.ExceptionProofs

open Sys2Proof Sys2Proof.Machine Sys2Proof.Config Sys2Proof.StateProofs Sys2Proof.MemoryProofs Sys2Proof.EncodingProofs
open Sys2Proof.ReducerProofs Sys2Proof.AccumulatorProofs Sys2Proof.ExtendProofs

variable {s : State} {c : Core} {p bs d rest : List Byte} {len : Arg}

/-! ## EXTEND -/

/-- The first step of the extension loop fails (rules R195, R214). -/
theorem extendLoop_failed {ok : Bool} {n k : Nat} (hok : ok = false) (hk : k ≤ 35) (x : Node) :
    extendLoop ok (n + 1) k x = .error .internal := by
  have htower : readTower (k - 5) = .ok (tower (k - 5)) := readTower_eq (by unfold towerEntries; omega)
  simp only [extendLoop, htower, hash_failed hok]

theorem extendValue_failed {ok : Bool} {a b : Nat} (hok : ok = false) (hab : a < b) (hb : b ≤ 36) (x : Node) :
    extendValue ok x (BitVec.ofNat 64 (2 ^ a)) (BitVec.ofNat 64 (2 ^ b)) = .error .internal := by
  obtain ⟨k, rfl⟩ := Nat.exists_eq_add_of_lt hab
  rw [extendValue, log2_size hb, log2_size (by omega), show a + k + 1 - a = k + 1 by omega]
  exact extendLoop_failed hok (by omega) x

/-- An EXTEND whose checks pass fails as its value does (rules R193, R214). -/
theorem extendRun_fails {clen : Arg} {src tgt : Size} {e : Stop} (hvalid : validate clen src tgt = none) (hlen : p.length = 32)
    (hvalue : extendValue s.shaOk (nodeOfBytes p) src tgt = .error e) :
    extendRun (loaded s clen p src tgt) = .error e := by
  obtain ⟨hxs, hxt, hxclen⟩ := loaded_operands s clen p src tgt
  have hxc : (loaded s clen p src tgt).xcNode = .ok (nodeOfBytes p) := by
    have hall : p.take 32 = p := List.take_of_length_le (Nat.le_of_eq hlen)
    rw [loaded, hall]
    exact if_pos hlen
  have hsha : (loaded s clen p src tgt).shaOk = s.shaOk := rfl
  simp only [extendRun, hxs, hxt, hxclen, hvalid, hxc, hsha, hvalue]

/-- EXTEND to a larger size (rules R193, R195, R214). -/
theorem exec_extend_failed {a b : Nat} (hf : s.fatal = false) (hsha : s.shaOk = false) (hlen : p.length = 32) (hmin : 7 ≤ a)
    (hab : a < b) (hb : b ≤ 36)
    (hinput : s.input = p ++ le64 (BitVec.ofNat 64 (2 ^ a)) ++ le64 (BitVec.ofNat 64 (2 ^ b)) ++ rest) :
    exec (.extend 32#56) s = .next { s with
      fatal := true, fatalCause := 0x0A#8, parser := { s.parser.next with rem := 0#56, xclen := 32#56 }, job := [],
      rspq := s.rspq ++ [[0x09#8, 0x0A#8]], input := rest } := by
  have hrun := extendRun_fails (s := s) (validate_legal hmin (Nat.le_of_lt hab) hb) hlen (extendValue_failed hsha hab hb _)
  rw [exec_extend_received hf hlen hinput (by rw [executed, hrun]; rfl), feed_idle rfl]
  rfl

/-! ## Leaves in a fused block -/

/-- The second of two leaves needs NodeHash (rules R121, R122, R214). -/
theorem pushAll_failed {ok : Bool} {l : Layer} {ls : List Layer} {leaves : List Node} (hok : ok = false)
    (hlayers : c.layers = l :: ls) (hslot : l.slot = none) (hleaves : 2 ≤ leaves.length) :
    pushAll ok leaves c = .error .internal := by
  match leaves, hleaves with
  | x :: y :: leaves, _ =>
    have hfirst : c.pushAt ok 0 x = .ok { c with layers := { l with slot := some x } :: ls } := by
      unfold Core.pushAt
      rw [List.drop_zero, hlayers, push_empty hslot]
      rfl
    have hsecond : ({ c with layers := { l with slot := some x } :: ls } : Core).pushAt ok 0 y = .error .internal := by
      unfold Core.pushAt
      rw [List.drop_zero, push_full_failed hok rfl]
    rw [pushAll_cons, hfirst]
    show (pushAll ok (y :: leaves) { c with layers := { l with slot := some x } :: ls }) = _
    rw [pushAll_cons, hsecond]
    rfl

/-- After whole quads the slot of layer 0 is empty (rules R27, R105). -/
theorem streamLayer_zero_slot (nonempty : Bool) (n : Nat) (q : List Byte) :
    (streamLayer nonempty (quadLeaves n q) 0).slot = none :=
  streamLayer_slot_empty (q := 2 * n) (by rw [quadLeaves_length]; omega)

theorem streamCore_layers_cons (p : List Byte) :
    ∃ l ls, (streamCore p).layers = l :: ls ∧ l.slot = none :=
  ⟨_, _, rfl, streamLayer_zero_slot _ _ _⟩

/-! ## WRITE -/

/-- A payload byte whose leaves fail (rules R152, R214). -/
theorem operandByte_failed {b : Byte} {n : Nat} (hfused : s.params.fused = true)
    (h : fusedByte s.shaOk c b = .error .internal) :
    operandByte b (absorbing s len n c) = .ok (internalFault (absorbing s len (n + 1) c)) := by
  have hbyte : operandByte b (absorbing s len n c) = payloadByte b (absorbing s len n c) := rfl
  have hcore : (absorbing s len n c).core = c := rfl
  have hcount : countDown (absorbing s len n c) = absorbing s len (n + 1) c := by
    rw [countDown, show (absorbing s len n c).parser.rem - 1#56 = len - BitVec.ofNat 56 (n + 1) from rem_succ len n]
    rfl
  rw [hbyte, payloadByte_absorbed b rfl, hcount, hcore]
  rw [fusedByte] at h
  cases habsorb : c.absorb b with
  | error e =>
    rw [habsorb] at h
    obtain rfl : e = .internal := Except.error.inj h
    rfl
  | ok x =>
    rw [habsorb] at h
    have hpush : pushAll s.shaOk x.2 x.1 = .error .internal := h
    simp only [payloadJob]
    rw [runOps_pushAll (by exact hfused)]
    show trap _ ((pushAll s.shaOk x.2 x.1).bind _) = _
    rw [hpush]
    rfl

/-- The internal fault of a WRITE: what is left of its payload is discarded, and the answer follows (rules R12, R77, R214). -/
theorem feed_write_failed {n : Nat} (hn : n + bs.length = len.toNat) :
    feed (bs ++ rest) (internalFault (absorbing s len n c)) =
      .ok (answeredFatal rest { enterFatal internalFaultCode s with job := [] }) := by
  obtain ⟨-, hended, hdue⟩ := raises_internalFault (absorbing s len n c)
  by_cases hbs : bs = []
  · subst hbs
    obtain rfl : n = len.toNat := hn
    have hrem : (absorbing s len len.toNat c).parser.rem = 0#56 := rem_last len
    rw [Host.Outcome.next.inj (hended _ rfl (.inr hrem)), List.nil_append, feed_idle rfl, answeredFatal, ← rem_last len]
    rfl
  · have hpos := List.length_pos_iff.2 hbs
    have hfault : internalFault (absorbing s len n c) = discarding (enterFatal internalFaultCode s) len n :=
      Host.Outcome.next.inj (hdue _ rfl nofun (rem_ne_zero (by omega)))
    rw [hfault, feed_payload_fatal rfl hbs hn]

/-- WRITE of a payload that fails at a byte (rules R12, R77, R214). -/
theorem exec_write_failed {b : Byte} {d1 d2 : List Byte} (hf : s.fatal = false) (hfused : s.params.fused = true)
    (hfits : s.core.total.toNat + len.toNat ≤ maxPiecePayload) (hinput : s.input = d1 ++ b :: d2 ++ rest)
    (hlen : (d1 ++ b :: d2).length = len.toNat) (htakes : TakesBytes s d1 s.core.startLayer0 c)
    (hfail : fusedByte s.shaOk c b = .error .internal) :
    exec (.write len) s = .next (answeredFatal rest { enterFatal internalFaultCode s with job := [] }) := by
  rw [List.length_append, List.length_cons] at hlen
  have hne : len ≠ 0#56 := by
    rintro rfl
    exact absurd hlen (Nat.succ_ne_zero _)
  have hpart := htakes.feed_part (len := len) (n := 0) (by omega)
  have hpieces := operandBytesMayComeInPieces d1 (b :: (d2 ++ rest)) _ _ hpart
  rw [exec_write_feeds hf hfits hne, hinput, List.append_assoc, List.cons_append, hpieces]
  show conclude (feed (b :: (d2 ++ rest)) (offering [] _)) = _
  rw [feed_offering, feed_cons_of_ok rfl (operandByte_failed hfused hfail), Nat.zero_add, feed_write_failed (by omega)]
  rfl

/-- The byte that completes a quad after the payload `p` (rules R27, R152, R214). -/
theorem fusedByte_failed {ok : Bool} {b : Byte} (hok : ok = false) (hd : p.length % 127 + d.length = 126) :
    fusedByte ok (buffering (streamCore p) d) b = .error .internal := by
  obtain ⟨l, ls, hlayers, hslot⟩ := streamCore_layers_cons p
  have hcarry : (buffering (streamCore p) d).CarryOk :=
    buffering_carryOk (streamCore_carryOk p) (by show p.length % 127 + d.length < 127; omega)
  have hcompletes := absorb_completes hcarry b (by show p.length % 127 + d.length + 1 = 127; omega)
  have hstarted : (buffering (streamCore p) d).clearCarry.layers = { l with active := true } :: ls := by
    simp only [clearCarry_layers, buffering, hlayers]
    rfl
  rw [fusedByte, hcompletes]
  exact pushAll_failed hok hstarted hslot (by rw [expandLeaves_length]; decide)

/-- WRITE that completes a quad (rules R12, R152, R214): the bytes before it are buffered, its last byte fails, and what is left is
discarded. -/
theorem exec_write_quad_failed (hf : s.fatal = false) (hsha : s.shaOk = false) (hfused : s.params.fused = true)
    (hcore : s.core = streamCore p) (hinput : s.input = d ++ rest) (hlen : d.length = len.toNat)
    (hfits : p.length + d.length ≤ maxPiecePayload) (hquad : p.length / 127 < (p.length + d.length) / 127) :
    exec (.write len) s = .next (answeredFatal rest { enterFatal internalFaultCode s with job := [] }) := by
  have hmany : 126 - p.length % 127 < d.length := by omega
  obtain ⟨d1, b, d2, rfl, hd1⟩ : ∃ d1 b d2, d = d1 ++ b :: d2 ∧ d1.length = 126 - p.length % 127 :=
    ⟨_, _, _, (List.take_append_drop _ d).symm.trans (by rw [List.drop_eq_getElem_cons hmany]),
      List.length_take_of_le (Nat.le_of_lt hmany)⟩
  have htakes : TakesBytes s d1 s.core.startLayer0 (buffering (streamCore p) d1) := by
    rw [hcore, buffering_nil]
    refine takesBytes_along (core := buffering (streamCore p)) (bound := d1.length)
      (fun d' b' hd' => takesByte_buffering (streamCore_carryOk p) ?_) d1 [] (by simp)
    show p.length % 127 + d'.length + 1 < 127
    omega
  refine exec_write_failed hf hfused ?_ hinput hlen htakes (fusedByte_failed hsha (by omega))
  rw [hcore, streamCore_total (by omega)]
  omega

/-! ## DIGEST and SUM -/

/-- Subtrees of height `i` whose number is not a power of two reach the layer above, which is not the last one of all. -/
theorem layer_above_reached {i q n : Nat} (hn : n = 2 ^ i * q) (hq : q ≠ 0) (hpow : ¬∃ j, q = 2 ^ j) (hfits : n ≤ 2 ^ 31) :
    2 ^ (i + 1) ≤ n ∧ i < 30 := by
  have hone : q ≠ 1 := fun h => hpow ⟨0, h⟩
  have htwo : q ≠ 2 := fun h => hpow ⟨1, h⟩
  have hless : 2 ^ (i + 1) < n := by
    rw [hn, pow_succ]
    exact Nat.mul_lt_mul_of_pos_left (by omega) (Nat.two_pow_pos i)
  have hi : i + 1 < 31 := (Nat.pow_lt_pow_iff_right (by decide)).1 (hless.trans_le hfits)
  exact ⟨Nat.le_of_lt hless, by omega⟩

/-- CLOSE of a number of leaves that is not a power of two needs a padding parent: at the lowest layer with a full slot, which is not
the highest (rules R126 to R128, R214). -/
theorem close_stream_failed {ok : Bool} {k i q : Nat} {xs : List Node} (hok : ok = false) (hlen : xs.length = 2 ^ i * q)
    (hq : q ≠ 0) (hpow : ¬∃ j, q = 2 ^ j) (hk : i + k = 32) (hfits : xs.length ≤ 2 ^ 31) :
    close ok k i (layersFrom i k xs) = .error .internal := by
  obtain ⟨hreached, hi⟩ := layer_above_reached hlen hq hpow hfits
  induction k generalizing i q with
  | zero => omega
  | succ k ih =>
    have hbelow : highestBelow (layersFrom (i + 1) k xs) = false := by
      obtain ⟨k, rfl⟩ := Nat.exists_eq_add_one_of_ne_zero (n := k) (by omega)
      simp [layersFrom_succ, highestBelow, streamLayer, hreached]
    rw [layersFrom_succ]
    obtain ⟨e, rfl | rfl⟩ := Nat.even_or_odd' q
    · have hlen' : xs.length = 2 ^ (i + 1) * e := by rw [hlen, pow_succ, Nat.mul_assoc]
      have he : e ≠ 0 := by omega
      have hpow' : ¬∃ j, e = 2 ^ j := fun ⟨j, hj⟩ => hpow ⟨j + 1, by rw [hj, pow_succ']⟩
      obtain ⟨hreached', hi'⟩ := layer_above_reached hlen' he hpow' hfits
      exact close_passes_error hbelow (streamLayer_slot_empty hlen) (ih hlen' he hpow' (by omega) hreached' hi')
    · exact close_pads_failed hok hbelow (streamLayer_slot_full hlen (by omega)) (by unfold towerEntries; omega)

/-- CLOSE of whole quads whose number is not a power of two (rules R105, R126, R214). -/
theorem closeAt_stream_failed {ok : Bool} (hok : ok = false) (hne : p ≠ []) (hmax : p.length ≤ maxPiecePayload)
    (hwhole : p.length % 127 = 0) (hpow : ¬∃ k, p.length = 127 * 2 ^ k)
    (hlayers : c.layers = (streamCore p).layers) : c.closeAt ok 0 = .error .internal := by
  have hpos := List.length_pos_iff.2 hne
  have hleaves : (quadLeaves (p.length / 127) p).length = 4 * (p.length / 127) := quadLeaves_length _ _
  have hfour : ¬∃ j, 4 * (p.length / 127) = 2 ^ j := by
    rintro ⟨j, hj⟩
    obtain _ | _ | j := j
    · omega
    · omega
    · exact hpow ⟨j, by rw [pow_add] at hj; omega⟩
  have hclose : close ok layerCount 0 (layersFrom 0 layerCount (quadLeaves (p.length / 127) p)) = .error .internal :=
    close_stream_failed hok (by rw [hleaves, pow_zero, Nat.one_mul]) (by omega) hfour rfl (by
      unfold maxPiecePayload at hmax
      omega)
  have hcount : (layersFrom 0 layerCount (quadLeaves (p.length / 127) p)).length = layerCount := by simp [layersFrom]
  unfold Core.closeAt
  rw [List.drop_zero, hlayers, streamCore_layers hne, hcount, hclose]

/-- DIGEST and SUM whose pushes or whose CLOSE fail (rules R12, R158, R214). -/
theorem exec_finalizer_failed {sized : Bool} {leaves : List Node} (hf : s.fatal = false) (hfused : s.params.fused = true)
    (henough : minPiecePayload ≤ s.core.total.toNat) (hpad : s.core.padQuad = .ok (c, leaves))
    (hfail : ((pushAll s.shaOk leaves c).bind fun c => c.closeAt s.shaOk 0) = .error .internal) :
    exec (finalizer sized) s = .next (internalFault (beginCommand none s)) := by
  have hrun : runOps (leaves.map SeqOp.push ++ [SeqOp.close, SeqOp.await sized]) (finalizing s c) = .error .internal := by
    rw [runOps_pushAll (by exact hfused)]
    show (pushAll s.shaOk leaves c).bind _ = _
    cases hpush : pushAll s.shaOk leaves c with
    | error e =>
      rw [hpush] at hfail
      obtain rfl : e = .internal := Except.error.inj hfail
      rfl
    | ok c1 =>
      rw [hpush] at hfail
      have hclose : c1.closeAt s.shaOk 0 = .error .internal := hfail
      have hop : runOp .close { finalizing s c with core := c1 } = .error .internal := by
        rw [runOp_close, if_pos (by exact hfused)]
        show stepped _ (c1.closeAt s.shaOk 0) = _
        rw [hclose]
        rfl
      show runOps [SeqOp.close, SeqOp.await sized] _ = _
      rw [runOps, hop]
  rw [exec_finalizer hf henough hpad, hrun]
  rfl

/-- DIGEST and SUM with a residue to push or a padding parent to make (rules R158, R214). -/
theorem exec_finalizer_stream_failed {sized : Bool} (hf : s.fatal = false) (hsha : s.shaOk = false)
    (hfused : s.params.fused = true) (hcore : s.core = streamCore p) (hmin : minPiecePayload ≤ p.length)
    (hmax : p.length ≤ maxPiecePayload) (hneeds : p.length % 127 ≠ 0 ∨ ¬∃ k, p.length = 127 * 2 ^ k) :
    exec (finalizer sized) s = .next (internalFault (beginCommand none s)) := by
  have henough : minPiecePayload ≤ s.core.total.toNat := by rwa [hcore, streamCore_total hmax]
  have hpad : s.core.padQuad = .ok ((streamCore p).clearCarry, residueLeaves (streamCore p)) := by
    rw [hcore]
    exact padQuad_residue (streamCore_carryOk p)
  refine exec_finalizer_failed hf hfused henough hpad ?_
  by_cases hwhole : p.length % 127 = 0
  · have hnone : residueLeaves (streamCore p) = [] := if_pos hwhole
    have hne : p ≠ [] := by
      rintro rfl
      exact absurd hmin (by decide)
    rw [hnone]
    exact closeAt_stream_failed hsha hne hmax hwhole (hneeds.resolve_left (not_not.2 hwhole)) rfl
  · have hsome : residueLeaves (streamCore p) = expandLeaves _ := if_neg hwhole
    obtain ⟨l, ls, hlayers, hslot⟩ := streamCore_layers_cons p
    rw [pushAll_failed hsha (by exact hlayers) hslot (by rw [hsome, expandLeaves_length]; decide)]
    rfl

/-- Settles O31, command by command: `exec_extend_failed`, `exec_write_quad_failed`, `exec_finalizer_stream_failed`. -/
theorem commandOnAFailedEngineIsFatal : Obligations.CommandOnAFailedEngineIsFatal := by
  intro s hf hsha
  refine ⟨fun c rest a b hlen hmin hab hb hinput => exec_extend_failed hf hsha hlen hmin hab hb hinput,
    fun p d rest len hfused hcore hinput hlen hfits hquad =>
      exec_write_quad_failed hf hsha hfused hcore hinput hlen hfits hquad,
    fun p i hfused hcore hmin hmax hneeds hi => ?_⟩
  obtain ⟨sized, rfl⟩ : ∃ sized, i = finalizer sized := by
    obtain rfl | rfl := hi
    · exact ⟨true, rfl⟩
    · exact ⟨false, rfl⟩
  exact exec_finalizer_stream_failed hf hsha hfused hcore hmin hmax hneeds

end Sys2Proof.ExceptionProofs
end
